-- ==== Sys2Proof/Word.lean ====
section
/-! DEFINITION. The word types of the KL8 and the type of sparse total maps (their operations stand in Machine/Sparse.lean). -/
namespace Sys2Proof

/-- A byte of memory. -/
abbrev Byte := BitVec 8

/-- One slot's element of a vector register (R68). -/
abbrev Word := BitVec 32

/-- A uniform register, an address, a logical thread index, a payload (R59, R68). -/
abbrev DWord := BitVec 64

/-- One mask register: one bit per slot (R64). -/
abbrev MaskBits := BitVec 1024

/-- A total map from numbers, held as the list of the keys whose value differs from the default, keys rising. -/
abbrev SMap (α : Type) := List (Nat × α)

end Sys2Proof
end

