-- ==== Sys2Proof/Config.lean ====
section
/-! DEFINITION. What an implementation fixes and the free values: every value the manual leaves open is one of these
opaque constants, applied to a counter of State or to the operands it depends on. Nothing in Lean can say what they are. -/
namespace Sys2Proof.Config

/-- Which of n colliding writers an ANY landing keeps (R166: chosen by arrival): an index, taken modulo n. -/
opaque anyWinner : Nat → Nat

/-- By how many reference clocks the clock has advanced when `tmrd` reads it (R245, order-sensitive by R399). -/
opaque clockAdvance : Nat → Nat

/-- The place in the spawn area that the token of a thread's n-th record names, in 64-byte units (R228 gives no allocation order;
R399 lets it depend on the thread's own course alone). -/
opaque recPlace : (lti : DWord) → (n : Nat) → Nat

/-- The generation of the first record of a core group's thread 0 (R228: GEN changes at each reuse, no first value is given). -/
opaque genBase : (group : Nat) → Nat

/-- Which of the bytes that one matrix command of a thread writes to one place remains (R331: the order of its own writes is not given;
R399 lets it depend on nothing else): an index, taken modulo their number. -/
opaque ownWriter : (lti : DWord) → (addr : Nat) → (bytes : List Byte) → Nat

/-- The frame of device memory from which a context's scoresheet stands (R402 gives its size alone). -/
opaque scoreFrame : (ctx : Nat) → Nat

/-- The victim die of a steal request (R390: a pseudo-random generator seeded at bring-up). -/
opaque stealVictim : Nat → Nat

/-- The payload's address part of `e.scope` reasons 0x0C, 0x0D and 0x10 (R190, R275 and R316 name no address), for a thread, a
program counter and a core step point. -/
opaque descriptorAddr : (lti pc stepc : DWord) → DWord

/-- Whether an I32 accumulation that leaves the range only inside a chunk records IOVF (R110: "partial sum" is not
defined below the chunk), for an accumulator and the products of a chunk. -/
opaque innerChunkOverflow : (acc : Int) → (products : List Int) → Bool

/-- Which of a slice's 16 bank units serves a line (R168, R368): a number, taken modulo 16. -/
opaque bankUnit : (line : Nat) → Nat

/-- Whether a patrol scrub finds a single-bit error in the word that it visits (R264, R377). -/
opaque scrubFinds : Nat → Bool

/-- Which of the phases in flight an error in shared hardware belongs to (R377): an index, taken modulo their number. -/
opaque hitPhase : Nat → Nat

/-- The device serial (R432). -/
opaque serial : BitVec 128

/-- The firmware version word of ID and of the report (Table 24-2, Table 24-8). -/
opaque firmwareVersion : BitVec 64

/-- The revision field of ID (Table 24-2). -/
opaque revision : BitVec 16

/-- Byte k of the XMSS-SHAKE256 signature of a report under the device identity key (R432; the key is not given). -/
opaque signatureByte : (leaf : Nat) → (report : List Byte) → (k : Nat) → Byte

/-- The k-th image of the module flash (R431, Table 24-6). -/
opaque image : Nat → List Byte

/-- Whether an image verifies against the fused public-key hash (R431; neither image nor key is given). -/
opaque imageVerifies : (k : Nat) → (image : List Byte) → Bool

/-- Whether a stage of the bring-up passes (Table 24-5). -/
opaque stagePasses : (occasion stage : Nat) → Bool

/-- Whether the array-die test finds a core failed (R2). -/
opaque coreFails : (occasion core : Nat) → Bool

/-- The package's number in its domain, and whether a package belongs to the domain, as the configuration that firmware
loads says (R439). -/
opaque packageNumber : Fin 1024
opaque inDomain : Fin 1024 → Bool

/-- The forwarding table that firmware builds (R439): the ports on a shortest path to a package, given the ports that are down.
Which of them with credit a packet takes (R440): an index, taken modulo their number. -/
opaque route : (down : List (Fin 18)) → Fin 1024 → List (Fin 18)
opaque portChoice : Nat → Nat

/-- ARG0 and ARG1 of an event record where the manual gives them no meaning, and the context of an event that concerns none
(Table in R429). -/
opaque eventArg : (occasion arg : Nat) → DWord
opaque eventCtx : Nat → Fin 64

/-- Which of the acts that can come next comes next (R76, R252, R399): an index, taken modulo their number. -/
opaque nextAct : (free clock : Nat) → Nat

/-- Whether a link of the package network is missing at a bring-up (R414): a link by its lower switch and the port there. -/
opaque linkFails : (occasion : Nat) → (link : Nat × Nat) → Bool

/-- The size that the host gives the BAR2 of a function after power-on: 2^(30 + n) bytes (Table 24-1). -/
opaque bar2Size : (occasion : Nat) → (f : Nat) → Fin 12

/-- How many single-bit errors the reads of a core have met and corrected since the last issue there (R264). -/
opaque readErrors : (clock core : Nat) → Nat

end Sys2Proof.Config
end

