-- ==== Sys2Proof/Machine/Sparse.lean ====
section
/-! DEFINITION. Operations on sparse total maps: a list of (key, value) pairs that lists the keys whose value is not the
default, keys strictly rising. `get` reads the default at an unlisted key; `set` keeps the form, and setting the default
removes the entry, so that equal maps are equal lists. -/
namespace Sys2Proof

/-- The value at a key. -/
def SMap.get {α : Type} (d : α) (m : SMap α) (k : Nat) : α :=
  match m with
  | [] => d
  | (j, v) :: r => if j = k then v else SMap.get d r k

/-- The map without a key. -/
def SMap.del {α : Type} (m : SMap α) (k : Nat) : SMap α :=
  match m with
  | [] => []
  | (j, v) :: r => if j = k then SMap.del r k else (j, v) :: SMap.del r k

/-- The map with one more entry, before the first greater key. -/
def SMap.ins {α : Type} (m : SMap α) (k : Nat) (v : α) : SMap α :=
  match m with
  | [] => [(k, v)]
  | (j, w) :: r => if k < j then (k, v) :: (j, w) :: r else (j, w) :: SMap.ins r k v

/-- The map with the value at a key replaced, kept in canonical form. -/
def SMap.set {α : Type} [DecidableEq α] (d : α) (m : SMap α) (k : Nat) (v : α) : SMap α :=
  if v = d then m.del k else (m.del k).ins k v

/-- The map with the value at a key replaced; an entry may hold the default. -/
def SMap.put {α : Type} (m : SMap α) (k : Nat) (v : α) : SMap α := (m.del k).ins k v

/-- Canonical form: keys strictly rising from `lo` on, no listed default. -/
def SMap.wfFrom {α : Type} [DecidableEq α] (d : α) : Nat → SMap α → Bool
  | _, [] => true
  | lo, (k, v) :: r => decide (lo ≤ k) && !decide (v = d) && SMap.wfFrom d (k + 1) r

def SMap.wf {α : Type} [DecidableEq α] (d : α) (m : SMap α) : Bool := SMap.wfFrom d 0 m

end Sys2Proof
end

