-- ==== Sys2Proof/Syntax.lean ====
section
/-! DEFINITION. The syntax of Xanow instructions (02 to 21) and of the machine's events (the rows of the opcode table
that carry no encoding): one constructor of `Instr` per row of spec/opcode_table.json. -/
namespace Sys2Proof

/-! ## Names of registers and field codes -/

/-- A vector register number (R16, Table 2-7; the launch's `.vregs` limits it further). -/
abbrev VReg := Fin 1024
/-- A uniform register number s0 to s95. -/
abbrev UReg := Fin 96
/-- A mask register number m0 to m15. -/
abbrev MReg := Fin 16
/-- A condition bit number q0 to q7. -/
abbrev QReg := Fin 8
/-- An expansion descriptor number x0 to x15. -/
abbrev XReg := Fin 16

/-- Format tags (Table 3-7). As an FA code, `none` is code 0, "tagged" (R46). -/
inductive Tag where
  | none | i32 | n32 | i64 | n64 | f32 | f64 | bf16x2 | f16x2 | k8tx4 | i8x4 | f4x8 | i4x8 | blk | tok
  deriving DecidableEq, Repr, Inhabited

/-- Rounding codes of MOD (R47). -/
inductive Rnd where
  | dyn | rne | rtz | rup | rdn | rna | sr
  deriving DecidableEq, Repr, Inhabited

/-- Compare codes of MOD (R47). -/
inductive Cond where
  | eq | ne | lt | le | gt | ge | un | or
  deriving DecidableEq, Repr, Inhabited

/-- Write rules (R48). -/
inductive Rule where
  | fault | low | any | sum | sumin
  deriving DecidableEq, Repr, Inhabited

/-- The index part of a memory operand (R17, R44). -/
inductive Idx where
  | absent
  /-- a 32-bit index register -/
  | v32 (r : VReg)
  /-- a 64-bit index pair -/
  | v64 (r : VReg)
  deriving DecidableEq, Repr, Inhabited

/-- A memory operand `[base + index + offset]` (R17). -/
structure Addr where
  base : Option UReg
  ix : Idx
  off : BitVec 32
  deriving DecidableEq, Repr, Inhabited

/-- A shift amount: a register or an immediate 0 to 63 (R122). -/
inductive Amt where
  | reg (r : VReg) | imm (n : Fin 64)
  deriving DecidableEq, Repr, Inhabited

/-- A third source: a register, or IMM32 (R118, R143). -/
inductive Src32 where
  | reg (r : VReg) | imm (w : BitVec 32)
  deriving DecidableEq, Repr, Inhabited

/-- Position and length of a bit field (R124). -/
inductive Fld where
  | imm (p : Fin 64) (l : Fin 65) | reg (c : VReg)
  deriving DecidableEq, Repr, Inhabited

/-- A second uniform source: a register, or sext(IMM21) (R135). -/
inductive USrc where
  | reg (r : UReg) | imm (w : BitVec 21)
  deriving DecidableEq, Repr, Inhabited

/-- Access size of `ld` and `st` (R173). -/
inductive Sub where
  | full | b8 | b16
  deriving DecidableEq, Repr, Inhabited

/-- A live range, first and last register (R185, R229); absent under NLR. -/
abbrev Range := Option (VReg × VReg)

/-! ## Operand shapes -/

/-- Only the execution mask. -/
structure Bare where
  msk : MReg
  deriving DecidableEq, Repr, Inhabited

structure VArith where
  msk : MReg
  d : VReg
  a : VReg
  b : VReg
  fa : Tag
  sat : Bool
  om : MReg
  deriving DecidableEq, Repr, Inhabited

structure VArith1 where
  msk : MReg
  d : VReg
  a : VReg
  fa : Tag
  sat : Bool
  om : MReg
  deriving DecidableEq, Repr, Inhabited

structure VBin where
  msk : MReg
  d : VReg
  a : VReg
  b : VReg
  fa : Tag
  deriving DecidableEq, Repr, Inhabited

structure VUn where
  msk : MReg
  d : VReg
  a : VReg
  fa : Tag
  deriving DecidableEq, Repr, Inhabited

structure VShift where
  msk : MReg
  d : VReg
  a : VReg
  amt : Amt
  fa : Tag
  deriving DecidableEq, Repr, Inhabited

structure VMad where
  msk : MReg
  d : VReg
  a : VReg
  b : VReg
  c : Src32
  fa : Tag
  sat : Bool
  om : MReg
  deriving DecidableEq, Repr, Inhabited

structure VBfe where
  msk : MReg
  d : VReg
  a : VReg
  fld : Fld
  fa : Tag
  deriving DecidableEq, Repr, Inhabited

structure VBfi where
  msk : MReg
  d : VReg
  a : VReg
  b : VReg
  fld : Fld
  fa : Tag
  deriving DecidableEq, Repr, Inhabited

structure VCmp where
  msk : MReg
  d : MReg
  a : VReg
  b : VReg
  fa : Tag
  cc : Cond
  z : Bool
  deriving DecidableEq, Repr, Inhabited

structure VSel where
  msk : MReg
  d : VReg
  a : VReg
  b : VReg
  fa : Tag
  sm : MReg
  deriving DecidableEq, Repr, Inhabited

structure VMovi where
  msk : MReg
  d : VReg
  fa : Tag
  imm : BitVec 32
  deriving DecidableEq, Repr, Inhabited

structure VAddc where
  msk : MReg
  d : VReg
  a : VReg
  b : VReg
  fa : Tag
  bor : Bool
  co : MReg
  ci : MReg
  deriving DecidableEq, Repr, Inhabited

structure VCvti where
  msk : MReg
  d : VReg
  a : VReg
  tgt : Tag
  om : MReg
  deriving DecidableEq, Repr, Inhabited

structure MBin where
  msk : MReg
  d : MReg
  a : MReg
  b : MReg
  deriving DecidableEq, Repr, Inhabited

structure MUn where
  msk : MReg
  d : MReg
  a : MReg
  deriving DecidableEq, Repr, Inhabited

structure MSet where
  msk : MReg
  d : MReg
  val : Bool
  deriving DecidableEq, Repr, Inhabited

structure MFrom where
  msk : MReg
  d : MReg
  a : VReg
  deriving DecidableEq, Repr, Inhabited

structure MTo where
  msk : MReg
  d : VReg
  a : MReg
  ones : Bool
  deriving DecidableEq, Repr, Inhabited

structure MCount where
  msk : MReg
  d : UReg
  a : MReg
  deriving DecidableEq, Repr, Inhabited

structure SBin where
  msk : MReg
  d : UReg
  a : UReg
  b : USrc
  deriving DecidableEq, Repr, Inhabited

structure SDiv where
  msk : MReg
  d : UReg
  q : QReg
  a : UReg
  b : USrc
  u : Bool
  rem : Bool
  deriving DecidableEq, Repr, Inhabited

structure SMinMax where
  msk : MReg
  d : UReg
  a : UReg
  b : USrc
  u : Bool
  deriving DecidableEq, Repr, Inhabited

structure SCmp where
  msk : MReg
  q : QReg
  a : UReg
  b : USrc
  u : Bool
  cc : Cond
  deriving DecidableEq, Repr, Inhabited

structure SSel where
  msk : MReg
  d : UReg
  q : QReg
  a : UReg
  b : USrc
  deriving DecidableEq, Repr, Inhabited

structure SUn where
  msk : MReg
  d : UReg
  a : UReg
  deriving DecidableEq, Repr, Inhabited

structure SLi where
  msk : MReg
  d : UReg
  pos : Fin 4
  imm : BitVec 21
  deriving DecidableEq, Repr, Inhabited

structure SBfe where
  msk : MReg
  d : UReg
  a : UReg
  p : Fin 64
  l : Fin 65
  sx : Bool
  deriving DecidableEq, Repr, Inhabited

/-- The eight operations of `qop` (R140). -/
inductive QOpKind where
  | and (a b : QReg) | or (a b : QReg) | xor (a b : QReg) | andn (a b : QReg)
  | not (a : QReg) | set (v : Bool) | test (r : UReg) | mov (a : QReg)
  deriving DecidableEq, Repr, Inhabited

structure QOp where
  msk : MReg
  d : QReg
  op : QOpKind
  deriving DecidableEq, Repr, Inhabited

structure FBin where
  msk : MReg
  d : VReg
  a : VReg
  b : VReg
  fa : Tag
  rnd : Rnd
  deriving DecidableEq, Repr, Inhabited

structure FMad where
  msk : MReg
  d : VReg
  a : VReg
  b : VReg
  c : Src32
  fa : Tag
  rnd : Rnd
  deriving DecidableEq, Repr, Inhabited

structure FUn where
  msk : MReg
  d : VReg
  a : VReg
  fa : Tag
  rnd : Rnd
  deriving DecidableEq, Repr, Inhabited

structure FCmp where
  msk : MReg
  d : MReg
  a : VReg
  b : VReg
  fa : Tag
  cc : Cond
  el : Bool
  z : Bool
  deriving DecidableEq, Repr, Inhabited

structure FCvt where
  msk : MReg
  d : VReg
  a : VReg
  tgt : Tag
  pos : Fin 8
  rnd : Rnd
  deriving DecidableEq, Repr, Inhabited

structure FPack where
  msk : MReg
  d : VReg
  a : VReg
  b : VReg
  fa : Tag
  rnd : Rnd
  f16 : Bool
  deriving DecidableEq, Repr, Inhabited

/-- `smxi`, `smxf`: D the sum, A the maximum, B the first of n = `n1` + 1 scores (R156). -/
structure Smx where
  msk : MReg
  d : VReg
  a : VReg
  b : VReg
  n1 : Fin 32
  b2 : Bool
  deriving DecidableEq, Repr, Inhabited

structure Ld where
  msk : MReg
  d : VReg
  addr : Addr
  fa : Tag
  sub : Sub
  deriving DecidableEq, Repr, Inhabited

structure St where
  msk : MReg
  src : VReg
  addr : Addr
  fa : Tag
  sub : Sub
  rule : Rule
  land : Fin 8
  deriving DecidableEq, Repr, Inhabited

/-- `ldu`: `wid` 0 is 64 bits, 1 to 3 are 1, 2 and 4 bytes (R176). -/
structure Ldu where
  msk : MReg
  d : UReg
  base : Option UReg
  off : BitVec 32
  wid : Fin 4
  sx : Bool
  deriving DecidableEq, Repr, Inhabited

structure Claim where
  msk : MReg
  src : VReg
  addr : Addr
  fa : Tag
  res : VReg
  deriving DecidableEq, Repr, Inhabited

structure Pf where
  msk : MReg
  addr : Addr
  tr : Bool
  lines1 : BitVec 8
  deriving DecidableEq, Repr, Inhabited

structure Ldt where
  msk : MReg
  d : VReg
  addr : Addr
  fa : Tag
  n1 : Fin 16
  deriving DecidableEq, Repr, Inhabited

structure Br where
  msk : MReg
  off : BitVec 24
  deriving DecidableEq, Repr, Inhabited

/-- Branch conditions of `bq` (Table 8-2). -/
inductive BqCond where
  | q (r : QReg) | any (m : MReg) | all (m : MReg)
  deriving DecidableEq, Repr, Inhabited

structure Bq where
  msk : MReg
  cond : BqCond
  neg : Bool
  off : BitVec 24
  deriving DecidableEq, Repr, Inhabited

structure Brd where
  msk : MReg
  mc : MReg
  target : BitVec 32
  join : BitVec 32
  range : Range
  deriving DecidableEq, Repr, Inhabited

structure Call where
  msk : MReg
  sl : UReg
  off : BitVec 24
  deriving DecidableEq, Repr, Inhabited

structure Ret where
  msk : MReg
  sl : UReg
  deriving DecidableEq, Repr, Inhabited

structure Jmpi where
  msk : MReg
  sa : UReg
  imm : BitVec 21
  deriving DecidableEq, Repr, Inhabited

structure Loop where
  msk : MReg
  sc : UReg
  q : Option QReg
  off : BitVec 24
  deriving DecidableEq, Repr, Inhabited

structure Rejoin where
  msk : MReg
  id : Fin 64
  count1 : BitVec 14
  timeout : BitVec 32
  range : Range
  deriving DecidableEq, Repr, Inhabited

structure HPush where
  msk : MReg
  eff : BitVec 16
  handler : BitVec 32
  elen : BitVec 16
  tk : VReg
  hl : VReg
  deriving DecidableEq, Repr, Inhabited

structure HPop where
  msk : MReg
  res : Option VReg
  deriving DecidableEq, Repr, Inhabited

structure Perform where
  msk : MReg
  d : VReg
  eff : BitVec 16
  payload : Option VReg
  ms : Bool
  range : Range
  deriving DecidableEq, Repr, Inhabited

structure Resume where
  msk : MReg
  d : Option VReg
  vt : VReg
  va : VReg
  deriving DecidableEq, Repr, Inhabited

structure Drop where
  msk : MReg
  vt : VReg
  deriving DecidableEq, Repr, Inhabited

structure Brk where
  msk : MReg
  code : BitVec 16
  deriving DecidableEq, Repr, Inhabited

/-- `srd`: a uniform destination and a special register 1 to 21, or `%lti` to a vector pair (R243). -/
inductive SrdForm where
  | uni (d : UReg) (idx : Fin 22) | lti (d : VReg)
  deriving DecidableEq, Repr, Inhabited

structure Srd where
  msk : MReg
  form : SrdForm
  deriving DecidableEq, Repr, Inhabited

structure Swr where
  msk : MReg
  a : UReg
  idx : Fin 22
  deriving DecidableEq, Repr, Inhabited

structure Tmrd where
  msk : MReg
  d : UReg
  deriving DecidableEq, Repr, Inhabited

/-- Source slot of `vget` (Table 9-2). -/
inductive GetMode where
  | idx (b : VReg) | dn (k : BitVec 10) | up (k : BitVec 10) | xor (k : BitVec 10)
  deriving DecidableEq, Repr, Inhabited

structure VGet where
  msk : MReg
  d : VReg
  a : VReg
  mode : GetMode
  z : Bool
  add : Bool
  vm : MReg
  fa : Tag
  deriving DecidableEq, Repr, Inhabited

/-- Target slot of `vpost` (Table 9-3). -/
inductive PostMode where
  | idx (b : VReg) | rel (k : BitVec 22) | xor (k : BitVec 10)
  deriving DecidableEq, Repr, Inhabited

/-- Collision rules of `vpost` (Table 9-3). -/
inductive PostRule where
  | fault | lo | add | addin
  deriving DecidableEq, Repr, Inhabited

structure VPost where
  msk : MReg
  d : VReg
  a : VReg
  mode : PostMode
  cr : PostRule
  dm : MReg
  fa : Tag
  deriving DecidableEq, Repr, Inhabited

/-- Source slot of `vbcast` (R204). -/
inductive BcastSel where
  | uni (s : UReg) | slot (k : BitVec 10) | first
  deriving DecidableEq, Repr, Inhabited

structure VBcast where
  msk : MReg
  d : VReg
  a : VReg
  sel : BcastSel
  q : Option QReg
  fa : Tag
  deriving DecidableEq, Repr, Inhabited

/-- `vlti`: `part` 0 the whole LTI, 1 TH, 2 the low 24 bits (R205). -/
structure VLti where
  msk : MReg
  d : VReg
  part : Fin 3
  deriving DecidableEq, Repr, Inhabited

structure VSlot where
  msk : MReg
  d : VReg
  rank : Bool
  deriving DecidableEq, Repr, Inhabited

/-- Operations of `vred` and `vscan` (Table 10-4). -/
inductive RedOp where
  | add | min | max | and | or | xor
  deriving DecidableEq, Repr, Inhabited

/-- A vector or a uniform destination (UD, R209). -/
inductive VOrU where
  | v (r : VReg) | u (r : UReg)
  deriving DecidableEq, Repr, Inhabited

structure VRed where
  msk : MReg
  d : VOrU
  a : VReg
  op : RedOp
  q : Option QReg
  fa : Tag
  deriving DecidableEq, Repr, Inhabited

structure VScan where
  msk : MReg
  d : VReg
  a : VReg
  op : RedOp
  exc : Bool
  tot : Option UReg
  q : Option QReg
  fa : Tag
  deriving DecidableEq, Repr, Inhabited

structure VArg where
  msk : MReg
  d : VOrU
  a : VReg
  q : Option QReg
  fa : Tag
  deriving DecidableEq, Repr, Inhabited

structure VBallot where
  msk : MReg
  d : MReg
  a : VReg
  q : Option QReg
  eq : Bool
  z : Bool
  deriving DecidableEq, Repr, Inhabited

/-- `vpopc`: `mode` 0 exclusive rank, 1 inclusive, 2 total (R218). -/
structure VPopc where
  msk : MReg
  d : VReg
  a : MReg
  mode : Fin 3
  deriving DecidableEq, Repr, Inhabited

structure VFirst where
  msk : MReg
  d : VReg
  a : MReg
  q : Option QReg
  last : Bool
  deriving DecidableEq, Repr, Inhabited

structure VCompact where
  msk : MReg
  d : VReg
  a : VReg
  ms : MReg
  cnt : Option UReg
  z : Bool
  fa : Tag
  deriving DecidableEq, Repr, Inhabited

structure VSort where
  msk : MReg
  dk : VReg
  dv : VReg
  ak : VReg
  av : VReg
  desc : Bool
  fa : Tag
  deriving DecidableEq, Repr, Inhabited

/-- `step`: false the core step point, true the cluster step point (R267). -/
structure StepOp where
  clu : Bool
  deriving DecidableEq, Repr, Inhabited

/-- `cpy` (Table 13-3). -/
structure Cpy where
  msk : MReg
  d : UReg
  n : UReg
  src : Option UReg
  off : BitVec 32
  fa : Tag
  rule : Rule
  land : Fin 8
  deriving DecidableEq, Repr, Inhabited

structure Cpy2d where
  msk : MReg
  d : UReg
  n : UReg
  src : Option UReg
  off : BitVec 32
  fa : Tag
  rule : Rule
  land : Fin 8
  x : UReg
  len : BitVec 32
  deriving DecidableEq, Repr, Inhabited

/-- `cpyg`, `cpys`: `ix` the index list, `n` the row count, `stride4` the stride in 4-byte units. -/
structure CpyIx where
  msk : MReg
  d : UReg
  ix : UReg
  src : Option UReg
  off : BitVec 32
  fa : Tag
  rule : Rule
  land : Fin 8
  n : UReg
  len : BitVec 16
  stride4 : BitVec 16
  deriving DecidableEq, Repr, Inhabited

structure CpyF where
  msk : MReg
  d : UReg
  n : UReg
  pat : Option UReg
  fa : Tag
  rule : Rule
  land : Fin 8
  deriving DecidableEq, Repr, Inhabited

structure MCast where
  msk : MReg
  d : UReg
  n : UReg
  src : Option UReg
  off : BitVec 32
  fa : Tag
  rule : Rule
  land : Fin 8
  k : UReg
  w : UReg
  deriving DecidableEq, Repr, Inhabited

structure MShape where
  msk : MReg
  mc : Fin 4
  nc : Fin 4
  deriving DecidableEq, Repr, Inhabited

structure MWin where
  msk : MReg
  base : BitVec 12
  len : Fin 4097
  deriving DecidableEq, Repr, Inhabited

structure MZero where
  msk : MReg
  r : UReg
  n : UReg
  deriving DecidableEq, Repr, Inhabited

/-- Input classes of a matrix product (R320). -/
inductive MClass where
  | bf16 | f16 | i8 | blk
  deriving DecidableEq, Repr, Inhabited

/-- `mmul`, `mloop`: `sp` the first metadata register of the sparse form, `low` the write rule LOW. -/
structure MProd where
  msk : MReg
  cls : MClass
  sp : Option VReg
  z : Bool
  desc : UReg
  low : Bool
  land : Fin 8
  deriving DecidableEq, Repr, Inhabited

structure MRd where
  msk : MReg
  d : VReg
  addr : Addr
  fa : Tag
  n1 : Fin 16
  deriving DecidableEq, Repr, Inhabited

structure MWr where
  msk : MReg
  src : VReg
  addr : Addr
  fa : Tag
  n1 : Fin 16
  low : Bool
  land : Fin 8
  deriving DecidableEq, Repr, Inhabited

structure MComp where
  msk : MReg
  d : VReg
  c : VReg
  a : VReg
  hi : Bool
  fa : Tag
  deriving DecidableEq, Repr, Inhabited

structure MSplit where
  msk : MReg
  k1 : Fin 8
  desc : UReg
  low : Bool
  land : Fin 8
  deriving DecidableEq, Repr, Inhabited

structure MRecomb where
  msk : MReg
  k1 : Fin 8
  tri : Bool
  desc : UReg
  low : Bool
  land : Fin 8
  deriving DecidableEq, Repr, Inhabited

structure XBind where
  msk : MReg
  d : XReg
  base : VReg
  cen : VReg
  loc : Bool
  p : Fin 16
  f64 : Bool
  deriving DecidableEq, Repr, Inhabited

/-- `xclr`: one descriptor, or all sixteen. -/
structure XClr where
  msk : MReg
  d : Option XReg
  deriving DecidableEq, Repr, Inhabited

structure XMov where
  msk : MReg
  d : XReg
  a : XReg
  deriving DecidableEq, Repr, Inhabited

structure XForm where
  msk : MReg
  d : XReg
  a : VReg
  n1 : Fin 16
  add : Bool
  deriving DecidableEq, Repr, Inhabited

/-- `xshift`, `xconv`, `xlshift`. -/
structure XMap where
  msk : MReg
  d : XReg
  a : XReg
  add : Bool
  deriving DecidableEq, Repr, Inhabited

structure XEval where
  msk : MReg
  d : VReg
  a : XReg
  b : VReg
  add : Bool
  deriving DecidableEq, Repr, Inhabited

structure XDirect where
  msk : MReg
  d : VReg
  addr : Addr
  f64 : Bool
  add : Bool
  eps : Option UReg
  cnt : VReg
  tgt : VReg
  deriving DecidableEq, Repr, Inhabited

structure XAdm where
  msk : MReg
  d : MReg
  a : XReg
  b : XReg
  c : VReg
  theta : BitVec 22
  z : Bool
  deriving DecidableEq, Repr, Inhabited

/-- The destination list of a work-list instruction: a register or EXT[15:0] (R392). -/
inductive WDst where
  | reg (r : VReg) | imm (d : BitVec 16)
  deriving DecidableEq, Repr, Inhabited

structure WApp where
  msk : MReg
  item : VReg
  base : Option UReg
  off : BitVec 32
  dst : WDst
  deriving DecidableEq, Repr, Inhabited

structure WCnt where
  msk : MReg
  d : VReg
  base : Option UReg
  off : BitVec 32
  dst : WDst
  ov : Bool
  deriving DecidableEq, Repr, Inhabited

/-! ## Operands of events -/

/-- A core, 48 · die + 6 · cluster + core (R2). -/
abbrev CoreId := Fin 384
/-- A cluster, 8 · die + cluster (Table 24-2). -/
abbrev ClusterId := Fin 64
/-- An array die. -/
abbrev DieId := Fin 8
/-- A context of the control die (R378). -/
abbrev CtxId := Fin 64
/-- A function of the PCI Express endpoint: 0 the PF, k + 1 the VF of partition k (R424). -/
abbrev FnId := Fin 9

/-- The two engines of a core (R260). -/
inductive Engine where
  | copy | matrix
  deriving DecidableEq, Repr, Inhabited

/-- A switch of the package network (R407): edge and middle switches are numbered 4 · die + index. -/
inductive Switch where
  | edge (k : Fin 32) | middle (k : Fin 32) | spine (k : Fin 8)
  deriving DecidableEq, Repr, Inhabited

/-- Where an uncorrectable or parity error is found (R265, R367, R377 Table 20-4, R414). -/
inductive EccPlace where
  /-- an array of a core, with its word index -/
  | coreArray (c : CoreId) (array word : Nat)
  /-- issue, pass or slot logic of a core -/
  | coreLogic (c : CoreId)
  /-- crossbar or leaf port of a cluster -/
  | clusterPort (cl : ClusterId) (port : Nat)
  /-- a committed line of a slice's landing cache -/
  | committedLine (d : DieId) (slice : Fin 8)
  /-- a pending line, sidecar, bank unit or spill area -/
  | pendingLine (d : DieId) (slice : Fin 8)
  /-- an HBM4 sector, by device address -/
  | hbmSector (sector : Nat)
  /-- request queue, channel controller or slice logic -/
  | sliceLogic (d : DieId) (slice : Fin 8)
  /-- a buffer of a switch -/
  | switchBuffer (sw : Switch)
  deriving DecidableEq, Repr, Inhabited

/-- Where flits are checked: at a switch of the package network (R414), or at the link ports of the control die (R438). -/
inductive LinkEnd where
  | inner (sw : Switch)
  | fabric
  deriving DecidableEq, Repr, Inhabited

/-- The port at which a flit fails its CRC, and whether it is the flit that has failed there last, replayed. -/
structure FailedFlit where
  port : Fin 33
  again : Bool
  deriving DecidableEq, Repr, Inhabited

/-- A node of the package network: a leaf, or the control die, number 128 (R407). -/
abbrev NetNode := Fin 129

/-- Who reads lines through reserved response slots (R415). -/
inductive Reader where
  /-- a core: its partitions 0 to 11, and at 12 its copy engine -/
  | core (c : CoreId)
  /-- the walkers, by number -/
  | walkers
  /-- the graph walker and the compaction unit -/
  | control
  deriving DecidableEq, Repr, Inhabited

/-- A place in the request queue of a node. -/
structure QueuedRead where
  leaf : NetNode
  k : Nat
  deriving DecidableEq, Repr, Inhabited

/-- The initial contents of the windows of a kernel's groups, by the address of its code (R30): offsets with their bytes. -/
structure KernelData where
  code : DWord
  loc : List (Nat × Byte)
  exch : List (Nat × Byte)
  priv : List (Nat × Byte)
  deriving DecidableEq, Repr, Inhabited

/-- What the packages of a domain-level LAUNCH must agree on (R444): set record, tag, CNT, kernel descriptor. -/
structure Meeting where
  record : List Byte
  tag : BitVec 32
  cnt : BitVec 64
  kernel : List Byte
  deriving DecidableEq, Repr, Inhabited

/-- What a package says when it arrives: one part for a LAUNCH, one for each domain-level branch of a FORK (R386). -/
structure Rendezvous where
  pkg : Fin 1024
  parts : List Meeting
  /-- from the coordinator: the stamp that names this phase in what the packages say of it from here on -/
  stamp : Nat
  deriving DecidableEq, Repr, Inhabited

/-- A write that another package sends to a DOMAIN page of this one (R443): `addr` its device address, `va` its virtual
address. -/
structure RemoteWrite where
  lti : DWord
  seq : Nat
  row : Nat
  addr : Nat
  va : DWord
  bytes : List Byte
  rule : Rule
  fmt : Tag
  deriving DecidableEq, Repr, Inhabited

/-- What a control die tells another about a domain-level phase (R444, R446). -/
inductive Msg where
  /-- its arrival, or, from the coordinator, that the phase starts -/
  | meet (m : Rendezvous)
  | graphError
  | vote (stamp : Nat) (ok : Bool)
  | decision (stamp : Nat) (commit : Bool)
  | done (stamp : Nat)
  | release (stamp : Nat)
  /-- a link has failed over which the sender has forwarded packets of the context between the two packages (R448) -/
  | linkFailed
  deriving DecidableEq, Repr, Inhabited

/-- What a fabric packet carries (R440, R441): the package-network packets of Table 23-2 that go between packages. `src` is the
node whose writes these are, at the package of the group. -/
inductive FabBody where
  /-- CTL: a message of a context -/
  | msg (x : CtxId) (m : Msg)
  /-- REQ: a read of a line -/
  | read (x : CtxId) (rid line : Nat)
  /-- RSP: its 128 bytes -/
  | line (x : CtxId) (rid : Nat) (bytes : List Byte)
  /-- REQ: landing writes of the context's domain-level phase of a stamp -/
  | writes (x : CtxId) (stamp : Nat) (src : NetNode) (l : List RemoteWrite)
  /-- RSP: how many landing writes have been accepted -/
  | ack (x : CtxId) (src : NetNode) (n : Nat)
  /-- CTL: the number of a REQ or RSP flow below which every packet has arrived -/
  | complete (cls : Fin 3) (seq : BitVec 32)
  /-- CTL: a request for an attestation report, with its nonce (R432) -/
  | attest (nonce : List Byte)
  /-- CTL: the answer: a code of Table 24-7, and bytes of the report from an offset on -/
  | attested (code : BitVec 8) (off : Nat) (bytes : List Byte)
  /-- another packet on CTL: a forwarded report -/
  | other (bytes : List Byte)
  deriving DecidableEq, Repr, Inhabited

/-- A fabric packet (Table 25-2): CLASS 0 is CTL, 1 REQ, 2 RSP. -/
structure FabPkt where
  hops : BitVec 8
  cls : Fin 3
  spkg : Fin 1024
  dpkg : Fin 1024
  seq : BitVec 32
  body : FabBody
  deriving DecidableEq, Repr, Inhabited

/-- What comes in at a link port, or that the port goes on with what it holds. -/
inductive FabIn where
  | packet (p : FabPkt)
  /-- the neighbour has freed buffers of a class -/
  | credit (cls : Fin 3) (flits : Nat)
  | next
  deriving DecidableEq, Repr, Inhabited

/-- A peer's request for a report is taken; with `withHost` the host submits its own in the same clock. -/
structure PeerRequest where
  withHost : Bool
  deriving DecidableEq, Repr, Inhabited

/-- A graph that the host starts at a node; `kernels` is what system software has loaded for it into the windows of its kernels' groups
(R30). -/
structure GraphStart where
  node : DWord
  kernels : List KernelData
  deriving DecidableEq, Repr, Inhabited

/-- What the power manager measures in an interval: the watts of a partition, and the watts and °C of each die. -/
structure PowerReading where
  watts : Nat
  dies : List (Nat × Nat)
  deriving DecidableEq, Repr, Inhabited

/-- A die at its critical temperature, and the phases whose commit falls in the same clock. -/
structure CriticalTrip where
  die : DieId
  commits : List (CtxId × BitVec 32)
  deriving DecidableEq, Repr, Inhabited

/-- The completion of the read at place `k` of a team's pending results; `changed` are the aligned 8-byte words of its memory that the
host has changed by then (R292). -/
structure HostRead where
  k : Nat
  changed : List (Nat × DWord)
  deriving DecidableEq, Repr, Inhabited

/-! ## Instructions -/

/-- The instructions of the KL8 and the events of the machine, one constructor per row of the opcode table. -/
inductive Instr where
  -- G0: control, effects, system
  | nop | nop96 | nop128
  | br (o : Br) | bq (o : Bq) | brd (o : Brd) | join (o : Bare) | call (o : Call) | ret (o : Ret)
  | jmpi (o : Jmpi) | loop (o : Loop) | rejoin (o : Rejoin) | exit (o : Bare)
  | hpush (o : HPush) | hpop (o : HPop) | perform (o : Perform) | resume (o : Resume) | drop (o : Drop)
  | brk (o : Brk) | srd (o : Srd) | swr (o : Swr) | tmrd (o : Tmrd)
  -- G1: vector integer
  | add (o : VArith) | sub (o : VArith) | mul (o : VArith) | mulh (o : VBin) | mad (o : VMad)
  | div (o : VArith) | rem (o : VBin) | neg (o : VArith1) | abs (o : VArith1)
  | min (o : VBin) | max (o : VBin) | and (o : VBin) | or (o : VBin) | xor (o : VBin) | not (o : VUn)
  | andn (o : VBin) | shl (o : VShift) | shr (o : VShift) | sar (o : VShift) | rot (o : VShift)
  | clz (o : VUn) | ctz (o : VUn) | popc (o : VUn) | brev (o : VUn)
  | bfe (o : VBfe) | bfi (o : VBfi) | cmp (o : VCmp) | sel (o : VSel) | mov (o : VUn) | movi (o : VMovi)
  | addc (o : VAddc) | cvti (o : VCvti)
  -- G2: mask
  | mand (o : MBin) | mor (o : MBin) | mxor (o : MBin) | mnot (o : MUn) | mandn (o : MBin)
  | mset (o : MSet) | mfrom (o : MFrom) | mto (o : MTo) | mcnt (o : MCount) | mfirst (o : MCount)
  -- G3: uniform
  | sadd (o : SBin) | ssub (o : SBin) | smul (o : SBin) | sdiv (o : SDiv) | sand (o : SBin) | sor (o : SBin)
  | sxor (o : SBin) | sshl (o : SBin) | sshr (o : SBin) | ssar (o : SBin) | smin (o : SMinMax)
  | smax (o : SMinMax) | scmp (o : SCmp) | ssel (o : SSel) | smov (o : SUn) | sli (o : SLi) | sbfe (o : SBfe)
  | sclz (o : SUn) | spopc (o : SUn) | qop (o : QOp)
  -- G4: float and special
  | fadd (o : FBin) | fsub (o : FBin) | fmul (o : FBin) | fma (o : FMad) | fnma (o : FMad) | fdiv (o : FBin)
  | fsqrt (o : FUn) | frcp (o : VUn) | frsq (o : VUn) | fmin (o : VBin) | fmax (o : VBin) | fabs (o : VUn)
  | fneg (o : VUn) | fcpsgn (o : VBin) | fcmp (o : FCmp) | fclass (o : VUn) | frnd (o : FUn) | fexpo (o : VUn)
  | fscale (o : FBin) | fexp2 (o : VUn) | flog2 (o : VUn) | fsin (o : VUn) | fcos (o : VUn) | ftanh (o : VUn)
  | fcvt (o : FCvt) | fcvti (o : FCvt) | fpack (o : FPack) | smxi (o : Smx) | smxf (o : Smx)
  -- G5: memory
  | ld (o : Ld) | st (o : St) | ldu (o : Ldu) | claim (o : Claim) | pf (o : Pf) | ldt (o : Ldt)
  -- G6: cross-lane and collectives
  | vget (o : VGet) | vpost (o : VPost) | vbcast (o : VBcast) | vlti (o : VLti) | vslot (o : VSlot)
  | vred (o : VRed) | vscan (o : VScan) | vargmin (o : VArg) | vargmax (o : VArg) | vballot (o : VBallot)
  | vpopc (o : VPopc) | vfirst (o : VFirst) | vcompact (o : VCompact) | vsort (o : VSort)
  -- G7: steps, copies, multicast
  | step (o : StepOp) | cpy (o : Cpy) | cpyg (o : CpyIx) | cpys (o : CpyIx) | cpy2d (o : Cpy2d)
  | cpyf (o : CpyF) | mcast (o : MCast)
  -- G8: matrix
  | mshape (o : MShape) | mwin (o : MWin) | mzero (o : MZero) | mmul (o : MProd) | mloop (o : MProd)
  | mrd (o : MRd) | mwr (o : MWr) | mcomp (o : MComp) | msplit (o : MSplit) | mrecomb (o : MRecomb)
  -- G9: expansion
  | xbind (o : XBind) | xclr (o : XClr) | xmov (o : XMov) | xform (o : XForm) | xshift (o : XMap)
  | xconv (o : XMap) | xlshift (o : XMap) | xeval (o : XEval) | xdirect (o : XDirect) | xadm (o : XAdm)
  -- G10: work lists
  | wapp (o : WApp) | wcnt (o : WCnt)
  -- Events of teams and cores. `t` is a team's key, `k` a place in one of its queues.
  | teamPromotion (t : Nat) | valueArrival (t k : Nat) | asyncTrapDelivery (t : Nat)
  /-- the supervisor resolves the oldest logged fault of team `t` at `va` by the leaf `pte`, or cannot -/
  | supervisorPageResolve (t : Nat) (va : DWord) (pte : Option DWord)
  | formFullKey (c : CoreId) | formAtQuiescence (c : CoreId) | rejoinTimeout (c : CoreId) (id : Fin 64)
  | groupDeadlock (c : CoreId) | spawnMoveWait (c : CoreId) | coreStepPoint (c : CoreId)
  | clusterStepPoint (cl : ClusterId) | engineCommandStart (c : CoreId) (e : Engine)
  | patrolScrub (c : CoreId) (array word : Nat) | hbmPatrolScrub (sector : Nat) | eccUncorrectable (p : EccPlace)
  -- Events of the network and the slices
  | lineRequestInject (r : Reader) (k : Fin 64) | packetRoute (sw : Switch) (k : Nat)
  | lineRead (r : QueuedRead) | lineResponse (leaf : NetNode) | landingWrite (leaf : NetNode)
  | writeAck (leaf : NetNode) | multicastWrite (sw : Switch) (k : Nat) | multicastForkResume (sw : Switch) (k : Nat)
  | pageWalk | priResponse (page : Nat) (ok : Bool) | flitCrcError (l : LinkEnd) (flit : FailedFlit)
  | linkFailure (sw : Switch) (port : Fin 33)
  -- Events of the control die
  | groupPlacement (d : DieId) | stealRequest (d : DieId) | groupEnd (cl : ClusterId)
  | phaseCommit (x : CtxId) (phase : BitVec 32) | launchNode (x : CtxId) | forkNode (x : CtxId) | joinNode (x : CtxId)
  | condNode (x : CtxId) | whileNode (x : CtxId) | signalNode (x : CtxId) | awaitNode (x : CtxId)
  | awaitPoll (x : CtxId) | endNode (x : CtxId) | preemptThreshold (x : CtxId) | flagFall (x : CtxId)
  | faultReport (d : DieId) | eventOverflow
  -- Events of the host interface
  | bar2Read (f : FnId) (off len : Nat) | bar2Write (f : FnId) (off : Nat) (bytes : List Byte)
  | registerWrite (f : FnId) (off size : Nat) (val : DWord) | gstatRead (f : FnId)
  | start (x : CtxId) (g : GraphStart) | kick (x : CtxId) | cmdHalt (x : CtxId) | cmdResume (x : CtxId)
  | cmdAbort (x : CtxId) | cmdPreempt (x : CtxId) | cmdInvalidate (x : CtxId) | cmdReplayOn (x : CtxId)
  | cmdReplayOff (x : CtxId) | attestSubmit
  | peerAttestRequest (pkg : Fin 1024) (q : PeerRequest)
  /-- `committed`: the monotonic counter could be committed (Table 24-7, CODE 0x03 otherwise) -/
  | attestReportDone (committed : Bool)
  | reset
  | powerInterval (part : Fin 8) (r : PowerReading) | thermalThrottle (d : DieId) (hot : Bool)
  | thermalCritical (t : CriticalTrip) | thermalRecovery
  -- Events of the fabric
  | fabricForward (port : Fin 18) (i : FabIn) | fabricLinkFailure (port : Fin 18)
  /-- a message of package `pkg` on the rendezvous -/
  | domainRendezvous (x : CtxId) (pkg : Fin 1024) | domainRendezvousTimeout (x : CtxId)
  /-- the vote of package `pkg`; `lost`: firmware finds that it can no longer reach the coordinator (R448) -/
  | domainVote (x : CtxId) (pkg : Fin 1024) (lost : Bool) | domainDecision (x : CtxId)
  | domainDecisionReceipt (x : CtxId) (commit : Bool) | domainRelease (x : CtxId)
  -- Completions
  | engineCommandFinished (c : CoreId) (e : Engine)
  /-- `changed`: aligned 8-byte words of host memory that the host has changed by then (R292) -/
  | hostInReadCompletion (t : Nat) (r : HostRead)
  | atsTranslationResponse (page : Nat) (target : Option Nat) | powerLoss
  deriving DecidableEq, Repr, Inhabited

/-! ## Why a word is illegal -/

/-- The reasons of R53 for `e.ill`, in the order of the checks. -/
inductive Ill where
  /-- 0x01: LEN = 11 -/
  | len
  /-- 0x03: unassigned opcode -/
  | unassigned
  /-- 0x02: the length is not the one of the opcode's format -/
  | badLen
  /-- 0x04: bit 15 or an unused field is not zero -/
  | unused
  /-- 0x05: illegal code in MOD -/
  | mod
  /-- 0x06: FA = 15, or FA not accepted -/
  | fa
  /-- 0x07: RULE 101 to 111 -/
  | rule
  /-- 0x08: LAND = 000 in a memory writer -/
  | land
  /-- 0x09: a register field outside Table 2-7 -/
  | reg
  /-- 0x0A: an AUX, AUX17, EXT or immediate value outside the entry's codes -/
  | aux
  deriving DecidableEq, Repr, Inhabited

/-- The reason code of R53. -/
def Ill.code : Ill → Nat
  | .len => 0x01 | .badLen => 0x02 | .unassigned => 0x03 | .unused => 0x04 | .mod => 0x05
  | .fa => 0x06 | .rule => 0x07 | .land => 0x08 | .reg => 0x09 | .aux => 0x0A

/-- The code of a format tag (Table 3-7, R46). -/
def Tag.code : Tag → Nat
  | .none => 0 | .i32 => 1 | .n32 => 2 | .i64 => 3 | .n64 => 4 | .f32 => 5 | .f64 => 6 | .bf16x2 => 7
  | .f16x2 => 8 | .k8tx4 => 9 | .i8x4 => 10 | .f4x8 => 11 | .i4x8 => 12 | .blk => 13 | .tok => 14

/-- Whether a tag is held by a pair of registers (Table 3-7). -/
def Tag.pair : Tag → Bool
  | .i64 | .n64 | .f64 | .tok => true
  | _ => false

end Sys2Proof
end

