-- ==== Sys2Proof/Machine/State.lean ====
section
/-! DEFINITION. The state of the KL8 as plain data: teams, cores, clusters, dies, contexts, the control die, the network
and the fabric; the reasons to stop; the machine right after reset. -/
namespace Sys2Proof.Machine

/-! ## Team state (03, 08, 11, 17) -/

/-- A handler entry (Table 11-1). `links` gives each slot's return record when `ret` is set (R234). -/
structure HEntry where
  eff : BitVec 16
  hpc : DWord
  stop : DWord
  tk : VReg
  hl : VReg
  ret : Bool
  links : SMap Nat
  deriving DecidableEq, Repr, Inhabited

/-- A divergence-stack entry: pushed by `brd` (R185), or an EFF entry (R230) with the saved handler stack, the saved tag
vector and the live range of the `perform`. -/
structure DEntry where
  eff : Bool
  rpc : DWord
  alt : DWord
  wait : MaskBits
  done : MaskBits
  h : List HEntry
  tags : SMap Tag
  range : Range
  deriving DecidableEq, Repr, Inhabited

/-- What a pending result writes (R77): one vector register, with bits 31 to 0 of the values or, for the odd register of a
pair, with bits 63 to 32; or a uniform register. -/
inductive PDst where
  | vec (r : VReg) (hi : Bool)
  | uni (r : UReg)
  deriving DecidableEq, Repr, Inhabited

/-- One thread's part of a pending `xdirect` (R354, R355): its list, target, ε and starting values. -/
structure Near where
  lti : DWord
  d : VReg
  base : DWord
  n : Nat
  f64 : Bool
  x : List DWord
  eps : DWord
  acc : List DWord
  deriving DecidableEq, Repr, Inhabited

/-- What a pending result waits for. -/
inductive Await where
  /-- its access latency (VALUE_ARRIVAL) -/
  | timed
  /-- a read of host memory (R426): until then the values are its bus addresses -/
  | hostIn (width : Nat) (sx : Bool)
  /-- the same, of a near list, in host memory or in pages of other packages -/
  | hostNear (o : Near)
  /-- a read of another package's page (R442): until then the values are its device keys -/
  | remote (width : Nat) (sx : Bool)
  /-- the core step point (R80) -/
  | core
  /-- the cluster step point (R80) -/
  | clu
  /-- the handler of the trap that its exceptions raised (R214, R355) -/
  | handler
  deriving DecidableEq, Repr, Inhabited

/-- What made a result pending: a memory or matrix instruction, an `xdirect`, or a collective with a uniform destination;
the last two deliver exceptions on arrival (R91). -/
inductive PSrc where
  | mem | near | coll
  deriving DecidableEq, Repr, Inhabited

/-- A pending result: `vals` by thread (LTI 0 stands for the whole team in a uniform result), `out` the threads whose
value is still owed by the operand log (R171), a step point or a handler, `gone` the threads whose value is discarded while
their exceptions are still to come (R91), `kept` whether the register counts as pending for the team (R77 to R79), `owed`
the exceptions recorded on arrival by thread (bit 5: a signalling NaN, R89, R91), `fen` the trap enables at issue (R90),
`vst` the `%vstat` bits owed (R213), `va` the virtual addresses of a read of host memory by thread (R380). A pair is pending as two
entries of one `id`. -/
structure Pend where
  id : Nat
  src : PSrc
  dst : PDst
  await : Await
  vals : List (DWord × DWord)
  out : List DWord
  gone : List DWord
  kept : Bool
  owed : List (DWord × BitVec 6)
  fen : BitVec 6
  vst : BitVec 3
  va : List (DWord × DWord) := []
  deriving DecidableEq, Repr, Inhabited

/-- Where a resumed value lands (R233, R238, R348). -/
inductive Dst where
  | drop
  /-- a `perform`'s D, with the value's tag -/
  | perf (d : VReg)
  /-- the low 32 bits, or all 64, of the value; the tag stays -/
  | vec (d : VReg) (wide : Bool)
  /-- bit 0, into the thread's bit of a mask -/
  | mask (m : MReg)
  /-- `smxi`, `smxf`: [31:0] to the sum, [63:32] to the maximum -/
  | smx (s m : VReg)
  /-- the first of n elements at stride 1 or 2, the others +0 -/
  | head (d : VReg) (wide : Bool) (n : Nat)
  /-- the uniform destination of a collective whose pending result is `id` -/
  | uni (id : Nat)
  /-- the destinations of an `xdirect` whose pending results are `id` -/
  | near (d : VReg) (wide : Bool) (id : Nat)
  deriving DecidableEq, Repr, Inhabited

/-- A logged access (R171). -/
inductive LogOp where
  | load (id width : Nat) (sx : Bool)
  | uload (id width : Nat) (sx : Bool)
  | store (bytes : List Byte) (rule : Rule) (fmt : Tag) (seq : Nat) (land : Nat)
  | near (id : Nat) (o : Near)
  | claim (id : Nat)
  | app (header : DWord) (item : List Word) (dst : Nat) (seq : Nat)
  | cnt (id : Nat) (header : DWord) (dst : Nat) (ov : Bool)
  /-- the copy command `id`, with the row and the byte offset that it has reached (R280) -/
  | copy (id row off : Nat)
  deriving DecidableEq, Repr, Inhabited

structure LogE where
  key : Nat
  stamp : Nat
  ltis : List DWord
  addr : DWord
  op : LogOp
  deriving DecidableEq, Repr, Inhabited

/-- What a resumed asynchronous trap does first (R239): it issues logged accesses again, lands the value, or, for `e.scope`,
goes on; `nothing` stands for an effect that is no asynchronous trap. -/
inductive TrapAct where
  | access (keys : List Nat)
  | land (dst : Dst)
  | scope
  | nothing
  deriving DecidableEq, Repr, Inhabited

/-- A queued asynchronous trap (R239): `stamp` the instruction that caused it, `sup` whether it has gone to the
supervisor, no handler having matched (R171, R240). -/
structure Trap where
  stamp : Nat
  eff : Nat
  lti : DWord
  payload : DWord
  act : TrapAct
  sup : Bool
  deriving DecidableEq, Repr, Inhabited

/-- An expansion descriptor (Table 17-1). -/
structure XDesc where
  v : Bool
  loc : Bool
  f64 : Bool
  p : Fin 16
  base : VReg
  cen : VReg
  deriving DecidableEq, Repr, Inhabited

/-- What a team waits for: nothing, a core or a cluster step point (R268), or the supervisor (R240). -/
inductive Wait where
  | run | core | clu | sup
  deriving DecidableEq, Repr, Inhabited

/-- An effect raised by a slot of a team and not yet delivered (R238): `site` the raising instruction, `pc` the
continuation's program counter, `dst` where a resumed value lands, `act` what the continuation does first; for a `perform`, `perf` holds MS and the live range. -/
structure Raised where
  slot : Nat
  eff : Nat
  payload : DWord
  site : DWord
  pc : DWord
  dst : Dst
  act : TrapAct
  perf : Option (Bool × Range)
  deriving DecidableEq, Repr, Inhabited

/-- A team (Tables 3-2 and 3-3). `h` and `div` have their top first; vector elements are keyed 1024 · register + slot. -/
structure Team where
  resident : Bool
  part : Fin 12
  age : Nat
  pass : Nat
  promo : Option Nat
  cap : Nat
  formed : Bool
  first : Nat
  pc : DWord
  wait : Wait
  v : SMap Word
  tag : SMap Tag
  s : Vector DWord 96
  m : Vector MaskBits 16
  q : Vector Bool 8
  x : Vector XDesc 16
  h : List HEntry
  div : List DEntry
  remap : SMap DWord
  ctr : SMap Word
  fflags : BitVec 5
  fen : BitVec 6
  round : BitVec 3
  seed : BitVec 32
  vstat : BitVec 3
  spill : BitVec 5
  mcEmpty : BitVec 16
  mcLoop : BitVec 16
  mcOutp : Bool
  acb : Nat
  acl : Nat
  pend : List Pend
  log : List LogE
  traps : List Trap
  /-- threads of the trap delivery in progress that have not resumed, dropped or exited (R239) -/
  serving : List DWord
  /-- effects raised in slots of the team and not yet delivered, because a capture waits for a pending register (R81) or
  for spawn memory (R452); they are delivered before the team issues again -/
  raised : List Raised
  /-- slots whose thread has exited, with that thread: what was pending there for it still comes (R81, R323) -/
  exited : SMap DWord
  /-- its last attempt stalled on a value that arrives only at a step point (R188) -/
  stuck : Bool
  deriving DecidableEq, Repr, Inhabited

/-! ## Core state (08, 11, 12, 15) -/

/-- Where the bytes of an access lie (Table 7-1). -/
inductive Spot where
  | priv (off : Nat)
  | loc (off : Nat)
  | exch (k off : Nat)
  | page (pte : DWord) (pa : Nat)
  deriving DecidableEq, Repr, Inhabited

/-- A queued write (R34 `land`, R165): `addr` its first byte in its space, `va` the address that payloads report, `row`
the row of a copy (R279), `left` the landing points still to come, `claim` the pending result of a participant, `far` whether
its landing distance was above 1 (R256). -/
structure Write where
  lti : DWord
  seq : Nat
  row : Nat
  addr : Nat
  va : DWord
  bytes : List Byte
  rule : Rule
  fmt : Tag
  left : Nat
  claim : Option Nat
  far : Bool := false
  deriving DecidableEq, Repr, Inhabited

/-- A queued accumulator write (R299): element row · 128 + column. -/
structure AccWrite where
  lti : DWord
  seq : Nat
  elem : Nat
  val : Word
  low : Bool
  left : Nat
  deriving DecidableEq, Repr, Inhabited

/-- A seed (R187): one thread outside every team. `land` is a resumed value and where it lands at formation (R238),
`act` what its continuation does first (R239). A link in `h` stands at slot 0. -/
structure Seed where
  lti : DWord
  pc : DWord
  range : Range
  vals : SMap Word
  tags : SMap Tag
  h : List HEntry
  div : List DEntry
  land : Option (Dst × DWord × Tag)
  act : TrapAct
  marks : List Pend
  log : List LogE
  /-- its traps that are still queued, and whether one is being served (R239) -/
  traps : List Trap
  serving : Bool
  bytes : Nat
  deriving DecidableEq, Repr, Inhabited

/-- What seeds must share to form a team (R188): target, handler stack, RPC list, live range and tags. -/
structure SKey where
  pc : DWord
  h : List HEntry
  rpcs : List DWord
  range : Range
  tags : SMap Tag
  deriving DecidableEq, Repr, Inhabited

/-- A continuation record (R230, R238) or a return record (R234) in spawn memory, `loc` in 64-byte units; `shown` is REC of its token. -/
structure Rec where
  loc : Nat
  shown : Nat
  bytes : Nat
  gen : Nat
  token : Bool
  ms : Bool
  lti : DWord
  pc : DWord
  range : Range
  vals : SMap Word
  tags : SMap Tag
  entries : List HEntry
  div : List DEntry
  dst : Dst
  act : TrapAct
  marks : List Pend
  deriving DecidableEq, Repr, Inhabited

/-- A rejoin point with a round begun (R191), at clock `start`; a timeout of 0 never expires. -/
structure Round where
  id : Fin 64
  number : Nat
  count : Nat
  start : Nat
  timeout : Nat
  parked : List Seed
  /-- threads held for the next round under replay, with count and timeout of their `rejoin` (R404) -/
  held : List (Seed × Nat × Nat)
  deriving DecidableEq, Repr, Inhabited

/-- Launch parameters (Tables 1-4 and 21-2). -/
structure Launch where
  code : DWord
  det : Fin 3
  spill : BitVec 5
  rejoins : Nat
  vregs : Nat
  team : Nat
  ncg : Nat
  nth : Nat
  spawn : Nat
  priv : Nat
  exch : Nat
  loc : Nat
  args : List DWord
  deriving DecidableEq, Repr, Inhabited

/-- The levels of a phase (Table 21-1). -/
inductive Level where
  | die | package | domain
  deriving DecidableEq, Repr, Inhabited

/-- The cluster group that a cluster or a core runs (R253, R358). -/
structure Group where
  ctx : CtxId
  phase : BitVec 32
  level : Level
  br : BitVec 8
  clg : BitVec 32
  l : Launch
  deriving DecidableEq, Repr, Inhabited

/-- A copy-engine command (R271 to R280, R363): `n` rows of `len` bytes. Row j goes from `src` + j · `srcStep` (a fill has no
source but `fill`) to `dst` + j · `dstStep`; with `list` = (address, T, whether the index gives the source), idx(j) · T takes
the place of that step; with `mask`, the rows are its bits, of one source. -/
structure CopyCmd where
  id : Nat
  seq : Nat
  lti : DWord
  n : Nat
  len : Nat
  src : Option DWord
  srcStep : DWord
  dst : DWord
  dstStep : DWord
  fill : DWord
  list : Option (DWord × DWord × Bool)
  mask : Option (BitVec 64)
  rule : Rule
  fmt : Tag
  land : Nat
  deriving DecidableEq, Repr, Inhabited

/-- Exceptions of the matrix engine due at a step point (R306). -/
structure MStat where
  bits : BitVec 6
  clu : Bool
  left : Nat
  deriving DecidableEq, Repr, Inhabited

/-- A matrix-engine command: its accumulator writes, its window writes (to the local window, or to a core group's exchange
window) and its exceptions, computed from the snapshot of the issue step (R298, R300). -/
structure MatCmd where
  id : Nat
  acc : List AccWrite
  writes : List (Option (Fin 8) × Write)
  stats : List MStat
  deriving DecidableEq, Repr, Inhabited

/-- A request for one 128-byte line (R415, R416): of a slice, or through the control die of another package; the pending results
`ids` that it serves; `sent` once injected. -/
structure LineReq where
  rid : Nat
  ctx : CtxId
  phase : BitVec 32
  leaf : NetNode
  line : Nat
  ids : List Nat
  sent : Bool
  deriving DecidableEq, Repr, Inhabited

/-- A move of threads that waits for spawn memory (R452). -/
inductive Move where
  /-- the delivery of raised effects of a team -/
  | deliver (team : Nat)
  /-- the WAIT and DONE slots of a team that waits at a step point -/
  | park (team : Nat)
  deriving DecidableEq, Repr, Inhabited

/-- A core. `grp` is the group that runs on it. -/
structure CoreSt where
  grp : Option Group
  cg : Fin 6
  loc : SMap Byte
  exch : SMap Byte
  priv : SMap Byte
  writes : List Write
  /-- queued CLUSTER writes into this core's exchange window -/
  exWrites : List Write
  acc : SMap Word
  accWrites : List AccWrite
  /-- window base and length in force and requested (R302, R318); none before the first `mwin` -/
  win : Option (Nat × Nat)
  winReq : Option (Nat × Nat)
  lstat : BitVec 9
  /-- SPILL that the next step point ORs into `lstat`, for the local window and for the exchange window (R170) -/
  spillDue : Bool
  spillDueK : Bool
  /-- collisions and mismatches of threads that wait at `step clu`, found at core step points: thread, whether a mismatch,
  address (R167) -/
  stepFaults : List (DWord × Bool × DWord)
  mstat : BitVec 6
  mstatDue : List MStat
  gm : Nat
  gn : Nat
  grantReq : Option (Nat × Nat)
  stepc : DWord
  stepk : DWord
  tokleak : DWord
  fsum : BitVec 5
  seeds : List Seed
  recs : List Rec
  rounds : List Round
  roundNo : SMap Nat
  /-- how many records each thread has written, by TH, from which generations run (R228) -/
  gens : SMap Nat
  /-- full-key formations of each key (Table 22-2) -/
  formOrd : List (SKey × Nat)
  copyQ : List CopyCmd
  /-- the first command of the queue has started; the rows and the bytes of the next row that it has moved, and the writes that
  these make (R280) -/
  copyRun : Bool
  copyAt : Nat × Nat
  copyGot : List (Spot × Write)
  matQ : List MatCmd
  matRun : Bool
  halted : Bool
  moves : List Move
  /-- the accumulators and the deferred words of queued writes that have gone to the landing spill area (R168, R256): keys of landing
  point, window and offset -/
  spillAccs : List Nat
  spillWords : List Nat
  /-- line requests of each partition and, at 12, of the copy engine, waiting at their interface or in the network (R415, R416) -/
  reqs : SMap (List LineReq)
  /-- correctable errors (R264), parity errors by context (R266) -/
  corrected : Nat
  parity : List CtxId
  removed : Bool
  ages : Nat
  /-- the translation micro-cache (R376): (context, page base, leaf) -/
  utlb : List (CtxId × Nat × DWord)
  deriving DecidableEq, Repr, Inhabited

/-! ## Device memory, phases, contexts (20, 21, 22) -/

/-- An item of a work list (R391). -/
structure Item where
  header : DWord
  dst : Nat
  lti : DWord
  seq : Nat
  words : List Word
  deriving DecidableEq, Repr, Inhabited

/-- A branch of a phase (R386, R387): its launch and the next group to place on each die. -/
structure Branch where
  br : BitVec 8
  l : Launch
  ng : Nat
  deriving DecidableEq, Repr, Inhabited

/-- The groups of one branch that wait on one die (R390): CLG `off` + `stride` · j for j from `lo` below `hi`. -/
structure Queue where
  die : DieId
  br : BitVec 8
  off : Nat
  stride : Nat
  lo : Nat
  hi : Nat
  deriving DecidableEq, Repr, Inhabited

/-- A phase in flight (R387 to R389): `base` device memory at its start (R41, R161), where the lines `known` of other packages'
pages join as they come (R442, R445); what has gone to its context's landing spill area: accumulators and pending lines of slices, by
device key, and a number of work-list items (R168, R369, R391). -/
structure Phase where
  num : BitVec 32
  base : SMap Byte
  known : List Nat
  spillAccs : List Nat
  spillLines : List Nat
  spillItems : Nat
  level : Level
  die : Option DieId
  branches : List Branch
  queues : List Queue
  running : Nat
  writes : List Write
  items : List Item
  psw : BitVec 21
  /-- `tmrd` executions of each thread (Table 22-2) -/
  reads : List (DWord × Nat)
  deriving DecidableEq, Repr, Inhabited

/-- A scoresheet record (Table 22-2); `ths` its thread list. -/
structure Score where
  phase : BitVec 32
  kind : Nat
  timeout : Bool
  who : DWord
  pos : DWord
  what : DWord
  ths : List Nat
  used : Bool
  deriving DecidableEq, Repr, Inhabited

/-- CSTATE (Table 24-4). -/
inductive CState where
  | idle | running | preempted | halted | draining
  deriving DecidableEq, Repr, Inhabited

/-- What the walker does (R385). -/
inductive Walk where
  | none
  /-- visits the node at an address -/
  | visit (node : DWord)
  /-- has started the phase of a FORK, and visits its JOIN when the phase has committed -/
  | join (node : DWord)
  /-- waits at a domain-level LAUNCH, or a FORK with one, for the other packages (R444) -/
  | meet (node : DWord)
  /-- polls the word of an AWAIT node -/
  | poll (node : DWord)
  deriving DecidableEq, Repr, Inhabited

/-- A domain-level phase (R444 to R446): its packages and what they agree on, the packages that have arrived, and, at the
coordinator, the votes and the DONE replies; the decision taken or received. -/
structure Domain where
  set : List (Fin 1024)
  parts : List Meeting
  since : Nat
  /-- the coordinator's clock when it came to the node: what is said of this phase names it (log 158); 0 before a member knows it -/
  stamp : Nat
  met : List (Fin 1024)
  votes : List (Fin 1024 × Bool)
  done : List (Fin 1024)
  decided : Option Bool
  deriving DecidableEq, Repr, Inhabited

/-- A context (R378, Table 24-4). -/
structure Ctx where
  prio : Fin 4
  part : Fin 8
  debug : Bool
  rootpt : DWord
  drain : BitVec 32
  preempt : BitVec 32
  spillUnits : BitVec 32
  scoreUnits : BitVec 32
  csb : DWord
  cstate : CState
  before : CState
  replay : Bool
  score : List Score
  /-- the hardware-private area of the scoresheet, where the records stand as Table 22-2 lays them out (R402) -/
  sheet : SMap Byte
  walk : Walk
  nextPhase : BitVec 32
  lastPhase : BitVec 32
  phases : List Phase
  iters : List (DWord × BitVec 64)
  stale : Bool
  /-- bytes of the landing spill area in use -/
  spillUsed : Nat
  /-- clock of the entry to CSTATE 4 and clocks counted before a halt (R396) -/
  drainStart : Nat
  drainRun : Nat
  /-- clock since which a group has been ready without a free cluster (R395) -/
  readySince : Option Nat
  evovf : DWord
  fcnt : DWord
  domain : Option Domain
  deriving DecidableEq, Repr, Inhabited

/-- The root table's frame. -/
def Ctx.rootFrame (c : Ctx) : Nat := c.rootpt.toNat % 2 ^ 36

/-- A partition block (R381, R435): cluster mask, four frame ranges (base, size in frames), cap. -/
structure PartBlk where
  mask : BitVec 64
  ranges : List (Nat × Nat)
  cap : DWord
  deriving DecidableEq, Repr, Inhabited

/-- Cluster state (R358, R376, R418, R435): `coming` while the order that starts its group is on its way, `told` once it has
reported the group's end. -/
structure ClusterSt where
  grp : Option Group
  coming : Bool
  told : Bool
  /-- pages of contexts whose walk the cluster has asked for (R376) -/
  asked : List (CtxId × Nat)
  /-- leaves in the translation cache: (context, page base, leaf) -/
  tlb : List (CtxId × Nat × DWord)
  acks : Nat
  parity : List CtxId
  removed : Bool
  step : Fin 16
  deriving DecidableEq, Repr, Inhabited

/-- A fault report (R397). -/
structure Report where
  ctx : CtxId
  phase : BitVec 32
  kind : Nat
  eff : Nat
  lti : DWord
  pc : DWord
  payload : DWord
  loc : DWord
  addr : DWord
  /-- the core that an unhandled `e.brk` halts under debug halt (R240, R398) -/
  halt : Option CoreId
  /-- its phase has been discarded since -/
  late : Bool := false
  /-- the cluster that makes it, and holds it while its die's FIFO is full (R397); none for a slice, a switch or the control die -/
  holder : Option Nat := none
  deriving DecidableEq, Repr, Inhabited

/-- Array-die state: fault FIFO and held reports (R397), whether it is above 95 °C (R436), the last readings of power and
temperature (PWR), slice failures and the slices that the last bring-up removed for them (Table 20-4). -/
structure DieSt where
  fifo : List Report
  heldReports : List Report
  hot : Bool
  watts : Nat
  celsius : Nat
  sliceFails : List (Fin 8 × CtxId)
  removed : List (Fin 8)
  /-- cores that have failed and spares that replace them, as the last bring-up found them (R2) -/
  dead : Nat
  /-- corrected errors of the two HBM4 stacks (R377) -/
  corrected : SMap Nat
  deriving DecidableEq, Repr, Inhabited

/-- One HOST-OUT write under way (R164), `seq` its place in the program order of its thread, `va` its virtual address. -/
structure Post where
  seq : Nat
  ctx : CtxId
  phase : BitVec 32
  lti : DWord
  page : Nat
  off : Nat
  va : DWord
  bytes : List Byte
  deriving DecidableEq, Repr, Inhabited

/-! ## The package network (23) -/

/-- The virtual channels (R410). -/
inductive Chan where
  | req | rsp | ctl
  deriving DecidableEq, Repr, Inhabited

/-- What a control packet carries (Table 23-2). -/
inductive CtlMsg where
  /-- a cluster asks for a walk: context, address, cluster -/
  | walk (x : CtxId) (va : Nat) (cl : ClusterId)
  /-- the walk's result: a leaf, if there is one -/
  | walked (x : CtxId) (va : Nat) (cl : ClusterId) (pte : Option DWord)
  /-- a group starts on a cluster -/
  | place (cl : Nat) (g : Group)
  /-- the group of a cluster has ended -/
  | ended (cl : Nat) (g : Group)
  | report (r : Report)
  /-- a phase commits -/
  | commit (x : CtxId) (phase : BitVec 32)
  deriving DecidableEq, Repr, Inhabited

/-- What a packet carries (Table 23-2). `via` names the package that a read or a write comes from, with the node there whose write
it is. -/
inductive Body where
  /-- a line read, with its response-slot tag -/
  | read (rid line : Nat) (via : Option (Fin 1024))
  /-- the line of a read; its bytes, where the line lies in another package or goes to one -/
  | line (rid : Nat) (bytes : List Byte) (via : Option (Fin 1024))
  | write (ws : List Write) (via : Option (Fin 1024 × NetNode))
  | ack (n : Nat) (via : Option (Fin 1024 × NetNode))
  /-- the copies of an `mcast` that slices home (R420) -/
  | multi (copies : List (NetNode × Write))
  | ctl (m : CtlMsg)
  deriving DecidableEq, Repr, Inhabited

/-- A packet: from a node to its destinations, `since` the clock of its arrival where it is. -/
structure Packet where
  chan : Chan
  ctx : CtxId
  phase : BitVec 32
  src : NetNode
  dsts : List NetNode
  body : Body
  since : Nat
  /-- a multicast of which some copies have left this switch (R421) -/
  forked : Bool
  /-- its phase has been discarded: it is delivered (R419), and nothing comes of its data -/
  dead : Bool
  deriving DecidableEq, Repr, Inhabited

/-- The network: packets waiting for injection at each node, packets in the switches by input port, packets delivered to
each node; failed links, links that the next tables leave out (R367), those that the tables in force leave out, whether a
recomputation waits (R414), replays of the flit that has failed last on each link. Switches are numbered edge 0 to 31, middle 32 to 63,
spine 64 to 71. -/
structure Net where
  out : SMap (List Packet)
  buf : SMap (List (Nat × Packet))
  arrived : SMap (List Packet)
  failed : List (Nat × Nat)
  cut : List (Nat × Nat)
  known : List (Nat × Nat)
  draining : Bool
  replays : SMap Nat
  rids : Nat
  deriving DecidableEq, Repr, Inhabited

/-! ## The control die (24) -/

/-- A requester of an attestation report (R432). -/
inductive Requester where
  | host
  | peer (pkg : Fin 1024)
  deriving DecidableEq, Repr, Inhabited

/-- An answer sent to a peer on CTL (R433): a code of Table 24-7, with the report if there is one. -/
structure Sent where
  pkg : Fin 1024
  code : BitVec 8
  report : List Byte
  deriving DecidableEq, Repr, Inhabited

/-- A walk (R376): for a cluster of a context and the phase that it runs, the page of an address; how many lines of tables have been read, and the request for
the next. -/
structure WalkReq where
  ctx : CtxId
  phase : BitVec 32
  va : Nat
  cl : ClusterId
  done : Nat
  asked : Option Nat
  deriving DecidableEq, Repr, Inhabited

/-- The control die. `state` and `failed` are GSTAT's STATE and FAIL (Table 24-3), `bring` the occasion of the bring-up that is under
way (R430), `barSize` the size of each function's BAR2 (Table 24-1), `walks` the page walks, of which
the first 64 are with the walkers, `reqs` the line requests of its walkers and other readers (R376, R415), `meas` the measurement registers (R431), `leaf` the module's monotonic counter (R432), `ats` the cached
translations of host pages (R426), `turns` the context whose turn it is in each die's queue at each priority (4 · die + priority,
R390). -/
structure Ctl where
  cmdErr : Bool
  failed : BitVec 8
  state : BitVec 4
  winbase : SMap DWord
  barSize : SMap Nat
  bring : Option Nat
  claVail : BitVec 64
  eqBase : DWord
  eqSize : DWord
  eqHead : DWord
  eqTail : DWord
  eqPhase : Bool
  /-- events counted while the queue was full and not yet announced, by context (R397) -/
  lost : List (Nat × Nat)
  nonce : List Byte
  report : List Byte
  mboxLeaf : BitVec 32
  mboxCode : BitVec 8
  mboxState : BitVec 2
  requests : List (Requester × List Byte)
  sent : List Sent
  meas : List (List Byte)
  leaf : Nat
  walks : List WalkReq
  heldWalks : List WalkReq
  reqs : List LineReq
  ats : List (Nat × Nat)
  atsWait : List Nat
  priWait : List Nat
  turns : SMap Nat
  /-- this package's number in its domain and the packages of the domain (R439) -/
  pkg : Fin 1024
  members : List (Fin 1024)
  deriving DecidableEq, Repr, Inhabited

/-! ## The fabric (25) -/

/-- A context has a flow over a port, from one package to another (R448). -/
structure FlowMark where
  port : Fin 18
  ctx : CtxId
  src : Fin 1024
  dst : Fin 1024
  deriving DecidableEq, Repr, Inhabited

/-- The link ports (R437 to R441). `down` are down; `held` the packets in each port's input buffers, `spent` the flits of the
neighbour's buffers in use by port and class (3 · port + class), `replays` those of the flit that has failed last at a port; `waits` the packets of this
package that wait for a port, `sent` those sent; `next` the number of the next packet of each flow that starts here, `acked` the
number that its destination has acknowledged; of each flow that ends here `low` the number below which every packet has come,
`early` the CTL packets and `seen` the numbers of the others beyond it; `inbox` the messages that CTL has delivered, with their
sources, `asks` the requests for a report that it has delivered, `others` its other packets; `pendingWrites` what has come for a
domain-level phase that has not begun here; the flows of contexts over the ports, and the arrivals at a domain-level LAUNCH that the graph of this package has not reached yet, with their
clocks. Flows are keyed 1024 · class + package. -/
structure Fabric where
  down : List (Fin 18)
  held : SMap (List FabPkt)
  spent : SMap Nat
  replays : SMap Nat
  waits : List FabPkt
  sent : List (Fin 18 × FabPkt)
  next : SMap (BitVec 32)
  acked : SMap (BitVec 32)
  low : SMap (BitVec 32)
  early : SMap (List FabPkt)
  seen : SMap (List (BitVec 32))
  inbox : List (Fin 1024 × CtxId × Msg)
  asks : List (Fin 1024 × List Byte)
  others : List FabPkt
  pendingWrites : List FabPkt
  flows : List FlowMark
  arrivals : List (CtxId × Rendezvous × Nat)
  deriving DecidableEq, Repr, Inhabited

/-! ## The state -/

/-- What the next step does: a team issues, a partition of a core has its next clock, an event happens, or the bring-up goes on. -/
inductive Act where
  | issue (t : Nat)
  | clock (core part : Nat)
  | event (i : Instr)
  /-- the next stage of the bring-up (R430) -/
  | bringUp
  deriving DecidableEq, Repr, Inhabited

/-- The machine. `cur` is the team that the issue logic has selected (key 384 · ordinal + core), `agenda` the acts that
come next, `free` the counter of the free values, `seq` the program-order stamp, `hostData` what the host's last read has
returned: these five are the model's own. -/
structure State where
  hostData : List Byte
  cur : Nat
  agenda : List Act
  free : Nat
  seq : Nat
  clock : Nat
  mem : SMap Byte
  host : SMap Byte
  posts : List Post
  badSectors : List Nat
  teams : SMap Team
  cores : SMap CoreSt
  clusters : SMap ClusterSt
  dies : SMap DieSt
  ctxs : SMap Ctx
  parts : SMap PartBlk
  /-- what system software has loaded for the windows of each context's kernels (R30) -/
  windows : List (CtxId × KernelData)
  net : Net
  fab : Fabric
  ctl : Ctl
  deriving DecidableEq, Repr, Inhabited

/-- Why a step stops. No meaning of this model ends in one of these: the type is closed and has one member. -/
inductive Fault where
  /-- an access to an address that the manual says does not exist and gives no outcome for; raised by no step (safe) -/
  | noSuchAddress (addr : Nat)
  deriving DecidableEq, Repr, Inhabited

/-- Why a step is refused. -/
inductive Refusal where
  /-- an instruction without a meaning, by its mnemonic; only Machine/Dispatch.lean answers with it (safe) -/
  | notModelled (mnemonic : String)
  deriving DecidableEq, Repr, Inhabited

/-! ## Reset -/

/-- What a byte of memory that nothing has written reads as (DESIGN CHOICE, log 6: the manual gives no contents of HBM4
or of host memory before the first write). -/
def unwritten : Byte := 0

/-- A memory: the bytes that differ from `unwritten`, by rising address. -/
abbrev Memory := List Host.Cell

/-- The canonical form of a memory: addresses rise, and no listed byte equals what an unlisted address reads as. -/
def Memory.wf (m : Memory) : Bool := SMap.wf unwritten m

def XDesc.unbound : XDesc := { v := false, loc := false, f64 := false, p := 0, base := 0, cen := 0 }

/-- Outside a group. -/
def Launch.none : Launch :=
  { code := 0, det := 0, spill := 0, rejoins := 0, vregs := 1024, team := 32, ncg := 1, nth := 1, spawn := 1, priv := 0,
    exch := 0, loc := 0, args := [] }

/-- No team: every register as Table 3-3 gives it before any thread stands in it. -/
def Team.vacant : Team :=
  { resident := false, part := 0, age := 0, pass := 0, promo := none, cap := 32, formed := false, first := 0, pc := 0,
    wait := .run, v := [], tag := [], s := Vector.replicate 96 0, m := Vector.replicate 16 0,
    q := Vector.replicate 8 false, x := Vector.replicate 16 XDesc.unbound, h := [], div := [], remap := [], ctr := [],
    fflags := 0, fen := 0x20, round := 1, seed := 0, vstat := 0, spill := 0, mcEmpty := 0, mcLoop := 0,
    mcOutp := false, acb := 0, acl := 0, pend := [], log := [], traps := [], serving := [], raised := [], exited := [], stuck := false }

/-- A core that runs no group. -/
def CoreSt.idle : CoreSt :=
  { grp := none, cg := 0, loc := [], exch := [], priv := [], writes := [], exWrites := [], acc := [], accWrites := [],
    win := none, winReq := none, lstat := 0,
    spillDue := false, spillDueK := false, stepFaults := [], mstat := 0, mstatDue := [], gm := 0, gn := 0, grantReq := none,
    stepc := 0, stepk := 0, tokleak := 0, fsum := 0, seeds := [], recs := [], rounds := [], roundNo := [], gens := [],
    formOrd := [], copyQ := [], copyRun := false, copyAt := (0, 0), copyGot := [], matQ := [], matRun := false, halted := false, moves := [],
    spillAccs := [], spillWords := [], reqs := [], corrected := 0, parity := [], removed := false, ages := 0, utlb := [] }

/-- A cluster that runs no group, at the nominal clock: step 15 of 50 MHz above 1.00 GHz (R435). -/
def ClusterSt.idle : ClusterSt :=
  { grp := none, coming := false, told := false, asked := [], tlb := [], acks := 0, parity := [], removed := false, step := 15 }

def DieSt.idle : DieSt :=
  { fifo := [], heldReports := [], hot := false, watts := 0, celsius := 0, sliceFails := [], removed := [], dead := 0, corrected := [] }

/-- A context that system software has not set (CSTATE 0 by Table 24-4; the other values: log 7). -/
def Ctx.unset : Ctx :=
  { prio := 0, part := 0, debug := false, rootpt := 0, drain := 0, preempt := 0, spillUnits := 0, scoreUnits := 0,
    csb := 0, cstate := .idle, before := .idle, replay := false, score := [], sheet := [],
    walk := .none, nextPhase := 0, lastPhase := 0, phases := [], iters := [], stale := false, spillUsed := 0,
    drainStart := 0, drainRun := 0, readySince := none, evovf := 0, fcnt := 0, domain := none }

/-- A partition that owns nothing (R381: partitions 1 to 7 at reset). -/
def PartBlk.none : PartBlk := { mask := 0, ranges := [], cap := 0 }

/-- Frames of 64 KiB in the package's memory of 1,536 GiB (R375). -/
def allFrames : Nat := 0x1800000

/-- Partition 0 at reset: every available cluster and the whole of device memory (R381). -/
def PartBlk.all : PartBlk := { mask := BitVec.allOnes 64, ranges := [(0, allFrames)], cap := 0 }

/-- The control die right after reset: STATE 0, the boot ROM has not run yet (Table 24-5). -/
def Ctl.atReset : Ctl :=
  { cmdErr := false, failed := 0, state := 0, winbase := [], barSize := [], bring := none, claVail := BitVec.allOnes 64,
    eqBase := 0, eqSize := 0, eqHead := 0, eqTail := 0, eqPhase := false, lost := [],
    nonce := List.replicate 32 0, report := [], mboxLeaf := 0, mboxCode := 0, mboxState := 0, requests := [],
    sent := [], meas := List.replicate 8 (List.replicate 64 0), leaf := 0, walks := [], heldWalks := [], reqs := [],
    ats := [], atsWait := [], priWait := [], turns := [], pkg := 0, members := [] }

def Net.empty : Net :=
  { out := [], buf := [], arrived := [], failed := [], cut := [], known := [], draining := false, replays := [], rids := 0 }

def Fabric.empty : Fabric :=
  { down := [], held := [], spent := [], replays := [], waits := [], sent := [], next := [], acked := [], low := [], early := [],
    seen := [], inbox := [], asks := [], others := [], pendingWrites := [], flows := [], arrivals := [] }

/-- The machine right after reset (R430). -/
def State.reset : State :=
  { hostData := [], cur := 0, agenda := [], free := 0, seq := 0, clock := 0, mem := [], host := [], posts := [], badSectors := [],
    teams := [], cores := [], clusters := [], dies := [], ctxs := [], parts := [(0, PartBlk.all)],
    windows := [], net := Net.empty, fab := Fabric.empty, ctl := Ctl.atReset }

/-! ## Parts of the state -/

def State.team (s : State) (t : Nat) : Team := s.teams.get Team.vacant t
def State.setTeam (s : State) (t : Nat) (x : Team) : State := { s with teams := s.teams.put t x }
def State.core (s : State) (c : Nat) : CoreSt := s.cores.get CoreSt.idle c
def State.setCore (s : State) (c : Nat) (x : CoreSt) : State := { s with cores := s.cores.put c x }
def State.cluster (s : State) (c : Nat) : ClusterSt := s.clusters.get ClusterSt.idle c
def State.setCluster (s : State) (c : Nat) (x : ClusterSt) : State := { s with clusters := s.clusters.put c x }
def State.die (s : State) (d : Nat) : DieSt := s.dies.get DieSt.idle d
def State.setDie (s : State) (d : Nat) (x : DieSt) : State := { s with dies := s.dies.put d x }
def State.ctx (s : State) (c : Nat) : Ctx := s.ctxs.get Ctx.unset c
def State.setCtx (s : State) (c : Nat) (x : Ctx) : State := { s with ctxs := s.ctxs.put c x }
def State.partBlk (s : State) (k : Nat) : PartBlk := s.parts.get PartBlk.none k
def State.setPart (s : State) (k : Nat) (x : PartBlk) : State := { s with parts := s.parts.put k x }

/-- The core of a team key. -/
def coreOf (t : Nat) : Nat := t % 384
/-- The cluster of a core (R2: 48 cores a die, 6 a cluster). -/
def clusterOf (c : Nat) : Nat := 8 * (c / 48) + c % 48 / 6
/-- The die of a core. -/
def dieOf (c : Nat) : Nat := c / 48
/-- The core of a cluster's k-th place. -/
def coreIn (cl k : Nat) : Nat := 48 * (cl / 8) + 6 * (cl % 8) + k

end Sys2Proof.Machine
end

