-- ==== Sys2Proof/Machine/Operands.lean ====
section
/-! DEFINITION. Operands: masks and slots in LTI order (R34, R60, R65), register elements, tag checks (R74), the interlock
of pending registers (R78, R80), and the values an instruction computes in one slot. -/
namespace Sys2Proof.Machine

/-! ## Masks and slots -/

/-- The bits of the slots below the capacity (R65). -/
def Team.capMask (t : Team) : MaskBits := BitVec.ofNat 1024 (2 ^ t.cap - 1)

/-- The live mask (R66). -/
def Team.live (t : Team) : MaskBits := t.m[0]

/-- The execution mask (R34). -/
def Team.exec (t : Team) (msk : MReg) : MaskBits := t.m[msk] &&& t.m[0]

/-- The LTI that the remap table gives for a slot, all ones in a vacant one (R62). -/
def Team.lti (t : Team) (i : Nat) : DWord := t.remap.get (BitVec.allOnes 64) i

/-- A list of slots with one more, before the first of greater LTI. -/
def Team.insLti (t : Team) (i : Nat) : List Nat → List Nat
  | [] => [i]
  | j :: r => if (t.lti i).toNat < (t.lti j).toNat then i :: j :: r else j :: t.insLti i r

/-- Slots in ascending LTI (R60). -/
def Team.sortLti (t : Team) : List Nat → List Nat
  | [] => []
  | i :: r => t.insLti i (t.sortLti r)

/-- The slots of a mask, by number. -/
def Team.slotsOf (t : Team) (x : MaskBits) : List Nat := (List.range t.cap).filter fun i => x.getLsbD i

/-- The slots of a mask, in ascending LTI (R34). -/
def Team.lanes (t : Team) (x : MaskBits) : List Nat := t.sortLti (t.slotsOf x)

/-- One bit of a mask. -/
def oneBit (i : Nat) : MaskBits := BitVec.ofNat 1024 (2 ^ i)

/-- A mask with one bit replaced. -/
def setBit (m : MaskBits) (i : Nat) (b : Bool) : MaskBits := if b then m ||| oneBit i else m &&& ~~~oneBit i

/-- The mask of a list of slots. -/
def maskOf (l : List Nat) : MaskBits := l.foldl (fun m i => m ||| oneBit i) 0

/-- The team with a mask register replaced; bits at and above the capacity are discarded (R65). -/
def Team.setM (t : Team) (r : MReg) (x : MaskBits) : Team := { t with m := t.m.set r.val (x &&& t.capMask) }

/-- The summary word of a mask (R64): bit k is the OR of the mask's word k. It is a view of the mask and follows every write. -/
def summaryOf (x : MaskBits) : BitVec 32 :=
  (List.range 32).foldl (fun w k => w ||| (if x.extractLsb' (32 * k) 32 = 0 then 0 else 1 <<< k)) 0

def Team.summary (t : Team) (r : MReg) : BitVec 32 := summaryOf t.m[r]

/-- The words of a mask in which an instruction runs a pass, in order (R67). -/
def passesOf (x : MaskBits) : List Nat := (List.range 32).filter fun k => (summaryOf x).getLsbD k

/-- How many slots are set. -/
def Team.count (t : Team) (x : MaskBits) : Nat := (t.slotsOf x).length

/-! ## Register elements -/

/-- The key of a vector element. -/
def vkey (r i : Nat) : Nat := 1024 * r + i

/-- v[r][i]. -/
def Team.rd (t : Team) (r i : Nat) : Word := t.v.get 0 (vkey r i)

/-- v64[r][i]: the even register holds bits 31 to 0 (log 8). -/
def Team.rd64 (t : Team) (r i : Nat) : DWord := t.rd (r + 1) i ++ t.rd r i

/-- An element of a register or pair, by the format's width. -/
def Team.rdTag (t : Team) (f : Tag) (r i : Nat) : DWord :=
  if f.pair then t.rd64 r i else (t.rd r i).setWidth 64

/-- The team with v[r][i] replaced. -/
def Team.wr (t : Team) (r i : Nat) (x : Word) : Team := { t with v := t.v.set 0 (vkey r i) x }

/-- The team with v64[r][i] replaced. -/
def Team.wr64 (t : Team) (r i : Nat) (x : DWord) : Team :=
  (t.wr r i (x.setWidth 32)).wr (r + 1) i ((x >>> 32).setWidth 32)

/-- A result written to a register or pair. -/
def Team.wrW (t : Team) (wide : Bool) (r i : Nat) (x : DWord) : Team :=
  if wide then t.wr64 r i x else t.wr r i (x.setWidth 32)

/-- The tag of a register (R72). -/
def Team.tagOf (t : Team) (r : Nat) : Tag := t.tag.get .none r

def Team.setTag1 (t : Team) (r : Nat) (f : Tag) : Team := { t with tag := t.tag.set .none r f }

/-- R73: a 32-bit result in one register of a pair that held a 64-bit tag leaves the other with NONE. -/
def Team.unpair (t : Team) (r : Nat) (f : Tag) : Team :=
  if !f.pair && (t.tagOf r).pair then t.setTag1 (if r % 2 = 0 then r + 1 else r - 1) .none else t

/-- The tag in a destination: in both registers of a pair. -/
def Team.putTag (t : Team) (r : Nat) (f : Tag) : Team :=
  if f.pair then (t.setTag1 r f).setTag1 (r + 1) f else t.setTag1 r f

/-- The tag of a destination (R73). -/
def Team.setTag (t : Team) (r : Nat) (f : Tag) : Team := (t.unpair r f).putTag r f

def Team.setS (t : Team) (r : UReg) (x : DWord) : Team := { t with s := t.s.set r.val x }
def Team.setQ (t : Team) (r : QReg) (x : Bool) : Team := { t with q := t.q.set r.val x }

/-! ## Tag checks (R74, R114) -/

/-- The payload of `e.fmt` (R74). -/
def fmtPayload (r : Nat) (held expected : Tag) : DWord :=
  BitVec.ofNat 64 (r + held.code * 2 ^ 10 + expected.code * 2 ^ 14)

/-- Step 1 of R74: whether a source fails by width. `narrow`: the entry reads 32 bits whatever the tag. -/
def badWidth (fa : Tag) (narrow : Bool) (r : Nat) (held : Tag) : Bool :=
  if fa = .none then (held.pair && (r % 2 == 1 || narrow))
  else (held != .none && held.pair != fa.pair) || (fa.pair && r % 2 == 1)

/-- R74: the operation's format, or the payload of `e.fmt`. The sources stand in the order A, B, C. -/
def Team.tagCheck (t : Team) (fa : Tag) (narrow : Bool) (accept : Tag → Bool) (srcs : List Nat) : Except DWord Tag :=
  match srcs with
  | [] => .ok fa
  | r0 :: _ =>
    match srcs.find? (fun r => badWidth fa narrow r (t.tagOf r)) with
    | some r => .error (fmtPayload r (t.tagOf r) fa)
    | none =>
      if fa = .none then
        match srcs.find? (fun r => t.tagOf r == .none) with
        | some r => .error (fmtPayload r .none .none)
        | none =>
          match srcs.find? (fun r => t.tagOf r != t.tagOf r0) with
          | some r => .error (fmtPayload r (t.tagOf r) (t.tagOf r0))
          | none => if accept (t.tagOf r0) then .ok (t.tagOf r0) else .error (fmtPayload r0 (t.tagOf r0) .none)
      else
        match srcs.find? (fun r => t.tagOf r != .none && t.tagOf r != fa) with
        | some r => .error (fmtPayload r (t.tagOf r) fa)
        | none => if accept fa then .ok fa else .error (fmtPayload r0 (t.tagOf r0) .none)

/-- R114: a 64-bit destination is even and its partner lies below `.vregs`; otherwise the payload. -/
def pairDest (vregs : Nat) (f : Tag) (d : VReg) : Except DWord Tag :=
  if f.pair ∧ (d.val % 2 = 1 ∨ vregs ≤ d.val + 1) then .error (fmtPayload d .none f) else .ok f

/-- The format of a raw data move (R127, R197): under FA = 0 the tag of a; a pair tag wants even registers. -/
def Team.moveTag (t : Team) (vregs : Nat) (fa : Tag) (a d : VReg) : Except DWord Tag :=
  if fa ≠ .none then .ok fa
  else if (t.tagOf a).pair ∧ a.val % 2 = 1 then .error (fmtPayload a (t.tagOf a) .none)
  else pairDest vregs (t.tagOf a) d

/-! ## The interlock (R77 to R80) -/

/-- Whether a pending result covers a vector register. -/
def Pend.onV (p : Pend) (r : Nat) : Bool :=
  p.kept && match p.dst with
    | .vec d _ => r == d.val
    | .uni _ => false

/-- Whether a pending result covers a uniform register. -/
def Pend.onU (p : Pend) (r : UReg) : Bool :=
  p.kept && match p.dst with
    | .uni d => d == r
    | .vec _ _ => false

/-- Whether a pending result arrives only at a step point (R80). -/
def Pend.atStep (p : Pend) : Bool :=
  match p.await with
  | .core | .clu => true
  | _ => false

/-- What the interlock says of an instruction. -/
inductive Ready where
  | go
  | stall
  /-- it waits for a value that arrives only at a step point -/
  | stuck
  /-- it reads the register that is pending on a step point -/
  | dead (r : Nat)
  deriving DecidableEq, Repr

/-- Vector registers that an instruction touches, as (register, pair). -/
abbrev VRefs := List (Nat × Bool)

/-- The registers of a list of references. -/
def VRefs.regs (l : VRefs) : List Nat := l.flatMap fun p => if p.2 then [p.1, p.1 + 1] else [p.1]

/-- Registers as references. -/
def refs (wide : Bool) (l : List Nat) : VRefs := l.map fun r => (r, wide)

/-- R78, R80: reads of pending vector and uniform registers; writes of pending vector registers under an execution mask
that does not cover `m0`. -/
def Team.interlock (t : Team) (x : MaskBits) (reads : VRefs) (ureads : List UReg) (writes : VRefs) : Ready :=
  match reads.regs.find? (fun r => t.pend.any fun p => p.onV r && p.atStep) with
  | some r => .dead r
  | none =>
    if (reads.regs.any fun r => t.pend.any fun p => p.onV r) || (ureads.any fun r => t.pend.any fun p => p.onU r) then .stall
    else if x &&& t.live = t.live then .go
    else if writes.regs.any fun r => t.pend.any fun p => p.onV r && !p.atStep then .stall
    else if writes.regs.any fun r => t.pend.any fun p => p.onV r then .stuck
    else .go

/-- The LTIs of the live slots. -/
def Team.ltis (t : Team) : List DWord := (t.slotsOf t.live).map t.lti

/-- Whether a pending result still concerns anyone. -/
def Pend.live (p : Pend) : Bool := !(p.vals.isEmpty && p.out.isEmpty && p.gone.isEmpty && p.owed.isEmpty)

/-- The threads that a pending result will still give a value. -/
def Pend.threads (p : Pend) : List DWord := p.vals.map (·.1) ++ p.out

/-- Whether a pending result is that of a list which waits for host memory. -/
def Pend.hostList (p : Pend) : Bool :=
  match p.await with
  | .hostNear _ => true
  | _ => false

/-- The threads whose exceptions an `xdirect` has not computed yet: their list is in the log, or waits for host memory. -/
def Pend.unread (p : Pend) : List DWord :=
  if p.src ≠ .near then []
  else if p.hostList then p.vals.map (·.1)
  else if p.await = .timed then p.out
  else []

/-- A pending result without the values of some threads; an `xdirect` still delivers their exceptions (R91). -/
def Pend.discard (l : List DWord) (p : Pend) : Pend :=
  { p with
    vals := p.vals.filter fun v => !l.contains v.1
    out := p.out.filter fun x => !l.contains x
    gone := p.gone ++ p.unread.filter l.contains }

/-- Registers are written in some threads: what is pending there for these threads is discarded (R76, R78, R79). A register
stays pending while the value of another live thread is to come. -/
def Team.dropV (t : Team) (l : List DWord) (r : Nat → Bool) : Team :=
  { t with pend := (t.pend.map fun p =>
      match p.dst with
      | .vec d _ =>
        if r d.val then
          let q := p.discard l
          { q with kept := p.kept && q.threads.any t.ltis.contains }
        else p
      | .uni _ => p).filter Pend.live }

/-- R78, R79: a write of register r in every live slot supersedes its pending value there, and the values of threads that have
exited. Threads parked on the divergence stack still receive theirs (R76), and the exceptions of the result are still owed (R91). -/
def Team.supersedeV (t : Team) (r : Nat) : Team :=
  if t.pend.any fun p => p.onV r then t.dropV (t.ltis ++ t.exited.map (·.2)) fun d => d == r else t

/-- A vector register whose pending values concern threads that are live again is pending again (R77, R186, R233). A
superseded uniform result stays superseded (R79). -/
def Team.revive (t : Team) : Team :=
  if t.pend.any fun p => !p.kept then
    { t with pend := t.pend.map fun p =>
        match p.dst with
        | .vec _ _ => if p.threads.any t.ltis.contains then { p with kept := true } else p
        | .uni _ => p }
  else t

/-- R134: a uniform write supersedes whatever its execution mask. -/
def Team.supersedeU (t : Team) (r : UReg) : Team :=
  { t with pend := t.pend.map fun p => if p.onU r then { p with kept := false } else p }

/-- Whether a register lies in a live range. -/
def inRange (g : Range) (r : Nat) : Bool :=
  match g with
  | none => false
  | some (f, l) => f.val ≤ r && r ≤ l.val

/-- The number of registers of a live range. -/
def rangeLen (g : Range) : Nat :=
  match g with
  | none => 0
  | some (f, l) => l.val + 1 - f.val

/-- R450: whether a pending result is captured as a mark: it waits for a step point, its access is in the log, or it waits
for the handler of its own trap (log 20). -/
def Pend.marks (p : Pend) : Bool := !p.out.isEmpty

/-- Whether a pending result lies in a live range and will give a thread of the team a value there, be the thread live or
parked. -/
def Pend.within (p : Pend) (g : Range) : Bool :=
  !p.threads.isEmpty && match p.dst with
    | .vec d _ => inRange g d.val
    | .uni _ => false

/-- R81, R450: whether a capture of a live range must wait. -/
def Team.captureWaits (t : Team) (g : Range) : Bool := t.pend.any fun p => !p.marks && p.within g

/-! ## One slot's results -/

/-- What an instruction does in one slot: exceptions (bits 4 to 0 as Table 4-3, bit 5 a signalling NaN, R89), an effect
raised with its payload, elements written, mask bits written. -/
structure Out where
  fl : BitVec 6 := 0
  eff : Option (Nat × DWord) := none
  vals : List (Nat × Word) := []
  bits : List (MReg × Bool) := []
  deriving Repr

/-- The words of a result by its width: d, and d + 1 for a pair. -/
def words (d : VReg) (wide : Bool) (x : DWord) : List (Nat × Word) :=
  if wide then [(d.val, x.setWidth 32), (d.val + 1, (x >>> 32).setWidth 32)] else [(d.val, x.setWidth 32)]

end Sys2Proof.Machine
end

