-- ==== Sys2Proof/Machine/Flags.lean ====
section
/-! DEFINITION. Flags: floating-point exceptions and their traps (R88, R89), overflow masks and saturation (R116). -/
namespace Sys2Proof.Machine

/-! ## Floating-point exceptions: bits 4 to 0 as Table 4-3, bit 5 a signalling NaN as a cause (R89) -/

def flNX : BitVec 6 := 1
def flUF : BitVec 6 := 2
def flOF : BitVec 6 := 4
def flDZ : BitVec 6 := 8
def flNV : BitVec 6 := 16
/-- Invalid caused by a signalling NaN. -/
def flSN : BitVec 6 := 48

/-- R89: whether the exceptions of a slot raise `e.fpx`. -/
def fpxTraps (fen fl : BitVec 6) : Bool :=
  (fl.setWidth 5 &&& fen.setWidth 5 != 0) || (fl.getLsbD 5 && fl.getLsbD 4 && fen.getLsbD 5)

/-- The effect of a slot: the one of lowest identifier (R85); `e.fpx` is 0x04 with the exceptions as payload (R89). -/
def Out.effect (fen : BitVec 6) (o : Out) : Option (Nat × DWord) :=
  if fpxTraps fen o.fl then
    match o.eff with
    | some (id, p) => if id < 4 then some (id, p) else some (4, o.fl.setWidth 64)
    | none => some (4, o.fl.setWidth 64)
  else o.eff

/-- The exceptions of all slots together (R36, R89), for `%fflags`. -/
def orFlags (outs : List (Nat × Out)) : BitVec 5 := outs.foldl (fun f p => f ||| p.2.fl.setWidth 5) 0

end Sys2Proof.Machine

/-! ## Integer range (R113, R116) -/
namespace Sys2Proof

/-- The width of an element of a format in bits. -/
def Tag.width (f : Tag) : Nat := if f.pair then 64 else 32

/-- Whether a format is signed (R113). -/
def Tag.signed : Tag → Bool
  | .i32 | .i64 => true
  | _ => false

/-- The least value of an integer format. -/
def Tag.lo (f : Tag) : Int := if f.signed then -(2 ^ (f.width - 1) : Int) else 0

/-- The greatest value of an integer format. -/
def Tag.hi (f : Tag) : Int := if f.signed then 2 ^ (f.width - 1) - 1 else 2 ^ f.width - 1

/-- The value of a pattern under a format (R113, `ext`). -/
def Tag.ext (f : Tag) (x : DWord) : Int :=
  match f with
  | .i32 => (x.setWidth 32).toInt
  | .i64 => x.toInt
  | .n64 => x.toNat
  | _ => (x.setWidth 32).toNat

/-- R116: the result and the overflow bit of an exact value. -/
def Tag.narrow (f : Tag) (sat : Bool) (t : Int) : DWord × Bool :=
  if f.lo ≤ t ∧ t ≤ f.hi then (BitVec.ofInt 64 t, false)
  else if sat then (BitVec.ofInt 64 (if t < f.lo then f.lo else f.hi), true)
  else (BitVec.ofInt 64 t, true)

end Sys2Proof
namespace Sys2Proof.Machine

/-- The overflow mask's bit (OM = 0 writes no mask). -/
def maskBit (om : MReg) (b : Bool) : List (MReg × Bool) := if om.val = 0 then [] else [(om, b)]

end Sys2Proof.Machine
end

