-- ==== Sys2Proof/Machine/Ops.lean ====
section
/-! DEFINITION. The named operations over the state: the selected team and its surroundings, the end of a per-slot
instruction (R36, R85), threads that leave a team as seeds (R187), and taking an effect (R230, R238), in one operation,
with the return from one beside it (R233, R234). -/
namespace Sys2Proof.Machine

/-! ## The selected team and its surroundings -/

def State.tm (s : State) : Team := s.team s.cur
def State.putTm (s : State) (t : Team) : State := s.setTeam s.cur t
def State.cr (s : State) : CoreSt := s.core (coreOf s.cur)
def State.putCr (s : State) (c : CoreSt) : State := s.setCore (coreOf s.cur) c

/-- The launch of the group on a core. -/
def CoreSt.launch (c : CoreSt) : Launch :=
  match c.grp with
  | some g => g.l
  | none => Launch.none

def State.launch (s : State) : Launch := s.cr.launch

/-- The `.vregs` of the selected team. -/
def State.vregs (s : State) : Nat := s.launch.vregs

/-- The context and phase of a core's group. -/
def CoreSt.ctx (c : CoreSt) : CtxId := match c.grp with | some g => g.ctx | none => 0
def CoreSt.phase (c : CoreSt) : BitVec 32 := match c.grp with | some g => g.phase | none => 0
def CoreSt.level (c : CoreSt) : Level := match c.grp with | some g => g.level | none => .die

/-- The teams of a core, with their keys. -/
def State.teamsOf (s : State) (c : Nat) : List (Nat × Team) := s.teams.filter fun p => coreOf p.1 == c

/-- A stalled instruction: time passes (R78). -/
def State.stall (s : State) : State := s

/-- The next free value. -/
def State.bump (s : State) : State := { s with free := s.free + 1 }

/-- Strict mode (R401). -/
def State.strict (s : State) : Bool := s.launch.det == 2

/-! ## Raising (R84, R85) -/

/-- The effects whose continuation is the trapping instruction itself (R238). -/
def retries (id : Nat) : Bool := id == 2 || id == 6 || id == 0xB || id == 0xC || id == 0x11 || id == 0x13

/-- The effects whose resumed value is the result (R238). -/
def resumesResult (id : Nat) : Bool := id == 4 || id == 0x12

/-- An effect of one slot, raised by the instruction at the program counter, whose length is `len`. -/
def Team.raises (t : Team) (len : Nat) (dst : Dst) (i : Nat) (e : Nat × DWord) : Raised :=
  { slot := i, eff := e.1, payload := e.2, site := t.pc,
    pc := if retries e.1 then t.pc else t.pc + BitVec.ofNat 64 len,
    dst := if resumesResult e.1 then dst else .drop, act := .nothing, perf := none }

/-! ## Threads that leave a team (R187, R450) -/

def roundUp64 (n : Nat) : Nat := (n + 63) / 64 * 64

/-- The bytes of a seed whose live range has n registers (R187). -/
def seedBytes (n : Nat) : Nat := roundUp64 (544 + (n + 1) / 2 + 4 * n)

/-- The bytes of a continuation record (R230). -/
def recBytes (n : Nat) : Nat := seedBytes n + 512

/-- An entry as one slot's seed or record holds it: its own link, at key 0 (R234). -/
def HEntry.forSlot (i : Nat) (e : HEntry) : HEntry :=
  { e with links := match e.links.lookup i with | some l => [(0, l)] | none => [] }

/-- An entry without links, as keys compare it (R188). -/
def HEntry.bare (e : HEntry) : HEntry := { e with links := [] }

/-- A divergence-stack entry as a seed holds it (R187). -/
def DEntry.bare (e : DEntry) : DEntry := { e with wait := 0, done := 0 }

/-- One thread's part of a pending result. -/
def Pend.only (lti : DWord) (p : Pend) : Pend :=
  { p with vals := p.vals.filter (·.1 == lti), out := p.out.filter (· == lti), gone := p.gone.filter (· == lti), owed := [] }

/-- A pending result once some threads have left the team: their values go with them, and what they have in the log; the
exceptions of an `xdirect` that has no access there are still the team's (R71, R91). -/
def Pend.without (l : List DWord) (p : Pend) : Pend :=
  match p.dst with
  | .uni _ => p
  | .vec _ _ =>
    if p.hostList then p.discard l
    else { p.discard l with gone := p.gone.filter fun x => !l.contains x }

/-- The marks of a thread in a live range: what is pending there for it, with a value that has come but not arrived (R450),
and the lists in the log whose exceptions alone are still to come (R91). -/
def Team.marksOf (t : Team) (g : Range) (lti : DWord) : List Pend :=
  (t.pend.filter fun p => (p.within g && p.threads.contains lti) || (!p.hostList && p.gone.contains lti)).map (Pend.only lti)

/-- A slot's values of the registers of a range. -/
def Team.valsOf (t : Team) (g : Range) (i : Nat) : SMap Word :=
  (t.v.filter fun p => p.1 % 1024 == i && inRange g (p.1 / 1024)).map fun p => (p.1 / 1024, p.2)

def Team.tagsOf (t : Team) (g : Range) : SMap Tag := t.tag.filter fun p => inRange g p.1

/-- The seed of a slot (R187). -/
def Team.seedOf (t : Team) (i : Nat) (pc : DWord) (g : Range) (h : List HEntry) (div : List DEntry) : Seed :=
  { lti := t.lti i, pc := pc, range := g, vals := t.valsOf g i, tags := t.tagsOf g, h := h.map (HEntry.forSlot i),
    div := div.map DEntry.bare, land := none, act := .nothing, marks := t.marksOf g (t.lti i),
    log := t.log.filter fun e => e.ltis == [t.lti i], traps := t.traps.filter fun e => e.lti == t.lti i,
    serving := t.serving.contains (t.lti i), bytes := seedBytes (rangeLen g) }

/-- The team without some slots: their `m0` bits clear, their remap entries read as all ones (R62), and what is still owed
to their threads goes with them. -/
def Team.leave (t : Team) (l : List Nat) : Team :=
  let gone := l.map t.lti
  { t.setM 0 (t.live &&& ~~~maskOf l) with
    remap := t.remap.filter fun p => !l.contains p.1
    pend := (t.pend.map (Pend.without gone)).filter Pend.live
    log := t.log.filter fun e => !gone.any fun x => e.ltis == [x]
    traps := t.traps.filter fun e => !gone.contains e.lti
    serving := t.serving.filter fun x => !gone.contains x }

/-- The team once the threads of some slots have exited. What is pending for them still comes to their slots, whose bits a sparse
product reads (R81, R323); only what waits for a handler of theirs never comes. -/
def Team.quit (t : Team) (l : List Nat) : Team :=
  let gone := l.map t.lti
  { t.leave l with
    pend := (t.pend.map fun p => if p.await == .handler then p.without gone else p).filter Pend.live
    exited := l.foldl (fun m i => m.put i (t.lti i)) t.exited }

/-- Bytes of spawn memory in use on a core (R187, R230). -/
def CoreSt.spawnUsed (c : CoreSt) : Nat :=
  (c.seeds.map Seed.bytes).sum + (c.recs.map Rec.bytes).sum +
    (c.rounds.map fun r => (r.parked.map Seed.bytes).sum + (r.held.map fun x => x.1.bytes).sum).sum

/-- Bytes of spawn memory that a need of n bytes lacks, 0 when it fits (R452). -/
def CoreSt.lacks (c : CoreSt) (n : Nat) : Nat := c.spawnUsed + n - c.launch.spawn * 65536

def CoreSt.addSeeds (c : CoreSt) (l : List Seed) : CoreSt := { c with seeds := c.seeds ++ l }

/-- Threads that leave by a spill, by `perform` or by `exit` add the team's flags to the group's summary (R71). -/
def CoreSt.sumFlags (c : CoreSt) (t : Team) : CoreSt := { c with fsum := c.fsum ||| t.fflags }

/-! ## Reports to the supervisor (R240, R397) -/

/-- LOC of Table 21-6 for a core. -/
def locOfCore (c : Nat) : DWord := BitVec.ofNat 64 (dieOf c * 2 ^ 56 + c % 48 / 6 * 2 ^ 48 + c % 6 * 2 ^ 40)

/-- A report enters the die's FIFO of 64 entries, or is held at its cluster while that is full (R397). -/
def State.report (s : State) (d : Nat) (r : Report) : State :=
  let x := s.die d
  s.setDie d (if x.fifo.length < 64 then { x with fifo := x.fifo ++ [r] }
    else { x with heldReports := x.heldReports ++ [r] })

/-- The report of a thread's effect (KIND 1). -/
def CoreSt.effReport (c : CoreSt) (core : Nat) (eff : Nat) (lti pc payload : DWord) (halt : Option CoreId) : Report :=
  { ctx := c.ctx, phase := c.phase, kind := 1, eff := eff, lti := lti, pc := pc, payload := payload,
    loc := locOfCore core, addr := 0, halt := halt, holder := some (clusterOf core) }

/-! ## Continuation records (R228, R230) -/

/-- Whether a place of n units in the spawn area is free. -/
def placeFree (recs : List Rec) (loc n : Nat) : Bool :=
  recs.all fun r => loc + n ≤ r.loc || r.loc + r.bytes / 64 ≤ loc

/-- The lowest free place of n units. -/
def findPlace (recs : List Rec) (n : Nat) : Nat :=
  match ((0 :: recs.map fun r => r.loc + r.bytes / 64).filter fun l => placeFree recs l n) with
  | [] => 0
  | l :: r => r.foldl Nat.min l

/-- The core with a new record. What REC and GEN of its token hold depends on its thread and on how many records the thread has
written, and on nothing else (R228, R399, log 11): REC is a free value; GEN counts on from one that is the thread's own, so that the
tokens of two threads differ. -/
def CoreSt.addRec (c : CoreSt) (r : Rec) : CoreSt × Rec :=
  let th := r.lti.toNat % 2 ^ 14
  let n := c.gens.get 0 th
  let r := { r with loc := findPlace c.recs (r.bytes / 64), shown := Config.recPlace r.lti n % (c.launch.spawn * 1024 + 1 - r.bytes / 64) % 2 ^ 20
                    gen := (Config.genBase (r.lti.toNat / 2 ^ 14) + 2 ^ 10 * th + n) % 2 ^ 24 }
  ({ c with recs := r :: c.recs, gens := c.gens.put th (n + 1) }, r)

/-- The token of a record (Table 11-3). -/
def Rec.tok (cg : Nat) (r : Rec) : DWord :=
  BitVec.ofNat 64 (r.gen * 2 ^ 40 + cg * 2 ^ 21 + (if r.ms then 2 ^ 20 else 0) + r.shown)

/-! ## Empty teams (R186, R231) -/

/-- The automatic action of a team whose `m0` is empty: the top entries act until some slot is live. -/
def Team.settleOn (t : Team) : List DEntry → Team
  | [] => { t with div := [] }
  | e :: r =>
    if e.eff then
      let t := { t.setM 0 e.wait with h := e.h, tag := e.tags, div := r, pc := e.rpc, wait := .run }
      if e.wait = 0 then t.settleOn r else t
    else if e.wait ≠ 0 then
      { t.setM 0 e.wait with div := { e with done := 0, wait := 0 } :: r, pc := e.alt, wait := .run }
    else
      let t := { t.setM 0 e.done with div := r, pc := e.rpc + 8, wait := .run }
      if e.done = 0 then t.settleOn r else t

/-- The team, settled; a register pending for the threads that run again is pending again. -/
def Team.settle (t : Team) : Team := if t.live = 0 then (t.settleOn t.div).revive else t

/-- The state with a team put back: a team whose `m0` and divergence stack are empty ends, and its residency is released
(R81, R192). -/
def State.settled (s : State) (k : Nat) (t : Team) : State :=
  let t := t.settle
  if t.live = 0 then { s with teams := s.teams.del k } else s.setTeam k t

/-! ## Taking an effect (R224, R230, R238) -/

/-- The match of an effect, counted from the top of the stack (R224). -/
def matchH (h : List HEntry) (id : Nat) : Option Nat :=
  if id = 0x16 ∨ id = 0x0A then none
  else h.findIdx? fun e => e.eff == BitVec.ofNat 16 id || e.eff == 0xFFFF

/-- The identifiers raised, ascending. -/
def insNat (n : Nat) : List Nat → List Nat
  | [] => [n]
  | m :: r => if n < m then n :: m :: r else if n = m then m :: r else m :: insNat n r

def effIds (l : List Raised) : List Nat := l.foldl (fun a r => insNat r.eff a) []

/-- The range of the registers v0 to v(`.vregs` − 1). -/
def wholeRange (vregs : Nat) : Range := some (0, Fin.ofNat 1024 (vregs - 1))

/-- The live range that a delivery captures. -/
def raisedRange (vregs : Nat) (r : Raised) : Range :=
  match r.perf with
  | some p => p.2
  | none => wholeRange vregs

/-- The record of a raising slot whose match is at index `p` from the top. -/
def Team.record (t : Team) (g : Range) (p : Nat) (r : Raised) : Rec :=
  { loc := 0, bytes := recBytes (rangeLen g), shown := 0, gen := 0, token := true,
    ms := match r.perf with | some q => q.1 | none => false,
    lti := t.lti r.slot, pc := r.pc, range := g, vals := t.valsOf g r.slot, tags := t.tag,
    entries := (t.h.take (p + 1)).map (HEntry.forSlot r.slot), div := t.div, dst := r.dst, act := r.act,
    marks := t.marksOf g (t.lti r.slot) }

/-- A group of slots that raised one identifier, with the index of its match and the matched entry. -/
structure EffGroup where
  idx : Nat
  entry : HEntry
  rs : List Raised
  deriving Repr

def Team.effGroup (t : Team) (id : Nat) : Option EffGroup :=
  match matchH t.h id with
  | none => none
  | some p =>
    match t.h[p]? with
    | none => none
    | some e => some { idx := p, entry := e, rs := t.raised.filter fun r => r.eff == id }

/-- Writes token and payload into the pairs at TK and TK + 2 (R230); what is pending there for these slots is superseded
(R76, R78). -/
def Team.giveToken (t : Team) (e : HEntry) (l : List (Nat × DWord × DWord)) : Team :=
  let t := t.dropV (l.map fun x => t.lti x.1) fun r => e.tk.val ≤ r && r ≤ e.tk.val + 3
  let t := l.foldl (fun t x => (t.wr64 e.tk x.1 x.2.1).wr64 (e.tk + 2) x.1 x.2.2) t
  (t.setTag e.tk .tok).setTag (e.tk + 2) .n64

/-- The records of a group are written in LTI order; the tokens come back by slot. -/
def CoreSt.writeRecs (c : CoreSt) (t : Team) (g : Range) (p : Nat) :
    List Raised → CoreSt × List (Nat × DWord × DWord)
  | [] => (c, [])
  | r :: rest =>
    let (c, x) := c.addRec (t.record g p r)
    let (c, l) := c.writeRecs t g p rest
    (c, (r.slot, x.tok c.cg, r.payload) :: l)

/-- The seeds of a group that leaves for its own handler (R238): token and payload stand in its live range TK to HL. -/
def Team.handlerSeeds (t : Team) (g : EffGroup) (toks : List (Nat × DWord × DWord)) : List Seed :=
  let t := t.giveToken g.entry toks
  toks.map fun x =>
    t.seedOf x.1 g.entry.hpc (some (g.entry.tk, g.entry.hl)) (t.h.drop (g.idx + 1)) t.div

/-- The other groups write their records and leave as seeds. -/
def CoreSt.sendGroups (c : CoreSt) (t : Team) (g : Range) : List EffGroup → CoreSt
  | [] => c
  | x :: rest =>
    let (c, toks) := c.writeRecs t g x.idx x.rs
    (c.addSeeds (t.handlerSeeds x toks)).sendGroups t g rest

/-- The spawn memory that a delivery needs (R230, R238). -/
def Team.deliveryNeed (t : Team) (g : Range) (first : EffGroup) (others : List EffGroup) (parked : Nat) : Nat :=
  (first.rs.length + (others.map fun x => x.rs.length).sum) * recBytes (rangeLen g) +
    (others.map fun x => x.rs.length * seedBytes (rangeLen (some (x.entry.tk, x.entry.hl)))).sum +
    (if t.div.length ≥ 32 then parked * seedBytes (rangeLen g) else 0)

/-- The effects of a team are delivered, every group having a match and spawn memory having room: the group of the lowest
identifier stays as the handler team, the slots that raised nothing are parked in an EFF entry, or leave as seeds at
divergence depth 32 (R230, R238). -/
def State.enter (s : State) (k : Nat) (g : Range) (first : EffGroup) (others : List EffGroup) : State :=
  let t := s.team k
  let core := coreOf k
  let (c, toks) := (s.core core).writeRecs t g first.idx first.rs
  let c := c.sendGroups t g others
  let inP := maskOf (first.rs.map Raised.slot)
  let out := others.flatMap fun x => x.rs.map Raised.slot
  let n := t.live &&& ~~~inP &&& ~~~maskOf out
  let nSlots := t.lanes n
  let full := t.div.length ≥ 32
  let c := c.sumFlags t
  let c := if full then c.addSeeds (nSlots.map fun i => t.seedOf i t.pc g t.h t.div) else c
  let div := if n = 0 ∨ full then t.div
    else { eff := true, rpc := t.pc, alt := 0, wait := n, done := 0, h := t.h, tags := t.tag, range := g } :: t.div
  let t' := t.leave (if full then out ++ nSlots else out)
  let t' := { t'.setM 0 inP with h := t.h.drop (first.idx + 1), div := div, pc := first.entry.hpc, wait := .run, raised := [],
                                 stuck := false }
  let c := { c with moves := c.moves.filter fun m => m != .deliver k }
  (s.setCore core c).setTeam k (t'.giveToken first.entry toks)

/-- R240: an effect without a match goes to the supervisor. A breakpoint under debug halt holds the core group halted; a
translation fault waits for its resolution; everything else is fatal to the phase, and the team issues no more. -/
def State.toSupervisor (s : State) (k : Nat) (r : Raised) : State :=
  let t := s.team k
  let core := coreOf k
  let c := s.core core
  let halts := r.eff == 0xF && (s.ctx c.ctx).debug
  let rep := c.effReport core r.eff (t.lti r.slot) r.site r.payload
    (if halts then some (Fin.ofNat 384 core) else none)
  let s := s.report (dieOf core) rep
  if halts then (s.setCore core { c with halted := true }).setTeam k { t with raised := [] }
  else s.setTeam k { t with wait := .sup }

/-- Takes the effects that a team has raised. They wait while the capture waits for a pending register (R81), or for spawn
memory (R452); a `perform` without room raises `e.spawn` instead. `fuel` bounds that second raising. -/
def State.deliverN (s : State) (k : Nat) (fuel : Nat) : State :=
  let t := s.team k
  match t.raised with
  | [] => s
  | r0 :: _ =>
    let c := s.core (coreOf k)
    let g := raisedRange c.launch.vregs r0
    let ids := effIds t.raised
    match ids.find? fun id => (t.effGroup id).isNone && id != 6 with
    | some id =>
      match t.raised.find? fun r => r.eff == id with
      | some r => s.toSupervisor k r
      | none => s
    | none =>
      if t.captureWaits g then s
      else
        match ids.filterMap t.effGroup with
        | [] => s
        | first :: others =>
          let parked := t.count t.live - t.raised.length
          let lack := c.lacks (t.deliveryNeed g first others parked)
          if lack = 0 then s.enter k g first others
          else match fuel, r0.perf with
            | fuel + 1, some _ =>
              let rs := t.raised.map fun r =>
                { r with eff := 0x13, payload := BitVec.ofNat 64 lack, pc := r.site, dst := .drop, perf := none }
              (s.setTeam k { t with raised := rs }).deliverN k fuel
            | _, _ =>
              if c.moves.contains (.deliver k) then s
              else s.setCore (coreOf k) { c with moves := c.moves ++ [.deliver k] }

def State.deliver (s : State) (k : Nat) : State := s.deliverN k 1

/-! ## The end of a per-slot instruction (R35, R36, R73) -/

/-- What an instruction does once its checks have passed: its results by active slot in LTI order, the registers that it
tags, where a resumed value lands, and its other writes. -/
structure Plan where
  len : Nat
  outs : List (Nat × Out)
  tags : List (VReg × Tag) := []
  dst : Dst := .drop
  /-- team-wide writes, made when some slot completes (R36) -/
  post : Team → Team := id
  /-- what happens whether or not slots raise (R96, R125) -/
  always : Team → Team := id

/-- One slot's writes. -/
def Team.write (t : Team) (i : Nat) (o : Out) : Team :=
  let t := o.vals.foldl (fun t w => t.wr w.1 i w.2) t
  o.bits.foldl (fun t b => t.setM b.1 (setBit t.m[b.1] i b.2)) t

/-- What is pending on a destination is superseded, the interlock having let the instruction pass. -/
def Team.supersedeD (t : Team) (d : VReg) (f : Tag) : Team :=
  let t := t.supersedeV d
  if f.pair then t.supersedeV (d + 1) else t

/-- The destinations of one instruction take their tags: a destination that is the other register of another's pair has its own. -/
def Team.tagged (t : Team) (l : List (VReg × Tag)) : Team :=
  let t := l.foldl (fun t w => t.supersedeD w.1 w.2) t
  let t := l.foldl (fun t w => t.unpair w.1 w.2) t
  l.foldl (fun t w => t.putTag w.1 w.2) t

/-- The team at the end of an instruction: flags, tags, the elements of the slots that raise nothing, the program counter;
and the effects that the other slots raise (R35, R36, R73, R85, R89). -/
def Team.finish (t : Team) (p : Plan) : Team :=
  if p.outs.isEmpty then { t with pc := t.pc + BitVec.ofNat 64 p.len }
  else
    let rs := p.outs.filterMap fun o => (o.2.effect t.fen).map (t.raises p.len p.dst o.1)
    let ok := p.outs.filter fun o => (o.2.effect t.fen).isNone
    let u := { t with fflags := t.fflags ||| orFlags p.outs }
    let u := p.always (u.tagged p.tags)
    let u := ok.foldl (fun u o => u.write o.1 o.2) u
    let u := if ok.isEmpty then u else p.post u
    { u with pc := t.pc + BitVec.ofNat 64 p.len, raised := rs }

/-- The end of an instruction of the selected team: its effects are taken at once. -/
def State.finish (s : State) (p : Plan) : State := (s.putTm (s.tm.finish p)).deliver s.cur

/-- An instruction that raises one effect in each of some slots and does nothing else. -/
def State.raiseIn (s : State) (len : Nat) (slots : List Nat) (id : Nat) (payload : DWord) : State :=
  s.finish { len := len, outs := slots.map fun i => (i, { eff := some (id, payload) }) }

/-- An instruction that touches registers under an execution mask (R37, R74, R78, R80): with no active slot the team goes
on; the tag checks come first, then the interlock, then its own work `go`. An instruction that meets R80 has not run, and sets
no tag (log 62). -/
def State.guarded (s : State) (len : Nat) (msk : MReg) (chk : Except DWord Tag) (reads : Tag → VRefs)
    (ureads : List UReg) (writes : Tag → VRefs) (go : Tag → List Nat → State) : State :=
  let t := s.tm
  let x := t.exec msk
  let act := t.lanes x
  if act.isEmpty then s.putTm { t with pc := t.pc + BitVec.ofNat 64 len }
  else match chk with
    | .error p => s.raiseIn len act 3 p
    | .ok f =>
      match t.interlock x (reads f) ureads (writes f) with
      | .stall => s.stall
      | .stuck => s.putTm { t with stuck := true }
      | .dead r => s.raiseIn len act 0x11 (BitVec.ofNat 64 r)
      | .go => go f act

/-- A guarded instruction that computes a result in each slot. -/
def State.perSlot (s : State) (len : Nat) (msk : MReg) (chk : Except DWord Tag) (reads : Tag → VRefs)
    (ureads : List UReg) (writes : Tag → VRefs) (plan : Tag → List Nat → Plan) : State :=
  s.guarded len msk chk reads ureads writes fun f act => s.finish (plan f act)

/-- The mask of a `.z` form: bits of slots outside `exec` clear (R125, R146). -/
def Team.clearOutside (t : Team) (x : MaskBits) (d : MReg) : Team := t.setM d (t.m[d] &&& x)

/-- An instruction that acts once for the team (R45): with an active slot, its uniform sources are awaited (R78), then `f`
gives the team's new state. -/
def State.uniform (s : State) (len : Nat) (msk : MReg) (ureads : List UReg) (f : Team → Team) : State :=
  let t := s.tm
  let x := t.exec msk
  if x = 0 then s.putTm { t with pc := t.pc + BitVec.ofNat 64 len }
  else match t.interlock x [] ureads [] with
    | .go => s.putTm (f { t with pc := t.pc + BitVec.ofNat 64 len })
    | _ => s.stall

/-! ## Values that arrive (R77, R450) -/

/-- The slot whose remap entry names a thread, parked slots included. -/
def Team.seat? (t : Team) (lti : DWord) : Option Nat := (t.remap.find? fun p => p.2 == lti).map (·.1)

/-- The slot that a pending value of a thread comes to: the one that holds it, or the one in which it has exited. -/
def Team.place? (t : Team) (lti : DWord) : Option Nat := (t.seat? lti).or ((t.exited.find? fun p => p.2 == lti).map (·.1))

/-- One word of a pending value. -/
def halfOf (dst : PDst) (x : DWord) : Word :=
  match dst with
  | .vec _ true => (x >>> 32).setWidth 32
  | _ => x.setWidth 32

/-- One value of a pending result is written to the slot that then holds its thread, or in which the thread has exited. -/
def Team.landVal (t : Team) (dst : PDst) (v : DWord × DWord) : Team :=
  match dst with
  | .uni r => t.setS r v.2
  | .vec r hi =>
    match t.place? v.1 with
    | some i => t.wr r i (halfOf (.vec r hi) v.2)
    | none => t

/-- The values of a pending result that have come are written; the result stays pending for what is still owed. -/
def Team.arrive (t : Team) (p : Pend) : Team :=
  let t : Team := match p.dst with
    | .uni _ => if p.kept then p.vals.foldl (fun (t : Team) v => t.landVal p.dst v) t else t
    | .vec _ _ => p.vals.foldl (fun (t : Team) v => t.landVal p.dst v) t
  { t with pend := t.pend.filterMap fun q =>
      if q = p then (if p.out.isEmpty then none else some { q with vals := [] }) else some q }

/-! ## The return from an effect (R232 to R237) -/

/-- Reads a token: core group, one of the record's place and generation. -/
def tokCg (x : DWord) : Nat := x.toNat / 2 ^ 21 % 8
def tokLoc (x : DWord) : Nat := x.toNat % 2 ^ 20
def tokGen (x : DWord) : Nat := x.toNat / 2 ^ 40

/-- R236: the record of a token that is valid for a thread, or the reason of `e.token`. -/
def CoreSt.token (c : CoreSt) (x lti : DWord) : Except DWord Rec :=
  let named (r : Rec) : Bool := r.token && r.shown == tokLoc x && r.gen == tokGen x
  if tokCg x ≠ c.cg then .error 0x02
  else match c.recs.find? fun r => named r && r.lti == lti with
    | some r => .ok r
    | none => if c.recs.any named then .error 0x03 else .error 0x01

/-- Frees a record. -/
def CoreSt.freeRec (c : CoreSt) (r : Rec) : CoreSt := { c with recs := c.recs.filter fun x => x.loc != r.loc }

/-- The registers that a resumed value is written to. An `xdirect` or a collective keeps them pending until then. -/
def Dst.regs (d : Dst) (f : Tag) : List Nat :=
  match d with
  | .perf r => VRefs.regs [(r.val, f.pair)]
  | .vec r wide => VRefs.regs [(r.val, wide)]
  | .smx a b => [a.val, b.val]
  | .head r wide n => (List.range (if wide then 2 * n else n)).map fun j => r.val + j
  | .drop | .mask _ | .uni _ | .near _ _ _ => []

/-- A resumed value written where the continuation expects it, in one slot (R233, R238); one of 32 bits in a 64-bit destination is
extended with zeros (log 149). -/
def Team.landDst (t : Team) (i : Nat) (d : Dst) (x : DWord) : Team :=
  match d with
  | .drop => t
  | .perf r => t.wr r i (x.setWidth 32)
  | .vec r wide => t.wrW wide r i x
  | .mask m => t.setM m (setBit t.m[m] i (x.getLsbD 0))
  | .smx a b => (t.wr a i (x.setWidth 32)).wr b i ((x >>> 32).setWidth 32)
  | .head r wide n =>
    let st := if wide then 2 else 1
    (List.range n).foldl (fun t j => t.wrW wide (r + st * j) i (if j = 0 then x else 0)) t
  | .uni _ => t
  | .near r wide id =>
    let k := if wide then 2 else 1
    let mine (p : Pend) : Bool := p.id == id && p.out.contains (t.lti i)
    -- a result superseded meanwhile is discarded (R78)
    let u := (List.range 4).foldl (fun (u : Team) j =>
      if t.pend.any fun p => mine p && p.dst == PDst.vec (Fin.ofNat 1024 (r + k * j)) false
      then u.wrW wide (r + k * j) i (if j = 0 then x else 0) else u) t
    { u with pend := (u.pend.map fun p =>
        if mine p then { p with out := p.out.filter fun y => y != t.lti i } else p).filter Pend.live }

/-- The value of a `perform`'s resumption carries its own tag and width into D (R233). -/
def Team.landPerf (t : Team) (i : Nat) (r : VReg) (x : DWord) (f : Tag) : Team := t.wrW f.pair r i x

/-- The value of a resumption lands in a slot: it supersedes what is pending for the slot's thread in the registers it is
written to (R76, R78). -/
def Team.landValue (t : Team) (i : Nat) (d : Dst) (x : DWord) (f : Tag) : Team :=
  let t := t.dropV [t.lti i] fun r => (d.regs f).contains r
  match d with
  | .perf r => t.landPerf i r x f
  | d => t.landDst i d x

/-- A result that a read of host memory, or of another package's page, will give. -/
def Pend.fromHost (p : Pend) : Bool :=
  match p.await with
  | .hostIn _ _ => !p.vals.isEmpty
  | .remote _ _ => !p.vals.isEmpty
  | .hostNear _ => !p.vals.isEmpty
  | _ => false

/-- Marks of a restored continuation: a value that has come meanwhile is written, the others keep their register pending
(R450). -/
def Team.restoreMark (t : Team) (i : Nat) (m : Pend) : Team :=
  if m.threads.isEmpty && m.owed.isEmpty then
    if t.pend.any fun p => p.id == m.id && p.dst == m.dst && m.gone.all p.gone.contains then t
    else { t with pend := t.pend ++ [{ m with kept := false }] }
  else if m.fromHost || !m.owed.isEmpty then { t with pend := t.pend ++ [{ m with kept := true }] }
  else if m.out.isEmpty then
    match m.dst with
    | .vec r _ => m.vals.foldl (fun (t : Team) v => t.wr r i (halfOf m.dst v.2)) t
    | .uni _ => t
  else if t.pend.any fun p => p.id == m.id && p.dst == m.dst && p.await == m.await then
    { t with pend := t.pend.map fun p =>
        if p.id == m.id && p.dst == m.dst && p.await == m.await then
          { p with kept := true, out := m.out ++ p.out.filter fun x => !m.out.contains x
                   gone := p.gone.filter fun x => !m.out.contains x } else p }
  else { t with pend := t.pend ++ [{ m with kept := true }] }

def Team.restoreMarks (t : Team) (i : Nat) (l : List Pend) : Team := l.foldl (fun t m => t.restoreMark i m) t

/-- The values of a record's live range come back into a slot. -/
def Team.restoreVals (t : Team) (i : Nat) (r : Rec) : Team :=
  let v := t.v.filter fun p => !(p.1 % 1024 == i && inRange r.range (p.1 / 1024))
  r.vals.foldl (fun t w => t.wr w.1 i w.2) { t with v := v }

/-- The tags of a register and its partner after a value with tag f came into D. -/
def Team.tagPerf (t : Team) (d : Dst) (f : Tag) : Team :=
  match d with
  | .perf r => t.setTag r f
  | _ => t

/-- Entries restored from the records of several slots: each slot keeps its own link (R234). -/
def mergeLinks (l : List (Nat × Rec)) : List HEntry :=
  match l with
  | [] => []
  | (_, r) :: _ =>
    r.entries.zipIdx.map fun e =>
      { e.1 with links := l.foldl (fun a x => match (x.2.entries[e.2]?).bind fun y => y.links.lookup 0 with
        | some k => SMap.put a x.1 k
        | none => a) [] }

/-- The stack conditions and the rest of R233: whether the resumption acts in place. -/
def Team.inPlace (t : Team) (l : List (Nat × Rec)) : Bool :=
  match l with
  | [] => false
  | (_, r) :: rest =>
    l.length == t.count t.live && l.all (fun x => !x.2.ms) &&
      rest.all (fun x => x.2.pc == r.pc && x.2.range == r.range && x.2.entries.map HEntry.bare == r.entries.map HEntry.bare &&
        x.2.div == r.div) &&
      (t.div == r.div ||
        match t.div with
        | [] => false
        | e :: below => e.eff && e.rpc == r.pc && below == r.div &&
            e.h.map HEntry.bare == (r.entries ++ t.h).map HEntry.bare)

/-- R233: the continuations of all live slots come back in the team. `l` gives slot, record and value, in LTI order, and `f`
the value's tag. -/
def Team.resumeInPlace (t : Team) (l : List (Nat × Rec × DWord)) (f : Tag) : Team :=
  match l with
  | [] => t
  | (_, r, _) :: _ =>
    let merged := t.div != r.div
    let live := if merged then (match t.div with | e :: _ => t.live ||| e.wait | [] => t.live) else t.live
    let saved := match t.div with | e :: _ => (if merged then e.h else []) | [] => []
    let new := mergeLinks (l.map fun x => (x.1, x.2.1))
    let h := (new ++ t.h).zipIdx.map fun e =>
      { e.1 with links := match saved[e.2]? with
        | some o => o.links.foldl (fun a k => match a.lookup k.1 with | some _ => a | none => SMap.put a k.1 k.2) e.1.links
        | none => e.1.links }
    -- what the handler left pending in the range is superseded by the values that come back
    let t := t.dropV (l.map fun x => t.lti x.1) (inRange r.range)
    let t := l.foldl (fun t x => t.restoreVals x.1 x.2.1) t
    let t := { t.setM 0 live with tag := r.tags, h := h, div := r.div, pc := r.pc, wait := .run, stuck := false }
    let t := l.foldl (fun t x => t.restoreMarks x.1 x.2.1.marks) t
    let t := l.foldl (fun t x => t.landValue x.1 x.2.1.dst x.2.2 f) t
    (t.tagPerf r.dst f).revive

/-- The value of a resumption as a seed carries it: only a `perform`'s D takes the value's tag (R233, R238). -/
def Dst.carried (d : Dst) (x : DWord) (f : Tag) : Option (Dst × DWord × Tag) :=
  match d with
  | .drop => none
  | .uni _ => none
  | .perf r => some (.perf r, x, f)
  | d => some (d, x, .none)

/-- The tags of a record's live range once a value with tag f has come into D. -/
def Rec.seedTags (r : Rec) (f : Tag) : SMap Tag :=
  ({ Team.vacant with tag := r.tags }.tagPerf r.dst f).tag.filter fun p => inRange r.range p.1

/-- The seed of a record's continuation (R233, R234): the current stack followed by the recorded entries. -/
def Rec.seed (r : Rec) (cur : List HEntry) (x : DWord) (f : Tag) (log : List LogE) (traps : List Trap) (serving : Bool) : Seed :=
  { lti := r.lti, pc := r.pc, range := r.range, vals := r.vals, tags := r.seedTags f,
    h := r.entries ++ cur, div := r.div.map DEntry.bare, land := r.dst.carried x f, act := r.act, marks := r.marks,
    log := log, traps := traps, serving := serving, bytes := seedBytes (rangeLen r.range) }

end Sys2Proof.Machine
end

