-- ==== Sys2Proof/Machine/Integer.lean ====
section
/-! DEFINITION. The vector integer group G1 (05, R113 to R131). -/
namespace Sys2Proof.Machine

def isInt4 (f : Tag) : Bool := f == .i32 || f == .n32 || f == .i64 || f == .n64
def isSigned2 (f : Tag) : Bool := f == .i32 || f == .i64
def isHeld (f : Tag) : Bool := f != .none

/-- The w-bit pattern of an element, unsigned. -/
def pat (f : Tag) (x : DWord) : Nat := x.toNat % 2 ^ f.width

/-- A w-bit pattern as an element. -/
def ofPat (f : Tag) (n : Nat) : DWord := BitVec.ofNat 64 (n % 2 ^ f.width)

/-- R113, R114, R74: an instruction whose typed sources and destination have the operation format. `raw` are raw 32-bit
sources. -/
def State.vop (s : State) (len : Nat) (msk : MReg) (fa : Tag) (acc : Tag → Bool) (d : VReg) (srcs raw : List VReg)
    (res : Tag → Tag) (g : Tag → Team → Nat → Out) : State :=
  let t := s.tm
  let chk := (t.tagCheck fa false acc (srcs.map (·.val))).bind fun f =>
    (pairDest s.vregs (res f) d).map fun _ => f
  s.perSlot len msk chk (fun f => (srcs.map fun r => (r.val, f.pair)) ++ raw.map fun r => (r.val, false)) []
    (fun f => [(d.val, (res f).pair)])
    fun f act => { len := len, outs := act.map fun i => (i, g f t i), tags := [(d, res f)], dst := .vec d (res f).pair }

/-- The result of an exact integer under R116, with its overflow bit. -/
def exactOut (f : Tag) (d : VReg) (sat : Bool) (om : MReg) (v : Int) : Out :=
  let r := f.narrow sat v
  { vals := words d f.pair r.1, bits := maskBit om r.2 }

/-- A result pattern. -/
def patOut (f : Tag) (d : VReg) (n : Nat) : Out := { vals := words d f.pair (ofPat f n) }

/-- Two-source instructions of R119 with SAT and OM. -/
def State.varith (s : State) (o : VArith) (g : Int → Int → Int) : State :=
  s.vop 8 o.msk o.fa isInt4 o.d [o.a, o.b] [] id fun f t i =>
    exactOut f o.d o.sat o.om (g (f.ext (t.rdTag f o.a i)) (f.ext (t.rdTag f o.b i)))

/-- One-source instructions of R119 with SAT and OM; only signed formats are accepted. -/
def State.varith1 (s : State) (o : VArith1) (g : Int → Int) : State :=
  s.vop 8 o.msk o.fa isSigned2 o.d [o.a] [] id fun f t i =>
    exactOut f o.d o.sat o.om (g (f.ext (t.rdTag f o.a i)))

/-- Two-source instructions whose result is a pattern. -/
def State.vbin (s : State) (o : VBin) (g : Tag → DWord → DWord → Nat) : State :=
  s.vop 8 o.msk o.fa isInt4 o.d [o.a, o.b] [] id fun f t i =>
    patOut f o.d (g f (t.rdTag f o.a i) (t.rdTag f o.b i))

/-- One-source instructions whose result is a pattern under the format `res` gives. -/
def State.vun (s : State) (o : VUn) (res : Tag → Tag) (g : Tag → DWord → Nat) : State :=
  s.vop 8 o.msk o.fa isInt4 o.d [o.a] [] res fun f t i => patOut (res f) o.d (g f (t.rdTag f o.a i))

def execAdd (o : VArith) (s : State) : Host.Outcome State Fault Refusal := .next (s.varith o fun x y => x + y)
def execSub (o : VArith) (s : State) : Host.Outcome State Fault Refusal := .next (s.varith o fun x y => x - y)
def execMul (o : VArith) (s : State) : Host.Outcome State Fault Refusal := .next (s.varith o fun x y => x * y)

/-- ⌊a × b ÷ 2^w⌋, taken mod 2^w. -/
def execMulh (o : VBin) (s : State) : Host.Outcome State Fault Refusal :=
  .next (s.vbin o fun f x y => (f.ext x * f.ext y / 2 ^ f.width % 2 ^ f.width).toNat)

/-- The addend of `mad`: a register, or IMM32 read under the format (R119). -/
def madAddend (t : Team) (f : Tag) (i : Nat) : Src32 → Int
  | .reg r => f.ext (t.rdTag f r i)
  | .imm w => f.ext (w.signExtend 64)

/-- The typed source register of a third source. -/
def Src32.regs : Src32 → List VReg
  | .reg r => [r]
  | .imm _ => []

def execMad (o : VMad) (s : State) : Host.Outcome State Fault Refusal :=
  .next (s.vop 12 o.msk o.fa isInt4 o.d ([o.a, o.b] ++ Src32.regs o.c) [] id fun f t i =>
    exactOut f o.d o.sat o.om (f.ext (t.rdTag f o.a i) * f.ext (t.rdTag f o.b i) + madAddend t f i o.c))

/-- R120: a zero divisor raises `e.idiv` with the dividend, extended to 64 bits. -/
def idiv (x : Int) : Out := { eff := some (0x12, BitVec.ofInt 64 x) }

def execDiv (o : VArith) (s : State) : Host.Outcome State Fault Refusal :=
  .next (s.vop 8 o.msk o.fa isInt4 o.d [o.a, o.b] [] id fun f t i =>
    let x := f.ext (t.rdTag f o.a i)
    let y := f.ext (t.rdTag f o.b i)
    if y = 0 then idiv x else exactOut f o.d o.sat o.om (x.tdiv y))

def execRem (o : VBin) (s : State) : Host.Outcome State Fault Refusal :=
  .next (s.vop 8 o.msk o.fa isInt4 o.d [o.a, o.b] [] id fun f t i =>
    let x := f.ext (t.rdTag f o.a i)
    let y := f.ext (t.rdTag f o.b i)
    if y = 0 then idiv x else exactOut f o.d false 0 (x.tmod y))

def execNeg (o : VArith1) (s : State) : Host.Outcome State Fault Refusal := .next (s.varith1 o fun x => -x)
def execAbs (o : VArith1) (s : State) : Host.Outcome State Fault Refusal := .next (s.varith1 o fun x => (x.natAbs : Int))

def execMin (o : VBin) (s : State) : Host.Outcome State Fault Refusal :=
  .next (s.vbin o fun f x y => if f.ext x ≤ f.ext y then pat f x else pat f y)
def execMax (o : VBin) (s : State) : Host.Outcome State Fault Refusal :=
  .next (s.vbin o fun f x y => if f.ext y ≤ f.ext x then pat f x else pat f y)

def execAnd (o : VBin) (s : State) : Host.Outcome State Fault Refusal := .next (s.vbin o fun _ x y => (x &&& y).toNat)
def execOr (o : VBin) (s : State) : Host.Outcome State Fault Refusal := .next (s.vbin o fun _ x y => (x ||| y).toNat)
def execXor (o : VBin) (s : State) : Host.Outcome State Fault Refusal := .next (s.vbin o fun _ x y => (x ^^^ y).toNat)
def execNot (o : VUn) (s : State) : Host.Outcome State Fault Refusal := .next (s.vun o id fun _ x => (~~~x).toNat)
def execAndn (o : VBin) (s : State) : Host.Outcome State Fault Refusal := .next (s.vbin o fun _ x y => (x &&& ~~~y).toNat)

/-! ## Shifts, counts and bit fields (R122 to R124) -/

/-- The shift functions on w-bit patterns (R122). -/
def shlW (w x n : Nat) : Nat := if n < w then x * 2 ^ n % 2 ^ w else 0
def shrW (w x n : Nat) : Nat := if n < w then x / 2 ^ n else 0
def sarW (w x n : Nat) : Nat :=
  let k := if n < w then n else w
  if x / 2 ^ (w - 1) = 1 then x / 2 ^ k + (2 ^ k - 1) * 2 ^ (w - k) else x / 2 ^ k
def rotW (w x n : Nat) : Nat :=
  let k := n % w
  (x * 2 ^ k % 2 ^ w) + x / 2 ^ (w - k)

/-- The amount of a shift in a slot. -/
def amount (t : Team) (i : Nat) : Amt → Nat
  | .reg r => (t.rd r i).toNat
  | .imm n => n

def Amt.regs : Amt → List VReg
  | .reg r => [r]
  | .imm _ => []

def State.vshift (s : State) (o : VShift) (g : Nat → Nat → Nat → Nat) : State :=
  s.vop 8 o.msk o.fa isInt4 o.d [o.a] (Amt.regs o.amt) id fun f t i =>
    patOut f o.d (g f.width (pat f (t.rdTag f o.a i)) (amount t i o.amt))

def execShl (o : VShift) (s : State) : Host.Outcome State Fault Refusal := .next (s.vshift o shlW)
def execShr (o : VShift) (s : State) : Host.Outcome State Fault Refusal := .next (s.vshift o shrW)
def execSar (o : VShift) (s : State) : Host.Outcome State Fault Refusal := .next (s.vshift o sarW)
def execRot (o : VShift) (s : State) : Host.Outcome State Fault Refusal := .next (s.vshift o rotW)

/-- Zero bits above the highest set bit of a w-bit pattern. -/
def clzN : (w : Nat) → (x : Nat) → Nat
  | 0, _ => 0
  | w + 1, x => if x / 2 ^ w % 2 = 1 then 0 else 1 + clzN w x

/-- Zero bits below the lowest set bit. -/
def ctzN : (w : Nat) → (x : Nat) → Nat
  | 0, _ => 0
  | w + 1, x => if x % 2 = 1 then 0 else 1 + ctzN w (x / 2)

/-- Set bits. -/
def popN : (w : Nat) → (x : Nat) → Nat
  | 0, _ => 0
  | w + 1, x => x % 2 + popN w (x / 2)

/-- Bits in reverse. -/
def revN : (w : Nat) → (x : Nat) → Nat
  | 0, _ => 0
  | w + 1, x => x % 2 * 2 ^ w + revN w (x / 2)

def toN32 (_ : Tag) : Tag := .n32

def execClz (o : VUn) (s : State) : Host.Outcome State Fault Refusal :=
  .next (s.vun o toN32 fun f x => clzN f.width (pat f x))
def execCtz (o : VUn) (s : State) : Host.Outcome State Fault Refusal :=
  .next (s.vun o toN32 fun f x => ctzN f.width (pat f x))
def execPopc (o : VUn) (s : State) : Host.Outcome State Fault Refusal :=
  .next (s.vun o toN32 fun f x => popN f.width (pat f x))
def execBrev (o : VUn) (s : State) : Host.Outcome State Fault Refusal :=
  .next (s.vun o id fun f x => revN f.width (pat f x))

/-- Position and length of a bit field in a slot (R124). -/
def fieldOf (t : Team) (i : Nat) : Fld → Nat × Nat
  | .imm p l => (p, l)
  | .reg c => let x := (t.rd c i).toNat; (x % 64, Nat.min (x / 2 ^ 8 % 128) 64)

def Fld.regs : Fld → List VReg
  | .reg c => [c]
  | .imm _ _ => []

/-- `bfe` on the infinite extension of a value (R124): `sx` sign-extends the field. -/
def bfeInt (sx : Bool) (x : Int) (p l : Nat) : Int :=
  let f := x / 2 ^ p % 2 ^ l
  if sx ∧ 0 < l ∧ 2 ^ (l - 1) ≤ f then f - 2 ^ l else f

/-- `bfi` on w-bit patterns (R124). -/
def bfiN (w x y p l : Nat) : Nat :=
  let hi := Nat.min (p + l) w
  if p < hi then x % 2 ^ p + y % 2 ^ (hi - p) * 2 ^ p + x / 2 ^ hi * 2 ^ hi else x

def execBfe (o : VBfe) (s : State) : Host.Outcome State Fault Refusal :=
  .next (s.vop 12 o.msk o.fa isInt4 o.d [o.a] (Fld.regs o.fld) id fun f t i =>
    let g := fieldOf t i o.fld
    { vals := words o.d f.pair (BitVec.ofInt 64 (bfeInt f.signed (f.ext (t.rdTag f o.a i)) g.1 g.2 % 2 ^ f.width)) })

def execBfi (o : VBfi) (s : State) : Host.Outcome State Fault Refusal :=
  .next (s.vop 12 o.msk o.fa isInt4 o.d [o.a, o.b] (Fld.regs o.fld) id fun f t i =>
    let g := fieldOf t i o.fld
    patOut f o.d (bfiN f.width (pat f (t.rdTag f o.a i)) (f.ext (t.rdTag f o.b i) % 2 ^ g.2).toNat g.1 g.2))

/-! ## Compare, select, moves (R125 to R128) -/

/-- A compare of integers (R125, R137). -/
def cmpInt (cc : Cond) (x y : Int) : Bool :=
  match cc with
  | .eq => x == y
  | .ne => x != y
  | .lt => x < y
  | .le => x ≤ y
  | .gt => y < x
  | .ge => y ≤ x
  | .un => false
  | .or => true

/-- A compare writes a mask: the bits of the active slots, and under Z zeros elsewhere. -/
def State.cmpTo (s : State) (len : Nat) (msk d : MReg) (a b : VReg) (fa : Tag) (acc : Tag → Bool) (z : Bool)
    (g : Tag → Team → Nat → Out) : State :=
  let t := s.tm
  s.perSlot len msk (t.tagCheck fa false acc [a.val, b.val]) (fun f => [(a.val, f.pair), (b.val, f.pair)]) [] (fun _ => [])
    fun f act =>
      { len := len, outs := act.map fun i => (i, g f t i), dst := .mask d
        always := fun t => if z then t.clearOutside (maskOf act) d else t }

def execCmp (o : VCmp) (s : State) : Host.Outcome State Fault Refusal :=
  .next (s.cmpTo 8 o.msk o.d o.a o.b o.fa isInt4 o.z fun f t i =>
    { bits := [(o.d, cmpInt o.cc (f.ext (t.rdTag f o.a i)) (f.ext (t.rdTag f o.b i)))] })

def execSel (o : VSel) (s : State) : Host.Outcome State Fault Refusal :=
  .next (s.vop 8 o.msk o.fa isHeld o.d [o.a, o.b] [] id fun f t i =>
    { vals := words o.d f.pair (t.rdTag f (if t.m[o.sm].getLsbD i then o.a else o.b) i) })

def execMov (o : VUn) (s : State) : Host.Outcome State Fault Refusal :=
  let t := s.tm
  .next (s.perSlot 8 o.msk (t.moveTag s.vregs o.fa o.a o.d) (fun f => [(o.a.val, f.pair)]) [] (fun f => [(o.d.val, f.pair)])
    fun f act =>
      { len := 8, outs := act.map fun i => (i, { vals := words o.d f.pair (t.rdTag f o.a i) }), tags := [(o.d, f)] })

/-- Table 5-3. -/
def moviVal (f : Tag) (w : BitVec 32) : DWord :=
  match f with
  | .i64 => w.signExtend 64
  | .f64 => w ++ (0 : BitVec 32)
  | _ => w.setWidth 64

def execMovi (o : VMovi) (s : State) : Host.Outcome State Fault Refusal :=
  .next (s.perSlot 12 o.msk (.ok o.fa) (fun _ => []) [] (fun f => [(o.d.val, f.pair)])
    fun f act =>
      { len := 12, outs := act.map fun i => (i, { vals := words o.d f.pair (moviVal f o.imm) }), tags := [(o.d, f)] })

/-! ## Add with carry, conversion (R129, R130) -/

/-- Sum or difference with carry: the result modulo 2^w and the carry out. -/
def addcN (bor : Bool) (w x y cin : Nat) : Nat × Bool :=
  if bor then ((x + 2 ^ w + 2 ^ w - y - cin) % 2 ^ w, decide (x < y + cin)) else ((x + y + cin) % 2 ^ w, decide (2 ^ w ≤ x + y + cin))

def execAddc (o : VAddc) (s : State) : Host.Outcome State Fault Refusal :=
  .next (s.vop 12 o.msk o.fa isInt4 o.d [o.a, o.b] [] id fun f t i =>
    let cin := if o.ci.val ≠ 0 ∧ t.m[o.ci].getLsbD i then 1 else 0
    let r := addcN o.bor f.width (pat f (t.rdTag f o.a i)) (pat f (t.rdTag f o.b i)) cin
    { vals := words o.d f.pair (ofPat f r.1), bits := maskBit o.co r.2 })

/-- R130: the target's format is the result's; values outside its range saturate. -/
def execCvti (o : VCvti) (s : State) : Host.Outcome State Fault Refusal :=
  .next (s.vop 8 o.msk .none isInt4 o.d [o.a] [] (fun _ => o.tgt) fun f t i =>
    exactOut o.tgt o.d true o.om (f.ext (t.rdTag f o.a i)))

end Sys2Proof.Machine
end

