-- ==== Sys2Proof/Machine/Formats.lean ====
section
/-! DEFINITION. Number formats, rounding and exact sums (04): the IEEE formats, K8T, F4, the rounding modes, the exceptions,
and the exact magnitudes that are rounded. -/
namespace Sys2Proof.Machine

/-! ## Values (R86, R87) -/

/-- An IEEE binary format by the widths of its exponent and fraction (Table 4-1). -/
structure Ieee where
  eb : Nat
  fb : Nat
  deriving DecidableEq, Repr

def fp64 : Ieee := { eb := 11, fb := 52 }
def fp32 : Ieee := { eb := 8, fb := 23 }
def fp16 : Ieee := { eb := 5, fb := 10 }
def bf16 : Ieee := { eb := 8, fb := 7 }

def Ieee.width (F : Ieee) : Nat := 1 + F.eb + F.fb
def Ieee.bias (F : Ieee) : Nat := 2 ^ (F.eb - 1) - 1
/-- The exponent of the smallest normal. -/
def Ieee.emin (F : Ieee) : Int := 1 - F.bias
/-- The exponent of the last bit of a subnormal. -/
def Ieee.qmin (F : Ieee) : Int := F.emin - F.fb
def Ieee.inf (F : Ieee) : Nat := (2 ^ F.eb - 1) * 2 ^ F.fb
def Ieee.maxFin (F : Ieee) : Nat := F.inf - 1
def Ieee.signBit (F : Ieee) (s : Bool) : Nat := if s then 2 ^ (F.eb + F.fb) else 0
def Ieee.qnan (F : Ieee) : Nat := F.inf + 2 ^ (F.fb - 1)

/-- The value of an element: a NaN by kind, sign and fraction of `fb` bits; the K8T NaN, neither quiet nor signalling
(R98); an infinity; or ±m · 2^e, zeros with their sign. -/
inductive FVal where
  | nan (sig neg : Bool) (frac fb : Nat)
  | knan
  | inf (neg : Bool)
  | fin (neg : Bool) (m : Nat) (e : Int)
  deriving DecidableEq, Repr, Inhabited

def FVal.isNan : FVal → Bool
  | .nan _ _ _ _ => true
  | .knan => true
  | _ => false

def FVal.isSig : FVal → Bool
  | .nan s _ _ _ => s
  | _ => false

def FVal.isZero : FVal → Bool
  | .fin _ m _ => m == 0
  | _ => false

def FVal.neg : FVal → Bool
  | .nan _ n _ _ => n
  | .knan => false
  | .inf n => n
  | .fin n _ _ => n

/-- The value of a pattern. -/
def Ieee.val (F : Ieee) (x : Nat) : FVal :=
  let s := x / 2 ^ (F.eb + F.fb) % 2 == 1
  let e := x / 2 ^ F.fb % 2 ^ F.eb
  let f := x % 2 ^ F.fb
  if e = 2 ^ F.eb - 1 then
    if f = 0 then .inf s else .nan (f / 2 ^ (F.fb - 1) == 0) s f F.fb
  else if e = 0 then .fin s f F.qmin
  else .fin s (2 ^ F.fb + f) (F.qmin + e - 1)

/-- R87: a NaN as the result in a format: quieted, its payload aligned at the top fraction bit. -/
def Ieee.quiet (F : Ieee) (x : FVal) : Nat :=
  match x with
  | .nan _ n f fb =>
    let f := if F.fb ≤ fb then f / 2 ^ (fb - F.fb) else f * 2 ^ (F.fb - fb)
    F.signBit n + F.inf + (if f / 2 ^ (F.fb - 1) % 2 = 1 then f else f + 2 ^ (F.fb - 1))
  | _ => F.qnan

/-! ## Exact magnitudes -/

/-- ⌊log2 n⌋ of a positive number. -/
def lg (n : Nat) : Nat := Nat.log2 n

/-- A positive real: the exponent of its leading bit, and for each weight 2^k the number of whole multiples of it with
whether anything remains. -/
structure Mag where
  ilog : Int
  floorAt : Int → Nat × Bool

/-- m · 2^e, m positive. -/
def Mag.dyadic (m : Nat) (e : Int) : Mag :=
  { ilog := e + lg m
    floorAt := fun k =>
      if k ≤ e then (m * 2 ^ (e - k).toNat, false)
      else (m / 2 ^ (k - e).toNat, m % 2 ^ (k - e).toNat != 0) }

/-- n / d · 2^e, both positive. -/
def Mag.ratio (n d : Nat) (e : Int) : Mag :=
  let at' (k : Int) : Nat × Bool :=
    if k ≤ e then (n * 2 ^ (e - k).toNat / d, n * 2 ^ (e - k).toNat % d != 0)
    else (n / (d * 2 ^ (k - e).toNat), n % (d * 2 ^ (k - e).toNat) != 0)
  let g : Int := lg n - lg d
  { ilog := e + (if (at' (e + g)).1 = 0 then g - 1 else g), floorAt := at' }

/-- Newton's steps from above towards a square root, until they fall no further. -/
def isqrtGo (n : Nat) : (fuel x : Nat) → Nat
  | 0, x => x
  | fuel + 1, x => if (x + n / x) / 2 < x then isqrtGo n fuel ((x + n / x) / 2) else x

/-- The integer square root. -/
def isqrt (n : Nat) : Nat := if n = 0 then 0 else isqrtGo n (lg n + 2) (2 ^ (lg n / 2 + 1))

/-- √(m · 2^e), m positive. -/
def Mag.sqrt (m : Nat) (e : Int) : Mag :=
  { ilog := (e + lg m) / 2
    floorAt := fun k =>
      let j := e - 2 * k
      if 0 ≤ j then
        let n := m * 2 ^ j.toNat
        let r := isqrt n
        (r, r * r != n)
      else
        let d := 2 ^ (-j).toNat
        let r := isqrt (m / d)
        (r, r * r * d != m) }

/-- 1 ÷ √(m · 2^e), m positive. -/
def Mag.rsqrt (m : Nat) (e : Int) : Mag :=
  let l : Int := e + lg m
  { ilog := if m = 2 ^ lg m then (-l) / 2 else (-l - 1) / 2
    floorAt := fun k =>
      let j := -(2 * k) - e
      if 0 ≤ j then
        let r := isqrt (2 ^ j.toNat / m)
        (r, r * r * m != 2 ^ j.toNat)
      else
        (0, true) }

/-! ## Rounding (R93, R94, R97) -/

/-- The rounding modes of Table 4-5, SR with its drawn word. -/
inductive RMode where
  | rne | rtz | rup | rdn | rna
  | sr (word : Nat)
  deriving DecidableEq, Repr

/-- Whether the neighbour of larger magnitude is taken: from the parity of the smaller one, the top 16 discarded bits and
whether more was discarded. -/
def roundsUp (md : RMode) (neg : Bool) (odd : Bool) (top : Nat) (more : Bool) : Bool :=
  let inexact := top != 0 || more
  match md with
  | .rne => 2 ^ 15 < top || (top == 2 ^ 15 && (more || odd))
  | .rna => 2 ^ 15 ≤ top
  | .rtz => false
  | .rup => inexact && !neg
  | .rdn => inexact && neg
  | .sr w => inexact && 2 ^ 16 ≤ top + w

/-- Rounding to multiples of 2^q: the multiple, and whether the result differs from the exact value. -/
def roundAt (md : RMode) (neg : Bool) (x : Mag) (q : Int) : Nat × Bool :=
  let r := x.floorAt (q - 16)
  let n := r.1 / 2 ^ 16
  let top := r.1 % 2 ^ 16
  (if roundsUp md neg (n % 2 == 1) top r.2 then n + 1 else n, top != 0 || r.2)

/-- R94: the result of an overflow. -/
def Ieee.overflow (F : Ieee) (md : RMode) (neg : Bool) : Nat :=
  F.signBit neg + (match md with
    | .rne | .rna | .sr _ => F.inf
    | .rtz => F.maxFin
    | .rup => if neg then F.maxFin else F.inf
    | .rdn => if neg then F.inf else F.maxFin)

def flags (of uf nx : Bool) : BitVec 6 := (if of then flOF else 0) ||| (if uf then flUF else 0) ||| (if nx then flNX else 0)

/-- Rounds a non-zero exact value into a format: the pattern and its exceptions. `fixed`: a fixed-rounding function, which
overflows to infinity as soon as the exact value exceeds the largest finite magnitude (R151). -/
def Ieee.round (F : Ieee) (md : RMode) (fixed : Bool) (neg : Bool) (x : Mag) : Nat × BitVec 6 :=
  let q := if x.ilog - F.fb ≤ F.qmin then F.qmin else x.ilog - F.fb
  let (n, nx) := roundAt md neg x q
  let q' : Int := if n = 2 ^ (F.fb + 1) then q + 1 else q
  let n' := if n = 2 ^ (F.fb + 1) then 2 ^ F.fb else n
  -- the largest finite value is (2^(fb+1) − 1) · 2^(bias − fb)
  if q' > (F.bias : Int) - F.fb ∨ (fixed ∧ nx ∧ q' = (F.bias : Int) - F.fb ∧ n' = 2 ^ (F.fb + 1) - 1) then
    (if fixed then F.signBit neg + F.inf else F.overflow md neg, flags true false true)
  else
    let tiny := x.ilog < F.emin &&
      !(x.ilog == F.emin - 1 && (roundAt md neg x (x.ilog - F.fb)).1 == 2 ^ (F.fb + 1))
    let code := if n' < 2 ^ F.fb then n' else (q' - F.qmin + 1).toNat * 2 ^ F.fb + (n' - 2 ^ F.fb)
    (F.signBit neg + code, flags false (tiny && nx) nx)

/-- A finite value rounded; a zero keeps its sign. -/
def Ieee.roundFin (F : Ieee) (md : RMode) (neg : Bool) (m : Nat) (e : Int) : Nat × BitVec 6 :=
  if m = 0 then (F.signBit neg, 0) else F.round md false neg (Mag.dyadic m e)

/-! ## K8T and F4 (R98 to R101) -/

/-- Exponent and eighths of 1 + f of a positive K8T code (Table 4-8). -/
def k8tParts (c : Nat) : Int × Nat :=
  let w (hi lo : Nat) : Nat := c / 2 ^ lo % 2 ^ (hi + 1 - lo)
  if c ≥ 64 then ((w 5 3 : Int) - 4, 8 + w 2 0)
  else if c ≥ 32 then (if w 4 2 < 4 then (w 4 2 : Int) - 8 else w 4 2, 8 + 2 * w 1 0)
  else if c ≥ 16 then (if w 3 2 < 2 then (w 3 2 : Int) - 10 else (w 3 2 : Int) + 6, 8 + 2 * w 1 0)
  else if c ≥ 8 then (if w 2 1 < 2 then (w 2 1 : Int) - 12 else (w 2 1 : Int) + 8, 8 + 4 * w 0 0)
  else if c ≥ 4 then (if w 1 1 = 0 then -13 else 12, 8 + 4 * w 0 0)
  else if c ≥ 2 then (if w 0 0 = 0 then -14 else 13, 8)
  else (-15, 8)

def k8tVal (x : Nat) : FVal :=
  if x % 256 = 0x80 then .knan
  else if x % 128 = 0 then .fin false 0 0
  else
    let p := k8tParts (x % 128)
    .fin (x / 128 % 2 == 1) p.2 (p.1 - 3)

/-- F4 magnitudes in halves (Table 4-10). -/
def f4Halves : List Nat := [0, 1, 2, 3, 4, 6, 8, 12]

def f4Val (x : Nat) : FVal := .fin (x / 8 % 2 == 1) (f4Halves.getD (x % 8) 0) (-1)

/-- The positive K8T codes in ascending value, with 0, and their values in units of 2^−15. -/
def k8tOrder : List Nat :=
  [0, 1, 2, 4, 5] ++ (List.range 4).map (· + 8) ++ (List.range 8).map (· + 16) ++ (List.range 16).map (· + 32) ++
  (List.range 64).map (· + 64) ++ (List.range 16).map (· + 48) ++ (List.range 8).map (· + 24) ++
  (List.range 4).map (· + 12) ++ [6, 7, 3]

def k8tTable : List (Nat × Nat) :=
  k8tOrder.map fun c => (c, if c = 0 then 0 else (k8tParts c).2 * 2 ^ ((k8tParts c).1 + 15).toNat / 8)

def f4Table : List (Nat × Nat) := f4Halves.zipIdx.map fun p => (p.2, p.1)

/-- The neighbours that enclose a number of units, the table ascending. -/
def neighbours (x : Nat) : List (Nat × Nat) → Option ((Nat × Nat) × Option (Nat × Nat))
  | [] => none
  | [a] => some (a, none)
  | a :: b :: r => if x < b.2 then some (a, some b) else neighbours x (b :: r)

/-- Rounds an exact magnitude to a table whose values are in units of 2^u: the code, and the exceptions (R100, R101). -/
def roundTable (tbl : List (Nat × Nat)) (u : Int) (md : RMode) (neg : Bool) (x : Mag) : Nat × BitVec 6 :=
  let r := x.floorAt (u - 16)
  let units := r.1 / 2 ^ 16
  let tiny := units = 0
  match neighbours units tbl with
  | none => (0, 0)
  | some (a, none) => (a.1, if r.1 = a.2 * 2 ^ 16 ∧ !r.2 then 0 else flags true false true)
  | some (a, some b) =>
    let gap := b.2 - a.2
    let past := r.1 - a.2 * 2 ^ 16
    let top := past / gap
    let more := past % gap != 0 || r.2
    let nx := top != 0 || more
    -- a tie goes to the code whose last bit is 0, else to the smaller magnitude
    let odd := a.1 % 2 == 1 && b.1 % 2 == 0
    (if roundsUp md neg odd top more then b.1 else a.1, flags false (tiny && nx) nx)

/-! ## Elements of all float formats -/

/-- Element formats. -/
inductive EFmt where
  | ieee (F : Ieee)
  | k8t
  | f4
  /-- an integer of a width, signed or not -/
  | int (w : Nat) (sg : Bool)
  deriving DecidableEq, Repr

def EFmt.bits : EFmt → Nat
  | .ieee F => F.width
  | .k8t => 8
  | .f4 => 4
  | .int w _ => w

/-- The element format of a tag. -/
def elemOf : Tag → EFmt
  | .f32 => .ieee fp32
  | .f64 => .ieee fp64
  | .bf16x2 => .ieee bf16
  | .f16x2 => .ieee fp16
  | .k8tx4 => .k8t
  | .f4x8 => .f4
  | .i8x4 => .int 8 true
  | .i4x8 => .int 4 true
  | .i64 => .int 64 true
  | .n64 => .int 64 false
  | .i32 => .int 32 true
  | _ => .int 32 false

/-- How many elements a tag packs (R102, R153). -/
def elemCount : Tag → Nat
  | .bf16x2 | .f16x2 => 2
  | .k8tx4 | .i8x4 => 4
  | .f4x8 | .i4x8 => 8
  | _ => 1

/-- Element k of a packed value. -/
def getElem' (f : Tag) (x : DWord) (k : Nat) : Nat :=
  let b := (elemOf f).bits
  x.toNat / 2 ^ (b * k) % 2 ^ b

/-- A packed value with element k replaced. -/
def putElem (f : Tag) (x : DWord) (k v : Nat) : DWord :=
  let b := (elemOf f).bits
  BitVec.ofNat 64 (x.toNat - x.toNat / 2 ^ (b * k) % 2 ^ b * 2 ^ (b * k) + v % 2 ^ b * 2 ^ (b * k))

/-- The value of an element. -/
def EFmt.val (f : EFmt) (x : Nat) : FVal :=
  match f with
  | .ieee F => F.val x
  | .k8t => k8tVal x
  | .f4 => f4Val x
  | .int w sg => if sg ∧ 2 ^ (w - 1) ≤ x then .fin true (2 ^ w - x) 0 else .fin false x 0

def svFlags (x : FVal) : BitVec 6 := if x.isSig then flSN else 0

/-- R112: conversion to an integer; the rounded integer decides the range. -/
def toIntElem (w : Nat) (sg : Bool) (md : RMode) (x : FVal) : Nat × BitVec 6 :=
  let hi : Nat := if sg then 2 ^ (w - 1) - 1 else 2 ^ w - 1
  let lo : Nat := if sg then 2 ^ (w - 1) else 0
  match x with
  | .nan s _ _ _ => (0, if s then flSN else flNV)
  | .knan => (0, flNV)
  | .inf n => (if n then (2 ^ w - lo) % 2 ^ w else hi, flNV)
  | .fin n m e =>
    if m = 0 then (0, 0)
    else
      let (r, nx) := roundAt md n (Mag.dyadic m e) 0
      if n then
        if r ≤ lo then ((2 ^ w - r) % 2 ^ w, flags false false nx) else ((2 ^ w - lo) % 2 ^ w, flNV)
      else if r ≤ hi then (r, flags false false nx) else (hi, flNV)

/-- R112: an element's value converted into an element format. -/
def EFmt.conv (f : EFmt) (md : RMode) (x : FVal) : Nat × BitVec 6 :=
  match f with
  | .ieee F =>
    match x with
    | .nan _ _ _ _ => (F.quiet x, svFlags x)
    | .knan => (F.qnan, 0)
    | .inf n => (F.signBit n + F.inf, 0)
    | .fin n m e => F.roundFin md n m e
  | .k8t =>
    match x with
    | .nan _ _ _ _ => (0x80, svFlags x)
    | .knan => (0x80, 0)
    | .inf n => (if n then 0x83 else 0x03, flNV)
    | .fin n m e =>
      if m = 0 then (0, 0)
      else
        let r := roundTable k8tTable (-15) md n (Mag.dyadic m e)
        (if n ∧ r.1 ≠ 0 then r.1 + 128 else r.1, r.2)
  | .f4 =>
    match x with
    | .nan s _ _ _ => (0, if s then flSN else flNV)
    | .knan => (0, flNV)
    | .inf n => (if n then 0xF else 0x7, flNV)
    | .fin n m e =>
      if m = 0 then (if n then 8 else 0, 0)
      else
        let r := roundTable f4Table (-1) md n (Mag.dyadic m e)
        (if n then r.1 + 8 else r.1, r.2)
  | .int w sg => toIntElem w sg md x

/-! ## Exact sums (R105) -/

/-- n · 2^e with a signed n. -/
structure Dy where
  n : Int
  e : Int
  deriving DecidableEq, Repr

def Dy.zero : Dy := { n := 0, e := 0 }

def Dy.add (x y : Dy) : Dy :=
  if x.n = 0 then y
  else if y.n = 0 then x
  else if x.e ≤ y.e then { n := x.n + y.n * 2 ^ (y.e - x.e).toNat, e := x.e }
  else { n := x.n * 2 ^ (x.e - y.e).toNat + y.n, e := y.e }

def Dy.mul (x y : Dy) : Dy := { n := x.n * y.n, e := x.e + y.e }
def Dy.negate (x : Dy) : Dy := { x with n := -x.n }

def FVal.dy : FVal → Dy
  | .fin s m e => { n := if s then -(m : Int) else m, e := e }
  | _ => Dy.zero

/-- Rounds a sum; an exact zero is `zneg` negative. -/
def Ieee.roundDy (F : Ieee) (md : RMode) (zneg : Bool) (x : Dy) : Nat × BitVec 6 :=
  if x.n = 0 then (F.signBit zneg, 0)
  else F.round md false (x.n < 0) (Mag.dyadic x.n.natAbs x.e)

/-- R105: the exact sum of contributions in LTI order, the previous value first. -/
def Ieee.sum (F : Ieee) (l : List FVal) : Nat × BitVec 6 :=
  let sn := if l.any FVal.isSig then flSN else 0
  match l.find? FVal.isNan with
  | some x => (F.quiet x, sn)
  | none =>
    let pinf := l.contains (.inf false)
    let ninf := l.contains (.inf true)
    if pinf && ninf then (F.qnan, flNV)
    else if pinf then (F.inf, 0)
    else if ninf then (F.signBit true + F.inf, 0)
    else F.roundDy .rne (!l.isEmpty && l.all fun x => x.isZero && x.neg) (l.foldl (fun a x => a.add x.dy) Dy.zero)

/-- The sum of elements of a tag, integers modulo 2^w with their overflow in the second flag word (bit 5 of a landing
status, R170). -/
def sumTag (f : Tag) (l : List DWord) : DWord × BitVec 6 × Bool :=
  match elemOf f with
  | .int _ _ =>
    let t := (l.map f.ext).foldl (· + ·) 0
    ((f.narrow false t).1, 0, (f.narrow false t).2)
  | _ =>
    let F := match elemOf f with | .ieee F => F | _ => fp32
    let r := (List.range (elemCount f)).foldl (fun (a : DWord × BitVec 6) k =>
      let x := F.sum (l.map fun v => F.val (getElem' f v k))
      (putElem f a.1 k x.1, a.2 ||| x.2)) (0, 0)
    (r.1, r.2, false)

/-! ## Stochastic rounding (R96, R97) -/

/-- The word drawn from seed, LTI and counter. -/
def srWord (seed : BitVec 32) (lti : DWord) (ctr : BitVec 32) : Nat :=
  let z := seed ^^^ (lti.setWidth 32 * 0x9E3779B9#32) ^^^ (ctr * 0x85EBCA6B#32)
  let z := (z ^^^ (z >>> 16)) * 0x7FEB352D#32
  let z := (z ^^^ (z >>> 15)) * 0x846CA68B#32
  let z := z ^^^ (z >>> 16)
  (z >>> 16).toNat

end Sys2Proof.Machine
end

