-- ==== Sys2Proof/Machine/Real.lean ====
section
/-! DEFINITION. The exact mathematical values of the fixed-rounding functions (R151): each as a magnitude whose floors are
found by enclosing it between bounds of growing precision. All values enclosed here are irrational, so that no bound is ever
met; log 40 gives the last precision tried. -/
namespace Sys2Proof.Machine

/-! ## Fixed-point series: numbers in units of 2^−P -/

/-- Σ x^k / k! from a term on: `t` the term, `k` the next divisor. -/
def expGo (P : Nat) (x : Int) : (fuel k : Nat) → (t acc : Int) → Int
  | 0, _, _, acc => acc
  | fuel + 1, k, t, acc => if t = 0 then acc else expGo P x fuel (k + 1) (t * x / 2 ^ P / (k : Int)) (acc + t)

/-- e^x for |x| below 1. -/
def expFix (P : Nat) (x : Int) : Int := expGo P x (P + 8) 1 (2 ^ P) 0

/-- Σ of powers over odd numbers from a term on: artanh (`alt` false) or arctan (`alt` true) of the first term. -/
def atGo (alt : Bool) (P : Nat) (y : Int) : (fuel k : Nat) → (t acc : Int) → Int
  | 0, _, _, acc => acc
  | fuel + 1, k, t, acc =>
    if t = 0 ∨ t = -1 then acc
    else atGo alt P y fuel (k + 2) ((if alt then -t else t) * y / 2 ^ P) (acc + t / (k : Int))

/-- artanh of x, |x| at most 1/2. -/
def artanhFix (P : Nat) (x : Int) : Int := atGo false P (x * x / 2 ^ P) (P + 8) 1 x 0

/-- arctan of 1/n. -/
def arctanInv (P n : Nat) : Int := atGo true P (2 ^ P / (n * n)) (P + 8) 1 (2 ^ P / n) 0

/-- ln 2 = 2 artanh(1/3). -/
def ln2Fix (P : Nat) : Int := 2 * artanhFix P (2 ^ P / 3)

/-- π = 16 arctan(1/5) − 4 arctan(1/239). -/
def piFix (P : Nat) : Int := 16 * arctanInv P 5 - 4 * arctanInv P 239

/-- Σ of the cosine series from a term on (the sine series with t = x, k = 2). -/
def trigGo (P : Nat) (y : Int) : (fuel k : Nat) → (t acc : Int) → Int
  | 0, _, _, acc => acc
  | fuel + 1, k, t, acc =>
    if t = 0 ∨ t = -1 then acc else trigGo P y fuel (k + 2) (-t * y / 2 ^ P / ((k * (k + 1) : Nat) : Int)) (acc + t)

def sinFix (P : Nat) (x : Int) : Int := trigGo P (x * x / 2 ^ P) (P + 8) 2 x 0
def cosFix (P : Nat) (x : Int) : Int := trigGo P (x * x / 2 ^ P) (P + 8) 1 (2 ^ P) 0

/-! ## Enclosures -/

/-- The precisions tried. -/
def precisions : List Nat := [96, 192, 384, 768, 1536, 3072]

/-- A fixed-point approximation of a positive real within `slack` units, made a magnitude: the exponent and the floors are
those on which both bounds agree. -/
def enclosed (f : Nat → Int) (slack : Int) (bound : Nat → Int) : Option Int :=
  let go : List Nat → Option Int := fun l => l.foldl (fun (r : Option Int) P =>
    match r with
    | some x => some x
    | none =>
      let a := f P
      let lo := bound (a - slack).toNat
      let hi := bound (a + slack).toNat
      if 0 < a - slack ∧ lo = hi then some (lo - P) else none) none
  go precisions

/-- The first precision at which the floors at weight 2^k agree. -/
def floorBy (f : Nat → Int) (slack : Int) (k : Int) : List Nat → Nat
  | [] => 0
  | P :: r =>
    let a := f P
    let sh := k + P
    let lo := if 0 ≤ sh then (a - slack).toNat / 2 ^ sh.toNat else 0
    let hi := if 0 ≤ sh then (a + slack).toNat / 2 ^ sh.toNat else 1
    if 0 ≤ a - slack ∧ lo = hi then lo else floorBy f slack k r

/-- An irrational magnitude from its approximations. -/
def Mag.approx (f : Nat → Int) : Mag :=
  { ilog := (enclosed f (2 ^ 20) fun n => (lg n : Int)).getD 0
    floorAt := fun k => (floorBy f (2 ^ 20) k precisions, true) }

/-! ## The functions -/

/-- A dyadic in units of 2^−P, rounded down. -/
def dyFix (P : Nat) (x : Dy) : Int :=
  if 0 ≤ x.e + P then x.n * 2 ^ (x.e + P).toNat else x.n / 2 ^ (-(x.e + P)).toNat

/-- ⌊x⌋ of a dyadic. -/
def Dy.floor (x : Dy) : Int := dyFix 0 x

/-- x − ⌊x⌋. -/
def Dy.frac (x : Dy) : Dy := x.add { n := -x.floor, e := 0 }

/-- 2^x: exact for an integer, else 2^⌊x⌋ times 2^f with f between 0 and 1. -/
def exp2Mag (x : Dy) : Mag :=
  if x.frac.n = 0 then Mag.dyadic 1 x.floor
  else
    let m := Mag.approx fun P =>
      let Q := P + 16
      -- 2^f = (e^(f ln2 / 2))^2
      let h := expFix Q (dyFix Q x.frac * ln2Fix Q / 2 ^ Q / 2)
      h * h / 2 ^ Q / 2 ^ 16
    { ilog := x.floor, floorAt := fun k => m.floorAt (k - x.floor) }

/-- log2 of m · 2^e: the exact integer when m is a power of two. -/
def log2Int (m : Nat) (e : Int) : Option Int := if m = 2 ^ lg m then some (e + lg m) else none

/-- log2 of m · 2^e in units of 2^−P. -/
def log2Fix (m : Nat) (e : Int) (P : Nat) : Int :=
  let Q := P + 16
  let z : Int := (m : Int) * 2 ^ Q / 2 ^ lg m
  let w := (z - 2 ^ Q) * 2 ^ Q / (z + 2 ^ Q)
  ((e + lg m) * 2 ^ Q + 2 * artanhFix Q w * 2 ^ Q / ln2Fix Q) / 2 ^ 16

/-- Sine and cosine of |x| in units of 2^−P, after an exact reduction by π/2. -/
def sinCosFix (x : Dy) (P : Nat) : Int × Int :=
  let Q := P + 320
  let h := piFix Q / 2
  let X := dyFix Q { x with n := x.n.natAbs }
  let k := X / h
  let r := X - k * h
  let s := sinFix Q r
  let c := cosFix Q r
  let v : Int × Int := match (k % 4).toNat with
    | 0 => (s, c)
    | 1 => (c, -s)
    | 2 => (-s, -c)
    | _ => (-c, s)
  (v.1 / 2 ^ 320, v.2 / 2 ^ 320)

/-- tanh |x| in units of 2^−P: (1 − u) ÷ (1 + u) with u = e^(−2|x|). -/
def tanhFix (x : Dy) (P : Nat) : Int :=
  let Q := P + 32
  let y := 2 * dyFix Q { x with n := x.n.natAbs }
  let l := ln2Fix Q
  let n := (y / l).toNat
  let r := y - y / l * l
  let u := if n > Q then 0 else expFix Q (-r) / 2 ^ n
  (2 ^ Q - u) * 2 ^ Q / (2 ^ Q + u) / 2 ^ 32

/-- tanh of a large value lies between 1 − 2^−2000 and 1. -/
def tanhBig : Mag :=
  { ilog := -1, floorAt := fun k => (2 ^ (-k).toNat - 1, true) }

/-- A value known by approximations of either sign: sign and magnitude. -/
def signedApprox (f : Nat → Int) : Bool × Mag :=
  let neg := (precisions.find? fun P => (f P).natAbs > 2 ^ 20).any fun P => f P < 0
  (neg, Mag.approx fun P => if neg then -f P else f P)

end Sys2Proof.Machine
end

