-- ==== Sys2Proof/Machine/Float.lean ====
section
/-! DEFINITION. The float group G4 (06, R141 to R158). -/
namespace Sys2Proof.Machine

def isFlt4 (f : Tag) : Bool := f == .f32 || f == .f64 || f == .bf16x2 || f == .f16x2
def isFlt2 (f : Tag) : Bool := f == .f32 || f == .f64
def isFlt3 (f : Tag) : Bool := f == .f32 || f == .bf16x2 || f == .f16x2

/-- The IEEE format of a tag's elements. -/
def ieeeOf (f : Tag) : Ieee :=
  match elemOf f with
  | .ieee F => F
  | _ => fp32

/-- The mode that MOD names (R47, R95). -/
def Team.mode (t : Team) : Rnd → RMode
  | .rne => .rne
  | .rtz => .rtz
  | .rup => .rup
  | .rdn => .rdn
  | .rna => .rna
  | .sr => .rne
  | .dyn => match t.round.toNat with
    | 2 => .rtz
    | 3 => .rup
    | 4 => .rdn
    | 5 => .rna
    | _ => .rne

/-! ## Operations on elements: pattern and exceptions (R87, R88, R94, R144) -/

abbrev FRes := Nat × BitVec 6

/-- A result that is a NaN operand, quieted; the operands in order. -/
def nanOf (F : Ieee) (l : List FVal) : Option FRes :=
  match l.find? FVal.isNan with
  | some x => some (F.quiet x, if l.any FVal.isSig then flSN else 0)
  | none => none

/-- The sign of an exact zero sum (R94): both terms −0, or a cancellation under RDN. -/
def zeroNeg (md : RMode) (x y : FVal) : Bool :=
  if x.isZero ∧ y.isZero ∧ x.neg = y.neg then x.neg else md == .rdn

def fAdd (F : Ieee) (md : RMode) (x y : FVal) : FRes :=
  match nanOf F [x, y] with
  | some r => r
  | none =>
    match x, y with
    | .inf a, .inf b => if a = b then (F.signBit a + F.inf, 0) else (F.qnan, flNV)
    | .inf a, _ => (F.signBit a + F.inf, 0)
    | _, .inf b => (F.signBit b + F.inf, 0)
    | _, _ => F.roundDy md (zeroNeg md x y) (x.dy.add y.dy)

def FVal.flip : FVal → FVal
  | .inf n => .inf (!n)
  | .fin n m e => .fin (!n) m e
  | x => x

/-- a − b; a NaN operand keeps its sign. -/
def fSub (F : Ieee) (md : RMode) (x y : FVal) : FRes := fAdd F md x y.flip

/-- The exact product of two numbers, or none when it is invalid (0 × ∞). -/
def fProd (x y : FVal) : Option FVal :=
  let s := x.neg != y.neg
  match x, y with
  | .inf _, b => if b.isZero then none else some (.inf s)
  | a, .inf _ => if a.isZero then none else some (.inf s)
  | a, b => let p := a.dy.mul b.dy; some (.fin s p.n.natAbs p.e)

def fMul (F : Ieee) (md : RMode) (x y : FVal) : FRes :=
  match nanOf F [x, y] with
  | some r => r
  | none =>
    match fProd x y with
    | none => (F.qnan, flNV)
    | some (.inf s) => (F.signBit s + F.inf, 0)
    | some (.fin s m e) => F.roundFin md s m e
    | some _ => (F.qnan, flNV)

/-- ±(a × b) + c with one rounding; 0 × ∞ is invalid even with a quiet NaN addend. -/
def fFma (F : Ieee) (md : RMode) (negate : Bool) (x y z : FVal) : FRes :=
  match nanOf F [x, y] with
  | some r => (r.1, if z.isSig then r.2 ||| flSN else r.2)
  | none =>
    match fProd x y with
    | none => match nanOf F [z] with
      | some r => (r.1, r.2 ||| flNV)
      | none => (F.qnan, flNV)
    | some p => fAdd F md (if negate then p.flip else p) z

def fDiv (F : Ieee) (md : RMode) (x y : FVal) : FRes :=
  match nanOf F [x, y] with
  | some r => r
  | none =>
    let s := x.neg != y.neg
    match x, y with
    | .inf _, .inf _ => (F.qnan, flNV)
    | .inf _, _ => (F.signBit s + F.inf, 0)
    | _, .inf _ => (F.signBit s, 0)
    | .fin _ m e, .fin _ n g =>
      if n = 0 then (if m = 0 then (F.qnan, flNV) else (F.signBit s + F.inf, flDZ))
      else if m = 0 then (F.signBit s, 0)
      else F.round md false s (Mag.ratio m n (e - g))
    | _, _ => (F.qnan, flNV)

def fSqrt (F : Ieee) (md : RMode) (x : FVal) : FRes :=
  match nanOf F [x] with
  | some r => r
  | none =>
    match x with
    | .fin s m e =>
      if m = 0 then (F.signBit s, 0) else if s then (F.qnan, flNV) else F.round md false false (Mag.sqrt m e)
    | .inf false => (F.inf, 0)
    | _ => (F.qnan, flNV)

/-- Numeric order of values that are no NaN, −0 below +0 (R104). -/
def FVal.le (x y : FVal) : Bool :=
  match x, y with
  | .inf true, _ => true
  | _, .inf false => true
  | .inf false, _ => false
  | _, .inf true => false
  | _, _ =>
    let d := x.dy.add y.dy.negate
    if d.n = 0 then !(x.isZero && y.isZero) || x.neg || !y.neg else d.n < 0

/-- R145. `a` and `b` are the patterns of x and y. -/
def fMinMax (F : Ieee) (mx : Bool) (a b : Nat) : FRes :=
  let x := F.val a
  let y := F.val b
  if x.isSig || y.isSig then ((nanOf F [x, y]).map (·.1) |>.getD F.qnan, flSN)
  else if x.isNan ∧ y.isNan then (F.quiet x, 0)
  else if x.isNan then (b, 0)
  else if y.isNan then (a, 0)
  else if mx then (if y.le x then a else b, 0) else (if x.le y then a else b, 0)

/-- Equality of numbers, −0 equal to +0. -/
def FVal.same (x y : FVal) : Bool := (x.isZero && y.isZero) || (x.le y && y.le x)

/-- R146: a compare and its exceptions. -/
def fCompare (cc : Cond) (x y : FVal) : Bool × BitVec 6 :=
  let un := x.isNan || y.isNan
  let sn : BitVec 6 := if x.isSig || y.isSig then flSN else 0
  let quietNv := sn
  let loudNv := sn ||| (if un then flNV else 0)
  let lt := x.le y && !(x.same y)
  let gt := y.le x && !(x.same y)
  match cc with
  | .eq => (!un && x.same y, quietNv)
  | .ne => (un || !(x.same y), quietNv)
  | .un => (un, quietNv)
  | .or => (!un, quietNv)
  | .lt => (!un && lt, loudNv)
  | .le => (!un && (lt || x.same y), loudNv)
  | .gt => (!un && gt, loudNv)
  | .ge => (!un && (gt || x.same y), loudNv)

/-- The class bit of Table 6-3. -/
def fClass (F : Ieee) (x : Nat) : Nat :=
  match F.val x with
  | .nan s _ _ _ => if s then 2 ^ 8 else 2 ^ 9
  | .knan => 2 ^ 9
  | .inf s => if s then 2 ^ 0 else 2 ^ 7
  | .fin s m _ =>
    if m = 0 then (if s then 2 ^ 3 else 2 ^ 4)
    else if m < 2 ^ F.fb then (if s then 2 ^ 2 else 2 ^ 5)
    else (if s then 2 ^ 1 else 2 ^ 6)

/-- R148: a multiple of 1 in the same format. -/
def fIntegral (F : Ieee) (md : RMode) (a : Nat) : FRes :=
  match F.val a with
  | .fin s m e =>
    if m = 0 ∨ 0 ≤ e then (a, 0) else ((F.roundFin .rne s (roundAt md s (Mag.dyadic m e) 0).1 0).1, 0)
  | .inf _ => (a, 0)
  | x => (F.quiet x, svFlags x)

/-- R149: the exponent as a 32-bit pattern. -/
def fExpo (x : FVal) : FRes :=
  match x with
  | .fin _ m e => if m = 0 then (0x80000000, flNV) else ((BitVec.ofInt 32 (e + lg m)).toNat, 0)
  | .inf _ => (0x7FFFFFFF, flNV)
  | y => (0x80000000, if y.isSig then flSN else flNV)

/-- R150: scaling by a power of two; exponents beyond every format are taken at a bound. -/
def fScale (F : Ieee) (md : RMode) (x : FVal) (n : Int) : FRes :=
  match x with
  | .fin s m e => F.roundFin md s m (e + (if n < -5000 then -5000 else if 5000 < n then 5000 else n))
  | .inf s => (F.signBit s + F.inf, 0)
  | y => (F.quiet y, svFlags y)

/-! ## Fixed-rounding functions (R151, R152) -/

def fRcp (F : Ieee) (x : FVal) : FRes :=
  match x with
  | .fin s m e =>
    if m = 0 then (F.signBit s + F.inf, flDZ) else F.round .rtz true s (Mag.ratio 1 m (-e))
  | .inf s => (F.signBit s, 0)
  | y => (F.quiet y, svFlags y)

def fRsq (F : Ieee) (x : FVal) : FRes :=
  match x with
  | .fin s m e =>
    if m = 0 then (F.signBit s + F.inf, flDZ)
    else if s then (F.qnan, flNV) else F.round .rtz true false (Mag.rsqrt m e)
  | .inf s => if s then (F.qnan, flNV) else (0, 0)
  | y => (F.quiet y, svFlags y)

/-- 2^x of a finite exact x, fixed rounding. -/
def exp2Dy (F : Ieee) (x : Dy) : FRes :=
  if x.n = 0 then F.roundFin .rtz false 1 0
  else if 5000 < x.floor then (F.inf, flags true false true)
  else if x.floor < -5000 then (0, flags false true true)
  else F.round .rtz true false (exp2Mag x)

def fExp2 (F : Ieee) (x : FVal) : FRes :=
  match x with
  | .fin _ _ _ => exp2Dy F x.dy
  | .inf s => (if s then 0 else F.inf, 0)
  | y => (F.quiet y, svFlags y)

/-- `flog2` (Table 6-4); that of 1.0 is +0 (log 150). -/
def fLog2 (F : Ieee) (x : FVal) : FRes :=
  match x with
  | .fin s m e =>
    if m = 0 then (F.signBit true + F.inf, flDZ)
    else if s then (F.qnan, flNV)
    else match log2Int m e with
      | some k => F.roundDy .rtz false { n := k, e := 0 }
      | none => let a := signedApprox (log2Fix m e); F.round .rtz true a.1 a.2
  | .inf s => if s then (F.qnan, flNV) else (F.inf, 0)
  | y => (F.quiet y, svFlags y)

def fSin (F : Ieee) (x : FVal) : FRes :=
  match x with
  | .fin s m _ =>
    if m = 0 then (F.signBit s, 0)
    else let a := signedApprox fun P => (sinCosFix x.dy P).1; F.round .rtz true (a.1 != s) a.2
  | .inf _ => (F.qnan, flNV)
  | y => (F.quiet y, svFlags y)

def fCos (F : Ieee) (x : FVal) : FRes :=
  match x with
  | .fin _ m _ =>
    if m = 0 then F.roundFin .rtz false 1 0
    else let a := signedApprox fun P => (sinCosFix x.dy P).2; F.round .rtz true a.1 a.2
  | .inf _ => (F.qnan, flNV)
  | y => (F.quiet y, svFlags y)

def fTanh (F : Ieee) (x : FVal) : FRes :=
  match x with
  | .fin s m e =>
    if m = 0 then (F.signBit s, 0)
    else F.round .rtz true s (if 9 < e + lg m then tanhBig else Mag.approx (tanhFix x.dy))
  | .inf s => F.roundFin .rtz s 1 0
  | y => (F.quiet y, svFlags y)

/-! ## Per-slot shapes -/

/-- The packed result of an element function. -/
def packed (f : Tag) (g : Nat → FRes) : DWord × BitVec 6 :=
  (List.range (elemCount f)).foldl (fun a k => let r := g k; (putElem f a.1 k r.1, a.2 ||| r.2)) (0, 0)

def fltOut (f : Tag) (d : VReg) (g : Nat → FRes) : Out :=
  let r := packed f g
  { fl := r.2, vals := words d f.pair r.1 }

/-- Element k of a source in a slot. -/
def Team.el (t : Team) (f : Tag) (r i k : Nat) : Nat := getElem' f (t.rdTag f r i) k

def State.fbin (s : State) (o : FBin) (g : Ieee → RMode → FVal → FVal → FRes) : State :=
  let md := s.tm.mode o.rnd
  s.vop 8 o.msk o.fa isFlt4 o.d [o.a, o.b] [] id fun f t i =>
    let F := ieeeOf f
    fltOut f o.d fun k => g F md (F.val (t.el f o.a i k)) (F.val (t.el f o.b i k))

def execFadd (o : FBin) (s : State) : Host.Outcome State Fault Refusal := .next (s.fbin o fAdd)
def execFsub (o : FBin) (s : State) : Host.Outcome State Fault Refusal := .next (s.fbin o fSub)
def execFmul (o : FBin) (s : State) : Host.Outcome State Fault Refusal := .next (s.fbin o fMul)
def execFdiv (o : FBin) (s : State) : Host.Outcome State Fault Refusal := .next (s.fbin o fDiv)

/-- Element k of the addend: a register's, or IMM32 in the layout of Table 5-3. -/
def addendEl (t : Team) (f : Tag) (i k : Nat) : Src32 → Nat
  | .reg r => t.el f r i k
  | .imm w => getElem' f (moviVal f w) k

def State.ffma (s : State) (o : FMad) (negate : Bool) : State :=
  let md := s.tm.mode o.rnd
  s.vop 12 o.msk o.fa isFlt4 o.d ([o.a, o.b] ++ Src32.regs o.c) [] id fun f t i =>
    let F := ieeeOf f
    fltOut f o.d fun k =>
      fFma F md negate (F.val (t.el f o.a i k)) (F.val (t.el f o.b i k)) (F.val (addendEl t f i k o.c))

def execFma (o : FMad) (s : State) : Host.Outcome State Fault Refusal := .next (s.ffma o false)
def execFnma (o : FMad) (s : State) : Host.Outcome State Fault Refusal := .next (s.ffma o true)

def execFsqrt (o : FUn) (s : State) : Host.Outcome State Fault Refusal :=
  let md := s.tm.mode o.rnd
  .next (s.vop 8 o.msk o.fa isFlt4 o.d [o.a] [] id fun f t i =>
    let F := ieeeOf f
    fltOut f o.d fun k => fSqrt F md (F.val (t.el f o.a i k)))

/-- One-source instructions without MOD. -/
def State.fun1 (s : State) (o : VUn) (acc : Tag → Bool) (g : Ieee → FVal → FRes) : State :=
  s.vop 8 o.msk o.fa acc o.d [o.a] [] id fun f t i =>
    let F := ieeeOf f
    fltOut f o.d fun k => g F (F.val (t.el f o.a i k))

def execFrcp (o : VUn) (s : State) : Host.Outcome State Fault Refusal := .next (s.fun1 o isFlt4 fRcp)
def execFrsq (o : VUn) (s : State) : Host.Outcome State Fault Refusal := .next (s.fun1 o isFlt4 fRsq)
def execFexp2 (o : VUn) (s : State) : Host.Outcome State Fault Refusal := .next (s.fun1 o isFlt3 fExp2)
def execFlog2 (o : VUn) (s : State) : Host.Outcome State Fault Refusal := .next (s.fun1 o isFlt3 fLog2)
def execFsin (o : VUn) (s : State) : Host.Outcome State Fault Refusal := .next (s.fun1 o isFlt3 fSin)
def execFcos (o : VUn) (s : State) : Host.Outcome State Fault Refusal := .next (s.fun1 o isFlt3 fCos)
def execFtanh (o : VUn) (s : State) : Host.Outcome State Fault Refusal := .next (s.fun1 o isFlt3 fTanh)

/-- Instructions on the patterns of elements (R144, R145). -/
def State.fpat2 (s : State) (o : VBin) (g : Ieee → Nat → Nat → FRes) : State :=
  s.vop 8 o.msk o.fa isFlt4 o.d [o.a, o.b] [] id fun f t i =>
    fltOut f o.d fun k => g (ieeeOf f) (t.el f o.a i k) (t.el f o.b i k)

def execFmin (o : VBin) (s : State) : Host.Outcome State Fault Refusal := .next (s.fpat2 o fun F a b => fMinMax F false a b)
def execFmax (o : VBin) (s : State) : Host.Outcome State Fault Refusal := .next (s.fpat2 o fun F a b => fMinMax F true a b)

/-- a's bits with b's sign. -/
def execFcpsgn (o : VBin) (s : State) : Host.Outcome State Fault Refusal :=
  .next (s.fpat2 o fun F a b =>
    let h := 2 ^ (F.width - 1)
    (a % h + b / h % 2 * h, 0))

def State.fpat1 (s : State) (o : VUn) (g : Ieee → Nat → Nat) : State :=
  s.vop 8 o.msk o.fa isFlt4 o.d [o.a] [] id fun f t i =>
    fltOut f o.d fun k => (g (ieeeOf f) (t.el f o.a i k), 0)

def execFabs (o : VUn) (s : State) : Host.Outcome State Fault Refusal :=
  .next (s.fpat1 o fun F a => a % 2 ^ (F.width - 1))
def execFneg (o : VUn) (s : State) : Host.Outcome State Fault Refusal :=
  .next (s.fpat1 o fun F a => (a + 2 ^ (F.width - 1)) % 2 ^ F.width)

/-- R146: EL = 1 accepts packed formats only (log 41). -/
def execFcmp (o : FCmp) (s : State) : Host.Outcome State Fault Refusal :=
  let acc (f : Tag) : Bool := if o.el then f == .bf16x2 || f == .f16x2 else isFlt4 f
  .next (s.cmpTo 8 o.msk o.d o.a o.b o.fa acc o.z fun f t i =>
    let F := ieeeOf f
    let k := if o.el then 1 else 0
    let r := fCompare o.cc (F.val (t.el f o.a i k)) (F.val (t.el f o.b i k))
    { fl := r.2, bits := [(o.d, r.1)] })

def execFclass (o : VUn) (s : State) : Host.Outcome State Fault Refusal :=
  .next (s.vop 8 o.msk o.fa isFlt4 o.d [o.a] [] toN32 fun f t i =>
    let F := ieeeOf f
    { vals := [(o.d.val, BitVec.ofNat 32 (fClass F (t.el f o.a i 0) +
        (if elemCount f = 2 then fClass F (t.el f o.a i 1) * 2 ^ 16 else 0)))] })

def execFrnd (o : FUn) (s : State) : Host.Outcome State Fault Refusal :=
  let md := s.tm.mode o.rnd
  .next (s.vop 8 o.msk o.fa isFlt4 o.d [o.a] [] id fun f t i =>
    fltOut f o.d fun k => fIntegral (ieeeOf f) md (t.el f o.a i k))

def execFexpo (o : VUn) (s : State) : Host.Outcome State Fault Refusal :=
  .next (s.vop 8 o.msk o.fa isFlt2 o.d [o.a] [] (fun _ => .i32) fun f t i =>
    let r := fExpo ((ieeeOf f).val (t.el f o.a i 0))
    { fl := r.2, vals := [(o.d.val, BitVec.ofNat 32 r.1)] })

def execFscale (o : FBin) (s : State) : Host.Outcome State Fault Refusal :=
  let md := s.tm.mode o.rnd
  .next (s.vop 8 o.msk o.fa isFlt2 o.d [o.a] [o.b] id fun f t i =>
    let F := ieeeOf f
    fltOut f o.d fun _ => fScale F md (F.val (t.el f o.a i 0)) (t.rd o.b i).toInt)

/-! ## Conversions (R153 to R155) -/

def isFloatTag (f : Tag) : Bool :=
  f == .f32 || f == .f64 || f == .bf16x2 || f == .f16x2 || f == .k8tx4 || f == .f4x8
def isIntTag (f : Tag) : Bool :=
  f == .i32 || f == .n32 || f == .i64 || f == .n64 || f == .i8x4 || f == .i4x8

/-- Whether POS is legal for source and target counts (R153). -/
def posOk (es et pos : Nat) : Bool :=
  let k := Nat.min es et
  if es = et then pos = 0 else pos % k = 0 && pos < Nat.max es et

/-- The word of the next conversion of a slot and the mode it gives under SR. -/
def Team.convMode (t : Team) (rnd : Rnd) (i j : Nat) : RMode :=
  if rnd = .sr then .sr (srWord t.seed (t.lti i) (t.ctr.get 0 i + BitVec.ofNat 32 j)) else t.mode rnd

/-- The conversion of one slot (R154). -/
def convOut (t : Team) (o : FCvt) (f : Tag) (i : Nat) : Out :=
  let es := elemCount f
  let et := elemCount o.tgt
  let old := if es < et then t.rdTag o.tgt o.d i else 0
  let r := (List.range (Nat.min es et)).foldl (fun (a : DWord × BitVec 6) j =>
    let js := if es > et then o.pos.val + j else j
    let jt := if es < et then o.pos.val + j else j
    let c := (elemOf o.tgt).conv (t.convMode o.rnd i j) ((elemOf f).val (t.el f o.a i js))
    (putElem o.tgt a.1 jt c.1, a.2 ||| c.2)) (old, 0)
  { fl := r.2, vals := words o.d o.tgt.pair r.1 }

/-- The conversion counters after n conversions in each slot (R96). -/
def Team.drawn (t : Team) (act : List Nat) (n : Nat) : Team :=
  { t with ctr := act.foldl (fun c i => c.set 0 i (c.get 0 i + BitVec.ofNat 32 n)) t.ctr }

def State.fconv (s : State) (o : FCvt) (acc : Tag → Bool) : State :=
  let t := s.tm
  let chk := (t.tagCheck .none false acc [o.a.val]).bind fun f =>
    if posOk (elemCount f) (elemCount o.tgt) o.pos then pairDest s.vregs o.tgt o.d |>.map fun _ => f
    else .error (fmtPayload o.a f o.tgt)
  s.perSlot 8 o.msk chk
    (fun f => (o.a.val, f.pair) :: (if elemCount f < elemCount o.tgt then [(o.d.val, false)] else [])) []
    (fun _ => [(o.d.val, o.tgt.pair)])
    fun f act =>
      { len := 8, outs := act.map fun i => (i, convOut t o f i), tags := [(o.d, o.tgt)], dst := .vec o.d o.tgt.pair
        always := fun u => if o.rnd = .sr then u.drawn act (Nat.min (elemCount f) (elemCount o.tgt)) else u }

def execFcvt (o : FCvt) (s : State) : Host.Outcome State Fault Refusal := .next (s.fconv o isFloatTag)
def execFcvti (o : FCvt) (s : State) : Host.Outcome State Fault Refusal :=
  .next (s.fconv o (if isIntTag o.tgt then isFloatTag else isIntTag))

def execFpack (o : FPack) (s : State) : Host.Outcome State Fault Refusal :=
  let md := s.tm.mode o.rnd
  let g : Tag := if o.f16 then .f16x2 else .bf16x2
  .next (s.vop 8 o.msk o.fa isFlt2 o.d [o.a, o.b] [] (fun _ => g) fun f t i =>
    let F := ieeeOf f
    fltOut g o.d fun k => (elemOf g).conv md (F.val (t.el f (if k = 0 then o.a else o.b) i 0)))

/-! ## Online softmax (R156, R157) -/

/-- x × log2 e in FP32 under RNE. -/
def timesL (x : FVal) : FRes :=
  match x with
  | .fin n m e =>
    if m = 0 then (fp32.signBit n, 0)
    else fp32.round .rne false n (Mag.approx fun P => dyFix (P + 64) { n := m, e := e } * 2 ^ P / ln2Fix (P + 64))
  | .inf n => (fp32.signBit n + fp32.inf, 0)
  | y => (fp32.quiet y, svFlags y)

/-- ⌈x⌉ of a dyadic. -/
def Dy.ceil (x : Dy) : Int := -(x.negate.floor)

/-- The new sum, the new maximum and the exceptions of `smxi`. -/
def smxiSlot (b2 : Bool) (sp : Nat) (mi : Int) (xs : List Nat) : Nat × Int × BitVec 6 :=
  let S := fp32.val sp
  let xv := xs.map fp32.val
  let ts := xv.map fun x => if b2 then (x, (0 : BitVec 6)) else (fp32.val (timesL x).1, if x.isNan then 0 else (timesL x).2)
  let fl := ts.foldl (fun a t => a ||| t.2) 0
  match (S :: xv).find? FVal.isNan with
  | some n => (fp32.quiet n, mi, fl ||| (if (S :: xv).any FVal.isSig then flSN else 0))
  | none =>
    if ts.any fun t => t.1 == .inf false then (fp32.inf, 2 ^ 31 - 1, fl)
    else
      let fin := ts.filter fun t => t.1 != .inf true
      let clamp (c : Int) : Int := if c < -(2 ^ 31) then -(2 ^ 31) else if 2 ^ 31 - 1 < c then 2 ^ 31 - 1 else c
      let m' := fin.foldl (fun a t => max a (clamp t.1.dy.ceil)) mi
      let r := fScale fp32 .rne S (mi - m')
      let gs := ts.map fun t => if t.1 == .inf true then (0, 0) else exp2Dy fp32 (t.1.dy.add { n := -m', e := 0 })
      let sum := fp32.sum (fp32.val r.1 :: gs.map fun g => fp32.val g.1)
      (sum.1, m', gs.foldl (fun a g => a ||| g.2) (fl ||| r.2 ||| sum.2))

/-- The new sum, the new maximum and the exceptions of `smxf`. -/
def smxfSlot (b2 : Bool) (sp mp : Nat) (xs : List Nat) : Nat × Nat × BitVec 6 :=
  let S := fp32.val sp
  let M := fp32.val mp
  let xv := xs.map fp32.val
  match (S :: M :: xv).find? FVal.isNan with
  | some n => (fp32.quiet n, mp, if (S :: M :: xv).any FVal.isSig then flSN else 0)
  | none =>
    let m' := xs.foldl (fun a x => (fMinMax fp32 true a x).1) mp
    let M' := fp32.val m'
    match M' with
    | .inf true => (sp, m', 0)
    | .inf false => (fp32.inf, m', 0)
    | _ =>
      let e (y : FVal) : FRes :=
        if y = .inf true then (0, 0)
        else
          let d := fSub fp32 .rne y M'
          let w := if b2 then d else (let p := timesL (fp32.val d.1); (p.1, d.2 ||| p.2))
          let g := fExp2 fp32 (fp32.val w.1)
          (g.1, w.2 ||| g.2)
      let em := e M
      let r := fMul fp32 .rne S (fp32.val em.1)
      let gs := xv.map e
      let sum := fp32.sum (fp32.val r.1 :: gs.map fun g => fp32.val g.1)
      (sum.1, m', gs.foldl (fun a g => a ||| g.2) (em.2 ||| r.2 ||| sum.2))

/-- The fixed-tag check of R156: sum, maximum, scores. -/
def smxCheck (t : Team) (o : Smx) (mt : Tag) : Except DWord Tag :=
  let ops : List (Nat × Tag) := (o.d.val, .f32) :: (o.a.val, mt) :: (List.range (o.n1 + 1)).map fun j => (o.b.val + j, .f32)
  match ops.find? fun p => t.tagOf p.1 != .none && t.tagOf p.1 != p.2 with
  | some p => .error (fmtPayload p.1 (t.tagOf p.1) p.2)
  | none => .ok .f32

def State.smx (s : State) (o : Smx) (mt : Tag) (g : Team → Nat → Nat × Nat × BitVec 6) : State :=
  let t := s.tm
  s.perSlot 12 o.msk (smxCheck t o mt)
    (fun _ => [(o.d.val, false), (o.a.val, false)] ++ (List.range (o.n1 + 1)).map fun j => (o.b.val + j, false)) []
    (fun _ => [(o.d.val, false), (o.a.val, false)])
    fun _ act =>
      { len := 12, tags := [(o.d, .f32), (o.a, mt)], dst := .smx o.d o.a
        outs := act.map fun i =>
          let r := g t i
          (i, { fl := r.2.2, vals := [(o.d.val, BitVec.ofNat 32 r.1), (o.a.val, BitVec.ofNat 32 r.2.1)] }) }

/-- The scores of a slot. -/
def scoresOf (t : Team) (o : Smx) (i : Nat) : List Nat := (List.range (o.n1 + 1)).map fun j => (t.rd (o.b + j) i).toNat

def execSmxi (o : Smx) (s : State) : Host.Outcome State Fault Refusal :=
  .next (s.smx o .i32 fun t i =>
    let r := smxiSlot o.b2 (t.rd o.d i).toNat (t.rd o.a i).toInt (scoresOf t o i)
    (r.1, (BitVec.ofInt 32 r.2.1).toNat, r.2.2))

def execSmxf (o : Smx) (s : State) : Host.Outcome State Fault Refusal :=
  .next (s.smx o .f32 fun t i => smxfSlot o.b2 (t.rd o.d i).toNat (t.rd o.a i).toNat (scoresOf t o i))

end Sys2Proof.Machine
end

