-- ==== Sys2Proof/Machine/Uniform.lean ====
section
/-! DEFINITION. The uniform group G3 (05, R134 to R140). -/
namespace Sys2Proof.Machine

/-- The second operand: a register, or sext(IMM21) (R135). -/
def Team.usrc (t : Team) : USrc → DWord
  | .reg r => t.s[r]
  | .imm w => w.signExtend 64

def USrc.regs : USrc → List UReg
  | .reg r => [r]
  | .imm _ => []

/-- A uniform write supersedes a pending value at issue (R134). -/
def Team.putS (t : Team) (d : UReg) (x : DWord) : Team := (t.supersedeU d).setS d x

def State.sbin (s : State) (o : SBin) (g : DWord → DWord → DWord) : State :=
  s.uniform 8 o.msk (o.a :: USrc.regs o.b) fun t => t.putS o.d (g t.s[o.a] (t.usrc o.b))

def execSadd (o : SBin) (s : State) : Host.Outcome State Fault Refusal := .next (s.sbin o fun x y => x + y)
def execSsub (o : SBin) (s : State) : Host.Outcome State Fault Refusal := .next (s.sbin o fun x y => x - y)
def execSmul (o : SBin) (s : State) : Host.Outcome State Fault Refusal := .next (s.sbin o fun x y => x * y)
def execSand (o : SBin) (s : State) : Host.Outcome State Fault Refusal := .next (s.sbin o fun x y => x &&& y)
def execSor (o : SBin) (s : State) : Host.Outcome State Fault Refusal := .next (s.sbin o fun x y => x ||| y)
def execSxor (o : SBin) (s : State) : Host.Outcome State Fault Refusal := .next (s.sbin o fun x y => x ^^^ y)
def execSshl (o : SBin) (s : State) : Host.Outcome State Fault Refusal :=
  .next (s.sbin o fun x y => BitVec.ofNat 64 (shlW 64 x.toNat y.toNat))
def execSshr (o : SBin) (s : State) : Host.Outcome State Fault Refusal :=
  .next (s.sbin o fun x y => BitVec.ofNat 64 (shrW 64 x.toNat y.toNat))
def execSsar (o : SBin) (s : State) : Host.Outcome State Fault Refusal :=
  .next (s.sbin o fun x y => BitVec.ofNat 64 (sarW 64 x.toNat y.toNat))

/-- A 64-bit value read signed or unsigned. -/
def ureadInt (u : Bool) (x : DWord) : Int := if u then (x.toNat : Int) else x.toInt

/-- R136: result and condition bit of `sdiv`. -/
def sdivRes (u rem : Bool) (a b : DWord) : DWord × Bool :=
  let x := ureadInt u a
  let y := ureadInt u b
  if y = 0 then (if rem then a else BitVec.allOnes 64, true)
  else (BitVec.ofInt 64 (if rem then x.tmod y else x.tdiv y), !u && x == -(2 ^ 63) && y == -1)

def execSdiv (o : SDiv) (s : State) : Host.Outcome State Fault Refusal :=
  .next (s.uniform 8 o.msk (o.a :: USrc.regs o.b) fun t =>
    let r := sdivRes o.u o.rem t.s[o.a] (t.usrc o.b)
    (t.putS o.d r.1).setQ o.q r.2)

def execSmin (o : SMinMax) (s : State) : Host.Outcome State Fault Refusal :=
  .next (s.uniform 8 o.msk (o.a :: USrc.regs o.b) fun t =>
    let x := t.s[o.a]
    let y := t.usrc o.b
    t.putS o.d (if ureadInt o.u x ≤ ureadInt o.u y then x else y))

def execSmax (o : SMinMax) (s : State) : Host.Outcome State Fault Refusal :=
  .next (s.uniform 8 o.msk (o.a :: USrc.regs o.b) fun t =>
    let x := t.s[o.a]
    let y := t.usrc o.b
    t.putS o.d (if ureadInt o.u y ≤ ureadInt o.u x then x else y))

def execScmp (o : SCmp) (s : State) : Host.Outcome State Fault Refusal :=
  .next (s.uniform 8 o.msk (o.a :: USrc.regs o.b) fun t =>
    t.setQ o.q (cmpInt o.cc (ureadInt o.u t.s[o.a]) (ureadInt o.u (t.usrc o.b))))

def execSsel (o : SSel) (s : State) : Host.Outcome State Fault Refusal :=
  .next (s.uniform 8 o.msk (o.a :: USrc.regs o.b) fun t => t.putS o.d (if t.q[o.q] then t.s[o.a] else t.usrc o.b))

def State.sun (s : State) (o : SUn) (g : DWord → DWord) : State :=
  s.uniform 8 o.msk [o.a] fun t => t.putS o.d (g t.s[o.a])

def execSmov (o : SUn) (s : State) : Host.Outcome State Fault Refusal := .next (s.sun o id)
def execSclz (o : SUn) (s : State) : Host.Outcome State Fault Refusal :=
  .next (s.sun o fun x => BitVec.ofNat 64 (clzN 64 x.toNat))
def execSpopc (o : SUn) (s : State) : Host.Outcome State Fault Refusal :=
  .next (s.sun o fun x => BitVec.ofNat 64 (popN 64 x.toNat))

/-- R138: IMM21 at its position. -/
def sliVal (old : DWord) (pos : Fin 4) (imm : BitVec 21) : DWord :=
  match pos with
  | 0 => imm.signExtend 64
  | 1 => BitVec.ofNat 64 (bfiN 64 old.toNat imm.toNat 21 21)
  | 2 => BitVec.ofNat 64 (bfiN 64 old.toNat imm.toNat 42 21)
  | 3 => BitVec.ofNat 64 (bfiN 64 old.toNat imm.toNat 63 1)

def execSli (o : SLi) (s : State) : Host.Outcome State Fault Refusal :=
  .next (s.uniform 8 o.msk (if o.pos = 0 then [] else [o.d]) fun t => t.putS o.d (sliVal t.s[o.d] o.pos o.imm))

def execSbfe (o : SBfe) (s : State) : Host.Outcome State Fault Refusal :=
  .next (s.uniform 8 o.msk [o.a] fun t =>
    t.putS o.d (BitVec.ofInt 64 (bfeInt o.sx (ureadInt (!o.sx) t.s[o.a]) o.p o.l)))

/-- R140. -/
def qopVal (t : Team) : QOpKind → Bool
  | .and a b => t.q[a] && t.q[b]
  | .or a b => t.q[a] || t.q[b]
  | .xor a b => t.q[a] != t.q[b]
  | .andn a b => t.q[a] && !t.q[b]
  | .not a => !t.q[a]
  | .set v => v
  | .test r => t.s[r] != 0
  | .mov a => t.q[a]

def QOpKind.uregs : QOpKind → List UReg
  | .test r => [r]
  | _ => []

def execQop (o : QOp) (s : State) : Host.Outcome State Fault Refusal :=
  .next (s.uniform 8 o.msk (QOpKind.uregs o.op) fun t => t.setQ o.d (qopVal t o.op))

end Sys2Proof.Machine
end

