-- ==== Sys2Proof/Machine/CrossLane.lean ====
section
/-! DEFINITION. Cross-lane reads and writes (09, R195 to R207). -/
namespace Sys2Proof.Machine

/-- R196: a slot named as a source or a target is below the capacity and live. -/
def Team.validSlot (t : Team) (n : Int) : Option Nat :=
  if 0 ≤ n ∧ n < t.cap ∧ t.live.getLsbD n.toNat then some n.toNat else none

/-- The check of an arithmetic form: typed sources, and a destination of their width (R197, R114). -/
def Team.arithTag (t : Team) (vregs : Nat) (fa : Tag) (acc : Tag → Bool) (srcs : List Nat) (d : VReg) : Except DWord Tag :=
  (t.tagCheck fa false acc srcs).bind fun f => pairDest vregs f d

/-- R198: an instruction that writes slots outside its execution mask never supersedes; it waits for a pending
destination. -/
def State.untilArrived (s : State) (regs : VRefs) (go : State) : State :=
  let t := s.tm
  if regs.regs.any fun r => t.pend.any fun p => p.onV r && !p.atStep then s.stall
  else if regs.regs.any fun r => t.pend.any fun p => p.onV r then s.putTm { t with stuck := true }
  else go

/-! ## `vget` (R199, R200) -/

def GetMode.src (t : Team) (i : Nat) : GetMode → Int
  | .idx b => (t.rd b i).toNat
  | .dn k => (i : Int) - k.toNat
  | .up k => (i : Int) + k.toNat
  | .xor k => ((BitVec.ofNat 10 i ^^^ k).toNat : Int)

def GetMode.refs : GetMode → VRefs
  | .idx b => [(b.val, false)]
  | _ => []

/-- What one slot does: with `.add`, d is a plus what it fetched; else an invalid source leaves d unless `.z` zeroes it. -/
def getOut (o : VGet) (f : Tag) (t : Team) (i : Nat) : Out :=
  let src := t.validSlot (GetMode.src t i o.mode)
  let y : DWord := match src with | some j => t.rdTag f o.a j | none => 0
  { vals := if o.add then words o.d f.pair (ofPat f (t.rdTag f o.a i + y).toNat)
      else if src.isSome ∨ o.z then words o.d f.pair y
      else []
    bits := maskBit o.vm src.isSome }

def execVget (o : VGet) (s : State) : Host.Outcome State Fault Refusal :=
  let t := s.tm
  let chk := if o.add then t.arithTag s.vregs o.fa isInt4 [o.a.val] o.d else t.moveTag s.vregs o.fa o.a o.d
  .next (s.perSlot 8 o.msk chk (fun f => (o.a.val, f.pair) :: GetMode.refs o.mode) [] (fun f => [(o.d.val, f.pair)])
    fun f act => { len := 8, outs := act.map fun i => (i, getOut o f t i), tags := [(o.d, f)] })

/-! ## `vpost` (R201 to R203) -/

def PostMode.dst (t : Team) (i : Nat) : PostMode → Int
  | .idx b => (t.rd b i).toNat
  | .rel k => (i : Int) + k.toInt
  | .xor k => ((BitVec.ofNat 10 i ^^^ k).toNat : Int)

def PostMode.refs : PostMode → VRefs
  | .idx b => [(b.val, false)]
  | _ => []

def PostRule.sums : PostRule → Bool
  | .add | .addin => true
  | _ => false

/-- Formats of `.add` and `.addin` (R202). -/
def isSummed (f : Tag) : Bool := isInt4 f || f == .f32 || f == .f64 || f == .bf16x2

/-- What becomes of a target: the value that lands, the exceptions of its sum, or a collision. -/
structure Posted where
  target : Nat
  val : Option DWord
  fl : BitVec 6
  coll : Bool

/-- R202: a target with its posters, in LTI order. -/
def Team.postOn (t : Team) (o : VPost) (f : Tag) (target : Nat) (posters : List Nat) : Posted :=
  let vs := posters.map fun i => t.rdTag f o.a i
  let sum (l : List DWord) : Posted :=
    let r := sumTag f l
    { target := target, val := if fpxTraps t.fen r.2.1 then none else some r.1, fl := r.2.1, coll := false }
  match o.cr with
  | .fault =>
    if posters.length = 1 then { target := target, val := vs.head?, fl := 0, coll := false }
    else { target := target, val := none, fl := 0, coll := true }
  | .lo => { target := target, val := vs.head?, fl := 0, coll := false }
  | .add => sum vs
  | .addin => sum (t.rdTag f o.d target :: vs)

/-- The numbers of a list, each once. -/
def distinctNat (l : List Nat) : List Nat := l.foldl (fun a n => if a.contains n then a else a ++ [n]) []

/-- The payload of a register collision (R203). -/
def postPayload (d : VReg) (target : Nat) : DWord := BitVec.ofNat 64 (2 ^ 63 + d.val * 2 ^ 10 + target)

/-- `vpost` (R203); `vpost.addin` checks a, then d (log 64). -/
def execVpost (o : VPost) (s : State) : Host.Outcome State Fault Refusal :=
  let t := s.tm
  let srcs := o.a.val :: (if o.cr = .addin then [o.d.val] else [])
  let chk := if PostRule.sums o.cr then t.arithTag s.vregs o.fa isSummed srcs o.d else t.moveTag s.vregs o.fa o.a o.d
  .next (s.guarded 12 o.msk chk (fun f => refs f.pair srcs ++ PostMode.refs o.mode) [] (fun _ => [])
    fun f act => s.untilArrived (refs f.pair [o.d.val]) <|
      let posts := act.map fun i => (i, t.validSlot (PostMode.dst t i o.mode))
      let targets := distinctNat (posts.filterMap fun p => p.2)
      let done := targets.map fun k => t.postOn o f k ((posts.filter fun p => p.2 == some k).map (·.1))
      let out (p : Nat × Option Nat) : Out :=
        let r := p.2.bind fun k => done.find? fun x => x.target == k
        { fl := match r with | some x => x.fl | none => 0
          eff := match r with | some x => if x.coll then some (8, postPayload o.d x.target) else none | none => none
          bits := maskBit o.dm p.2.isNone }
      s.finish
        { len := 12, outs := posts.map fun p => (p.1, out p), tags := [(o.d, f)]
          always := fun u => done.foldl (fun u x => match x.val with | some v => u.wrW f.pair o.d x.target v | none => u) u })

/-! ## `vbcast` (R204) -/

def BcastSel.slot (t : Team) (act : List Nat) : BcastSel → Int
  | .uni r => t.s[r].toNat
  | .slot k => k.toNat
  | .first => act.headD 0

def BcastSel.uregs : BcastSel → List UReg
  | .uni r => [r]
  | _ => []

/-- `vbcast` (R204): with an invalid source d stays as it is, pending or not (log 152). -/
def execVbcast (o : VBcast) (s : State) : Host.Outcome State Fault Refusal :=
  let t := s.tm
  .next (s.perSlot 8 o.msk (t.moveTag s.vregs o.fa o.a o.d) (fun f => [(o.a.val, f.pair)]) (BcastSel.uregs o.sel)
    (fun f => [(o.d.val, f.pair)])
    fun f act =>
      let src := t.validSlot (BcastSel.slot t act o.sel)
      { len := 8
        outs := act.map fun i => (i, { vals := match src with | some j => words o.d f.pair (t.rdTag f o.a j) | none => [] })
        tags := if src.isSome then [(o.d, f)] else []
        post := fun u => match o.q with | some q => u.setQ q src.isSome | none => u })

/-! ## `vlti` and `vslot` (R205, R206) -/

def execVlti (o : VLti) (s : State) : Host.Outcome State Fault Refusal :=
  let t := s.tm
  let f : Tag := if o.part = 0 then .n64 else .n32
  let val (x : DWord) : DWord := match o.part with
    | 0 => x
    | 1 => BitVec.ofNat 64 (x.toNat % 2 ^ 14)
    | 2 => BitVec.ofNat 64 (x.toNat % 2 ^ 24)
  .next (s.perSlot 8 o.msk (.ok f) (fun _ => []) [] (fun f => [(o.d.val, f.pair)])
    fun f act => { len := 8, outs := act.map fun i => (i, { vals := words o.d f.pair (val (t.lti i)) }), tags := [(o.d, f)] })

def execVslot (o : VSlot) (s : State) : Host.Outcome State Fault Refusal :=
  .next (s.perSlot 8 o.msk (.ok .n32) (fun _ => []) [] (fun _ => [(o.d.val, false)])
    fun f act =>
      { len := 8, tags := [(o.d, f)]
        outs := act.zipIdx.map fun p => (p.1, { vals := words o.d false (BitVec.ofNat 64 (if o.rank then p.2 else p.1)) }) })

end Sys2Proof.Machine
end

