-- ==== Sys2Proof/Decode.lean ====
section
/-! DEFINITION. Decoding of instruction words by R39 to R57 and by each entry's own fields, total on every word and
rejecting by the reasons of R53; after it the encoder, from the same tables. A word is a natural number whose bit 0 is
bit 0 of the byte at the lowest address (R39). `v` is everywhere the launch's `.vregs` (R57). -/
namespace Sys2Proof

/-! ## Fields (Tables 2-1 to 2-6) -/

/-- Bits lo to lo + n − 1 of a word. -/
def fld (w lo n : Nat) : Nat := w / 2 ^ lo % 2 ^ n

theorem fld_lt (w lo n : Nat) : fld w lo n < 2 ^ n := Nat.mod_lt _ (Nat.two_pow_pos n)

/-- One bit of a word. -/
def bit (w lo : Nat) : Bool := fld w lo 1 == 1

/-- A field as a bit vector. -/
def fbv (w lo n : Nat) : BitVec n := BitVec.ofNat n (w / 2 ^ lo)

/-- A field as a number below 2^n. -/
def ffin (w lo n : Nat) : Fin (2 ^ n) := ⟨fld w lo n, fld_lt w lo n⟩

/-- A vector register field. -/
def fv (w lo : Nat) : VReg := ffin w lo 10
/-- A mask register in a field of four bits. -/
def fm (w lo : Nat) : MReg := ffin w lo 4
/-- A condition bit field of three bits. -/
def fq (w lo : Nat) : QReg := ffin w lo 3
/-- A uniform register field; the range is checked apart (R50). -/
def fu (w lo : Nat) : UReg := Fin.ofNat 96 (fld w lo 7)
/-- An expansion descriptor field; the range is checked apart (R50). -/
def fx (w lo : Nat) : XReg := ffin w lo 4

/-- The tag of an FA code (R46); 15 is refused apart. -/
def Tag.ofCode (n : Nat) : Tag :=
  match n with
  | 1 => .i32 | 2 => .n32 | 3 => .i64 | 4 => .n64 | 5 => .f32 | 6 => .f64 | 7 => .bf16x2 | 8 => .f16x2
  | 9 => .k8tx4 | 10 => .i8x4 | 11 => .f4x8 | 12 => .i4x8 | 13 => .blk | 14 => .tok | _ => .none

/-- Whether an FA code asserts a format that a pair holds (R114). -/
def faPair (n : Nat) : Bool := n == 3 || n == 4 || n == 6

def Rnd.ofCode (n : Nat) : Rnd :=
  match n with
  | 1 => .rne | 2 => .rtz | 3 => .rup | 4 => .rdn | 5 => .rna | 6 => .sr | _ => .dyn

def Rnd.code : Rnd → Nat
  | .dyn => 0 | .rne => 1 | .rtz => 2 | .rup => 3 | .rdn => 4 | .rna => 5 | .sr => 6

def Cond.ofCode (n : Nat) : Cond :=
  match n with
  | 0 => .eq | 1 => .ne | 2 => .lt | 3 => .le | 4 => .gt | 5 => .ge | 6 => .un | _ => .or

def Cond.code : Cond → Nat
  | .eq => 0 | .ne => 1 | .lt => 2 | .le => 3 | .gt => 4 | .ge => 5 | .un => 6 | .or => 7

def Rule.ofCode (n : Nat) : Rule :=
  match n with
  | 0 => .fault | 1 => .low | 2 => .any | 3 => .sum | _ => .sumin

def Rule.code : Rule → Nat
  | .fault => 0 | .low => 1 | .any => 2 | .sum => 3 | .sumin => 4

/-! ## The checks of R53 -/

/-- What each check from the unused fields on finds wrong (R53). -/
structure Bad where
  unused : Bool := false
  mod : Bool := false
  fa : Bool := false
  rule : Bool := false
  land : Bool := false
  reg : Bool := false
  aux : Bool := false

/-- The first check that fails decides (R53); otherwise the instruction stands. -/
def Bad.elseOk (b : Bad) (i : Instr) : Except Ill Instr :=
  if b.unused then .error .unused else if b.mod then .error .mod else if b.fa then .error .fa
  else if b.rule then .error .rule else if b.land then .error .land else if b.reg then .error .reg
  else if b.aux then .error .aux else .ok i

/-- Whether one of these (position, width) fields, or bit 15, is not zero (R49, R53). -/
def anySet (w : Nat) (fs : List (Nat × Nat)) : Bool := bit w 15 || fs.any fun f => fld w f.1 f.2 != 0

/-- Table 2-7: a vector register, or, with `pair`, the even register of a pair, in the field at `lo`. -/
def badV (v : Nat) (pair : Bool) (w lo : Nat) : Bool :=
  if pair then fld w lo 10 % 2 == 1 || v ≤ fld w lo 10 + 1 else v ≤ fld w lo 10

/-- Table 2-7: a vector range. -/
def badRange (v first last : Nat) : Bool := last < first || v ≤ last

/-- Table 2-7: a uniform register in a field of n bits. -/
def badU (w lo n : Nat) : Bool := 95 < fld w lo n

/-- Table 2-7: S of Format C, a uniform register or no base. -/
def badS (w : Nat) : Bool := 95 < fld w 36 7 && fld w 36 7 != 127

/-- Table 2-7: a mask source in a field of ten bits. -/
def badM (w lo : Nat) : Bool := 15 < fld w lo 10

/-- Table 2-7: a mask destination in a field of ten bits, never `m0` (R50). -/
def badMD (w lo : Nat) : Bool := 15 < fld w lo 10 || fld w lo 10 == 0

/-- Table 2-7: an expansion descriptor in a field of ten bits. -/
def badX (w lo : Nat) : Bool := 15 < fld w lo 10

/-- A base register of Format C (R44). -/
def fS (w : Nat) : Option UReg := if fld w 36 7 = 127 then none else some (fu w 36)

/-- A memory operand of Format C (R44). -/
def fAddr (w : Nat) : Addr :=
  { base := fS w
    ix := if bit w 63 then .absent else if bit w 62 then .v64 (fv w 26) else .v32 (fv w 26)
    off := fbv w 64 32 }

/-- R44: under NIX = 1, A and IW are unused fields. -/
def addrUnused (w : Nat) : List (Nat × Nat) := if bit w 63 then [(26, 10), (62, 1)] else []

/-- The register checks of a memory operand. -/
def badAddr (v w : Nat) : Bool := badS w || (!bit w 63 && badV v (bit w 62) w 26)

/-! ## G1: vector integer (R117, R118) -/

/-- D, A, B under one format with SAT and OM. -/
def dVArith (v w : Nat) (k : VArith → Instr) : Except Ill Instr :=
  let p := faPair (fld w 46 4)
  Bad.elseOk { unused := anySet w [(50, 3), (58, 6)], fa := 4 < fld w 46 4,
               reg := badV v p w 16 || badV v p w 26 || badV v p w 36 }
    (k { msk := fm w 11, d := fv w 16, a := fv w 26, b := fv w 36, fa := .ofCode (fld w 46 4),
         sat := bit w 57, om := fm w 53 })

def dVArith1 (v w : Nat) (k : VArith1 → Instr) : Except Ill Instr :=
  let p := faPair (fld w 46 4)
  Bad.elseOk { unused := anySet w [(36, 10), (50, 3), (58, 6)], fa := 4 < fld w 46 4,
               reg := badV v p w 16 || badV v p w 26 }
    (k { msk := fm w 11, d := fv w 16, a := fv w 26, fa := .ofCode (fld w 46 4),
         sat := bit w 57, om := fm w 53 })

/-- D, A, B under one format, no options; `ok` the accepted FA codes. -/
def dVBin (v w : Nat) (ok : List Nat) (k : VBin → Instr) : Except Ill Instr :=
  let p := faPair (fld w 46 4)
  Bad.elseOk { unused := anySet w [(50, 3), (53, 11)], fa := !ok.contains (fld w 46 4),
               reg := badV v p w 16 || badV v p w 26 || badV v p w 36 }
    (k { msk := fm w 11, d := fv w 16, a := fv w 26, b := fv w 36, fa := .ofCode (fld w 46 4) })

/-- D and A, no options; `wide` whether D is of the operation format. -/
def dVUn (v w : Nat) (ok : List Nat) (wide : Bool) (k : VUn → Instr) : Except Ill Instr :=
  let p := faPair (fld w 46 4)
  Bad.elseOk { unused := anySet w [(36, 10), (50, 3), (53, 11)], fa := !ok.contains (fld w 46 4),
               reg := badV v (p && wide) w 16 || badV v p w 26 }
    (k { msk := fm w 11, d := fv w 16, a := fv w 26, fa := .ofCode (fld w 46 4) })

/-- Shifts: IB and the amount (R122). -/
def dVShift (v w : Nat) (k : VShift → Instr) : Except Ill Instr :=
  let p := faPair (fld w 46 4)
  Bad.elseOk { unused := anySet w [(50, 3), (53, 10)], fa := 4 < fld w 46 4,
               reg := badV v p w 16 || badV v p w 26 || (!bit w 63 && badV v false w 36),
               aux := bit w 63 && 63 < fld w 36 10 }
    (k { msk := fm w 11, d := fv w 16, a := fv w 26,
         amt := if bit w 63 then .imm (ffin w 36 6) else .reg (fv w 36), fa := .ofCode (fld w 46 4) })

/-- `mad` (R118): the addend is C or IMM32. -/
def dMad (v w : Nat) : Except Ill Instr :=
  let p := faPair (fld w 46 4)
  Bad.elseOk { unused := anySet w ([(50, 3), (58, 5)] ++ if bit w 63 then [] else [(74, 22)]),
               fa := 4 < fld w 46 4,
               reg := badV v p w 16 || badV v p w 26 || badV v p w 36 || (!bit w 63 && badV v p w 64) }
    (.mad { msk := fm w 11, d := fv w 16, a := fv w 26, b := fv w 36,
            c := if bit w 63 then .imm (fbv w 64 32) else .reg (fv w 64),
            fa := .ofCode (fld w 46 4), sat := bit w 57, om := fm w 53 })

/-- The field operand of `bfe` and `bfi` (R124). -/
def fFld (w : Nat) : Fld :=
  if bit w 53 then .reg (fv w 64) else .imm (ffin w 74 6) (Fin.ofNat 65 (fld w 80 7))

/-- The value checks of the field operand: AUX[10], l above 64, IMM22[21:13] (R118, R124). -/
def badFld (w : Nat) : Bool := bit w 63 || (!bit w 53 && (64 < fld w 80 7 || fld w 87 9 != 0))

def fldUnused (w : Nat) : List (Nat × Nat) := if bit w 53 then [(74, 22)] else [(64, 10)]

def dBfe (v w : Nat) : Except Ill Instr :=
  let p := faPair (fld w 46 4)
  Bad.elseOk { unused := anySet w ([(36, 10), (50, 3), (54, 9)] ++ fldUnused w), fa := 4 < fld w 46 4,
               reg := badV v p w 16 || badV v p w 26 || (bit w 53 && badV v false w 64), aux := badFld w }
    (.bfe { msk := fm w 11, d := fv w 16, a := fv w 26, fld := fFld w, fa := .ofCode (fld w 46 4) })

def dBfi (v w : Nat) : Except Ill Instr :=
  let p := faPair (fld w 46 4)
  Bad.elseOk { unused := anySet w ([(50, 3), (54, 9)] ++ fldUnused w), fa := 4 < fld w 46 4,
               reg := badV v p w 16 || badV v p w 26 || badV v p w 36 || (bit w 53 && badV v false w 64),
               aux := badFld w }
    (.bfi { msk := fm w 11, d := fv w 16, a := fv w 26, b := fv w 36, fld := fFld w,
            fa := .ofCode (fld w 46 4) })

def dCmp (v w : Nat) : Except Ill Instr :=
  let p := faPair (fld w 46 4)
  Bad.elseOk { unused := anySet w [(54, 10)], fa := 4 < fld w 46 4,
               reg := badMD w 16 || badV v p w 26 || badV v p w 36 }
    (.cmp { msk := fm w 11, d := fm w 16, a := fv w 26, b := fv w 36, fa := .ofCode (fld w 46 4),
            cc := .ofCode (fld w 50 3), z := bit w 53 })

def dSel (v w : Nat) : Except Ill Instr :=
  let p := faPair (fld w 46 4)
  Bad.elseOk { unused := anySet w [(50, 3), (57, 7)], fa := 13 < fld w 46 4,
               reg := badV v p w 16 || badV v p w 26 || badV v p w 36 }
    (.sel { msk := fm w 11, d := fv w 16, a := fv w 26, b := fv w 36, fa := .ofCode (fld w 46 4),
            sm := fm w 53 })

/-- `movi` (R128): AUX[10] must be 1 (0x0A otherwise, after the unused fields). -/
def dMovi (v w : Nat) : Except Ill Instr :=
  Bad.elseOk { unused := anySet w [(26, 10), (36, 10), (50, 3), (53, 10)],
               fa := fld w 46 4 == 0 || 12 < fld w 46 4,
               reg := badV v (faPair (fld w 46 4)) w 16, aux := !bit w 63 }
    (.movi { msk := fm w 11, d := fv w 16, fa := .ofCode (fld w 46 4), imm := fbv w 64 32 })

/-- `addc` (R129): C and IMM22 are zero. -/
def dAddc (v w : Nat) : Except Ill Instr :=
  let p := faPair (fld w 46 4)
  Bad.elseOk { unused := anySet w [(50, 3), (62, 1), (64, 32)], fa := 4 < fld w 46 4,
               reg := badV v p w 16 || badV v p w 26 || badV v p w 36, aux := bit w 63 }
    (.addc { msk := fm w 11, d := fv w 16, a := fv w 26, b := fv w 36, fa := .ofCode (fld w 46 4),
             bor := bit w 61, co := fm w 57, ci := fm w 53 })

/-- `cvti` (R130): FA = 0, TGT 1 to 4. -/
def dCvti (v w : Nat) : Except Ill Instr :=
  Bad.elseOk { unused := anySet w [(36, 10), (50, 3), (61, 3)], fa := fld w 46 4 != 0,
               reg := badV v (faPair (fld w 57 4)) w 16 || badV v false w 26,
               aux := fld w 57 4 == 0 || 4 < fld w 57 4 }
    (.cvti { msk := fm w 11, d := fv w 16, a := fv w 26, tgt := .ofCode (fld w 57 4), om := fm w 53 })

/-- FA codes 0 to 4. -/
def faInt : List Nat := [0, 1, 2, 3, 4]

/-- Table 5-1, by position in the group. -/
def decG1 (v w o : Nat) : Except Ill Instr :=
  match o with
  | 0x00 => dVArith v w .add
  | 0x01 => dVArith v w .sub
  | 0x02 => dVArith v w .mul
  | 0x03 => dVBin v w faInt .mulh
  | 0x04 => dMad v w
  | 0x05 => dVArith v w .div
  | 0x06 => dVBin v w faInt .rem
  | 0x07 => dVArith1 v w .neg
  | 0x08 => dVArith1 v w .abs
  | 0x09 => dVBin v w faInt .min
  | 0x0A => dVBin v w faInt .max
  | 0x0B => dVBin v w faInt .and
  | 0x0C => dVBin v w faInt .or
  | 0x0D => dVBin v w faInt .xor
  | 0x0E => dVUn v w faInt true .not
  | 0x0F => dVBin v w faInt .andn
  | 0x10 => dVShift v w .shl
  | 0x11 => dVShift v w .shr
  | 0x12 => dVShift v w .sar
  | 0x13 => dVShift v w .rot
  | 0x14 => dVUn v w faInt false .clz
  | 0x15 => dVUn v w faInt false .ctz
  | 0x16 => dVUn v w faInt false .popc
  | 0x17 => dVUn v w faInt true .brev
  | 0x18 => dBfe v w
  | 0x19 => dBfi v w
  | 0x1A => dCmp v w
  | 0x1B => dSel v w
  | 0x1C => dVUn v w [0, 1, 2, 3, 4, 5, 6, 7, 8, 9, 10, 11, 12, 13] true .mov
  | 0x1D => dMovi v w
  | 0x1E => dAddc v w
  | 0x1F => dCvti v w
  | _ => .error .unassigned

/-! ## G2: masks (R132, R133) -/

def dMBin (w : Nat) (k : MBin → Instr) : Except Ill Instr :=
  Bad.elseOk { unused := anySet w [(50, 3), (53, 11)], fa := fld w 46 4 != 0,
               reg := badMD w 16 || badM w 26 || badM w 36 }
    (k { msk := fm w 11, d := fm w 16, a := fm w 26, b := fm w 36 })

def dMUn (w : Nat) (k : MUn → Instr) : Except Ill Instr :=
  Bad.elseOk { unused := anySet w [(36, 10), (50, 3), (53, 11)], fa := fld w 46 4 != 0,
               reg := badMD w 16 || badM w 26 }
    (k { msk := fm w 11, d := fm w 16, a := fm w 26 })

def dMSet (w : Nat) : Except Ill Instr :=
  Bad.elseOk { unused := anySet w [(26, 10), (36, 10), (50, 3), (54, 10)], fa := fld w 46 4 != 0,
               reg := badMD w 16 }
    (.mset { msk := fm w 11, d := fm w 16, val := bit w 53 })

def dMFrom (v w : Nat) : Except Ill Instr :=
  Bad.elseOk { unused := anySet w [(36, 10), (50, 3), (53, 11)], fa := fld w 46 4 != 0,
               reg := badMD w 16 || badV v false w 26 }
    (.mfrom { msk := fm w 11, d := fm w 16, a := fv w 26 })

def dMTo (v w : Nat) : Except Ill Instr :=
  Bad.elseOk { unused := anySet w [(36, 10), (50, 3), (54, 10)], fa := fld w 46 4 != 0,
               reg := badV v false w 16 || badM w 26 }
    (.mto { msk := fm w 11, d := fv w 16, a := fm w 26, ones := bit w 53 })

def dMCount (w : Nat) (k : MCount → Instr) : Except Ill Instr :=
  Bad.elseOk { unused := anySet w [(36, 10), (50, 3), (53, 11)], fa := fld w 46 4 != 0,
               reg := badU w 16 10 || badM w 26 }
    (k { msk := fm w 11, d := fu w 16, a := fm w 26 })

/-- Table 5-4, by position in the group. -/
def decG2 (v w o : Nat) : Except Ill Instr :=
  match o with
  | 0x00 => dMBin w .mand
  | 0x01 => dMBin w .mor
  | 0x02 => dMBin w .mxor
  | 0x03 => dMUn w .mnot
  | 0x04 => dMBin w .mandn
  | 0x05 => dMSet w
  | 0x06 => dMFrom v w
  | 0x07 => dMTo v w
  | 0x08 => dMCount w .mcnt
  | 0x09 => dMCount w .mfirst
  | _ => .error .unassigned

/-! ## G3: uniform (R135 to R140) -/

/-- SB = 0b111_1111 selects the immediate (R135). -/
def fUSrc (w : Nat) : USrc := if fld w 30 7 = 127 then .imm (fbv w 43 21) else .reg (fu w 30)

def uSrcUnused (w : Nat) : List (Nat × Nat) := if fld w 30 7 = 127 then [] else [(43, 21)]

def badUSrc (w : Nat) : Bool := 95 < fld w 30 7 && fld w 30 7 != 127

def dSBin (w : Nat) (k : SBin → Instr) : Except Ill Instr :=
  Bad.elseOk { unused := anySet w ([(37, 3), (40, 3)] ++ uSrcUnused w),
               reg := badU w 16 7 || badU w 23 7 || badUSrc w }
    (k { msk := fm w 11, d := fu w 16, a := fu w 23, b := fUSrc w })

def dSDiv (w : Nat) : Except Ill Instr :=
  Bad.elseOk { unused := anySet w (uSrcUnused w), mod := bit w 42,
               reg := badU w 16 7 || badU w 23 7 || badUSrc w }
    (.sdiv { msk := fm w 11, d := fu w 16, q := fq w 37, a := fu w 23, b := fUSrc w, u := bit w 40,
             rem := bit w 41 })

def dSMinMax (w : Nat) (k : SMinMax → Instr) : Except Ill Instr :=
  Bad.elseOk { unused := anySet w ([(37, 3)] ++ uSrcUnused w), mod := fld w 41 2 != 0,
               reg := badU w 16 7 || badU w 23 7 || badUSrc w }
    (k { msk := fm w 11, d := fu w 16, a := fu w 23, b := fUSrc w, u := bit w 40 })

/-- `scmp` (R137): SD is 0 or 1, any other value outside the codes. -/
def dSCmp (w : Nat) : Except Ill Instr :=
  Bad.elseOk { unused := anySet w (uSrcUnused w), reg := badU w 23 7 || badUSrc w, aux := 1 < fld w 16 7 }
    (.scmp { msk := fm w 11, q := fq w 37, a := fu w 23, b := fUSrc w, u := bit w 16,
             cc := .ofCode (fld w 40 3) })

def dSSel (w : Nat) : Except Ill Instr :=
  Bad.elseOk { unused := anySet w ([(40, 3)] ++ uSrcUnused w),
               reg := badU w 16 7 || badU w 23 7 || badUSrc w }
    (.ssel { msk := fm w 11, d := fu w 16, q := fq w 37, a := fu w 23, b := fUSrc w })

def dSUn (w : Nat) (k : SUn → Instr) : Except Ill Instr :=
  Bad.elseOk { unused := anySet w [(30, 7), (37, 3), (40, 3), (43, 21)], reg := badU w 16 7 || badU w 23 7 }
    (k { msk := fm w 11, d := fu w 16, a := fu w 23 })

def dSLi (w : Nat) : Except Ill Instr :=
  Bad.elseOk { unused := anySet w [(23, 7), (30, 7), (37, 3)], mod := bit w 42, reg := badU w 16 7,
               aux := fld w 40 3 == 3 && fld w 44 20 != 0 }
    (.sli { msk := fm w 11, d := fu w 16, pos := ffin w 40 2, imm := fbv w 43 21 })

def dSBfe (w : Nat) : Except Ill Instr :=
  Bad.elseOk { unused := anySet w [(30, 7), (37, 3), (40, 3)], reg := badU w 16 7 || badU w 23 7,
               aux := fld w 57 7 != 0 || 64 < fld w 49 7 }
    (.sbfe { msk := fm w 11, d := fu w 16, a := fu w 23, p := ffin w 43 6, l := Fin.ofNat 65 (fld w 49 7),
             sx := bit w 56 })

/-- The operation of `qop` (R140). -/
def fQOp (w : Nat) : QOpKind :=
  match fld w 40 3 with
  | 0 => .and (fq w 23) (fq w 30)
  | 1 => .or (fq w 23) (fq w 30)
  | 2 => .xor (fq w 23) (fq w 30)
  | 3 => .andn (fq w 23) (fq w 30)
  | 4 => .not (fq w 23)
  | 5 => .set (bit w 43)
  | 6 => .test (fu w 23)
  | _ => .mov (fq w 23)

def dQOp (w : Nat) : Except Ill Instr :=
  let m := fld w 40 3
  Bad.elseOk { unused := anySet w ([(16, 7)] ++ (if m = 5 then [(23, 7)] else [(43, 21)]) ++
                 (if m < 4 then [] else [(30, 7)])),
               reg := (m != 5 && (if m = 6 then badU w 23 7 else 7 < fld w 23 7)) || (m < 4 && 7 < fld w 30 7),
               aux := m == 5 && fld w 44 20 != 0 }
    (.qop { msk := fm w 11, d := fq w 37, op := fQOp w })

/-- Table 5-5, by position in the group. -/
def decG3 (w o : Nat) : Except Ill Instr :=
  match o with
  | 0x00 => dSBin w .sadd
  | 0x01 => dSBin w .ssub
  | 0x02 => dSBin w .smul
  | 0x03 => dSDiv w
  | 0x04 => dSBin w .sand
  | 0x05 => dSBin w .sor
  | 0x06 => dSBin w .sxor
  | 0x07 => dSBin w .sshl
  | 0x08 => dSBin w .sshr
  | 0x09 => dSBin w .ssar
  | 0x0A => dSMinMax w .smin
  | 0x0B => dSMinMax w .smax
  | 0x0C => dSCmp w
  | 0x0D => dSSel w
  | 0x0E => dSUn w .smov
  | 0x0F => dSLi w
  | 0x10 => dSBfe w
  | 0x11 => dSUn w .sclz
  | 0x12 => dSUn w .spopc
  | 0x13 => dQOp w
  | _ => .error .unassigned

/-! ## G0: control, effects, system (R52, Tables 8-1 and 11-2) -/

/-- OFF24, Q and MSK2 of Format E. -/
def eFields : List (Nat × Nat) := [(16, 24), (40, 3), (43, 4)]

/-- S, RULE, LAND of a Format C word that uses none of them; FA is checked apart (R46). -/
def cNoMem : List (Nat × Nat) := [(36, 7), (47, 3), (50, 3)]

def dBr (w : Nat) : Except Ill Instr :=
  Bad.elseOk { unused := anySet w [(40, 3), (43, 4), (47, 17)] } (.br { msk := fm w 11, off := fbv w 16 24 })

/-- The condition of `bq` (Table 8-2). -/
def fBqCond (w : Nat) : BqCond :=
  match fld w 48 2 with
  | 0 => .q (fq w 40)
  | 1 => .any (fm w 43)
  | _ => .all (fm w 43)

def dBq (w : Nat) : Except Ill Instr :=
  let k := fld w 48 2
  Bad.elseOk { unused := anySet w ([(50, 14)] ++ (if k = 0 then [(43, 4)] else []) ++
                 (if k = 1 ∨ k = 2 then [(40, 3)] else [])),
               aux := k == 3 }
    (.bq { msk := fm w 11, cond := fBqCond w, neg := bit w 47, off := fbv w 16 24 })

/-- The live range of `brd` and `rejoin`: D to A, absent under NLR = AUX[8] (R185). -/
def fRangeDA (w : Nat) : Range := if bit w 61 then none else some (fv w 16, fv w 26)

def rangeDAUnused (w : Nat) : List (Nat × Nat) := if bit w 61 then [(16, 10), (26, 10)] else []

def badRangeDA (v w : Nat) : Bool := !bit w 61 && badRange v (fld w 16 10) (fld w 26 10)

def dBrd (v w : Nat) : Except Ill Instr :=
  Bad.elseOk { unused := anySet w (cNoMem ++ [(57, 4), (62, 2)] ++ rangeDAUnused w), fa := fld w 43 4 != 0,
               reg := badRangeDA v w }
    (.brd { msk := fm w 11, mc := fm w 53, target := fbv w 64 32, join := fbv w 96 32, range := fRangeDA w })

def dBareE (w : Nat) (k : Bare → Instr) : Except Ill Instr :=
  Bad.elseOk { unused := anySet w (eFields ++ [(47, 17)]) } (k { msk := fm w 11 })

/-- `call`: the link register in AUX17[6:0]; above 95 is reason 0x0A (R180). -/
def dCall (w : Nat) : Except Ill Instr :=
  Bad.elseOk { unused := anySet w [(40, 3), (43, 4), (54, 10)], aux := badU w 47 7 }
    (.call { msk := fm w 11, sl := fu w 47, off := fbv w 16 24 })

def dRet (w : Nat) : Except Ill Instr :=
  Bad.elseOk { unused := anySet w (eFields ++ [(54, 10)]), aux := badU w 47 7 }
    (.ret { msk := fm w 11, sl := fu w 47 })

def dJmpi (w : Nat) : Except Ill Instr :=
  Bad.elseOk { unused := anySet w [(16, 7), (30, 7), (37, 3), (40, 3)], reg := badU w 23 7 }
    (.jmpi { msk := fm w 11, sa := fu w 23, imm := fbv w 43 21 })

def dLoop (w : Nat) : Except Ill Instr :=
  Bad.elseOk { unused := anySet w ([(43, 4), (55, 9)] ++ if bit w 54 then [] else [(40, 3)]), aux := badU w 47 7 }
    (.loop { msk := fm w 11, sc := fu w 47, q := if bit w 54 then some (fq w 40) else none, off := fbv w 16 24 })

def dRejoin (v w : Nat) : Except Ill Instr :=
  Bad.elseOk { unused := anySet w (cNoMem ++ [(53, 8), (62, 2), (116, 12)] ++ rangeDAUnused w),
               fa := fld w 43 4 != 0, reg := badRangeDA v w }
    (.rejoin { msk := fm w 11, id := ffin w 110 6, count1 := fbv w 96 14, timeout := fbv w 64 32,
               range := fRangeDA w })

def dHPush (v w : Nat) : Except Ill Instr :=
  Bad.elseOk { unused := anySet w (cNoMem ++ [(53, 11)]), fa := fld w 43 4 != 0,
               reg := badV v true w 16 || badV v false w 26,
               aux := fld w 112 16 == 0 || fld w 26 10 < fld w 16 10 + 3 }
    (.hpush { msk := fm w 11, eff := fbv w 96 16, handler := fbv w 64 32, elen := fbv w 112 16,
              tk := fv w 16, hl := fv w 26 })

def dHPop (v w : Nat) : Except Ill Instr :=
  Bad.elseOk { unused := anySet w (eFields ++ [(58, 6)] ++ if bit w 57 then [] else [(47, 10)]),
               reg := bit w 57 && badV v false w 47 }
    (.hpop { msk := fm w 11, res := if bit w 57 then some (fv w 47) else none })

def dPerform (v w : Nat) : Except Ill Instr :=
  let nlr := bit w 54
  let np := bit w 55
  Bad.elseOk { unused := anySet w ([(50, 3), (56, 8), (90, 6)] ++ (if nlr then [(26, 10), (36, 10)] else []) ++
                 (if np then [(64, 10)] else [])),
               fa := fld w 46 4 != 0,
               reg := badV v false w 16 || (!nlr && badRange v (fld w 26 10) (fld w 36 10)) ||
                 (!np && badV v true w 64),
               aux := fld w 74 16 < 0x0100 || fld w 74 16 == 0xFFFF }
    (.perform { msk := fm w 11, d := fv w 16, eff := fbv w 74 16, payload := if np then none else some (fv w 64),
                ms := bit w 53, range := if nlr then none else some (fv w 26, fv w 36) })

def dResume (v w : Nat) : Except Ill Instr :=
  let rd := bit w 53
  Bad.elseOk { unused := anySet w ([(50, 3), (54, 10)] ++ if rd then [] else [(16, 10)]), fa := fld w 46 4 != 0,
               reg := (rd && badV v false w 16) || badV v true w 26 || badV v false w 36 }
    (.resume { msk := fm w 11, d := if rd then some (fv w 16) else none, vt := fv w 26, va := fv w 36 })

def dDrop (v w : Nat) : Except Ill Instr :=
  Bad.elseOk { unused := anySet w [(16, 10), (36, 10), (50, 3), (53, 11)], fa := fld w 46 4 != 0,
               reg := badV v true w 26 }
    (.drop { msk := fm w 11, vt := fv w 26 })

def dBrk (w : Nat) : Except Ill Instr :=
  Bad.elseOk { unused := anySet w (eFields ++ [(63, 1)]) } (.brk { msk := fm w 11, code := fbv w 47 16 })

/-- `srd`: VD = 1 exactly with IDX = 0 (R243). -/
def dSrd (v w : Nat) : Except Ill Instr :=
  let vd := bit w 58
  Bad.elseOk { unused := anySet w [(26, 10), (36, 10), (50, 3), (59, 5)], fa := fld w 46 4 != 0,
               reg := if vd then badV v true w 16 else badU w 16 10,
               aux := 21 < fld w 53 5 || (vd != (fld w 53 5 == 0)) }
    (.srd { msk := fm w 11, form := if vd then .lti (fv w 16) else .uni (fu w 16) (Fin.ofNat 22 (fld w 53 5)) })

/-- The indices of the R/W special registers (Table 3-4). -/
def srWritable : List Nat := [5, 6, 7, 8, 9, 19, 21]

def dSwr (w : Nat) : Except Ill Instr :=
  Bad.elseOk { unused := anySet w [(16, 10), (36, 10), (50, 3), (58, 6)], fa := fld w 46 4 != 0,
               reg := badU w 26 10, aux := !srWritable.contains (fld w 53 5) }
    (.swr { msk := fm w 11, a := fu w 26, idx := Fin.ofNat 22 (fld w 53 5) })

def dTmrd (w : Nat) : Except Ill Instr :=
  Bad.elseOk { unused := anySet w [(23, 7), (30, 7), (37, 3), (40, 3), (43, 21)], reg := badU w 16 7 }
    (.tmrd { msk := fm w 11, d := fu w 16 })

/-- Tables 8-1 and 11-2, by opcode; `nop` is decoded apart. -/
def decG0 (v w o : Nat) : Except Ill Instr :=
  match o with
  | 0x01 => dBr w
  | 0x02 => dBq w
  | 0x03 => dBrd v w
  | 0x04 => dBareE w .join
  | 0x05 => dCall w
  | 0x06 => dRet w
  | 0x07 => dJmpi w
  | 0x08 => dLoop w
  | 0x09 => dRejoin v w
  | 0x0A => dBareE w .exit
  | 0x0B => dHPush v w
  | 0x0C => dHPop v w
  | 0x0D => dPerform v w
  | 0x0E => dResume v w
  | 0x0F => dDrop v w
  | 0x10 => dBrk w
  | 0x11 => dSrd v w
  | 0x12 => dSwr w
  | 0x13 => dTmrd w
  | _ => .error .unassigned

/-! ## G4: float and special (R142, R143) -/

/-- The FA codes of most float instructions: tagged, FP32, FP64, BF16X2, FP16X2. -/
def faFloat : List Nat := [0, 5, 6, 7, 8]

/-- Illegal rounding codes: 111, and SR outside `fcvt` (R47). -/
def badRnd (sr : Bool) (m : Nat) : Bool := m == 7 || (m == 6 && !sr)

def dFBin (v w : Nat) (k : FBin → Instr) : Except Ill Instr :=
  let p := faPair (fld w 46 4)
  Bad.elseOk { unused := anySet w [(53, 11)], mod := badRnd false (fld w 50 3), fa := !faFloat.contains (fld w 46 4),
               reg := badV v p w 16 || badV v p w 26 || badV v p w 36 }
    (k { msk := fm w 11, d := fv w 16, a := fv w 26, b := fv w 36, fa := .ofCode (fld w 46 4),
         rnd := .ofCode (fld w 50 3) })

def dFMad (v w : Nat) (k : FMad → Instr) : Except Ill Instr :=
  let p := faPair (fld w 46 4)
  Bad.elseOk { unused := anySet w ([(53, 10)] ++ if bit w 63 then [] else [(74, 22)]),
               mod := badRnd false (fld w 50 3), fa := !faFloat.contains (fld w 46 4),
               reg := badV v p w 16 || badV v p w 26 || badV v p w 36 || (!bit w 63 && badV v p w 64) }
    (k { msk := fm w 11, d := fv w 16, a := fv w 26, b := fv w 36,
         c := if bit w 63 then .imm (fbv w 64 32) else .reg (fv w 64),
         fa := .ofCode (fld w 46 4), rnd := .ofCode (fld w 50 3) })

def dFUn (v w : Nat) (k : FUn → Instr) : Except Ill Instr :=
  let p := faPair (fld w 46 4)
  Bad.elseOk { unused := anySet w [(36, 10), (53, 11)], mod := badRnd false (fld w 50 3),
               fa := !faFloat.contains (fld w 46 4), reg := badV v p w 16 || badV v p w 26 }
    (k { msk := fm w 11, d := fv w 16, a := fv w 26, fa := .ofCode (fld w 46 4), rnd := .ofCode (fld w 50 3) })

/-- `fscale`: B is raw, one register (R150). -/
def dFScale (v w : Nat) : Except Ill Instr :=
  let p := faPair (fld w 46 4)
  Bad.elseOk { unused := anySet w [(53, 11)], mod := badRnd false (fld w 50 3), fa := ! [0, 5, 6].contains (fld w 46 4),
               reg := badV v p w 16 || badV v p w 26 || badV v false w 36 }
    (.fscale { msk := fm w 11, d := fv w 16, a := fv w 26, b := fv w 36, fa := .ofCode (fld w 46 4),
               rnd := .ofCode (fld w 50 3) })

/-- `fcmp`: EL is zero for an asserted FP32 or FP64 (R146). -/
def dFCmp (v w : Nat) : Except Ill Instr :=
  let p := faPair (fld w 46 4)
  Bad.elseOk { unused := anySet w [(55, 9)], fa := !faFloat.contains (fld w 46 4),
               reg := badMD w 16 || badV v p w 26 || badV v p w 36,
               aux := bit w 54 && (fld w 46 4 == 5 || fld w 46 4 == 6) }
    (.fcmp { msk := fm w 11, d := fm w 16, a := fv w 26, b := fv w 36, fa := .ofCode (fld w 46 4),
             cc := .ofCode (fld w 50 3), el := bit w 54, z := bit w 53 })

/-- `fcvt` and `fcvti`: FA = 0, TGT and POS (R153, R154); `tgts` the legal target codes. -/
def dFCvt (v w : Nat) (sr : Bool) (tgts : List Nat) (k : FCvt → Instr) : Except Ill Instr :=
  Bad.elseOk { unused := anySet w [(36, 10), (60, 4)], mod := badRnd sr (fld w 50 3), fa := fld w 46 4 != 0,
               reg := badV v (faPair (fld w 53 4)) w 16 || badV v false w 26, aux := !tgts.contains (fld w 53 4) }
    (k { msk := fm w 11, d := fv w 16, a := fv w 26, tgt := .ofCode (fld w 53 4), pos := ffin w 57 3,
         rnd := .ofCode (fld w 50 3) })

def dFPack (v w : Nat) : Except Ill Instr :=
  let p := faPair (fld w 46 4)
  Bad.elseOk { unused := anySet w [(54, 10)], mod := badRnd false (fld w 50 3), fa := ! [0, 5, 6].contains (fld w 46 4),
               reg := badV v false w 16 || badV v p w 26 || badV v p w 36 }
    (.fpack { msk := fm w 11, d := fv w 16, a := fv w 26, b := fv w 36, fa := .ofCode (fld w 46 4),
              rnd := .ofCode (fld w 50 3), f16 := bit w 53 })

/-- `smxi`, `smxf` (R156): n − 1 in IMM22[4:0]; the score range stays below `.vregs`. -/
def dSmx (v w : Nat) (k : Smx → Instr) : Except Ill Instr :=
  Bad.elseOk { unused := anySet w [(50, 3), (54, 9), (64, 10), (79, 17)], fa := fld w 46 4 != 0,
               reg := badV v false w 16 || badV v false w 26 || v ≤ fld w 36 10 + fld w 74 5, aux := bit w 63 }
    (k { msk := fm w 11, d := fv w 16, a := fv w 26, b := fv w 36, n1 := ffin w 74 5, b2 := bit w 53 })

/-- Table 6-1, by position in the group. -/
def decG4 (v w o : Nat) : Except Ill Instr :=
  match o with
  | 0x00 => dFBin v w .fadd
  | 0x01 => dFBin v w .fsub
  | 0x02 => dFBin v w .fmul
  | 0x03 => dFMad v w .fma
  | 0x04 => dFMad v w .fnma
  | 0x05 => dFBin v w .fdiv
  | 0x06 => dFUn v w .fsqrt
  | 0x07 => dVUn v w faFloat true .frcp
  | 0x08 => dVUn v w faFloat true .frsq
  | 0x09 => dVBin v w faFloat .fmin
  | 0x0A => dVBin v w faFloat .fmax
  | 0x0B => dVUn v w faFloat true .fabs
  | 0x0C => dVUn v w faFloat true .fneg
  | 0x0D => dVBin v w faFloat .fcpsgn
  | 0x0E => dFCmp v w
  | 0x0F => dVUn v w faFloat false .fclass
  | 0x10 => dFUn v w .frnd
  | 0x11 => dVUn v w [0, 5, 6] false .fexpo
  | 0x12 => dFScale v w
  | 0x13 => dVUn v w [0, 5, 7, 8] true .fexp2
  | 0x14 => dVUn v w [0, 5, 7, 8] true .flog2
  | 0x15 => dVUn v w [0, 5, 7, 8] true .fsin
  | 0x16 => dVUn v w [0, 5, 7, 8] true .fcos
  | 0x17 => dVUn v w [0, 5, 7, 8] true .ftanh
  | 0x18 => dFCvt v w true [5, 6, 7, 8, 9, 11] .fcvt
  | 0x19 => dFCvt v w false [1, 2, 3, 4, 5, 6, 7, 8, 9, 10, 11, 12] .fcvti
  | 0x1A => dFPack v w
  | 0x1B => dSmx v w .smxi
  | 0x1C => dSmx v w .smxf
  | _ => .error .unassigned

/-! ## G5: memory (R173, Table 7-6) -/

def fSub (w : Nat) : Sub :=
  match fld w 53 2 with
  | 1 => .b8
  | 2 => .b16
  | _ => .full

def dLd (v w : Nat) : Except Ill Instr :=
  let fa := fld w 43 4
  let sub := fld w 53 2
  Bad.elseOk { unused := anySet w ([(47, 3), (50, 3), (55, 7), (96, 32)] ++ addrUnused w), fa := 13 < fa,
               reg := badV v (faPair fa) w 16 || badAddr v w, aux := sub == 3 || (sub != 0 && fa != 1 && fa != 2) }
    (.ld { msk := fm w 11, d := fv w 16, addr := fAddr w, fa := .ofCode fa, sub := fSub w })

def dSt (v w : Nat) : Except Ill Instr :=
  let fa := fld w 43 4
  let sub := fld w 53 2
  Bad.elseOk { unused := anySet w ([(55, 7), (96, 32)] ++ addrUnused w), fa := 13 < fa, rule := 4 < fld w 47 3,
               land := fld w 50 3 == 0, reg := badV v (faPair fa) w 16 || badAddr v w,
               aux := sub == 3 || (sub != 0 && ((fa != 1 && fa != 2) || 2 < fld w 47 3)) }
    (.st { msk := fm w 11, src := fv w 16, addr := fAddr w, fa := .ofCode fa, sub := fSub w,
           rule := .ofCode (fld w 47 3), land := ffin w 50 3 })

/-- `ldu` (R176): an index (NIX = 0) is outside the entry's codes. -/
def dLdu (w : Nat) : Except Ill Instr :=
  Bad.elseOk { unused := anySet w ([(47, 3), (50, 3), (56, 6), (96, 32)] ++ addrUnused w), fa := fld w 43 4 != 0,
               reg := badU w 16 10 || badS w, aux := !bit w 63 || (bit w 55 && fld w 53 2 == 0) }
    (.ldu { msk := fm w 11, d := fu w 16, base := fS w, off := fbv w 64 32, wid := ffin w 53 2, sx := bit w 55 })

/-- `claim` (R177): RULE 100 and LAND 001, any other value 0x0A. -/
def dClaim (v w : Nat) : Except Ill Instr :=
  let fa := fld w 43 4
  Bad.elseOk { unused := anySet w ([(53, 9), (106, 22)] ++ addrUnused w), fa := 7 < fa,
               reg := badV v (faPair fa) w 16 || badAddr v w || badV v (faPair fa) w 96,
               aux := fld w 47 3 != 4 || fld w 50 3 != 1 }
    (.claim { msk := fm w 11, src := fv w 16, addr := fAddr w, fa := .ofCode fa, res := fv w 96 })

def dPf (v w : Nat) : Except Ill Instr :=
  Bad.elseOk { unused := anySet w ([(16, 10), (47, 3), (50, 3), (54, 8), (104, 24)] ++ addrUnused w),
               fa := fld w 43 4 != 0, reg := badAddr v w }
    (.pf { msk := fm w 11, addr := fAddr w, tr := bit w 53, lines1 := fbv w 96 8 })

/-- `ldt` (R179): the last destination register lies below `.vregs`. -/
def dLdt (v w : Nat) : Except Ill Instr :=
  let fa := fld w 43 4
  let k := if faPair fa then 2 else 1
  Bad.elseOk { unused := anySet w ([(47, 3), (50, 3), (53, 9), (100, 28)] ++ addrUnused w), fa := 13 < fa,
               reg := badV v (faPair fa) w 16 || v < fld w 16 10 + (fld w 96 4 + 1) * k || badAddr v w }
    (.ldt { msk := fm w 11, d := fv w 16, addr := fAddr w, fa := .ofCode fa, n1 := ffin w 96 4 })

/-- Table 7-6, by position in the group. -/
def decG5 (v w o : Nat) : Except Ill Instr :=
  match o with
  | 0x00 => dLd v w
  | 0x01 => dSt v w
  | 0x02 => dLdu w
  | 0x03 => dClaim v w
  | 0x04 => dPf v w
  | 0x05 => dLdt v w
  | _ => .error .unassigned

/-! ## G6: cross-lane and collectives (Tables 9-1 to 9-3, 10-1, 10-2) -/

def fGetMode (w : Nat) : GetMode :=
  match fld w 62 2 with
  | 0 => .idx (fv w 36)
  | 1 => .dn (fbv w 36 10)
  | 2 => .up (fbv w 36 10)
  | _ => .xor (fbv w 36 10)

/-- `vget` (R199, R200): ZF with OP is outside the codes. -/
def dVGet (v w : Nat) : Except Ill Instr :=
  let p := faPair (fld w 46 4)
  Bad.elseOk { unused := anySet w [(50, 3), (58, 3)], fa := 13 < fld w 46 4,
               reg := badV v p w 16 || badV v p w 26 || (fld w 62 2 == 0 && badV v false w 36),
               aux := bit w 61 && bit w 57 }
    (.vget { msk := fm w 11, d := fv w 16, a := fv w 26, mode := fGetMode w, z := bit w 61, add := bit w 57,
             vm := fm w 53, fa := .ofCode (fld w 46 4) })

def fPostMode (w : Nat) : PostMode :=
  match fld w 61 2 with
  | 0 => .idx (fv w 36)
  | 1 => .rel (fbv w 74 22)
  | _ => .xor (fbv w 74 10)

def fPostRule (w : Nat) : PostRule :=
  match fld w 58 3 with
  | 0 => .fault
  | 1 => .lo
  | 3 => .add
  | _ => .addin

/-- `vpost` (R201). -/
def dVPost (v w : Nat) : Except Ill Instr :=
  let p := faPair (fld w 46 4)
  let mode := fld w 61 2
  Bad.elseOk { unused := anySet w ([(50, 3), (57, 1), (64, 10)] ++ if mode = 0 then [(74, 22)] else [(36, 10)]),
               fa := 13 < fld w 46 4,
               reg := badV v p w 16 || badV v p w 26 || (mode == 0 && badV v false w 36),
               aux := bit w 63 || mode == 3 || ! [0, 1, 3, 4].contains (fld w 58 3) ||
                 (mode == 2 && fld w 84 12 != 0) }
    (.vpost { msk := fm w 11, d := fv w 16, a := fv w 26, mode := fPostMode w, cr := fPostRule w,
              dm := fm w 53, fa := .ofCode (fld w 46 4) })

def fBcastSel (w : Nat) : BcastSel :=
  match fld w 62 2 with
  | 0 => .uni (fu w 36)
  | 1 => .slot (fbv w 36 10)
  | _ => .first

/-- A condition bit written when a QE bit stands. -/
def fQE (w qe lo : Nat) : Option QReg := if bit w qe then some (fq w lo) else none

def qeUnused (w qe lo : Nat) : List (Nat × Nat) := if bit w qe then [] else [(lo, 3)]

def dVBcast (v w : Nat) : Except Ill Instr :=
  let p := faPair (fld w 46 4)
  let sel := fld w 62 2
  Bad.elseOk { unused := anySet w ([(50, 3), (57, 5)] ++ (if sel = 2 then [(36, 10)] else []) ++ qeUnused w 56 53),
               fa := 13 < fld w 46 4,
               reg := badV v p w 16 || badV v p w 26 || (sel == 0 && badU w 36 10), aux := sel == 3 }
    (.vbcast { msk := fm w 11, d := fv w 16, a := fv w 26, sel := fBcastSel w, q := fQE w 56 53,
               fa := .ofCode (fld w 46 4) })

def dVLti (v w : Nat) : Except Ill Instr :=
  Bad.elseOk { unused := anySet w [(26, 10), (36, 10), (50, 3), (55, 9)], fa := fld w 46 4 != 0,
               reg := badV v (fld w 53 2 == 0) w 16, aux := fld w 53 2 == 3 }
    (.vlti { msk := fm w 11, d := fv w 16, part := Fin.ofNat 3 (fld w 53 2) })

def dVSlot (v w : Nat) : Except Ill Instr :=
  Bad.elseOk { unused := anySet w [(26, 10), (36, 10), (50, 3), (54, 10)], fa := fld w 46 4 != 0,
               reg := badV v false w 16 }
    (.vslot { msk := fm w 11, d := fv w 16, rank := bit w 53 })

/-- A vector destination of one class or a uniform one (UD, R209). -/
def fVOrU (w : Nat) : VOrU := if bit w 62 then .u (fu w 16) else .v (fv w 16)

def badVOrU (v : Nat) (pair : Bool) (w : Nat) : Bool := if bit w 62 then badU w 16 10 else badV v pair w 16

def fRedOp (w : Nat) : RedOp :=
  match fld w 53 3 with
  | 0 => .add
  | 1 => .min
  | 2 => .max
  | 3 => .and
  | 4 => .or
  | _ => .xor

def dVRed (v w : Nat) : Except Ill Instr :=
  let p := faPair (fld w 46 4)
  Bad.elseOk { unused := anySet w ([(36, 10), (50, 3), (60, 2), (64, 32)] ++ qeUnused w 59 56), fa := 8 < fld w 46 4,
               reg := badVOrU v p w || badV v p w 26, aux := bit w 63 || 5 < fld w 53 3 }
    (.vred { msk := fm w 11, d := fVOrU w, a := fv w 26, op := fRedOp w, q := fQE w 59 56,
             fa := .ofCode (fld w 46 4) })

def dVScan (v w : Nat) : Except Ill Instr :=
  let p := faPair (fld w 46 4)
  let ut := bit w 62
  Bad.elseOk { unused := anySet w ([(36, 10), (50, 3), (60, 1), (74, 22)] ++ qeUnused w 59 56 ++
                 if ut then [] else [(64, 10)]),
               fa := 8 < fld w 46 4, reg := badV v p w 16 || badV v p w 26 || (ut && badU w 64 10),
               aux := bit w 63 || 5 < fld w 53 3 }
    (.vscan { msk := fm w 11, d := fv w 16, a := fv w 26, op := fRedOp w, exc := bit w 61,
              tot := if ut then some (fu w 64) else none, q := fQE w 59 56, fa := .ofCode (fld w 46 4) })

def dVArg (v w : Nat) (k : VArg → Instr) : Except Ill Instr :=
  Bad.elseOk { unused := anySet w ([(36, 10), (50, 3), (53, 3), (60, 2), (64, 32)] ++ qeUnused w 59 56),
               fa := 6 < fld w 46 4, reg := badVOrU v false w || badV v (faPair (fld w 46 4)) w 26,
               aux := bit w 63 }
    (k { msk := fm w 11, d := fVOrU w, a := fv w 26, q := fQE w 59 56, fa := .ofCode (fld w 46 4) })

def dVBallot (v w : Nat) : Except Ill Instr :=
  Bad.elseOk { unused := anySet w ([(36, 10), (50, 3), (55, 1), (60, 4)] ++ qeUnused w 59 56), fa := fld w 46 4 != 0,
               reg := badMD w 16 || badV v false w 26 }
    (.vballot { msk := fm w 11, d := fm w 16, a := fv w 26, q := fQE w 59 56, eq := bit w 53, z := bit w 54 })

def dVPopc (v w : Nat) : Except Ill Instr :=
  Bad.elseOk { unused := anySet w [(36, 10), (50, 3), (55, 9)], fa := fld w 46 4 != 0,
               reg := badV v false w 16 || badM w 26, aux := fld w 53 2 == 3 }
    (.vpopc { msk := fm w 11, d := fv w 16, a := fm w 26, mode := Fin.ofNat 3 (fld w 53 2) })

def dVFirst (v w : Nat) : Except Ill Instr :=
  Bad.elseOk { unused := anySet w ([(36, 10), (50, 3), (54, 2), (60, 4)] ++ qeUnused w 59 56), fa := fld w 46 4 != 0,
               reg := badV v false w 16 || badM w 26 }
    (.vfirst { msk := fm w 11, d := fv w 16, a := fm w 26, q := fQE w 59 56, last := bit w 53 })

def dVCompact (v w : Nat) : Except Ill Instr :=
  let p := faPair (fld w 46 4)
  let cn := bit w 60
  Bad.elseOk { unused := anySet w ([(50, 3), (53, 7), (62, 1), (74, 22)] ++ if cn then [] else [(64, 10)]),
               fa := 13 < fld w 46 4,
               reg := badV v p w 16 || badV v p w 26 || badM w 36 || (cn && badU w 64 10), aux := bit w 63 }
    (.vcompact { msk := fm w 11, d := fv w 16, a := fv w 26, ms := fm w 36,
                 cnt := if cn then some (fu w 64) else none, z := bit w 61, fa := .ofCode (fld w 46 4) })

def dVSort (v w : Nat) : Except Ill Instr :=
  Bad.elseOk { unused := anySet w [(50, 3), (53, 8), (62, 1), (74, 22)], fa := ! [0, 1, 2, 5].contains (fld w 46 4),
               reg := badV v false w 16 || badV v false w 26 || badV v false w 36 || badV v false w 64,
               aux := bit w 63 }
    (.vsort { msk := fm w 11, dk := fv w 16, dv := fv w 64, ak := fv w 26, av := fv w 36, desc := bit w 61,
              fa := .ofCode (fld w 46 4) })

/-- Tables 9-1 and 10-1, by position in the group. -/
def decG6 (v w o : Nat) : Except Ill Instr :=
  match o with
  | 0x00 => dVGet v w
  | 0x01 => dVPost v w
  | 0x02 => dVBcast v w
  | 0x03 => dVLti v w
  | 0x04 => dVSlot v w
  | 0x05 => dVRed v w
  | 0x06 => dVScan v w
  | 0x07 => dVArg v w .vargmin
  | 0x08 => dVArg v w .vargmax
  | 0x09 => dVBallot v w
  | 0x0A => dVPopc v w
  | 0x0B => dVFirst v w
  | 0x0C => dVCompact v w
  | 0x0D => dVSort v w
  | _ => .error .unassigned

/-! ## G7: steps, copies, multicast (Tables 13-1 to 13-3, R363) -/

/-- `step` (R267): everything but OPC and SC is zero, MSK included. -/
def dStep (w : Nat) : Except Ill Instr :=
  Bad.elseOk { unused := anySet w ([(11, 4), (48, 16)] ++ eFields) } (.step { clu := bit w 47 })

/-- R273: FA by the write rule. -/
def badCopyFa (w : Nat) : Bool :=
  let fa := fld w 43 4
  let r := fld w 47 3
  7 < fa || (r < 3 && fa != 0) || ((r == 3 || r == 4) && fa == 0)

/-- R273: AUX[10:9] must be 10. -/
def badAux10 (w : Nat) : Bool := fld w 62 2 != 2

/-- R273: a row length in n bits of EXT. -/
def badRowLen (w n : Nat) : Bool := fld w 96 n == 0 || fld w 96 n % 4 != 0

def dCpy (w : Nat) : Except Ill Instr :=
  Bad.elseOk { unused := anySet w [(53, 9), (96, 32)], fa := badCopyFa w, rule := 4 < fld w 47 3,
               land := fld w 50 3 == 0, reg := badU w 16 10 || badU w 26 10 || badS w, aux := badAux10 w }
    (.cpy { msk := fm w 11, d := fu w 16, n := fu w 26, src := fS w, off := fbv w 64 32,
            fa := .ofCode (fld w 43 4), rule := .ofCode (fld w 47 3), land := ffin w 50 3 })

def dCpyIx (w : Nat) (k : CpyIx → Instr) : Except Ill Instr :=
  Bad.elseOk { unused := anySet w [(60, 2)], fa := badCopyFa w, rule := 4 < fld w 47 3, land := fld w 50 3 == 0,
               reg := badU w 16 10 || badU w 26 10 || badS w || badU w 53 7, aux := badAux10 w || badRowLen w 16 }
    (k { msk := fm w 11, d := fu w 16, ix := fu w 26, src := fS w, off := fbv w 64 32,
         fa := .ofCode (fld w 43 4), rule := .ofCode (fld w 47 3), land := ffin w 50 3, n := fu w 53,
         len := fbv w 96 16, stride4 := fbv w 112 16 })

def dCpy2d (w : Nat) : Except Ill Instr :=
  Bad.elseOk { unused := anySet w [(60, 2)], fa := badCopyFa w, rule := 4 < fld w 47 3, land := fld w 50 3 == 0,
               reg := badU w 16 10 || badU w 26 10 || badS w || badU w 53 7, aux := badAux10 w || badRowLen w 32 }
    (.cpy2d { msk := fm w 11, d := fu w 16, n := fu w 26, src := fS w, off := fbv w 64 32,
              fa := .ofCode (fld w 43 4), rule := .ofCode (fld w 47 3), land := ffin w 50 3, x := fu w 53,
              len := fbv w 96 32 })

def dCpyF (w : Nat) : Except Ill Instr :=
  Bad.elseOk { unused := anySet w [(53, 9), (64, 32), (96, 32)], fa := badCopyFa w, rule := 4 < fld w 47 3,
               land := fld w 50 3 == 0, reg := badU w 16 10 || badU w 26 10 || badS w, aux := badAux10 w }
    (.cpyf { msk := fm w 11, d := fu w 16, n := fu w 26, pat := fS w, fa := .ofCode (fld w 43 4),
             rule := .ofCode (fld w 47 3), land := ffin w 50 3 })

def dMCast (w : Nat) : Except Ill Instr :=
  Bad.elseOk { unused := anySet w [(60, 2), (103, 25)], fa := badCopyFa w, rule := 4 < fld w 47 3,
               land := fld w 50 3 == 0,
               reg := badU w 16 10 || badU w 26 10 || badS w || badU w 53 7 || badU w 96 7, aux := badAux10 w }
    (.mcast { msk := fm w 11, d := fu w 16, n := fu w 26, src := fS w, off := fbv w 64 32,
              fa := .ofCode (fld w 43 4), rule := .ofCode (fld w 47 3), land := ffin w 50 3, k := fu w 53,
              w := fu w 96 })

/-- Tables 13-1 and 13-2 and R363, by position in the group. -/
def decG7 (w o : Nat) : Except Ill Instr :=
  match o with
  | 0x00 => dStep w
  | 0x01 => dCpy w
  | 0x02 => dCpyIx w .cpyg
  | 0x03 => dCpyIx w .cpys
  | 0x04 => dCpy2d w
  | 0x05 => dCpyF w
  | 0x06 => dMCast w
  | _ => .error .unassigned

/-! ## G8: matrix (R315 to R330) -/

def dMShape (w : Nat) : Except Ill Instr :=
  Bad.elseOk { unused := anySet w [(16, 10), (26, 10), (36, 10), (50, 3), (57, 7)], fa := fld w 46 4 != 0 }
    (.mshape { msk := fm w 11, mc := ffin w 55 2, nc := ffin w 53 2 })

/-- `mwin` (R318): AUX[10] is 1, and IMM32 holds LEN and BASE. -/
def dMWin (w : Nat) : Except Ill Instr :=
  Bad.elseOk { unused := anySet w [(16, 10), (26, 10), (36, 10), (50, 3), (53, 10)], fa := fld w 46 4 != 0,
               aux := !bit w 63 || fld w 77 3 != 0 || fld w 92 4 != 0 || 4096 < fld w 64 13 }
    (.mwin { msk := fm w 11, base := fbv w 80 12, len := Fin.ofNat 4097 (fld w 64 13) })

def dMZero (w : Nat) : Except Ill Instr :=
  Bad.elseOk { unused := anySet w [(16, 10), (50, 3), (53, 11)], fa := fld w 46 4 != 0,
               reg := badU w 26 10 || badU w 36 10 }
    (.mzero { msk := fm w 11, r := fu w 26, n := fu w 36 })

/-- The input class of a product (R320). -/
def fClass (w : Nat) : MClass :=
  match fld w 43 4 with
  | 7 => .bf16
  | 8 => .f16
  | 10 => .i8
  | _ => .blk

/-- RULE of an accumulator writer: FAULT or LOW (R315). -/
def badAccRule (w : Nat) : Bool := 1 < fld w 47 3 && fld w 47 3 < 5

/-- `mmul` and `mloop` (R320, R321): the descriptor takes `n` registers, `nb` in the block-scaled class. -/
def dMProd (v w n nb : Nat) (k : MProd → Instr) : Except Ill Instr :=
  let fa := fld w 43 4
  let sp := bit w 53
  Bad.elseOk { unused := anySet w ([(26, 10), (55, 7), (64, 32), (96, 32)] ++ if sp then [] else [(16, 10)]),
               fa := ! [7, 8, 10, 13].contains fa, rule := 4 < fld w 47 3, land := fld w 50 3 == 0,
               reg := 96 < fld w 36 7 + (if fa = 13 then nb else n) || (sp && badV v false w 16),
               aux := badAux10 w || badAccRule w || (sp && (fa == 7 || fa == 8)) }
    (k { msk := fm w 11, cls := fClass w, sp := if sp then some (fv w 16) else none, z := bit w 54,
         desc := fu w 36, low := fld w 47 3 == 1, land := ffin w 50 3 })

def dMRd (v w : Nat) : Except Ill Instr :=
  Bad.elseOk { unused := anySet w ([(47, 3), (50, 3), (53, 9), (100, 28)] ++ addrUnused w),
               fa := ! [1, 2, 5].contains (fld w 43 4),
               reg := v ≤ fld w 16 10 + fld w 96 4 || badAddr v w }
    (.mrd { msk := fm w 11, d := fv w 16, addr := fAddr w, fa := .ofCode (fld w 43 4), n1 := ffin w 96 4 })

def dMWr (v w : Nat) : Except Ill Instr :=
  Bad.elseOk { unused := anySet w ([(53, 9), (100, 28)] ++ addrUnused w), fa := ! [0, 1, 2, 5].contains (fld w 43 4),
               rule := 4 < fld w 47 3, land := fld w 50 3 == 0,
               reg := v ≤ fld w 16 10 + fld w 96 4 || badAddr v w, aux := badAccRule w }
    (.mwr { msk := fm w 11, src := fv w 16, addr := fAddr w, fa := .ofCode (fld w 43 4), n1 := ffin w 96 4,
            low := fld w 47 3 == 1, land := ffin w 50 3 })

/-- `mcomp` (R329): A and A + 1 below `.vregs`; C = D is outside the codes. -/
def dMComp (v w : Nat) : Except Ill Instr :=
  Bad.elseOk { unused := anySet w [(36, 10), (50, 3), (54, 9), (74, 22)], fa := ! [0, 9, 10].contains (fld w 46 4),
               reg := badV v false w 16 || v ≤ fld w 26 10 + 1 || badV v false w 64,
               aux := bit w 63 || fld w 64 10 == fld w 16 10 }
    (.mcomp { msk := fm w 11, d := fv w 16, c := fv w 64, a := fv w 26, hi := bit w 53, fa := .ofCode (fld w 46 4) })

def dMSplit (w : Nat) : Except Ill Instr :=
  Bad.elseOk { unused := anySet w [(16, 10), (26, 10), (56, 6), (64, 32), (96, 32)], fa := fld w 43 4 != 0,
               rule := 4 < fld w 47 3, land := fld w 50 3 == 0, reg := 96 < fld w 36 7 + 6,
               aux := badAux10 w || badAccRule w }
    (.msplit { msk := fm w 11, k1 := ffin w 53 3, desc := fu w 36, low := fld w 47 3 == 1, land := ffin w 50 3 })

def dMRecomb (w : Nat) : Except Ill Instr :=
  Bad.elseOk { unused := anySet w [(16, 10), (26, 10), (56, 1), (58, 4), (64, 32), (96, 32)], fa := fld w 43 4 != 0,
               rule := 4 < fld w 47 3, land := fld w 50 3 == 0, reg := 96 < fld w 36 7 + 5,
               aux := badAux10 w || badAccRule w }
    (.mrecomb { msk := fm w 11, k1 := ffin w 53 3, tri := bit w 57, desc := fu w 36, low := fld w 47 3 == 1,
                land := ffin w 50 3 })

/-- Table 16-1, by position in the group. -/
def decG8 (v w o : Nat) : Except Ill Instr :=
  match o with
  | 0x00 => dMShape w
  | 0x01 => dMWin w
  | 0x02 => dMZero w
  | 0x03 => dMProd v w 4 9 .mmul
  | 0x04 => dMProd v w 6 12 .mloop
  | 0x05 => dMRd v w
  | 0x06 => dMWr v w
  | 0x07 => dMComp v w
  | 0x08 => dMSplit w
  | 0x09 => dMRecomb w
  | _ => .error .unassigned

/-! ## G9: expansion (R346, Table 18-2) -/

def dXBind (v w : Nat) : Except Ill Instr :=
  Bad.elseOk { unused := anySet w [(50, 3), (58, 5), (64, 32)], fa := ! [5, 6].contains (fld w 46 4),
               reg := badX w 16 || badV v false w 26 || badV v false w 36, aux := bit w 63 }
    (.xbind { msk := fm w 11, d := fx w 16, base := fv w 26, cen := fv w 36, loc := bit w 57, p := ffin w 53 4,
              f64 := fld w 46 4 == 6 })

def dXClr (w : Nat) : Except Ill Instr :=
  let all := bit w 53
  Bad.elseOk { unused := anySet w ([(26, 10), (36, 10), (50, 3), (54, 10)] ++ if all then [(16, 10)] else []),
               fa := fld w 46 4 != 0, reg := !all && badX w 16 }
    (.xclr { msk := fm w 11, d := if all then none else some (fx w 16) })

def dXMov (w : Nat) : Except Ill Instr :=
  Bad.elseOk { unused := anySet w [(36, 10), (50, 3), (53, 11)], fa := fld w 46 4 != 0,
               reg := badX w 16 || badX w 26 }
    (.xmov { msk := fm w 11, d := fx w 16, a := fx w 26 })

def dXForm (v w : Nat) : Except Ill Instr :=
  Bad.elseOk { unused := anySet w [(36, 10), (50, 3), (54, 9), (64, 10)], fa := fld w 46 4 != 0,
               reg := badX w 16 || badV v false w 26, aux := bit w 63 || fld w 78 18 != 0 }
    (.xform { msk := fm w 11, d := fx w 16, a := fv w 26, n1 := ffin w 74 4, add := bit w 53 })

def dXMap (w : Nat) (k : XMap → Instr) : Except Ill Instr :=
  Bad.elseOk { unused := anySet w [(36, 10), (50, 3), (54, 10)], fa := fld w 46 4 != 0,
               reg := badX w 16 || badX w 26 }
    (k { msk := fm w 11, d := fx w 16, a := fx w 26, add := bit w 53 })

def dXEval (v w : Nat) : Except Ill Instr :=
  Bad.elseOk { unused := anySet w [(50, 3), (54, 9), (64, 32)], fa := fld w 46 4 != 0,
               reg := badV v false w 16 || badX w 26 || badV v false w 36, aux := bit w 63 }
    (.xeval { msk := fm w 11, d := fv w 16, a := fx w 26, b := fv w 36, add := bit w 53 })

/-- `xdirect` (R346): its ranges follow from FA. -/
def dXDirect (v w : Nat) : Except Ill Instr :=
  let k := if fld w 43 4 = 6 then 2 else 1
  let ep := bit w 60
  Bad.elseOk { unused := anySet w ((if ep then [] else [(53, 7)]) ++ addrUnused w),
               fa := ! [5, 6].contains (fld w 43 4),
               reg := (k == 2 && (fld w 16 10 % 2 == 1 || fld w 106 10 % 2 == 1)) || v < fld w 16 10 + 4 * k ||
                 v < fld w 106 10 + 3 * k || badV v false w 96 || (ep && badU w 53 7) || badAddr v w,
               aux := fld w 116 12 != 0 || fld w 47 3 != 0 || fld w 50 3 != 0 }
    (.xdirect { msk := fm w 11, d := fv w 16, addr := fAddr w, f64 := fld w 43 4 == 6, add := bit w 61,
                eps := if ep then some (fu w 53) else none, cnt := fv w 96, tgt := fv w 106 })

def dXAdm (v w : Nat) : Except Ill Instr :=
  Bad.elseOk { unused := anySet w [(50, 3), (54, 9)], fa := fld w 46 4 != 0,
               reg := badMD w 16 || badX w 26 || badX w 36 || badV v false w 64, aux := bit w 63 }
    (.xadm { msk := fm w 11, d := fm w 16, a := fx w 26, b := fx w 36, c := fv w 64, theta := fbv w 74 22,
             z := bit w 53 })

/-- Table 18-1, by position in the group. -/
def decG9 (v w o : Nat) : Except Ill Instr :=
  match o with
  | 0x00 => dXBind v w
  | 0x01 => dXClr w
  | 0x02 => dXMov w
  | 0x03 => dXForm v w
  | 0x04 => dXMap w .xshift
  | 0x05 => dXMap w .xconv
  | 0x06 => dXMap w .xlshift
  | 0x07 => dXEval v w
  | 0x08 => dXDirect v w
  | 0x09 => dXAdm v w
  | _ => .error .unassigned

/-! ## G10: work lists (R392) -/

def fWDst (w : Nat) : WDst := if bit w 63 then .imm (fbv w 96 16) else .reg (fv w 26)

/-- R392: A under NIX = 1, EXT under NIX = 0 and EXT[31:16] are zero. -/
def wDstUnused (w : Nat) : List (Nat × Nat) := if bit w 63 then [(26, 10), (112, 16)] else [(96, 32)]

def dWApp (v w : Nat) : Except Ill Instr :=
  Bad.elseOk { unused := anySet w ([(53, 10)] ++ wDstUnused w), fa := fld w 43 4 != 0,
               reg := v ≤ fld w 16 10 + 3 || badS w || (!bit w 63 && badV v false w 26),
               aux := fld w 47 3 != 0 || fld w 50 3 != 1 }
    (.wapp { msk := fm w 11, item := fv w 16, base := fS w, off := fbv w 64 32, dst := fWDst w })

def dWCnt (v w : Nat) : Except Ill Instr :=
  Bad.elseOk { unused := anySet w ([(54, 9)] ++ wDstUnused w), fa := fld w 43 4 != 0,
               reg := badV v false w 16 || badS w || (!bit w 63 && badV v false w 26),
               aux := fld w 47 3 != 0 || fld w 50 3 != 0 }
    (.wcnt { msk := fm w 11, d := fv w 16, base := fS w, off := fbv w 64 32, dst := fWDst w, ov := bit w 53 })

def decG10 (v w o : Nat) : Except Ill Instr :=
  match o with
  | 0x00 => dWApp v w
  | 0x01 => dWCnt v w
  | _ => .error .unassigned

/-! ## The decoder -/

/-- The length in bytes that LEN names (R42): 11 counts as 8. -/
def wordLen (w : Nat) : Nat :=
  match fld w 0 2 with
  | 1 => 12
  | 2 => 16
  | _ => 8

/-- The opcodes of Format B (Table 2-8). -/
def opB : List Nat :=
  [0x00D, 0x024, 0x038, 0x039, 0x03D, 0x03E, 0x083, 0x084, 0x09B, 0x09C, 0x0C1, 0x0C5, 0x0C6, 0x0C7, 0x0C8, 0x0CC,
   0x0CD, 0x101, 0x107, 0x120, 0x123, 0x127, 0x129]

/-- The opcodes of Format C (Table 2-8). -/
def opC : List Nat :=
  [0x003, 0x009, 0x00B, 0x0A0, 0x0A1, 0x0A2, 0x0A3, 0x0A4, 0x0A5, 0x0E1, 0x0E2, 0x0E3, 0x0E4, 0x0E5, 0x0E6, 0x103,
   0x104, 0x105, 0x106, 0x108, 0x109, 0x128, 0x140, 0x141]

/-- How many opcodes of a group of 32 are assigned, from its base on (Tables 2-8, 2-9). -/
def assigned (g : Nat) : Nat :=
  match g with
  | 0 => 20 | 1 => 32 | 2 => 10 | 3 => 20 | 4 => 29 | 5 => 6 | 6 => 14 | 7 => 7 | 8 => 10 | 9 => 10 | 10 => 2
  | _ => 0

/-- The length in bytes of an opcode's format (R42, R51). -/
def opLen (o : Nat) : Nat := if opC.contains o then 16 else if opB.contains o then 12 else 8

/-- The instruction that a word stands for, or the reason of R53 why it is illegal. Bits of the word beyond the length
that LEN names are not read (R42). -/
def decode (v w0 : Nat) : Except Ill Instr :=
  let w := w0 % 2 ^ (8 * wordLen w0)
  let opc := fld w 2 9
  if fld w 0 2 = 3 then .error .len
  else if assigned (opc / 32) ≤ opc % 32 then .error .unassigned
  else if opc = 0 then
    if w / 4 ≠ 0 then .error .unused
    else .ok (match fld w 0 2 with | 0 => .nop | 1 => .nop96 | _ => .nop128)
  else if wordLen w ≠ opLen opc then .error .badLen
  else
    match opc / 32 with
    | 0 => decG0 v w (opc % 32)
    | 1 => decG1 v w (opc % 32)
    | 2 => decG2 v w (opc % 32)
    | 3 => decG3 w (opc % 32)
    | 4 => decG4 v w (opc % 32)
    | 5 => decG5 v w (opc % 32)
    | 6 => decG6 v w (opc % 32)
    | 7 => decG7 w (opc % 32)
    | 8 => decG8 v w (opc % 32)
    | 9 => decG9 v w (opc % 32)
    | _ => decG10 v w (opc % 32)

/-- A word from its bytes, lowest address first (R39). -/
def leNat : List Byte → Nat
  | [] => 0
  | b :: bs => b.toNat + 256 * leNat bs

/-- n bytes of a number, lowest first (R9). -/
def leBytes : Nat → Nat → List Byte
  | 0, _ => []
  | n + 1, w => BitVec.ofNat 8 w :: leBytes n (w / 256)

/-- The decoder on the bytes at an address: the instruction and the bytes that follow it. -/
def decodeBytes (v : Nat) (bs : List Byte) : Except Ill (Instr × List Byte) :=
  (decode v (leNat (bs.take 16))).map fun i => (i, bs.drop (wordLen (leNat (bs.take 16))))

/-- What the decoder reads from an instruction given as a word of `nbits` bits, under `.vregs` = 1,024: the word's bytes
in memory, the bits above `nbits` zero, up to the longest instruction of 16 bytes. -/
def decodeTableWord (nbits w : Nat) : Option Instr :=
  match decodeBytes 1024 (leBytes 16 (w % 2 ^ nbits)) with
  | .ok (i, _) => some i
  | .error _ => none

/-! ## The encoder (the same tables) -/

/-- Format A (Table 2-2) with its LEN. -/
def encAB (len opc msk d a b fa mod aux : Nat) : Nat :=
  len + opc * 2 ^ 2 + msk * 2 ^ 11 + d * 2 ^ 16 + a * 2 ^ 26 + b * 2 ^ 36 + fa * 2 ^ 46 + mod * 2 ^ 50 + aux * 2 ^ 53

def encA (opc msk d a b fa mod aux : Nat) : Nat := encAB 0 opc msk d a b fa mod aux

/-- Format B (Table 2-3); `hi` is bits 95 to 64. -/
def encB (opc msk d a b fa mod aux hi : Nat) : Nat := encAB 1 opc msk d a b fa mod aux + hi * 2 ^ 64

/-- Format C (Table 2-4). -/
def encC (opc msk d a s fa rule land aux off ext : Nat) : Nat :=
  2 + opc * 2 ^ 2 + msk * 2 ^ 11 + d * 2 ^ 16 + a * 2 ^ 26 + s * 2 ^ 36 + fa * 2 ^ 43 + rule * 2 ^ 47 + land * 2 ^ 50 +
    aux * 2 ^ 53 + off * 2 ^ 64 + ext * 2 ^ 96

/-- Format D (Table 2-5). -/
def encD (opc msk sd sa sb qd mod imm : Nat) : Nat :=
  opc * 2 ^ 2 + msk * 2 ^ 11 + sd * 2 ^ 16 + sa * 2 ^ 23 + sb * 2 ^ 30 + qd * 2 ^ 37 + mod * 2 ^ 40 + imm * 2 ^ 43

/-- Format E (Table 2-6). -/
def encE (opc msk off q msk2 aux : Nat) : Nat :=
  opc * 2 ^ 2 + msk * 2 ^ 11 + off * 2 ^ 16 + q * 2 ^ 40 + msk2 * 2 ^ 43 + aux * 2 ^ 47

def eS : Option UReg → Nat
  | none => 127
  | some r => r.val

/-- The index register of a memory operand in A. -/
def Idx.a : Idx → Nat
  | .absent => 0
  | .v32 r => r.val
  | .v64 r => r.val

/-- NIX and IW as AUX[10:9]. -/
def Idx.aux : Idx → Nat
  | .absent => 2
  | .v32 _ => 0
  | .v64 _ => 1

def eMem (opc msk d : Nat) (m : Addr) (fa rule land aux ext : Nat) : Nat :=
  encC opc msk d m.ix.a (eS m.base) fa rule land (m.ix.aux * 2 ^ 9 + aux) m.off.toNat ext

def eVArith (opc : Nat) (o : VArith) : Nat :=
  encA opc o.msk o.d o.a o.b o.fa.code 0 (o.om + o.sat.toNat * 2 ^ 4)
def eVArith1 (opc : Nat) (o : VArith1) : Nat := encA opc o.msk o.d o.a 0 o.fa.code 0 (o.om + o.sat.toNat * 2 ^ 4)
def eVBin (opc : Nat) (o : VBin) : Nat := encA opc o.msk o.d o.a o.b o.fa.code 0 0
def eVUn (opc : Nat) (o : VUn) : Nat := encA opc o.msk o.d o.a 0 o.fa.code 0 0
def eVShift (opc : Nat) (o : VShift) : Nat :=
  match o.amt with
  | .reg b => encA opc o.msk o.d o.a b o.fa.code 0 0
  | .imm n => encA opc o.msk o.d o.a n o.fa.code 0 (2 ^ 10)

def eMad (o : VMad) : Nat :=
  match o.c with
  | .reg c => encB 0x024 o.msk o.d o.a o.b o.fa.code 0 (o.om + o.sat.toNat * 2 ^ 4) c
  | .imm i => encB 0x024 o.msk o.d o.a o.b o.fa.code 0 (o.om + o.sat.toNat * 2 ^ 4 + 2 ^ 10) i.toNat

def eBf (opc msk d a b fa : Nat) : Fld → Nat
  | .reg c => encB opc msk d a b fa 0 1 c
  | .imm p l => encB opc msk d a b fa 0 0 (p * 2 ^ 10 + l * 2 ^ 16)

def eQOp (o : QOp) : Nat :=
  match o.op with
  | .and a b => encD 0x073 o.msk 0 a b o.d 0 0
  | .or a b => encD 0x073 o.msk 0 a b o.d 1 0
  | .xor a b => encD 0x073 o.msk 0 a b o.d 2 0
  | .andn a b => encD 0x073 o.msk 0 a b o.d 3 0
  | .not a => encD 0x073 o.msk 0 a 0 o.d 4 0
  | .set v => encD 0x073 o.msk 0 0 0 o.d 5 v.toNat
  | .test r => encD 0x073 o.msk 0 r 0 o.d 6 0
  | .mov a => encD 0x073 o.msk 0 a 0 o.d 7 0

def eMBin (opc : Nat) (o : MBin) : Nat := encA opc o.msk o.d o.a o.b 0 0 0
def eMCount (opc : Nat) (o : MCount) : Nat := encA opc o.msk o.d o.a 0 0 0 0

/-- A Format D word whose second source is a register or the immediate (R135). -/
def eUSrc (opc msk sd sa qd mod : Nat) : USrc → Nat
  | .reg r => encD opc msk sd sa r qd mod 0
  | .imm i => encD opc msk sd sa 127 qd mod i.toNat

def eSBin (opc : Nat) (o : SBin) : Nat := eUSrc opc o.msk o.d o.a 0 0 o.b
def eSMinMax (opc : Nat) (o : SMinMax) : Nat := eUSrc opc o.msk o.d o.a 0 o.u.toNat o.b
def eSUn (opc : Nat) (o : SUn) : Nat := encD opc o.msk o.d o.a 0 0 0 0

def eFBin (opc : Nat) (o : FBin) : Nat := encA opc o.msk o.d o.a o.b o.fa.code o.rnd.code 0
def eFUn (opc : Nat) (o : FUn) : Nat := encA opc o.msk o.d o.a 0 o.fa.code o.rnd.code 0
def eFMad (opc : Nat) (o : FMad) : Nat :=
  match o.c with
  | .reg c => encB opc o.msk o.d o.a o.b o.fa.code o.rnd.code 0 c
  | .imm i => encB opc o.msk o.d o.a o.b o.fa.code o.rnd.code (2 ^ 10) i.toNat
def eFCvt (opc : Nat) (o : FCvt) : Nat := encA opc o.msk o.d o.a 0 0 o.rnd.code (o.tgt.code + o.pos * 2 ^ 4)
def eSmx (opc : Nat) (o : Smx) : Nat := encB opc o.msk o.d o.a o.b 0 0 o.b2.toNat (o.n1 * 2 ^ 10)

/-- D and A of a live range with NLR, as (first, last, NLR). -/
def eRange : Range → Nat × Nat × Nat
  | none => (0, 0, 1)
  | some (f, l) => (f.val, l.val, 0)

def eBq (o : Bq) : Nat :=
  match o.cond with
  | .q r => encE 0x002 o.msk o.off.toNat r 0 o.neg.toNat
  | .any m => encE 0x002 o.msk o.off.toNat 0 m (o.neg.toNat + 2)
  | .all m => encE 0x002 o.msk o.off.toNat 0 m (o.neg.toNat + 4)

/-- QE and Q in an AUX field. -/
def eQ (qe lo : Nat) : Option QReg → Nat
  | none => 0
  | some q => 2 ^ qe + q.val * 2 ^ lo

def eVGet (o : VGet) : Nat :=
  let aux := o.vm + o.add.toNat * 2 ^ 4 + o.z.toNat * 2 ^ 8
  match o.mode with
  | .idx b => encA 0x0C0 o.msk o.d o.a b o.fa.code 0 aux
  | .dn k => encA 0x0C0 o.msk o.d o.a k.toNat o.fa.code 0 (aux + 1 * 2 ^ 9)
  | .up k => encA 0x0C0 o.msk o.d o.a k.toNat o.fa.code 0 (aux + 2 * 2 ^ 9)
  | .xor k => encA 0x0C0 o.msk o.d o.a k.toNat o.fa.code 0 (aux + 3 * 2 ^ 9)

def PostRule.code : PostRule → Nat
  | .fault => 0 | .lo => 1 | .add => 3 | .addin => 4

def eVPost (o : VPost) : Nat :=
  let aux := o.dm + o.cr.code * 2 ^ 5
  match o.mode with
  | .idx b => encB 0x0C1 o.msk o.d o.a b o.fa.code 0 aux 0
  | .rel k => encB 0x0C1 o.msk o.d o.a 0 o.fa.code 0 (aux + 1 * 2 ^ 8) (k.toNat * 2 ^ 10)
  | .xor k => encB 0x0C1 o.msk o.d o.a 0 o.fa.code 0 (aux + 2 * 2 ^ 8) (k.toNat * 2 ^ 10)

def eVBcast (o : VBcast) : Nat :=
  let aux := eQ 3 0 o.q
  match o.sel with
  | .uni s => encA 0x0C2 o.msk o.d o.a s o.fa.code 0 aux
  | .slot k => encA 0x0C2 o.msk o.d o.a k.toNat o.fa.code 0 (aux + 1 * 2 ^ 9)
  | .first => encA 0x0C2 o.msk o.d o.a 0 o.fa.code 0 (aux + 2 * 2 ^ 9)

def RedOp.code : RedOp → Nat
  | .add => 0 | .min => 1 | .max => 2 | .and => 3 | .or => 4 | .xor => 5

/-- D and UD of a collective. -/
def VOrU.enc : VOrU → Nat × Nat
  | .v r => (r.val, 0)
  | .u r => (r.val, 2 ^ 9)

def eVArg (opc : Nat) (o : VArg) : Nat := encB opc o.msk o.d.enc.1 o.a 0 o.fa.code 0 (o.d.enc.2 + eQ 6 3 o.q) 0

/-- A copy word: A, AUX[6:0], OFF32 and EXT as Table 13-3 gives them, with AUX[10:9] = 10. -/
def eCopy (opc msk d a : Nat) (src : Option UReg) (fa : Tag) (rule : Rule) (land : Fin 8) (x off ext : Nat) : Nat :=
  encC opc msk d a (eS src) fa.code rule.code land (2 ^ 10 + x) off ext

def eCpyIx (opc : Nat) (o : CpyIx) : Nat :=
  eCopy opc o.msk o.d o.ix o.src o.fa o.rule o.land o.n o.off.toNat (o.len.toNat + o.stride4.toNat * 2 ^ 16)

/-- FA of an input class (R320). -/
def MClass.code : MClass → Nat
  | .bf16 => 7 | .f16 => 8 | .i8 => 10 | .blk => 13

def eMProd (opc : Nat) (o : MProd) : Nat :=
  encC opc o.msk ((o.sp.map Fin.val).getD 0) 0 o.desc o.cls.code o.low.toNat o.land
    (o.sp.isSome.toNat + o.z.toNat * 2 + 2 ^ 10) 0 0

def eXMap (opc : Nat) (o : XMap) : Nat := encA opc o.msk o.d o.a 0 0 0 o.add.toNat

/-- The FA code of an expansion format. -/
def eF64 (f : Bool) : Nat := if f then 6 else 5

def eXDirect (o : XDirect) : Nat :=
  eMem 0x128 o.msk o.d o.addr (eF64 o.f64) 0 0
    (o.add.toNat * 2 ^ 8 + o.eps.isSome.toNat * 2 ^ 7 + (o.eps.map Fin.val).getD 0)
    (o.cnt + o.tgt * 2 ^ 10)

def eWList (opc msk d : Nat) (base : Option UReg) (off : BitVec 32) (dst : WDst) (land aux : Nat) : Nat :=
  match dst with
  | .reg r => encC opc msk d r (eS base) 0 0 land aux off.toNat 0
  | .imm e => encC opc msk d 0 (eS base) 0 0 land (aux + 2 ^ 10) off.toNat e.toNat

/-- The word of a well-formed instruction (an event has none). -/
def encode : Instr → Option Nat
  | .nop => some 0
  | .nop96 => some 1
  | .nop128 => some 2
  | .br o => some (encE 0x001 o.msk o.off.toNat 0 0 0)
  | .bq o => some (eBq o)
  | .brd o => some (encC 0x003 o.msk (eRange o.range).1 (eRange o.range).2.1 0 0 0 0
      (o.mc + (eRange o.range).2.2 * 2 ^ 8) o.target.toNat o.join.toNat)
  | .join o => some (encE 0x004 o.msk 0 0 0 0)
  | .call o => some (encE 0x005 o.msk o.off.toNat 0 0 o.sl)
  | .ret o => some (encE 0x006 o.msk 0 0 0 o.sl)
  | .jmpi o => some (encD 0x007 o.msk 0 o.sa 0 0 0 o.imm.toNat)
  | .loop o => some (encE 0x008 o.msk o.off.toNat ((o.q.map Fin.val).getD 0) 0 (o.sc + o.q.isSome.toNat * 2 ^ 7))
  | .rejoin o => some (encC 0x009 o.msk (eRange o.range).1 (eRange o.range).2.1 0 0 0 0
      ((eRange o.range).2.2 * 2 ^ 8) o.timeout.toNat (o.count1.toNat + o.id * 2 ^ 14))
  | .exit o => some (encE 0x00A o.msk 0 0 0 0)
  | .hpush o => some (encC 0x00B o.msk o.tk o.hl 0 0 0 0 0 o.handler.toNat (o.eff.toNat + o.elen.toNat * 2 ^ 16))
  | .hpop o => some (encE 0x00C o.msk 0 0 0 ((o.res.map Fin.val).getD 0 + o.res.isSome.toNat * 2 ^ 10))
  | .perform o => some (encB 0x00D o.msk o.d (eRange o.range).1 (eRange o.range).2.1 0 0
      (o.ms.toNat + (eRange o.range).2.2 * 2 + o.payload.isNone.toNat * 4)
      ((o.payload.map Fin.val).getD 0 + o.eff.toNat * 2 ^ 10))
  | .resume o => some (encA 0x00E o.msk ((o.d.map Fin.val).getD 0) o.vt o.va 0 0 o.d.isSome.toNat)
  | .drop o => some (encA 0x00F o.msk 0 o.vt 0 0 0 0)
  | .brk o => some (encE 0x010 o.msk 0 0 0 o.code.toNat)
  | .srd o => some (match o.form with
      | .lti d => encA 0x011 o.msk d 0 0 0 0 (2 ^ 5)
      | .uni d i => encA 0x011 o.msk d 0 0 0 0 i)
  | .swr o => some (encA 0x012 o.msk 0 o.a 0 0 0 o.idx)
  | .tmrd o => some (encD 0x013 o.msk o.d 0 0 0 0 0)
  | .add o => some (eVArith 0x020 o)
  | .sub o => some (eVArith 0x021 o)
  | .mul o => some (eVArith 0x022 o)
  | .mulh o => some (eVBin 0x023 o)
  | .mad o => some (eMad o)
  | .div o => some (eVArith 0x025 o)
  | .rem o => some (eVBin 0x026 o)
  | .neg o => some (eVArith1 0x027 o)
  | .abs o => some (eVArith1 0x028 o)
  | .min o => some (eVBin 0x029 o)
  | .max o => some (eVBin 0x02A o)
  | .and o => some (eVBin 0x02B o)
  | .or o => some (eVBin 0x02C o)
  | .xor o => some (eVBin 0x02D o)
  | .not o => some (eVUn 0x02E o)
  | .andn o => some (eVBin 0x02F o)
  | .shl o => some (eVShift 0x030 o)
  | .shr o => some (eVShift 0x031 o)
  | .sar o => some (eVShift 0x032 o)
  | .rot o => some (eVShift 0x033 o)
  | .clz o => some (eVUn 0x034 o)
  | .ctz o => some (eVUn 0x035 o)
  | .popc o => some (eVUn 0x036 o)
  | .brev o => some (eVUn 0x037 o)
  | .bfe o => some (eBf 0x038 o.msk o.d o.a 0 o.fa.code o.fld)
  | .bfi o => some (eBf 0x039 o.msk o.d o.a o.b o.fa.code o.fld)
  | .cmp o => some (encA 0x03A o.msk o.d o.a o.b o.fa.code o.cc.code o.z.toNat)
  | .sel o => some (encA 0x03B o.msk o.d o.a o.b o.fa.code 0 o.sm)
  | .mov o => some (eVUn 0x03C o)
  | .movi o => some (encB 0x03D o.msk o.d 0 0 o.fa.code 0 (2 ^ 10) o.imm.toNat)
  | .addc o => some (encB 0x03E o.msk o.d o.a o.b o.fa.code 0 (o.ci + o.co * 2 ^ 4 + o.bor.toNat * 2 ^ 8) 0)
  | .cvti o => some (encA 0x03F o.msk o.d o.a 0 0 0 (o.om + o.tgt.code * 2 ^ 4))
  | .mand o => some (eMBin 0x040 o)
  | .mor o => some (eMBin 0x041 o)
  | .mxor o => some (eMBin 0x042 o)
  | .mnot o => some (encA 0x043 o.msk o.d o.a 0 0 0 0)
  | .mandn o => some (eMBin 0x044 o)
  | .mset o => some (encA 0x045 o.msk o.d 0 0 0 0 o.val.toNat)
  | .mfrom o => some (encA 0x046 o.msk o.d o.a 0 0 0 0)
  | .mto o => some (encA 0x047 o.msk o.d o.a 0 0 0 o.ones.toNat)
  | .mcnt o => some (eMCount 0x048 o)
  | .mfirst o => some (eMCount 0x049 o)
  | .sadd o => some (eSBin 0x060 o)
  | .ssub o => some (eSBin 0x061 o)
  | .smul o => some (eSBin 0x062 o)
  | .sdiv o => some (eUSrc 0x063 o.msk o.d o.a o.q (o.u.toNat + o.rem.toNat * 2) o.b)
  | .sand o => some (eSBin 0x064 o)
  | .sor o => some (eSBin 0x065 o)
  | .sxor o => some (eSBin 0x066 o)
  | .sshl o => some (eSBin 0x067 o)
  | .sshr o => some (eSBin 0x068 o)
  | .ssar o => some (eSBin 0x069 o)
  | .smin o => some (eSMinMax 0x06A o)
  | .smax o => some (eSMinMax 0x06B o)
  | .scmp o => some (eUSrc 0x06C o.msk o.u.toNat o.a o.q o.cc.code o.b)
  | .ssel o => some (eUSrc 0x06D o.msk o.d o.a o.q 0 o.b)
  | .smov o => some (eSUn 0x06E o)
  | .sli o => some (encD 0x06F o.msk o.d 0 0 0 o.pos o.imm.toNat)
  | .sbfe o => some (encD 0x070 o.msk o.d o.a 0 0 0 (o.p + o.l * 2 ^ 6 + o.sx.toNat * 2 ^ 13))
  | .sclz o => some (eSUn 0x071 o)
  | .spopc o => some (eSUn 0x072 o)
  | .qop o => some (eQOp o)
  | .fadd o => some (eFBin 0x080 o)
  | .fsub o => some (eFBin 0x081 o)
  | .fmul o => some (eFBin 0x082 o)
  | .fma o => some (eFMad 0x083 o)
  | .fnma o => some (eFMad 0x084 o)
  | .fdiv o => some (eFBin 0x085 o)
  | .fsqrt o => some (eFUn 0x086 o)
  | .frcp o => some (eVUn 0x087 o)
  | .frsq o => some (eVUn 0x088 o)
  | .fmin o => some (eVBin 0x089 o)
  | .fmax o => some (eVBin 0x08A o)
  | .fabs o => some (eVUn 0x08B o)
  | .fneg o => some (eVUn 0x08C o)
  | .fcpsgn o => some (eVBin 0x08D o)
  | .fcmp o => some (encA 0x08E o.msk o.d o.a o.b o.fa.code o.cc.code (o.z.toNat + o.el.toNat * 2))
  | .fclass o => some (eVUn 0x08F o)
  | .frnd o => some (eFUn 0x090 o)
  | .fexpo o => some (eVUn 0x091 o)
  | .fscale o => some (eFBin 0x092 o)
  | .fexp2 o => some (eVUn 0x093 o)
  | .flog2 o => some (eVUn 0x094 o)
  | .fsin o => some (eVUn 0x095 o)
  | .fcos o => some (eVUn 0x096 o)
  | .ftanh o => some (eVUn 0x097 o)
  | .fcvt o => some (eFCvt 0x098 o)
  | .fcvti o => some (eFCvt 0x099 o)
  | .fpack o => some (encA 0x09A o.msk o.d o.a o.b o.fa.code o.rnd.code o.f16.toNat)
  | .smxi o => some (eSmx 0x09B o)
  | .smxf o => some (eSmx 0x09C o)
  | .ld o => some (eMem 0x0A0 o.msk o.d o.addr o.fa.code 0 0 (match o.sub with | .full => 0 | .b8 => 1 | .b16 => 2) 0)
  | .st o => some (eMem 0x0A1 o.msk o.src o.addr o.fa.code o.rule.code o.land
      (match o.sub with | .full => 0 | .b8 => 1 | .b16 => 2) 0)
  | .ldu o => some (encC 0x0A2 o.msk o.d 0 (eS o.base) 0 0 0 (2 ^ 10 + o.wid + o.sx.toNat * 4) o.off.toNat 0)
  | .claim o => some (eMem 0x0A3 o.msk o.src o.addr o.fa.code 4 1 0 o.res)
  | .pf o => some (eMem 0x0A4 o.msk 0 o.addr 0 0 0 o.tr.toNat o.lines1.toNat)
  | .ldt o => some (eMem 0x0A5 o.msk o.d o.addr o.fa.code 0 0 0 o.n1)
  | .vget o => some (eVGet o)
  | .vpost o => some (eVPost o)
  | .vbcast o => some (eVBcast o)
  | .vlti o => some (encA 0x0C3 o.msk o.d 0 0 0 0 o.part)
  | .vslot o => some (encA 0x0C4 o.msk o.d 0 0 0 0 o.rank.toNat)
  | .vred o => some (encB 0x0C5 o.msk o.d.enc.1 o.a 0 o.fa.code 0 (o.op.code + eQ 6 3 o.q + o.d.enc.2) 0)
  | .vscan o => some (encB 0x0C6 o.msk o.d o.a 0 o.fa.code 0
      (o.op.code + eQ 6 3 o.q + o.exc.toNat * 2 ^ 8 + o.tot.isSome.toNat * 2 ^ 9) ((o.tot.map Fin.val).getD 0))
  | .vargmin o => some (eVArg 0x0C7 o)
  | .vargmax o => some (eVArg 0x0C8 o)
  | .vballot o => some (encA 0x0C9 o.msk o.d o.a 0 0 0 (o.eq.toNat + o.z.toNat * 2 + eQ 6 3 o.q))
  | .vpopc o => some (encA 0x0CA o.msk o.d o.a 0 0 0 o.mode)
  | .vfirst o => some (encA 0x0CB o.msk o.d o.a 0 0 0 (o.last.toNat + eQ 6 3 o.q))
  | .vcompact o => some (encB 0x0CC o.msk o.d o.a o.ms o.fa.code 0 (o.cnt.isSome.toNat * 2 ^ 7 + o.z.toNat * 2 ^ 8)
      ((o.cnt.map Fin.val).getD 0))
  | .vsort o => some (encB 0x0CD o.msk o.dk o.ak o.av o.fa.code 0 (o.desc.toNat * 2 ^ 8) o.dv)
  | .step o => some (encE 0x0E0 0 0 0 0 o.clu.toNat)
  | .cpy o => some (eCopy 0x0E1 o.msk o.d o.n o.src o.fa o.rule o.land 0 o.off.toNat 0)
  | .cpyg o => some (eCpyIx 0x0E2 o)
  | .cpys o => some (eCpyIx 0x0E3 o)
  | .cpy2d o => some (eCopy 0x0E4 o.msk o.d o.n o.src o.fa o.rule o.land o.x o.off.toNat o.len.toNat)
  | .cpyf o => some (eCopy 0x0E5 o.msk o.d o.n o.pat o.fa o.rule o.land 0 0 0)
  | .mcast o => some (eCopy 0x0E6 o.msk o.d o.n o.src o.fa o.rule o.land o.k o.off.toNat o.w)
  | .mshape o => some (encA 0x100 o.msk 0 0 0 0 0 (o.nc + o.mc * 4))
  | .mwin o => some (encB 0x101 o.msk 0 0 0 0 0 (2 ^ 10) (o.len + o.base.toNat * 2 ^ 16))
  | .mzero o => some (encA 0x102 o.msk 0 o.r o.n 0 0 0)
  | .mmul o => some (eMProd 0x103 o)
  | .mloop o => some (eMProd 0x104 o)
  | .mrd o => some (eMem 0x105 o.msk o.d o.addr o.fa.code 0 0 0 o.n1)
  | .mwr o => some (eMem 0x106 o.msk o.src o.addr o.fa.code o.low.toNat o.land 0 o.n1)
  | .mcomp o => some (encB 0x107 o.msk o.d o.a 0 o.fa.code 0 o.hi.toNat o.c)
  | .msplit o => some (encC 0x108 o.msk 0 0 o.desc 0 o.low.toNat o.land (o.k1 + 2 ^ 10) 0 0)
  | .mrecomb o => some (encC 0x109 o.msk 0 0 o.desc 0 o.low.toNat o.land (o.k1 + o.tri.toNat * 2 ^ 4 + 2 ^ 10) 0 0)
  | .xbind o => some (encB 0x120 o.msk o.d o.base o.cen (eF64 o.f64) 0 (o.p + o.loc.toNat * 2 ^ 4) 0)
  | .xclr o => some (encA 0x121 o.msk ((o.d.map Fin.val).getD 0) 0 0 0 0 o.d.isNone.toNat)
  | .xmov o => some (encA 0x122 o.msk o.d o.a 0 0 0 0)
  | .xform o => some (encB 0x123 o.msk o.d o.a 0 0 0 o.add.toNat (o.n1 * 2 ^ 10))
  | .xshift o => some (eXMap 0x124 o)
  | .xconv o => some (eXMap 0x125 o)
  | .xlshift o => some (eXMap 0x126 o)
  | .xeval o => some (encB 0x127 o.msk o.d o.a o.b 0 0 o.add.toNat 0)
  | .xdirect o => some (eXDirect o)
  | .xadm o => some (encB 0x129 o.msk o.d o.a o.b 0 0 o.z.toNat (o.c + o.theta.toNat * 2 ^ 10))
  | .wapp o => some (eWList 0x140 o.msk o.item o.base o.off o.dst 1 0)
  | .wcnt o => some (eWList 0x141 o.msk o.d o.base o.off o.dst 0 o.ov.toNat)
  | .teamPromotion _ => none
  | .valueArrival _ _ => none
  | .asyncTrapDelivery _ => none
  | .supervisorPageResolve _ _ _ => none
  | .formFullKey _ => none
  | .formAtQuiescence _ => none
  | .rejoinTimeout _ _ => none
  | .groupDeadlock _ => none
  | .spawnMoveWait _ => none
  | .coreStepPoint _ => none
  | .clusterStepPoint _ => none
  | .engineCommandStart _ _ => none
  | .patrolScrub _ _ _ => none
  | .hbmPatrolScrub _ => none
  | .eccUncorrectable _ => none
  | .lineRequestInject _ _ => none
  | .packetRoute _ _ => none
  | .lineRead _ => none
  | .lineResponse _ => none
  | .landingWrite _ => none
  | .writeAck _ => none
  | .multicastWrite _ _ => none
  | .multicastForkResume _ _ => none
  | .pageWalk => none
  | .priResponse _ _ => none
  | .flitCrcError _ _ => none
  | .linkFailure _ _ => none
  | .groupPlacement _ => none
  | .stealRequest _ => none
  | .groupEnd _ => none
  | .phaseCommit _ _ => none
  | .launchNode _ => none
  | .forkNode _ => none
  | .joinNode _ => none
  | .condNode _ => none
  | .whileNode _ => none
  | .signalNode _ => none
  | .awaitNode _ => none
  | .awaitPoll _ => none
  | .endNode _ => none
  | .preemptThreshold _ => none
  | .flagFall _ => none
  | .faultReport _ => none
  | .eventOverflow => none
  | .bar2Read _ _ _ => none
  | .bar2Write _ _ _ => none
  | .registerWrite _ _ _ _ => none
  | .gstatRead _ => none
  | .start _ _ => none
  | .kick _ => none
  | .cmdHalt _ => none
  | .cmdResume _ => none
  | .cmdAbort _ => none
  | .cmdPreempt _ => none
  | .cmdInvalidate _ => none
  | .cmdReplayOn _ => none
  | .cmdReplayOff _ => none
  | .attestSubmit => none
  | .peerAttestRequest _ _ => none
  | .attestReportDone _ => none
  | .reset => none
  | .powerInterval _ _ => none
  | .thermalThrottle _ _ => none
  | .thermalCritical _ => none
  | .thermalRecovery => none
  | .fabricForward _ _ => none
  | .fabricLinkFailure _ => none
  | .domainRendezvous _ _ => none
  | .domainRendezvousTimeout _ => none
  | .domainVote _ _ _ => none
  | .domainDecision _ => none
  | .domainDecisionReceipt _ _ => none
  | .domainRelease _ => none
  | .engineCommandFinished _ _ => none
  | .hostInReadCompletion _ _ => none
  | .atsTranslationResponse _ _ => none
  | .powerLoss => none
end Sys2Proof
end

