-- ==== Sys2Proof/Machine/Net.lean ====
section
/-! DEFINITION. The package network (23, R407 to R412, R414 to R416, R418 to R420): its links, the tables of the spanning tree,
credits, and the injection of packets; and the packets that leave for other packages (25, R439 to R441). -/
namespace Sys2Proof.Machine

/-! ## Topology (R407) -/

/-- The leaves of a cluster and of a slice. -/
def leafOfCluster (cl : Nat) : NetNode := Fin.ofNat 129 ((16 * (cl / 8) + cl % 8) % 128)
def leafOfSlice (die slice : Nat) : NetNode := Fin.ofNat 129 ((16 * die + 8 + slice) % 128)

/-- The control die, which is no leaf. -/
def ctlNode : NetNode := 128

def leafDie (l : NetNode) : Nat := l.val / 16
/-- The cluster or slice number of a leaf within its die. -/
def leafIx (l : NetNode) : Nat := l.val % 8
def leafIsSlice (l : NetNode) : Bool := l.val % 16 ≥ 8
def leafCluster (l : NetNode) : Nat := 8 * leafDie l + leafIx l

/-- The edge switch of a leaf, and its down-port there: clusters 2e and 2e + 1, then slices 2e and 2e + 1. -/
def leafEdge (l : NetNode) : Nat := 4 * leafDie l + leafIx l / 2
def leafPort (l : NetNode) : Nat := leafIx l % 2 + if leafIsSlice l then 2 else 0

def switchNum : Switch → Nat
  | .edge k => k
  | .middle k => 32 + k
  | .spine k => 64 + k

/-- What the far end of a switch's port is. Ports 0 to 3 of an edge or middle switch lead down, the others up. -/
inductive Far where
  | leaf (l : NetNode)
  /-- another switch, and the input port there -/
  | switch (sw port : Nat)
  | ctl
  | none
  deriving DecidableEq, Repr

def farEnd (sw port : Nat) : Far :=
  if sw < 32 then
    let d := sw / 4
    let e := sw % 4
    if port < 2 then .leaf (Fin.ofNat 129 (16 * d + 2 * e + port))
    else if port < 4 then .leaf (Fin.ofNat 129 (16 * d + 8 + 2 * e + (port - 2)))
    else if port < 8 then .switch (32 + 4 * d + (port - 4)) e
    else .none
  else if sw < 64 then
    let d := (sw - 32) / 4
    let u := (sw - 32) % 4
    if port < 4 then .switch (4 * d + port) (4 + u)
    else if port < 12 then .switch (64 + (port - 4)) (4 * d + u)
    else .none
  else if sw < 72 then
    if port < 32 then .switch (32 + port) (4 + (sw - 64)) else if port = 32 then .ctl else .none
  else .none

/-- A link by its lower end, so that both directions have one name. -/
def linkOf (sw port : Nat) : Nat × Nat :=
  match farEnd sw port with
  | .switch s p => if s < sw then (s, p) else (sw, port)
  | _ => (sw, port)

/-! ## The tables (R412, R414) -/

/-- A middle switch is on the tree: some link of it to a spine works. -/
def onTree (failed : List (Nat × Nat)) (m : Nat) : Bool :=
  failed.isEmpty || (List.range 8).any fun k => !failed.contains (m, 4 + k)

/-- The middle switch through which the tree reaches an edge switch: u = e, or the next that is on the tree and whose link works
(log 90). -/
def treeMiddle (failed : List (Nat × Nat)) (edge : Nat) : Option Nat :=
  (List.range 4).findSome? fun k =>
    let u := (edge % 4 + k) % 4
    if failed.contains (edge, 4 + u) || !onTree failed (32 + 4 * (edge / 4) + u) then none else some u

/-- The down table of a switch: the down-port to a leaf, or from a spine to the control die. -/
def downPort (failed : List (Nat × Nat)) (sw : Nat) (l : NetNode) : Option Nat :=
  let e := leafEdge l
  if l = ctlNode then if sw < 64 ∨ failed.contains (sw, 32) then none else some 32
  else if failed.contains (e, leafPort l) then none
  else if sw < 32 then if sw = e then some (leafPort l) else none
  else if sw < 64 then
    if (sw - 32) / 4 = leafDie l ∧ treeMiddle failed e = some ((sw - 32) % 4) then some (e % 4) else none
  else
    match treeMiddle failed e with
    | none => none
    | some u =>
      let m := 32 + 4 * leafDie l + u
      if failed.contains (m, 4 + (sw - 64)) then none else some (4 * leafDie l + u)

/-- The up-ports of a switch. -/
def upPorts (sw : Nat) : List Nat :=
  if sw < 32 then [4, 5, 6, 7] else if sw < 64 then (List.range 8).map fun k => 4 + k else []

/-- Whether a destination set lies in the down table of a switch. -/
def below (failed : List (Nat × Nat)) (sw : Nat) (ls : List NetNode) : Bool := ls.all fun l => (downPort failed sw l).isSome

/-- Whether a switch above has a destination set in its down table. -/
def reaches (failed : List (Nat × Nat)) (sw : Nat) (ls : List NetNode) : Bool :=
  below failed sw ls || (upPorts sw).any fun p =>
    !failed.contains (linkOf sw p) && match farEnd sw p with | .switch s _ => below failed s ls | _ => false

/-- The legal up-ports (R412): those whose next switch has the destination in its table; where none has, those from which a
switch above has it. -/
def legalUp (failed : List (Nat × Nat)) (sw : Nat) (ls : List NetNode) : List Nat :=
  let ups := (upPorts sw).filter fun p => !failed.contains (linkOf sw p)
  let near := ups.filter fun p => match farEnd sw p with | .switch s _ => below failed s ls | _ => false
  if near.isEmpty then ups.filter fun p => match farEnd sw p with | .switch s _ => reaches failed s ls | _ => false else near

/-! ## Buffers and credits (R410) -/

/-- The packets of a channel at an input. -/
def Net.inUse (n : Net) (sw port : Nat) (c : Chan) : Nat :=
  ((n.buf.get [] sw).filter fun x => x.1 == port && x.2.chan == c).length

/-- Free whole-packet buffers of a channel at an input. -/
def Net.free (n : Net) (sw port : Nat) (c : Chan) : Nat := 4 - n.inUse sw port c

/-- The free buffers behind a port: a leaf, and the control die, accept every packet (R418). -/
def Net.credit (n : Net) (sw port : Nat) (c : Chan) : Nat :=
  match farEnd sw port with
  | .leaf _ => 1
  | .switch s p => n.free s p c
  | .ctl => 1
  | .none => 0

/-- The port that a packet takes (R412): down by the table; else the legal up-port with the most free buffers, the lowest of
equals. -/
def Net.portFor (n : Net) (sw : Nat) (c : Chan) (ls : List NetNode) : Option Nat :=
  match ls with
  | [l] =>
    match downPort n.known sw l with
    | some p => some p
    | none => go (legalUp n.known sw ls)
  | _ => go (legalUp n.known sw ls)
where
  go : List Nat → Option Nat
  | [] => none
  | p :: r => some (r.foldl (fun b q => if n.credit sw b c < n.credit sw q c then q else b) p)

/-! ## Injection -/

/-- A packet enters an input buffer. -/
def Net.enter (n : Net) (sw port clock : Nat) (p : Packet) : Net :=
  { n with buf := n.buf.put sw (n.buf.get [] sw ++ [(port, { p with since := clock })]) }

/-- Packets waiting at a leaf enter its edge switch while its input has room; one that must wait lets others of other
channels pass. -/
def Net.push (n : Net) (l : NetNode) (clock : Nat) : List Packet → (kept : List Packet) → Net
  | [], kept => { n with out := n.out.set [] l kept }
  | p :: r, kept =>
    if 0 < n.free (leafEdge l) (leafPort l) p.chan && !kept.any (fun q => q.chan == p.chan) then
      (n.enter (leafEdge l) (leafPort l) clock p).push l clock r kept
    else n.push l clock r (kept ++ [p])

/-- What is under way for a packet that will not arrive is no longer waited for: an acknowledgment, or a line, which a walker asks for
again. -/
def State.forget (s : State) (p : Packet) : State :=
  let fewer (s : State) (l : NetNode) (n : Nat) : State :=
    let x := s.cluster (leafCluster l)
    s.setCluster (leafCluster l) { x with acks := x.acks - n }
  let noLine (s : State) (l : NetNode) (rid : Nat) : State :=
    (List.range 6).foldl (fun (s : State) k =>
      let c := coreIn (leafCluster l) k
      let x := s.core c
      if x.reqs.any fun e => e.2.any fun r => r.rid == rid then
        s.setCore c { x with reqs := x.reqs.map fun e => (e.1, e.2.filter fun r => r.rid != rid) }
      else s) { s with ctl := { s.ctl with
        walks := s.ctl.walks.map fun w => if w.asked == some rid then { w with asked := none } else w
        reqs := s.ctl.reqs.filter fun r => r.rid != rid } }
  match p.body with
  | .write _ none => fewer s p.src 1
  | .multi _ => fewer s p.src p.dsts.length
  | .ack n none => fewer s (p.dsts.headD 0) n
  | .read rid _ none => noLine s p.src rid
  | .line rid _ none => noLine s (p.dsts.headD 0) rid
  | .ctl m =>
    match m with
    | .walk _ _ cl => s.setCluster cl { s.cluster cl with asked := [] }
    | .walked _ _ cl _ => s.setCluster cl { s.cluster cl with asked := [] }
    | .report r => s.report (leafDie p.src % 8) r
    | _ => s
  | _ => s

/-- The report of a packet that a failed link or switch has hit (R414). -/
def Packet.lostReport (p : Packet) (sw : Nat) : Report :=
  { ctx := p.ctx, phase := p.phase, kind := 4, eff := 0x16, lti := BitVec.allOnes 64, pc := 0, payload := 0
    loc := BitVec.ofNat 64 (leafDie p.src % 8 * 2 ^ 56 + sw * 2 ^ 32), addr := 0, halt := none }

/-- R414: a packet that cannot go on over a failed link raises `e.ecc` for its phase, and is gone. -/
def State.packetLost (s : State) (sw : Nat) (p : Packet) : State :=
  if p.dead then s.forget p else (s.forget p).report (leafDie p.src % 8) (p.lostReport sw)

/-- The spine at which the control die puts a packet in: of those whose table holds the destinations, the one whose input has the
most free buffers, the lowest of equals, as R412 has it for an upward port. -/
def Net.spineFor (n : Net) (p : Packet) : Option Nat :=
  match ((List.range 8).map (64 + ·)).filter fun sw => below n.known sw p.dsts && !n.failed.contains (sw, 32) with
  | [] => none
  | a :: r => some (r.foldl (fun b q => if n.free b 32 p.chan < n.free q 32 p.chan then q else b) a)

/-- Packets that wait at the control die enter spines while there is room. -/
def Net.pushCtl (n : Net) (clock : Nat) : List Packet → (kept : List Packet) → Net
  | [], kept => { n with out := n.out.set [] ctlNode kept }
  | p :: r, kept =>
    match n.spineFor p with
    | some sw => if 0 < n.free sw 32 p.chan then (n.enter sw 32 clock p).pushCtl clock r kept else n.pushCtl clock r (kept ++ [p])
    | none => n.pushCtl clock r (kept ++ [p])

/-- What waits at a node enters the network as far as it can; over a failed leaf link nothing does. -/
def State.inject (s : State) (l : NetNode) : State :=
  let waiting := s.net.out.get [] l
  if l = ctlNode then
    let lost := waiting.filter fun p => (s.net.spineFor p).isNone
    let s := { s with net := s.net.pushCtl s.clock (waiting.filter fun p => (s.net.spineFor p).isSome) [] }
    lost.foldl (fun s p => s.packetLost 64 p) s
  else if s.net.failed.contains (leafEdge l, leafPort l) then
    waiting.foldl (fun s p => s.packetLost (leafEdge l) p) { s with net := { s.net with out := s.net.out.set [] l [] } }
  else { s with net := s.net.push l s.clock waiting [] }

/-- A node sends a packet. -/
def State.emit (s : State) (p : Packet) : State :=
  { s with net := { s.net with out := s.net.out.put p.src (s.net.out.get [] p.src ++ [p]) } }.inject p.src

/-- The leaf by which a die's own control packets leave: the first whose link works. -/
def Net.dieNode (n : Net) (d : Nat) : Option NetNode :=
  ((List.range 16).map fun k => (Fin.ofNat 129 (16 * d + k) : NetNode)).find? fun l => !n.failed.contains (leafEdge l, leafPort l)

/-- A control packet (Table 23-2). -/
def State.emitCtl (s : State) (src dst : NetNode) (x : CtxId) (num : BitVec 32) (m : CtlMsg) : State :=
  s.emit { chan := .ctl, ctx := x, phase := num, src := src, dsts := [dst], body := .ctl m, since := 0, forked := false, dead := false }

/-- A write that joins a waiting packet: of the same instruction, to the same line, 128 bytes in all at most (Table 23-2). -/
def Packet.joins (p : Packet) (leaf : NetNode) (w : Write) : Bool :=
  p.dsts == [leaf] && match p.body with
    | .write (a :: r) none =>
      !p.dead && a.seq == w.seq && a.addr / 128 == w.addr / 128 && (((a :: r).map fun x => x.bytes.length).sum + w.bytes.length ≤ 128)
    | _ => false

/-- The write put into the packet that waits last at a leaf, when it joins it. -/
def joinLast (leaf : NetNode) (w : Write) : List Packet → Option (List Packet)
  | [] => none
  | [p] => if p.joins leaf w then (match p.body with | .write l v => some [{ p with body := .write (l ++ [w]) v }] | _ => none) else none
  | p :: r => (joinLast leaf w r).map fun l => p :: l

/-- A landing write of a cluster to a slice, or through the control die to another package (R418): with a new packet the cluster has one more outstanding. -/
def State.emitWrite (s : State) (core : Nat) (leaf : NetNode) (w : Write) : State :=
  let c := s.core core
  let cl := clusterOf core
  let src := leafOfCluster cl
  match joinLast leaf w (s.net.out.get [] src) with
  | some l => { s with net := { s.net with out := s.net.out.put src l } }
  | none =>
    let x := s.cluster cl
    (s.setCluster cl { x with acks := x.acks + 1 }).emit
      { chan := .req, ctx := c.ctx, phase := c.phase, src := src, dsts := [leaf], body := .write [w] none, since := 0, forked := false, dead := false }

/-- One packet for the copies of an `mcast` that slices home; each slice acknowledges it once (R418, R420). -/
def State.emitMulti (s : State) (core : Nat) (copies : List (NetNode × Write)) : State :=
  let c := s.core core
  let cl := clusterOf core
  let ds := copies.foldl (fun (a : List NetNode) x => if a.contains x.1 then a else a ++ [x.1]) []
  let x := s.cluster cl
  if ds.isEmpty then s
  else (s.setCluster cl { x with acks := x.acks + ds.length }).emit
    { chan := .req, ctx := c.ctx, phase := c.phase, src := leafOfCluster cl, dsts := ds, body := .multi copies, since := 0, forked := false,
      dead := false }

/-- The requester of a core's copy engine, beside its partitions (R415). -/
def copyReader : Nat := 12

/-- A line request of a partition or of the copy engine, unless an earlier one of the same instruction asks for the same line
(R416). -/
def State.askLine (s : State) (core part : Nat) (leaf : NetNode) (line id : Nat) : State :=
  let c := s.core core
  let l := c.reqs.get [] part
  if l.any fun r => !r.sent && r.line == line && r.ids.any fun i => i / 64 == id / 64 then
    s.setCore core { c with reqs := c.reqs.put part (l.map fun r =>
      if !r.sent && r.line == line && (r.ids.any fun i => i / 64 == id / 64) && !r.ids.contains id then { r with ids := r.ids ++ [id] } else r) }
  else
    let n := s.net
    { s.setCore core { c with reqs := c.reqs.put part (l ++
        [{ rid := n.rids, ctx := c.ctx, phase := c.phase, leaf := leaf, line := line, ids := [id], sent := false }]) } with
      net := { n with rids := n.rids + 1 } }

/-- A line that carries elements of a result is still under way (R417). -/
def State.asked (s : State) (core id : Nat) : Bool := (s.core core).reqs.any fun p => p.2.any fun r => r.ids.contains id

/-- A requester of a core has asked for a line. -/
def State.lineAsked (s : State) (core line : Nat) : Bool := (s.core core).reqs.any fun p => p.2.any fun r => r.line == line

/-! ## A network without packets (R414) -/

def Net.idle (n : Net) : Bool := (n.out.all fun p => p.2.isEmpty) && n.buf.all fun p => p.2.isEmpty

/-- Whether the tables reach a leaf from the control die. -/
def Net.reachesLeaf (n : Net) (l : NetNode) : Bool :=
  (List.range 8).any fun k => (downPort n.known (64 + k) l).isSome && !n.known.contains (64 + k, 32)

/-- Whether they reach the leaf of a cluster. -/
def Net.serves (n : Net) (cl : Nat) : Bool := n.reachesLeaf (leafOfCluster cl)

/-- Once a network that waits for new tables is empty, the tree is computed without the failed parts; clusters that it
cannot reach take no more groups. -/
def State.retree (s : State) : State :=
  if s.net.draining && s.net.idle then
    let n := { s.net with known := s.net.failed ++ s.net.cut, draining := false }
    (List.range 64).foldl (fun s cl => if n.serves cl then s else s.setCluster cl { s.cluster cl with removed := true }) { s with net := n }
  else s

/-- A leaf leaves the tree that is computed next (R367). -/
def State.cutLeaf (s : State) (l : NetNode) : State :=
  { s with net := { s.net with cut := (leafEdge l, leafPort l) :: s.net.cut, draining := true } }.retree

/-- The reports on their way to the supervisor: in the dies, and in packets. -/
def State.reports (s : State) : List Report :=
  (s.dies.flatMap fun d => d.2.fifo ++ d.2.heldReports) ++
    ((s.net.out.flatMap (·.2)) ++ (s.net.buf.flatMap fun e => e.2.map (·.2)) ++ (s.net.arrived.flatMap (·.2))).filterMap fun p =>
      match p.body with | .ctl (.report r) => some r | _ => none

/-- What is on its way of the faults of a phase that is discarded: each is still reported (R397). -/
def Report.lateFor (x : CtxId) (num : BitVec 32) (r : Report) : Report := if r.ctx == x && r.phase == num then { r with late := true } else r

/-- What a discarded phase has not injected is gone. Its packets in the network are delivered, and its responses come and free their
slots (R417, R419); those from other packages are no longer waited for. -/
def State.purge (s : State) (x : CtxId) (num : BitVec 32) : State :=
  let mine (p : Packet) : Bool := p.ctx == x && p.phase == num && p.chan != .ctl
  let kill (p : Packet) : Packet :=
    if mine p then { p with dead := true }
    else match p.body with | .ctl (.report r) => { p with body := .ctl (.report (r.lateFor x num)) } | _ => p
  let lost := s.net.out.flatMap fun e => e.2.filter mine
  let n := s.net
  let n : Net := { n with
    out := (n.out.map fun e => (e.1, (e.2.filter fun p => !mine p).map kill)).filter fun e => !e.2.isEmpty
    buf := n.buf.map fun e => (e.1, e.2.map fun q => (q.1, kill q.2))
    arrived := n.arrived.map fun e => (e.1, e.2.map kill) }
  let gone (q : LineReq) : Bool := q.ctx == x && q.phase == num && (!q.sent || q.leaf == ctlNode)
  let cores : SMap CoreSt := s.cores.map fun e =>
    (e.1, { e.2 with reqs := e.2.reqs.map fun r => (r.1, r.2.filter fun q => !gone q) })
  let dies : SMap DieSt := s.dies.map fun e =>
    (e.1, { e.2 with fifo := e.2.fifo.map (Report.lateFor x num), heldReports := e.2.heldReports.map (Report.lateFor x num) })
  (lost.foldl (fun (s : State) p => s.forget p) { s with net := n, cores := cores, dies := dies }).retree

/-! ## Failed links and switches (R414) -/

/-- The packets on a link: in the input that it feeds at either end. -/
def Net.onLink (n : Net) (sw port : Nat) : List Packet :=
  let atIn (i p : Nat) : List Packet := ((n.buf.get [] i).filter fun x => x.1 == p).map (·.2)
  match farEnd sw port with
  | .switch t q => atIn sw port ++ atIn t q
  | _ => atIn sw port

/-- Links fail: the phases of the packets on them are discarded, placement stops, and the tree is computed again once the network is
empty. -/
def State.failLinks (s : State) (sw : Nat) (ports : List Nat) : State :=
  let ports := ports.filter fun p => farEnd sw p != .none && !s.net.failed.contains (linkOf sw p)
  let hit := ports.flatMap (s.net.onLink sw)
  let once := hit.foldl (fun (a : List Packet) p => if p.dead || a.any fun q => q.ctx == p.ctx && q.phase == p.phase then a else a ++ [p]) []
  if ports.isEmpty then s
  else
    let s := once.foldl (fun s p => s.report (leafDie p.src % 8) (p.lostReport sw)) s
    { s with net := { s.net with failed := (ports.map (linkOf sw)) ++ s.net.failed, draining := true } }.retree

/-- A switch fails with all its links. -/
def State.failSwitch (s : State) (sw : Nat) : State := s.failLinks sw (List.range 33)

/-! ## Packets to other packages (R439 to R441) -/

/-- Flits of 32 bytes. -/
def flits (bytes : Nat) : Nat := (bytes + 31) / 32

/-- The flits of a fabric packet: the fabric header, and the package-network packet with its own (R440, Table 23-2). -/
def pktFlits (p : FabPkt) : Nat :=
  2 + match p.body with
    | .line _ _ _ => 4
    | .writes _ _ _ l => flits (l.map fun w => w.bytes.length).sum
    | .attest n => flits n.length
    | .attested _ _ b => flits b.length
    | .other b => flits b.length
    | _ => 0

/-- The context that a packet serves. -/
def pktCtx (p : FabPkt) : Option CtxId :=
  match p.body with
  | .msg x _ => some x
  | .read x _ _ => some x
  | .line x _ _ => some x
  | .writes x _ _ _ => some x
  | .ack x _ _ => some x
  | .complete _ _ => none
  | .attest _ => none
  | .attested _ _ _ => none
  | .other _ => none

/-- The flits of the neighbour's buffers for a class that a port has in use. -/
def Fabric.inUse (f : Fabric) (port : Fin 18) (cls : Fin 3) : Nat := f.spent.get 0 (3 * port.val + cls.val)

/-- The ports towards a package that are up and have credit for a packet (R440, Table 25-1). -/
def State.portsFor (s : State) (p : FabPkt) : List (Fin 18) :=
  (Config.route s.fab.down p.dpkg).filter fun q => !s.fab.down.contains q && s.fab.inUse q p.cls + pktFlits p ≤ 64

/-- A port towards a package that is up, whatever its credit. -/
def State.reachable (s : State) (pkg : Fin 1024) : Bool := (Config.route s.fab.down pkg).any fun q => !s.fab.down.contains q

/-- Whether a packet says that a domain-level phase is over between its packages: a decision against it, or its release. -/
def endsFlow (p : FabPkt) : Bool :=
  match p.body with
  | .msg _ (.decision _ commit) => !commit
  | .msg _ (.release _) => true
  | _ => false

/-- A packet, of this package or forwarded, goes over a port: its context has a flow there, which ends with the phase. -/
def Fabric.mark (f : Fabric) (port : Fin 18) (p : FabPkt) : Fabric :=
  match pktCtx p with
  | none => f
  | some x =>
    let e : FlowMark := { port := port, ctx := x, src := p.spkg, dst := p.dpkg }
    if endsFlow p then { f with flows := f.flows.filter fun q =>
      !(q.ctx == x && ((q.src == p.spkg && q.dst == p.dpkg) || (q.src == p.dpkg && q.dst == p.spkg))) }
    else if f.flows.contains e then f
    else { f with flows := e :: f.flows }

/-- A packet leaves by a port, which a free choice takes of those that can (R440). -/
def State.sendBy (s : State) (p : FabPkt) : Option State :=
  (s.portsFor p)[Config.portChoice s.free % (s.portsFor p).length]?.map fun q =>
    let f := s.fab
    { s.bump with fab :=
      ({ f with sent := f.sent ++ [(q, p)], spent := f.spent.set 0 (3 * q.val + p.cls.val) (f.inUse q p.cls + pktFlits p) }).mark q p }

/-- A packet leaves, or waits for a port. -/
def State.sendOrWait (s : State) (p : FabPkt) : State :=
  match s.sendBy p with
  | some t => t
  | none => { s with fab := { s.fab with waits := s.fab.waits ++ [p] } }

/-- The key of a flow. -/
def flowKey (cls : Fin 3) (pkg : Fin 1024) : Nat := 1024 * cls.val + pkg.val

/-- A packet is put into the fabric, with the next number of its flow and 8 hops (Table 25-2, R441). -/
def State.toPackage (s : State) (cls : Fin 3) (pkg : Fin 1024) (b : FabBody) : State :=
  let f := s.fab
  let n := f.next.get 0 (flowKey cls pkg)
  { s with fab := { f with next := f.next.put (flowKey cls pkg) (n + 1) } }.sendOrWait
    { hops := 8, cls := cls, spkg := s.ctl.pkg, dpkg := pkg, seq := n, body := b }

/-- A message to another package's control die. -/
def State.tell (s : State) (x : CtxId) (pkg : Fin 1024) (m : Msg) : State := s.toPackage 0 pkg (.msg x m)

end Sys2Proof.Machine
end

