-- ==== Sys2Proof/Machine/Access.lean ====
section
/-! DEFINITION. Memory accesses: address formation (R44), windows and pages (R159), the page table (R373 to R376), the
access rules (R160, R449), snapshots and queued writes (R161, R162). -/
namespace Sys2Proof.Machine

/-! ## Bytes -/

/-- n bytes from an address on. -/
def readBytes (m : SMap Byte) (a n : Nat) : List Byte := (List.range n).map fun k => m.get unwritten (a + k)

/-- Bytes written from an address on. -/
def writeBytes (m : SMap Byte) (a : Nat) : List Byte → SMap Byte
  | [] => m
  | b :: r => writeBytes (m.set unwritten a b) (a + 1) r

/-- A little-endian 64-bit word (R9). -/
def read64 (m : SMap Byte) (a : Nat) : DWord := BitVec.ofNat 64 (leNat (readBytes m a 8))
def write64 (m : SMap Byte) (a : Nat) (x : DWord) : SMap Byte := writeBytes m a (leBytes 8 x.toNat)

/-! ## Address formation (R44) -/

/-- The base register's value, 0 when absent. -/
def Team.baseOf (t : Team) : Option UReg → DWord
  | none => 0
  | some r => t.s[r]

def Team.addrOf (t : Team) (a : Addr) (i : Nat) : DWord :=
  t.baseOf a.base + (match a.ix with
    | .absent => 0
    | .v32 r => (t.rd r i).signExtend 64
    | .v64 r => t.rd64 r i) + a.off.signExtend 64

/-- The vector registers that an address reads. -/
def Addr.vrefs (a : Addr) : VRefs :=
  match a.ix with
  | .absent => []
  | .v32 r => [(r.val, false)]
  | .v64 r => [(r.val, true)]

def Addr.urefs (a : Addr) : List UReg := a.base.toList

/-! ## The page table (R373, R374) -/

def pteV (p : DWord) : Bool := p.getLsbD 0
def pteW (p : DWord) : Bool := p.getLsbD 1
def pteX (p : DWord) : Bool := p.getLsbD 2
def pteScope (p : DWord) : Nat := p.toNat / 2 ^ 4 % 8
def pteHome (p : DWord) : Nat := p.toNat / 2 ^ 7 % 8
def pteIl (p : DWord) : Nat := p.toNat / 2 ^ 10 % 4
def pteSz (p : DWord) : Nat := p.toNat / 2 ^ 12 % 4
def ptePfn (p : DWord) : Nat := p.toNat / 2 ^ 16 % 2 ^ 36
def ptePkg (p : DWord) : Nat := p.toNat / 2 ^ 54

/-- The bytes that a leaf covers. -/
def pteBytes (p : DWord) : Nat := match pteSz p with | 0 => 2 ^ 16 | 1 => 2 ^ 21 | _ => 2 ^ 30

/-- A reserved bit is set. -/
def pteReserved (p : DWord) : Bool :=
  p.toNat / 2 ^ 52 % 4 != 0 || p.toNat / 2 ^ 14 % 4 != 0 || p.getLsbD 3

/-- R374: a leaf, found at a level, is malformed. -/
def pteMalformed (p : DWord) (level : Nat) : Bool :=
  pteReserved p || pteSz p == 3 || (if pteSz p == 2 then level != 1 else level != 0) || pteScope p == 0 ||
  (pteSz p == 1 && ptePfn p % 2 ^ 5 != 0) || (pteSz p == 2 && ptePfn p % 2 ^ 14 != 0) ||
  (ptePkg p != 0 && pteScope p != 3) || (pteIl p == 2 && pteHome p != 0) || pteIl p == 3 ||
  (pteIl p == 2 && pteScope p == 1)

/-- What a walk finds. -/
inductive Xlat where
  | leaf (pte : DWord)
  /-- an entry with V = 0 -/
  | miss
  | malformed (level : Nat)
  /-- a bad HBM4 sector of a table (R377) -/
  | bad (sector : Nat)
  deriving DecidableEq, Repr

/-- The entry of a table at an index. Tables lie at the physical address of their frame (log 30). -/
def tableEntry (m : SMap Byte) (frame ix : Nat) : DWord := read64 m (frame * 2 ^ 16 + 8 * ix)

/-- R374: whether the 32 aligned entries around an index are identical. -/
def groupSame (m : SMap Byte) (frame ix : Nat) : Bool :=
  (List.range 32).all fun k => tableEntry m frame (ix / 32 * 32 + k) == tableEntry m frame ix

/-- The walk from a table of a level on. -/
def walk (m : SMap Byte) (va : Nat) : (level : Nat) → (frame : Nat) → Xlat
  | 0, frame =>
    let ix := va / 2 ^ 16 % 512
    let p := tableEntry m frame ix
    if !pteV p then .miss
    else if pteMalformed p 0 then .malformed 0
    else if pteSz p = 1 ∧ !groupSame m frame ix then .malformed 0
    else .leaf p
  | lv + 1, frame =>
    let ix := va / 2 ^ (16 + 9 * (lv + 1)) % 512
    let p := tableEntry m frame ix
    if !pteV p then .miss
    else if pteScope p = 0 then
      if pteReserved p ∨ ptePkg p ≠ 0 then .malformed (lv + 1) else walk m va lv (ptePfn p)
    else if pteMalformed p (lv + 1) then .malformed (lv + 1)
    else if !groupSame m frame ix then .malformed (lv + 1)
    else .leaf p

/-- The four sectors of the 32 entries around an address of a table. -/
def groupSectors (a : Nat) : List Nat := (List.range 4).map fun k => a / 256 * 4 + k

/-- The sectors of 64 bytes that a walk reads, in order. -/
def walkSectors (m : SMap Byte) (va : Nat) : (level : Nat) → (frame : Nat) → List Nat
  | 0, frame =>
    let ix := va / 2 ^ 16 % 512
    let a := frame * 2 ^ 16 + 8 * ix
    let p := tableEntry m frame ix
    if pteV p && pteSz p == 1 then groupSectors a else [a / 64]
  | lv + 1, frame =>
    let ix := va / 2 ^ (16 + 9 * (lv + 1)) % 512
    let a := frame * 2 ^ 16 + 8 * ix
    let p := tableEntry m frame ix
    if !pteV p then [a / 64]
    else if pteScope p = 0 then a / 64 :: (if pteReserved p ∨ ptePkg p ≠ 0 then [] else walkSectors m va lv (ptePfn p))
    else groupSectors a

/-- The base of the page of a leaf around an address. -/
def pageBase (p : DWord) (va : Nat) : Nat := va / pteBytes p * pteBytes p

/-- The leaf that a translation cache holds for a virtual address of a context (R376). -/
def cachedIn (l : List (CtxId × Nat × DWord)) (x : CtxId) (va : Nat) : Option DWord :=
  (l.find? fun e => e.1 == x && e.2.1 == pageBase e.2.2 va).map fun e => e.2.2

/-- A leaf enters a translation cache of n entries; when it is full, the oldest entry leaves (log 59). -/
def fillCache (n : Nat) (l : List (CtxId × Nat × DWord)) (x : CtxId) (va : Nat) (p : DWord) : List (CtxId × Nat × DWord) :=
  if (cachedIn l x va).isSome then l else (if l.length < n then l else l.tail) ++ [(x, pageBase p va, p)]

/-- The leaf that the caches of a core and of its cluster hold. -/
def State.cachedLeaf (s : State) (core : Nat) (x : CtxId) (va : Nat) : Option DWord :=
  match cachedIn (s.core core).utlb x va with
  | some p => some p
  | none => cachedIn (s.cluster (clusterOf core)).tlb x va

/-- The sectors of tables that a translation of a context reads. -/
def State.tableSectors (s : State) (x : CtxId) (va : Nat) : List Nat := walkSectors s.mem va 3 (s.ctx x).rootFrame

/-- The bad HBM4 sector of a table that a walk of a context meets (R377). -/
def State.badTable (s : State) (x : CtxId) (va : Nat) : Option Nat :=
  if s.badSectors.isEmpty then none else (s.tableSectors x va).find? s.badSectors.contains

/-- The translation of a virtual address at a core: from the micro-cache, else from the cluster's cache, else from the
table. -/
def State.translate (s : State) (core : Nat) (va : Nat) : Xlat :=
  let x := (s.core core).ctx
  match s.cachedLeaf core x va with
  | some p => .leaf p
  | none => match s.badTable x va with
    | some b => .bad b
    | none => walk s.mem va 3 ((s.ctx x).rootFrame)

/-- The base of the page of an address, as the table has it; 64 KiB where there is no leaf. -/
def State.pageAt (s : State) (x : CtxId) (va : Nat) : Nat :=
  match walk s.mem va 3 (s.ctx x).rootFrame with
  | .leaf p => pageBase p va
  | _ => va / 2 ^ 16 * 2 ^ 16

/-- R376: a miss of the cluster's cache asks the control die for a walk; misses to one page merge. -/
def State.askWalk (s : State) (x : CtxId) (cl : ClusterId) (va : Nat) : State :=
  let c := s.cluster cl
  let r := (x, s.pageAt x va)
  if (cachedIn c.tlb x va).isSome || c.asked.contains r then s
  else (s.setCluster cl { c with asked := c.asked ++ [r] }).emitCtl (leafOfCluster cl) ctlNode x
    ((c.grp.map Group.phase).getD 0) (.walk x r.2 cl)

/-- A walk that has been asked for waits for a walker. Beyond 64 in the walkers and 1,024 in their queue the cluster holds it (R376). -/
def Ctl.addWalk (c : Ctl) (r : WalkReq) : Ctl :=
  if c.walks.length < 64 + 1024 then { c with walks := c.walks ++ [r] } else { c with heldWalks := c.heldWalks ++ [r] }

/-- What an access, whatever it finds, or a `pf` leaves in the translation caches of a core (R376, R178): a leaf of the cluster's
cache enters the micro-cache; a page in neither asks for a walk. -/
def State.touch (s : State) (core : Nat) (a : DWord) : State :=
  let c := s.core core
  if a.toNat / 2 ^ 52 ≠ 0 || (cachedIn c.utlb c.ctx a.toNat).isSome then s
  else match cachedIn (s.cluster (clusterOf core)).tlb c.ctx a.toNat with
    | some p => s.setCore core { c with utlb := fillCache 256 c.utlb c.ctx a.toNat p }
    | none => s.askWalk c.ctx (Fin.ofNat 64 (clusterOf core)) a.toNat

/-- The same, for some addresses. -/
def State.touchAll (s : State) (core : Nat) (l : List DWord) : State := l.foldl (fun s a => s.touch core a) s

/-- The physical address of a leaf for a virtual address (R375). -/
def ptePa (p : DWord) (va : Nat) : Nat := ptePfn p * 2 ^ 16 + va % pteBytes p

/-- R375: whether a physical address lies in the memory that the interleave of its leaf spans. -/
def paSpanned (p : DWord) (pa : Nat) : Bool := if pteIl p = 2 then pa < 0x18000000000 else pa < 192 * 2 ^ 30

/-- R375, R381: whether a physical address lies in the memory that the interleave spans and in the partition's frames, or in the memory
of another package of the domain. -/
def State.paOk (s : State) (x : CtxId) (p : DWord) (pa : Nat) : Bool :=
  if pteScope p = 4 ∨ pteScope p = 5 ∨ pteScope p = 6 ∨ pteScope p = 7 then true
  else paSpanned p pa &&
    if pteScope p = 3 ∧ ptePkg p ≠ s.ctl.pkg then s.ctl.members.any fun k => k.val == ptePkg p
    else (s.partBlk (s.ctx x).part).ranges.any fun r => r.1 ≤ pa / 2 ^ 16 && pa / 2 ^ 16 < r.1 + r.2

/-- Die, slice and channel within the slice of a physical address (Table 20-3). -/
def pteDie (p : DWord) (pa : Nat) : Nat := if pteIl p = 2 then pa / 2 ^ 10 % 8 else pteHome p
def pteSlice (p : DWord) (pa : Nat) : Nat := if pteIl p = 0 then pa / 2 ^ 16 % 8 else pa / 2 ^ 7 % 8
def pteChannel (p : DWord) (pa : Nat) : Nat := if pteIl p = 2 then pa / 2 ^ 13 % 8 else pa / 2 ^ 10 % 8

/-- A die's address with bits [18:16] and [9:7] exchanged: IL 00 takes its slice from the former, IL 01 from the latter. -/
def swapSlice (y : Nat) : Nat :=
  y / 2 ^ 19 * 2 ^ 19 + y / 2 ^ 7 % 8 * 2 ^ 16 + y / 2 ^ 10 % 2 ^ 6 * 2 ^ 10 + y / 2 ^ 16 % 8 * 2 ^ 7 + y % 2 ^ 7

/-- A die's address as a package address, with the die in [12:10] and the channel in [15:13] (Table 20-3, IL 10). -/
def dieKey (die y : Nat) : Nat := y / 2 ^ 10 * 2 ^ 13 + die * 2 ^ 10 + y % 2 ^ 10

/-- The key of a byte in device memory: its package address under IL 10, so that two pages share a byte only where Table 20-3
gives them one die, slice and channel (log 30). -/
def localKey (p : DWord) (pa : Nat) : Nat :=
  if pteIl p = 2 then pa else dieKey (pteHome p) (if pteIl p = 0 then swapSlice pa else pa)

/-- The same, of the page of any package: a DOMAIN page of another package has keys of its own. -/
def State.devKey (s : State) (p : DWord) (pa : Nat) : Nat :=
  if pteScope p = 3 ∧ ptePkg p ≠ s.ctl.pkg then (ptePkg p + 1) * 2 ^ 52 + localKey p pa else localKey p pa

/-- Die, slice and channel of a device key; the HBM4 stack of a slice (R368); the channel's number on its die. -/
def keyDie (k : Nat) : Nat := k / 2 ^ 10 % 8
def keySlice (k : Nat) : Nat := k / 2 ^ 7 % 8
def stackOf (slice : Nat) : Nat := slice / 4 % 2
def keyChannel (k : Nat) : Nat := 8 * keySlice k + k / 2 ^ 13 % 8

/-- The leaf of the slice that a device key lies on. -/
def keyLeaf (k : Nat) : NetNode := leafOfSlice (keyDie k) (keySlice k)

/-! ## Where an access goes (R159, R160, R449) -/

/-- What an access does. -/
inductive Mode where
  | read
  | write (rule : Rule) (land : Nat)
  | claim
  deriving DecidableEq, Repr

def Mode.writes : Mode → Bool
  | .read => false
  | _ => true


/-- What becomes of an access. -/
inductive Found where
  | here (p : Spot)
  /-- `e.scope`, with its reason -/
  | scope (reason : Nat)
  /-- a translation fault (R171) -/
  | miss
  | malformed (level : Nat)
  /-- a bad HBM4 sector of a table (R377) -/
  | bad (sector : Nat)
  deriving DecidableEq, Repr

/-- Table 7-1 and the checks before translation, in the order of R449; `none` for a virtual address. `copy` adds 0x0E. -/
def windowOf (l : Launch) (copy : Bool) (align : Nat) (a : Nat) (width : Nat) (m : Mode) : Option Found :=
  let priv := a / 2 ^ 16 == 0xFD0000000000
  let loc := a / 2 ^ 21 == 0xFE00 * 2 ^ 27
  let exch := a / 2 ^ 27 == 0xFE01 * 2 ^ 21
  let virt := a / 2 ^ 52 == 0
  let k := a / 2 ^ 24 % 8
  if !(priv || loc || exch || virt) then some (.scope 1)
  else if exch && l.ncg ≤ k then some (.scope 3)
  else if copy && priv then some (.scope 0xE)
  else if a % align ≠ 0 then some (.scope 4)
  else if priv then
    if a % 2 ^ 16 + width > l.priv then some (.scope 2)
    else match m with
      | .write _ land => if land ≠ 1 then some (.scope 0xA) else some (.here (.priv (a % 2 ^ 16)))
      | .claim => some (.scope 9)
      | .read => some (.here (.priv (a % 2 ^ 16)))
  else if loc then
    if a % 2 ^ 21 + width > l.loc then some (.scope 2) else some (.here (.loc (a % 2 ^ 21)))
  else if exch then
    if a % 2 ^ 24 + width > l.exch then some (.scope 2) else some (.here (.exch k (a % 2 ^ 24)))
  else none

/-- The packages of a context's domain-level phase. -/
def Ctx.pkgs (x : Ctx) : List (Fin 1024) := match x.domain with | some d => d.set | none => []

/-- The access rules of Table 7-2 after translation, in ascending order (R160, R449, R443). `own` is this package's number,
`set` the packages of the domain-level phase. -/
def pageReason (die : Nat) (lv : Level) (own : Nat) (set : List (Fin 1024)) (p : DWord) (m : Mode) : Option Nat :=
  let sc := pteScope p
  if m.writes && (sc == 4 || !pteW p) then some 5
  else if !m.writes && sc == 5 then some 6
  else if sc == 1 && pteHome p != die then some 7
  else if m.writes && ((lv == .die && (sc == 2 || sc == 3)) || (lv == .package && sc == 3)) then some 8
  else if m == .claim then some 9
  else if sc == 5 && (match m with | .write r land => land != 1 || r != .fault | _ => false) then some 0xA
  else if sc == 6 || sc == 7 then some 0xB
  else if sc == 3 && ptePkg p != own && lv != .domain then some 0x14
  else if sc == 3 && ptePkg p != own && !set.any (fun k => k.val == ptePkg p) then some 0x15
  else none

/-- Where an access of a core's thread goes. -/
def State.find (s : State) (core : Nat) (copy : Bool) (align : Nat) (a : DWord) (width : Nat) (m : Mode) : Found :=
  let c := s.core core
  match windowOf c.launch copy align a.toNat width m with
  | some f => f
  | none =>
    match s.translate core a.toNat with
    | .miss => .miss
    | .malformed lv => .malformed lv
    | .bad b => .bad b
    | .leaf p =>
      let pa := ptePa p a.toNat
      if !s.paOk c.ctx p pa then .malformed (if pteSz p = 2 then 1 else 0)
      else match pageReason (dieOf core) c.level s.ctl.pkg (s.ctx c.ctx).pkgs p m with
        | some r => .scope r
        | none => .here (.page p pa)

/-- Of some addresses, those that are translated: a page's, past the checks before translation (R449). -/
def State.translated (s : State) (core : Nat) (align width : Nat) (m : Mode) (l : List DWord) : List DWord :=
  l.filter fun a => (windowOf (s.core core).launch false align a.toNat width m).isNone

/-- The payload of `e.scope` (R160). -/
def scopePayload (reason : Nat) (a : DWord) : DWord := BitVec.ofNat 64 (a.toNat / 256 * 256 + reason)

/-- The payload where the instruction forms no address: its address part is a free value of the thread's course (log 15). -/
def State.bareScope (s : State) (slot reason : Nat) : DWord :=
  scopePayload reason (Config.descriptorAddr (s.tm.lti slot) s.tm.pc s.cr.stepc)

/-- `e.scope` in some slots of an instruction that forms no address. -/
def State.noAddress (s : State) (len : Nat) (slots : List Nat) (reason : Nat) : State :=
  s.finish { len := len, outs := slots.map fun i => (i, { eff := some (7, s.bareScope i reason) }) }

/-- A report that names no thread: its KIND, effect, payload, place and address (R380). -/
def CoreSt.machReport (c : CoreSt) (kind eff : Nat) (payload loc addr : DWord) : Report :=
  { ctx := c.ctx, phase := c.phase, kind := kind, eff := eff, lti := BitVec.allOnes 64, pc := 0, payload := payload,
    loc := loc, addr := addr, halt := none }

/-- The report of a malformed table (R374, R380). -/
def State.malformed (s : State) (core : Nat) (a : DWord) (level : Nat) : State :=
  s.report (dieOf core)
    { (s.core core).machReport 2 0 0 (locOfCore core + BitVec.ofNat 64 level) a with holder := some (clusterOf core) }

/-! ## Reads (R161) -/

/-- A thread's private bytes lie at TH · 2^16 of its core's map. -/
def privKey (lti : DWord) (off : Nat) : Nat := lti.toNat % 2 ^ 14 * 2 ^ 16 + off

def State.phaseOf (s : State) (x : CtxId) (n : BitVec 32) : Option Phase := (s.ctx x).phases.find? fun p => p.num == n

/-- Device memory as a core's phase reads it: as it stood at the start of the phase (R41, R161). -/
def State.baseOf (s : State) (core : Nat) : SMap Byte :=
  match s.phaseOf (s.core core).ctx (s.core core).phase with
  | some p => p.base
  | none => s.mem

/-- The bytes of a page from a physical address on; a page's lines need not lie side by side. -/
def State.pageBytes (s : State) (m : SMap Byte) (p : DWord) (pa n : Nat) : List Byte :=
  (List.range n).map fun k => m.get unwritten (s.devKey p (pa + k))

/-- The bytes that a read returns: the snapshot of the scope. -/
def State.readSpot (s : State) (core : Nat) (lti : DWord) (p : Spot) (n : Nat) : List Byte :=
  match p with
  | .priv off => readBytes (s.core core).priv (privKey lti off) n
  | .loc off => readBytes (s.core core).loc off n
  | .exch k off => readBytes (s.core (coreIn (clusterOf core) k)).exch off n
  | .page p pa => s.pageBytes (s.baseOf core) p pa n

/-- The sectors, of 64 bytes, that some bytes of a page lie in: device key and physical address of each. -/
def State.sectorsOf (s : State) (p : DWord) (pa n : Nat) : List (Nat × Nat) :=
  (List.range ((pa % 64 + n + 63) / 64)).map fun k =>
    let a := pa / 64 * 64 + 64 * k
    (s.devKey p a / 64, a)

/-- R377: whether a read meets a bad HBM4 sector: the sector, and its physical address. -/
def State.badRead (s : State) (p : Spot) (n : Nat) : Option (Nat × Nat) :=
  match p with
  | .page p pa =>
    if !s.badSectors.isEmpty && (pteScope p == 1 || pteScope p == 2 || pteScope p == 3) then
      (s.sectorsOf p pa n).find? fun x => s.badSectors.contains x.1
    else none
  | _ => none

/-- LOC of the report of a bad sector: its die, the stack as the array, the channel of the die as the word (log 120). -/
def locOfSector (sector : Nat) : DWord :=
  let k := sector * 64
  BitVec.ofNat 64 (keyDie k * 2 ^ 56 + stackOf (keySlice k) * 2 ^ 32 + keyChannel k)

/-- The report of an uncorrectable HBM4 sector, at a physical address (Table 20-4, R380). -/
def sectorReport (x : CtxId) (num : BitVec 32) (sector pa : Nat) : Report :=
  { ctx := x, phase := num, kind := 4, eff := 0x16, lti := BitVec.allOnes 64, pc := 0, payload := 0, loc := locOfSector sector,
    addr := BitVec.ofNat 64 pa, halt := none }

def State.badSector (s : State) (core : Nat) (sector pa : Nat) : State :=
  s.report (keyDie (sector * 64)) (sectorReport (s.core core).ctx (s.core core).phase sector pa)

/-! ## Queued writes (R161, R162, R164, R168, R256) -/

def State.mapPhase (s : State) (x : CtxId) (n : BitVec 32) (f : Phase → Phase) : State :=
  let c := s.ctx x
  s.setCtx x { c with phases := c.phases.map fun p => if p.num == n then f p else p }

/-- Whether a write draws an exact accumulator (R168). -/
def Write.accumulates (w : Write) : Bool :=
  (w.rule == .sum || w.rule == .sumin || w.claim.isSome) && (w.fmt == .f32 || w.fmt == .f64 || w.fmt == .bf16x2)

/-- Numbers without repeats. -/
def distinct (l : List Nat) : List Nat := l.foldl (fun a n => if a.contains n then a else n :: a) []

/-- The accumulators of a core window's queued writes, one for each element and landing point (R168); `w` tells the windows apart. -/
def accKeys (w : Nat) (l : List Write) : List Nat :=
  distinct ((l.filter Write.accumulates).map fun x => (x.left * 2 + w) * 2 ^ 32 + x.addr)

/-- The keys that have gone to the spill area: those that had gone and are still queued, and, where a unit of `size` cannot hold the
others, the newest of them; `keys` newest first, `n` units. What has gone there stays there until it lands (R168). -/
def spilledKeys (n size : Nat) (unit : Nat → Nat) (keys gone : List Nat) : List Nat :=
  let gone := gone.filter keys.contains
  if keys.length ≤ size then gone
  else
    let here := keys.filter fun k => !gone.contains k
    gone ++ (List.range n).flatMap fun u =>
      let l := here.filter fun k => unit k == u
      l.take (l.length - size)

/-- The 4-byte words of a deferred write, one key each. -/
def Write.words (w : Nat) (x : Write) : List Nat :=
  (List.range ((x.bytes.length + 3) / 4)).map fun k => (x.left * 2 + w) * 2 ^ 32 + x.addr / 4 + k

/-- The bank of a window offset, among the 64 of the scratchpad (R258). -/
def bankOf (off : Nat) : Nat := off / 8 % 64

/-- The accumulators of a core's windows, newest first; window `w` is the one that has just changed. -/
def CoreSt.accKeys (c : CoreSt) (w : Nat) : List Nat :=
  let l := Machine.accKeys 0 c.writes
  let k := Machine.accKeys 1 c.exWrites
  if w = 0 then l ++ k else k ++ l

/-- The words of a core's writes of a landing distance above 1, which its deferred-write store holds (R256), newest first. -/
def CoreSt.wordKeys (c : CoreSt) (w : Nat) : List Nat :=
  let l := distinct ((c.writes.filter Write.far).flatMap (Write.words 0))
  let k := distinct ((c.exWrites.filter Write.far).flatMap (Write.words 1))
  if w = 0 then l ++ k else k ++ l

/-- The accumulators in the spill area: each of the 64 banks of the scratchpad has 64 accumulators (R168, R258). -/
def CoreSt.accsOut (c : CoreSt) (w : Nat) : List Nat :=
  if c.spillAccs.isEmpty && c.writes.length + c.exWrites.length ≤ 64 then [] else spilledKeys 64 64 bankOf (c.accKeys w) c.spillAccs

/-- The deferred words in the spill area, beyond the 16,384 of the store (R256). -/
def CoreSt.wordsOut (c : CoreSt) (w : Nat) : List Nat :=
  if c.spillWords.isEmpty && ((c.writes ++ c.exWrites).map fun x => (x.words 0).length).sum ≤ 16384 then []
  else spilledKeys 1 16384 (fun _ => 0) (c.wordKeys w) c.spillWords

/-- Bytes of the landing spill area that a core's queued writes take: accumulators at 384 bytes, deferred words at 4. -/
def CoreSt.spilled (c : CoreSt) : Nat := c.spillAccs.length * 384 + c.spillWords.length * 4

/-- The keys of a window whose landing point has come one nearer. -/
def laterKeys (w : Nat) (l : List Nat) : List Nat := l.map fun k => if k / 2 ^ 32 % 2 == w then k - 2 ^ 33 else k

/-- R169: the landing spill area of a context is exhausted. -/
def State.landFault (s : State) (x : CtxId) (num : BitVec 32) (die : Nat) (holder : Option Nat) (lacking : Nat) : State :=
  s.report die
    { ctx := x, phase := num, kind := 6, eff := 0, lti := BitVec.allOnes 64, pc := 0
      payload := BitVec.ofNat 64 ((lacking + 65535) / 65536), loc := BitVec.ofNat 64 (die * 2 ^ 56), addr := 0, halt := none
      holder := holder }

/-- Bytes of its context's landing spill area that a phase takes at slices and in the compaction unit (R168, R369, R391). -/
def Phase.spilled (p : Phase) : Nat := p.spillAccs.length * 384 + p.spillLines.length * 128 + p.spillItems * 16

/-- Bytes of a context's landing spill area in use, by its cores and by its phases. -/
def Ctx.spillBytes (x : Ctx) : Nat := x.spillUsed + (x.phases.map Phase.spilled).sum

/-- R169: a context has taken more than its landing spill area holds; each writer that finds it so reports (log 163). -/
def State.checkSpill (s : State) (x : CtxId) (num : BitVec 32) (die : Nat) (holder : Option Nat) : State :=
  let c := s.ctx x
  if c.spillBytes > c.spillUnits.toNat * 65536 then s.landFault x num die holder (c.spillBytes - c.spillUnits.toNat * 65536) else s

/-- Accounts for the spill area after the queue of window `w` of a core has changed. An accumulator or a word that has gone there
shows as SPILL at the next step point of its window's scope (R170). -/
def State.account (s : State) (core w : Nat) : State :=
  let c := s.core core
  let a := c.accsOut w
  let d := c.wordsOut w
  if a = c.spillAccs ∧ d = c.spillWords then s
  else
    let x := s.ctx c.ctx
    let fresh := (a.filter fun k => !c.spillAccs.contains k) ++ d.filter fun k => !c.spillWords.contains k
    let due (w : Nat) : Bool := fresh.any fun k => k / 2 ^ 32 % 2 == w
    let b := { c with spillAccs := a, spillWords := d, spillDue := c.spillDue || due 0, spillDueK := c.spillDueK || due 1 }
    let s := (s.setCore core b).setCtx c.ctx { x with spillUsed := x.spillUsed + b.spilled - c.spilled }
    if fresh.isEmpty then s else s.checkSpill c.ctx c.phase (dieOf core) (some (clusterOf core))

/-- The pending lines of a write. -/
def Write.lines (w : Write) : List Nat :=
  (List.range ((w.addr % 128 + w.bytes.length + 127) / 128)).map fun k => w.addr / 128 + k

/-- The slice of a key whose low 64 bits are a device key, and the bank unit there; which unit serves a line is free (log 31). -/
def unitOf (k : Nat) : Nat :=
  let a := k % 2 ^ 64
  (8 * keyDie a + keySlice a) * 16 + Config.bankUnit (a / 128) % 16

/-- The accumulators of a phase, and its pending lines, by device key, newest first. -/
def Phase.accs (p : Phase) : List Nat := distinct ((p.writes.filter Write.accumulates).map Write.addr)
def Phase.lines (p : Phase) : List Nat := distinct (p.writes.flatMap Write.lines)

/-- The slice that a pending line lies in, among the 64 of the package. -/
def sliceOf (line : Nat) : Nat := 8 * keyDie (line * 128) + keySlice (line * 128)

/-- How many keys of all phases in flight, of whatever contexts, lie in a unit: those of each that have not gone to the spill area. -/
def State.unitLoad (s : State) (keys gone : Phase → List Nat) (unit : Nat → Nat) (u : Nat) : Nat :=
  (s.ctxs.map fun c => (c.2.phases.map fun p => ((keys p).filter fun k => unit k == u && !(gone p).contains k).length).sum).sum

/-- The accumulators of a phase that have gone to the spill area once those of `before` have others beside them: a new one does when
its bank unit holds 512 (R168); `full` says how many a unit holds. -/
def Phase.accsOut (p : Phase) (before : List Nat) (full : Nat → Nat) : List Nat :=
  (p.accs.filter fun k => !before.contains k).foldl (fun (g : List Nat) k =>
    let more := (g.filter fun j => unitOf j == unitOf k && !p.spillAccs.contains j).length
    if 512 + more < full (unitOf k) then k :: g else g) p.spillAccs

/-- The pending lines of a phase that have gone there: for each new line that finds the 12 MiB of its slice full, the oldest one of
the phase in that slice (R369). -/
def Phase.linesOut (p : Phase) (before : List Nat) (full : Nat → Nat) : List Nat :=
  (p.lines.reverse.filter fun k => !before.contains k).foldl (fun (g : List Nat) k =>
    let more := (g.filter fun j => sliceOf j == sliceOf k && !p.spillLines.contains j).length
    if 98304 + more < full (sliceOf k) then (p.lines.reverse.find? fun j => sliceOf j == sliceOf k && !g.contains j).toList ++ g
    else g) p.spillLines

/-- Work-list items of all phases in the compaction unit's 64 MiB (R391). -/
def State.queuedItems (s : State) : Nat :=
  (s.ctxs.map fun c => (c.2.phases.map fun p => p.items.length - p.spillItems).sum).sum

/-- What a phase has in the spill area after `before` has become `p`, in a state `u` that holds `p`. -/
def State.spillOf (u : State) (before p : Phase) : Phase :=
  let n := (u.ctxs.map fun c => (c.2.phases.map fun p => p.writes.length).sum).sum
  { p with
    spillAccs := if n ≤ 512 then p.spillAccs else p.accsOut before.accs (u.unitLoad Phase.accs Phase.spillAccs unitOf)
    spillLines := if n ≤ 49152 then p.spillLines else p.linesOut before.lines (u.unitLoad Phase.lines Phase.spillLines sliceOf)
    spillItems := p.spillItems + min (p.items.length - before.items.length) (u.queuedItems - 2 ^ 22) }

/-- Something enters what a phase has queued, at a die. What the slices or the compaction unit cannot hold then goes to the landing
spill area, is charged to the phase, and stays there until the phase ends (R168, R169, R369, R391). -/
def State.addPhase (s : State) (x : CtxId) (num : BitVec 32) (die : Nat) (f : Phase → Phase) : State :=
  let u := s.mapPhase x num f
  match s.phaseOf x num with
  | none => u
  | some before =>
    let p := u.spillOf before (f before)
    if p.spilled = (f before).spilled then u
    else (u.mapPhase x num fun _ => { p with psw := p.psw ||| 0x40 }).checkSpill x num die none

/-- Whether a page lies on another package (R443). -/
def State.isFar (s : State) (p : DWord) : Bool := pteScope p == 3 && ptePkg p != s.ctl.pkg

/-- Whether a line of another package has come for the phase of a core (R442). -/
def State.knows (s : State) (core line : Nat) : Bool :=
  match s.phaseOf (s.core core).ctx (s.core core).phase with
  | some ph => ph.known.contains line
  | none => true

/-- The keys of lines of some bytes of a page that are not here: those of another package's page come when they have been read. -/
def State.farLacks (s : State) (core : Nat) (p : DWord) (pa n : Nat) : List Nat :=
  if s.isFar p then
    ((List.range ((pa % 128 + n + 127) / 128)).map fun k => s.devKey p (pa / 128 * 128 + 128 * k)).filter fun k => !s.knows core (k / 128)
  else []

/-- Whether the lines of some bytes of a page are here. -/
def State.farKnown (s : State) (core : Nat) (p : DWord) (pa n : Nat) : Bool := (s.farLacks core p pa n).isEmpty

/-- The node that serves a line of a page: its slice, or the control die for another package's. -/
def State.nodeFor (s : State) (p : DWord) (key : Nat) : NetNode := if s.isFar p then ctlNode else keyLeaf key

/-- A write of a core leaves for the slice that homes it, or for another package (R443). -/
def State.queuePhase (s : State) (core : Nat) (p : DWord) (w : Write) : State := s.emitWrite core (s.nodeFor p w.addr) w

/-! ## Host pages (R164, R426) -/

/-- The page of host memory that ATS gives for a page number. -/
def State.hostPage (s : State) (page : Nat) : Option Nat := s.ctl.ats.lookup page

/-- A translation of a host page is asked for, once. -/
def State.askAts (s : State) (page : Nat) : State :=
  if (s.hostPage page).isSome || s.ctl.atsWait.contains page || s.ctl.priWait.contains page then s
  else { s with ctl := { s.ctl with atsWait := s.ctl.atsWait ++ [page] } }

/-- Whether a logged access is a store of a thread that comes before a place of its program order. -/
def LogE.storesBefore (lti : DWord) (seq : Nat) (e : LogE) : Bool :=
  match e.op with
  | .store _ _ _ q _ => e.ltis == [lti] && q < seq
  | _ => false

/-- Whether a row of a copy may lie in a page. Where the rows of a `cpys` go is in memory: it counts as if they did. -/
def CopyCmd.mayPage (q : CopyCmd) : Bool :=
  match q.list, q.mask with
  | some (_, _, false), _ => true
  | _, some _ => true
  | _, none => (List.range q.n).any fun j => (q.dst + BitVec.ofNat 64 (j * q.dstStep.toNat)).toNat / 2 ^ 52 == 0

/-- Whether an older store of a post's thread is still in an operand log, or an older copy to a page in a queue: its bytes come
first on the thread's flow (R164, R278). -/
def State.holdsPost (s : State) (p : Post) : Bool :=
  let mine (c : CoreSt) : Bool := c.ctx == p.ctx
  (s.teams.any fun t => mine (s.core (coreOf t.1)) && t.2.log.any (LogE.storesBefore p.lti p.seq)) ||
    s.cores.any fun c => mine c.2 &&
      (((c.2.seeds ++ c.2.rounds.flatMap fun r => r.parked ++ r.held.map (·.1)).any fun x => x.log.any (LogE.storesBefore p.lti p.seq)) ||
        c.2.copyQ.any fun q => q.lti == p.lti && q.seq < p.seq && q.mayPage)

/-- The posts of translated pages reach host memory, each thread's in order, those of several threads as they were queued (log
151): one that must wait holds back what its thread posts later. -/
def State.drain (s : State) : (posts : List Post) → (kept : List Post) → State
  | [], kept => { s with posts := kept }
  | p :: r, kept =>
    match s.hostPage p.page with
    | some h =>
      if (kept.any fun q => q.lti == p.lti && q.ctx == p.ctx) || s.holdsPost p then s.drain r (kept ++ [p])
      else State.drain { s with host := writeBytes s.host (h * 2 ^ 16 + p.off) p.bytes } r kept
    | none => (s.askAts p.page).drain r (kept ++ [p])

/-- What waits on the flows goes out as far as it can. -/
def State.flow (s : State) : State := if s.posts.isEmpty then s else s.drain s.posts []

/-- A post among those that wait, before what its thread posts later. -/
def insPost (p : Post) : List Post → List Post
  | [] => [p]
  | q :: r => if q.ctx == p.ctx && q.lti == p.lti && p.seq < q.seq then p :: q :: r else q :: insPost p r

def State.post (s : State) (p : Post) : State := s.drain (insPost p s.posts) []

/-- A write of a thread goes where its scope takes it (R161): at once into a private window, into the queues of its core or
of the target's, into the phase's pending lines, or out to the host. -/
def State.queue (s : State) (core : Nat) (p : Spot) (w : Write) : State :=
  match p with
  | .priv off =>
    -- one writer: SUMIN adds to what is there (Table 7-4), and no landing status collects its exceptions
    let c := s.core core
    let a := privKey w.lti off
    let n := w.bytes.length
    let b := if w.rule == .sumin then
        leBytes n (sumTag w.fmt [BitVec.ofNat 64 (leNat (readBytes c.priv a n)), BitVec.ofNat 64 (leNat w.bytes)]).1.toNat
      else w.bytes
    s.setCore core { c with priv := writeBytes c.priv a b }
  | .loc off =>
    let c := s.core core
    (s.setCore core { c with writes := c.writes ++ [{ w with addr := off, far := 1 < w.left }] }).account core 0
  | .exch k off =>
    let j := coreIn (clusterOf core) k
    let c := s.core j
    (s.setCore j { c with exWrites := c.exWrites ++ [{ w with addr := off, far := 1 < w.left }] }).account j 1
  | .page p pa =>
    let s := s.touch core w.va
    if pteScope p = 5 then
      s.post
        { seq := w.seq, ctx := (s.core core).ctx, phase := (s.core core).phase, lti := w.lti, page := pa / 2 ^ 16, off := pa % 2 ^ 16,
          va := w.va, bytes := w.bytes }
    else s.queuePhase core p { w with addr := s.devKey p pa }

end Sys2Proof.Machine
end

