-- ==== Sys2Proof/WellFormed.lean ====
section
/-! DEFINITION. Which instructions have an encoding: the limits that R46 to R50 and each entry set on the operands, as a
check that can be run. `v` is the launch's `.vregs`. Events carry no encoding and are well-formed as they stand. -/
namespace Sys2Proof

/-- Table 2-7: a vector register, or the even register of a pair. -/
def okV (v : Nat) (pair : Bool) (r : VReg) : Bool :=
  if pair then r.val % 2 == 0 && r.val + 1 < v else r.val < v

/-- Table 2-7: a vector range; under NLR there is none. -/
def okRange (v : Nat) : Range → Bool
  | none => true
  | some (f, l) => f.val ≤ l.val && l.val < v

/-- R44: the index of a memory operand. -/
def okIdx (v : Nat) : Idx → Bool
  | .absent => true
  | .v32 r => okV v false r
  | .v64 r => okV v true r

def okAddr (v : Nat) (m : Addr) : Bool := okIdx v m.ix

/-- A mask destination is never `m0` (R50). -/
def okMD (m : MReg) : Bool := m.val != 0

/-- The tags that FA codes 0 to 4 assert (R113). -/
def Tag.int : Tag → Bool
  | .none | .i32 | .n32 | .i64 | .n64 => true
  | _ => false

/-- FA codes 0 and 5 to 8 (R142). -/
def Tag.float : Tag → Bool
  | .none | .f32 | .f64 | .bf16x2 | .f16x2 => true
  | _ => false

/-- FA codes 0, 5 and 6. -/
def Tag.wideFloat : Tag → Bool
  | .none | .f32 | .f64 => true
  | _ => false

/-- FA codes 0, 5, 7 and 8 (Table 6-1, the special functions). -/
def Tag.specFloat : Tag → Bool
  | .none | .f32 | .bf16x2 | .f16x2 => true
  | _ => false

/-- Every FA code but TOK. -/
def Tag.noTok : Tag → Bool
  | .tok => false
  | _ => true

/-- A rounding code other than SR (R47). -/
def Rnd.noSr : Rnd → Bool
  | .sr => false
  | _ => true

def wfVArith (v : Nat) (o : VArith) : Bool :=
  o.fa.int && okV v o.fa.pair o.d && okV v o.fa.pair o.a && okV v o.fa.pair o.b

def wfVArith1 (v : Nat) (o : VArith1) : Bool := o.fa.int && okV v o.fa.pair o.d && okV v o.fa.pair o.a

def wfVBin (v : Nat) (ok : Tag → Bool) (o : VBin) : Bool :=
  ok o.fa && okV v o.fa.pair o.d && okV v o.fa.pair o.a && okV v o.fa.pair o.b

def wfVUn (v : Nat) (ok : Tag → Bool) (wide : Bool) (o : VUn) : Bool :=
  ok o.fa && okV v (o.fa.pair && wide) o.d && okV v o.fa.pair o.a

def wfVShift (v : Nat) (o : VShift) : Bool :=
  o.fa.int && okV v o.fa.pair o.d && okV v o.fa.pair o.a &&
    match o.amt with
    | .reg b => okV v false b
    | .imm _ => true

def okSrc32 (v : Nat) (pair : Bool) : Src32 → Bool
  | .reg c => okV v pair c
  | .imm _ => true

def okFld (v : Nat) : Fld → Bool
  | .reg c => okV v false c
  | .imm _ _ => true

def wfMCount (_ : MCount) : Bool := true

def wfFBin (v : Nat) (o : FBin) : Bool :=
  o.fa.float && o.rnd.noSr && okV v o.fa.pair o.d && okV v o.fa.pair o.a && okV v o.fa.pair o.b

def wfFMad (v : Nat) (o : FMad) : Bool :=
  o.fa.float && o.rnd.noSr && okV v o.fa.pair o.d && okV v o.fa.pair o.a && okV v o.fa.pair o.b &&
    okSrc32 v o.fa.pair o.c

def wfFUn (v : Nat) (o : FUn) : Bool :=
  o.fa.float && o.rnd.noSr && okV v o.fa.pair o.d && okV v o.fa.pair o.a

/-- Target codes 5, 6, 7, 8, 9 and 11 of `fcvt` (R154). -/
def Tag.cvtFloat : Tag → Bool
  | .f32 | .f64 | .bf16x2 | .f16x2 | .k8tx4 | .f4x8 => true
  | _ => false

/-- Target codes 1 to 12 of `fcvti` (R154). -/
def Tag.cvtAny : Tag → Bool
  | .none | .blk | .tok => false
  | _ => true

def wfSmx (v : Nat) (o : Smx) : Bool := okV v false o.d && okV v false o.a && o.b.val + o.n1.val < v

/-- R173: SUB with I32 and N32 only. -/
def okSub (fa : Tag) (sub : Sub) : Bool :=
  match sub with
  | .full => true
  | _ => fa == .i32 || fa == .n32

/-- R173: `st` with SUB takes FAULT, LOW or ANY. -/
def okSubRule (sub : Sub) (r : Rule) : Bool :=
  match sub with
  | .full => true
  | _ => match r with
    | .fault | .low | .any => true
    | _ => false

/-- Tags of FA codes 0 to 7. -/
def Tag.upto7 : Tag → Bool
  | .none | .i32 | .n32 | .i64 | .n64 | .f32 | .f64 | .bf16x2 => true
  | _ => false

/-- The destination of a collective. -/
def okVOrU (v : Nat) (pair : Bool) : VOrU → Bool
  | .v r => okV v pair r
  | .u _ => true

/-- R273: FA by the write rule. -/
def okCopyFa (fa : Tag) : Rule → Bool
  | .fault | .low | .any => fa == .none
  | .sum | .sumin => fa.upto7 && fa != .none

/-- R48: a memory writer's landing distance. -/
def okLand (l : Fin 8) : Bool := l.val != 0

def wfCpyIx (o : CpyIx) : Bool := okCopyFa o.fa o.rule && okLand o.land && o.len.toNat != 0 && o.len.toNat % 4 == 0

/-- The descriptor length of a product (R321). -/
def MProd.regs (o : MProd) (n nb : Nat) : Nat :=
  match o.cls with
  | .blk => nb
  | _ => n

def wfMProd (v n nb : Nat) (o : MProd) : Bool :=
  okLand o.land && o.desc.val + o.regs n nb ≤ 96 &&
    match o.sp with
    | none => true
    | some r => okV v false r && (o.cls == .i8 || o.cls == .blk)

def okOptV (v : Nat) : Option VReg → Bool
  | none => true
  | some r => okV v false r

def okWDst (v : Nat) : WDst → Bool
  | .reg r => okV v false r
  | .imm _ => true

/-- Whether a row of the opcode table has an encoding. -/
def Instr.isWord (i : Instr) : Bool :=
  match i with
  | .nop | .nop96 | .nop128 | .br _ | .bq _ | .brd _ | .join _ | .call _ | .ret _ | .jmpi _ | .loop _ | .rejoin _
  | .exit _ | .hpush _ | .hpop _ | .perform _ | .resume _ | .drop _ | .brk _ | .srd _ | .swr _ | .tmrd _
  | .add _ | .sub _ | .mul _ | .mulh _ | .mad _ | .div _ | .rem _ | .neg _ | .abs _ | .min _ | .max _ | .and _
  | .or _ | .xor _ | .not _ | .andn _ | .shl _ | .shr _ | .sar _ | .rot _ | .clz _ | .ctz _ | .popc _ | .brev _
  | .bfe _ | .bfi _ | .cmp _ | .sel _ | .mov _ | .movi _ | .addc _ | .cvti _
  | .mand _ | .mor _ | .mxor _ | .mnot _ | .mandn _ | .mset _ | .mfrom _ | .mto _ | .mcnt _ | .mfirst _
  | .sadd _ | .ssub _ | .smul _ | .sdiv _ | .sand _ | .sor _ | .sxor _ | .sshl _ | .sshr _ | .ssar _ | .smin _
  | .smax _ | .scmp _ | .ssel _ | .smov _ | .sli _ | .sbfe _ | .sclz _ | .spopc _ | .qop _
  | .fadd _ | .fsub _ | .fmul _ | .fma _ | .fnma _ | .fdiv _ | .fsqrt _ | .frcp _ | .frsq _ | .fmin _ | .fmax _
  | .fabs _ | .fneg _ | .fcpsgn _ | .fcmp _ | .fclass _ | .frnd _ | .fexpo _ | .fscale _ | .fexp2 _ | .flog2 _
  | .fsin _ | .fcos _ | .ftanh _ | .fcvt _ | .fcvti _ | .fpack _ | .smxi _ | .smxf _
  | .ld _ | .st _ | .ldu _ | .claim _ | .pf _ | .ldt _
  | .vget _ | .vpost _ | .vbcast _ | .vlti _ | .vslot _ | .vred _ | .vscan _ | .vargmin _ | .vargmax _ | .vballot _
  | .vpopc _ | .vfirst _ | .vcompact _ | .vsort _
  | .step _ | .cpy _ | .cpyg _ | .cpys _ | .cpy2d _ | .cpyf _ | .mcast _
  | .mshape _ | .mwin _ | .mzero _ | .mmul _ | .mloop _ | .mrd _ | .mwr _ | .mcomp _ | .msplit _ | .mrecomb _
  | .xbind _ | .xclr _ | .xmov _ | .xform _ | .xshift _ | .xconv _ | .xlshift _ | .xeval _ | .xdirect _ | .xadm _
  | .wapp _ | .wcnt _ => true
  | _ => false

/-- The check. -/
def wf (v : Nat) : Instr → Bool
  | .nop => true
  | .nop96 => true
  | .nop128 => true
  | .br _ => true
  | .bq _ => true
  | .brd o => okRange v o.range
  | .join _ => true
  | .call _ => true
  | .ret _ => true
  | .jmpi _ => true
  | .loop _ => true
  | .rejoin o => okRange v o.range
  | .exit _ => true
  | .hpush o => okV v true o.tk && okV v false o.hl && o.elen.toNat != 0 && o.tk.val + 3 ≤ o.hl.val
  | .hpop o => okOptV v o.res
  | .perform o => okV v false o.d && okRange v o.range && 0x0100 ≤ o.eff.toNat && o.eff.toNat != 0xFFFF &&
      (match o.payload with | none => true | some c => okV v true c)
  | .resume o => okOptV v o.d && okV v true o.vt && okV v false o.va
  | .drop o => okV v true o.vt
  | .brk _ => true
  | .srd o => (match o.form with | .uni _ i => i.val != 0 | .lti d => okV v true d)
  | .swr o => [5, 6, 7, 8, 9, 19, 21].contains o.idx.val
  | .tmrd _ => true
  | .add o => wfVArith v o
  | .sub o => wfVArith v o
  | .mul o => wfVArith v o
  | .mulh o => wfVBin v Tag.int o
  | .mad o => o.fa.int && okV v o.fa.pair o.d && okV v o.fa.pair o.a && okV v o.fa.pair o.b && okSrc32 v o.fa.pair o.c
  | .div o => wfVArith v o
  | .rem o => wfVBin v Tag.int o
  | .neg o => wfVArith1 v o
  | .abs o => wfVArith1 v o
  | .min o => wfVBin v Tag.int o
  | .max o => wfVBin v Tag.int o
  | .and o => wfVBin v Tag.int o
  | .or o => wfVBin v Tag.int o
  | .xor o => wfVBin v Tag.int o
  | .not o => wfVUn v Tag.int true o
  | .andn o => wfVBin v Tag.int o
  | .shl o => wfVShift v o
  | .shr o => wfVShift v o
  | .sar o => wfVShift v o
  | .rot o => wfVShift v o
  | .clz o => wfVUn v Tag.int false o
  | .ctz o => wfVUn v Tag.int false o
  | .popc o => wfVUn v Tag.int false o
  | .brev o => wfVUn v Tag.int true o
  | .bfe o => o.fa.int && okV v o.fa.pair o.d && okV v o.fa.pair o.a && okFld v o.fld
  | .bfi o => o.fa.int && okV v o.fa.pair o.d && okV v o.fa.pair o.a && okV v o.fa.pair o.b && okFld v o.fld
  | .cmp o => o.fa.int && okMD o.d && okV v o.fa.pair o.a && okV v o.fa.pair o.b
  | .sel o => o.fa.noTok && okV v o.fa.pair o.d && okV v o.fa.pair o.a && okV v o.fa.pair o.b
  | .mov o => wfVUn v Tag.noTok true o
  | .movi o => o.fa.cvtAny && okV v o.fa.pair o.d
  | .addc o => o.fa.int && okV v o.fa.pair o.d && okV v o.fa.pair o.a && okV v o.fa.pair o.b
  | .cvti o => o.tgt.int && o.tgt != .none && okV v o.tgt.pair o.d && okV v false o.a
  | .mand o => okMD o.d
  | .mor o => okMD o.d
  | .mxor o => okMD o.d
  | .mnot o => okMD o.d
  | .mandn o => okMD o.d
  | .mset o => okMD o.d
  | .mfrom o => okMD o.d && okV v false o.a
  | .mto o => okV v false o.d
  | .mcnt o => wfMCount o
  | .mfirst o => wfMCount o
  | .sadd _ => true
  | .ssub _ => true
  | .smul _ => true
  | .sdiv _ => true
  | .sand _ => true
  | .sor _ => true
  | .sxor _ => true
  | .sshl _ => true
  | .sshr _ => true
  | .ssar _ => true
  | .smin _ => true
  | .smax _ => true
  | .scmp _ => true
  | .ssel _ => true
  | .smov _ => true
  | .sli o => o.pos.val != 3 || o.imm.toNat < 2
  | .sbfe _ => true
  | .sclz _ => true
  | .spopc _ => true
  | .qop _ => true
  | .fadd o => wfFBin v o
  | .fsub o => wfFBin v o
  | .fmul o => wfFBin v o
  | .fma o => wfFMad v o
  | .fnma o => wfFMad v o
  | .fdiv o => wfFBin v o
  | .fsqrt o => wfFUn v o
  | .frcp o => wfVUn v Tag.float true o
  | .frsq o => wfVUn v Tag.float true o
  | .fmin o => wfVBin v Tag.float o
  | .fmax o => wfVBin v Tag.float o
  | .fabs o => wfVUn v Tag.float true o
  | .fneg o => wfVUn v Tag.float true o
  | .fcpsgn o => wfVBin v Tag.float o
  | .fcmp o => o.fa.float && okMD o.d && okV v o.fa.pair o.a && okV v o.fa.pair o.b &&
      (!o.el || (o.fa != .f32 && o.fa != .f64))
  | .fclass o => wfVUn v Tag.float false o
  | .frnd o => wfFUn v o
  | .fexpo o => wfVUn v Tag.wideFloat false o
  | .fscale o => o.fa.wideFloat && o.rnd.noSr && okV v o.fa.pair o.d && okV v o.fa.pair o.a && okV v false o.b
  | .fexp2 o => wfVUn v Tag.specFloat true o
  | .flog2 o => wfVUn v Tag.specFloat true o
  | .fsin o => wfVUn v Tag.specFloat true o
  | .fcos o => wfVUn v Tag.specFloat true o
  | .ftanh o => wfVUn v Tag.specFloat true o
  | .fcvt o => o.tgt.cvtFloat && okV v o.tgt.pair o.d && okV v false o.a
  | .fcvti o => o.tgt.cvtAny && o.rnd.noSr && okV v o.tgt.pair o.d && okV v false o.a
  | .fpack o => o.fa.wideFloat && o.rnd.noSr && okV v false o.d && okV v o.fa.pair o.a && okV v o.fa.pair o.b
  | .smxi o => wfSmx v o
  | .smxf o => wfSmx v o
  | .ld o => o.fa.noTok && okV v o.fa.pair o.d && okAddr v o.addr && okSub o.fa o.sub
  | .st o => o.fa.noTok && okV v o.fa.pair o.src && okAddr v o.addr && okSub o.fa o.sub && okSubRule o.sub o.rule &&
      okLand o.land
  | .ldu o => !o.sx || o.wid.val != 0
  | .claim o => o.fa.upto7 && okV v o.fa.pair o.src && okAddr v o.addr && okV v o.fa.pair o.res
  | .pf o => okAddr v o.addr
  | .ldt o => o.fa.noTok && okV v o.fa.pair o.d && okAddr v o.addr &&
      o.d.val + (o.n1.val + 1) * (if o.fa.pair then 2 else 1) ≤ v
  | .vget o => o.fa.noTok && okV v o.fa.pair o.d && okV v o.fa.pair o.a && !(o.z && o.add) &&
      (match o.mode with | .idx b => okV v false b | _ => true)
  | .vpost o => o.fa.noTok && okV v o.fa.pair o.d && okV v o.fa.pair o.a &&
      (match o.mode with | .idx b => okV v false b | _ => true)
  | .vbcast o => o.fa.noTok && okV v o.fa.pair o.d && okV v o.fa.pair o.a
  | .vlti o => okV v (o.part.val == 0) o.d
  | .vslot o => okV v false o.d
  | .vred o => (o.fa.upto7 || o.fa == .f16x2) && okVOrU v o.fa.pair o.d && okV v o.fa.pair o.a
  | .vscan o => (o.fa.upto7 || o.fa == .f16x2) && okV v o.fa.pair o.d && okV v o.fa.pair o.a
  | .vargmin o => o.fa.upto7 && o.fa != .bf16x2 && okVOrU v false o.d && okV v o.fa.pair o.a
  | .vargmax o => o.fa.upto7 && o.fa != .bf16x2 && okVOrU v false o.d && okV v o.fa.pair o.a
  | .vballot o => okMD o.d && okV v false o.a
  | .vpopc o => okV v false o.d
  | .vfirst o => okV v false o.d
  | .vcompact o => o.fa.noTok && okV v o.fa.pair o.d && okV v o.fa.pair o.a
  | .vsort o => (o.fa == .none || o.fa == .i32 || o.fa == .n32 || o.fa == .f32) && okV v false o.dk &&
      okV v false o.dv && okV v false o.ak && okV v false o.av
  | .step _ => true
  | .cpy o => okCopyFa o.fa o.rule && okLand o.land
  | .cpyg o => wfCpyIx o
  | .cpys o => wfCpyIx o
  | .cpy2d o => okCopyFa o.fa o.rule && okLand o.land && o.len.toNat != 0 && o.len.toNat % 4 == 0
  | .cpyf o => okCopyFa o.fa o.rule && okLand o.land
  | .mcast o => okCopyFa o.fa o.rule && okLand o.land
  | .mshape _ => true
  | .mwin _ => true
  | .mzero _ => true
  | .mmul o => wfMProd v 4 9 o
  | .mloop o => wfMProd v 6 12 o
  | .mrd o => (o.fa == .i32 || o.fa == .n32 || o.fa == .f32) && o.d.val + o.n1.val < v && okAddr v o.addr
  | .mwr o => (o.fa == .none || o.fa == .i32 || o.fa == .n32 || o.fa == .f32) && o.src.val + o.n1.val < v &&
      okAddr v o.addr && okLand o.land
  | .mcomp o => (o.fa == .none || o.fa == .k8tx4 || o.fa == .i8x4) && okV v false o.d && okV v false o.c &&
      o.a.val + 1 < v && o.c != o.d
  | .msplit o => o.desc.val + 6 ≤ 96 && okLand o.land
  | .mrecomb o => o.desc.val + 5 ≤ 96 && okLand o.land
  | .xbind o => okV v false o.base && okV v false o.cen
  | .xclr _ => true
  | .xmov _ => true
  | .xform o => okV v false o.a
  | .xshift _ => true
  | .xconv _ => true
  | .xlshift _ => true
  | .xeval o => okV v false o.d && okV v false o.b
  | .xdirect o => okAddr v o.addr && okV v false o.cnt &&
      o.d.val + 4 * (if o.f64 then 2 else 1) ≤ v && o.tgt.val + 3 * (if o.f64 then 2 else 1) ≤ v &&
      (!o.f64 || (o.d.val % 2 == 0 && o.tgt.val % 2 == 0))
  | .xadm o => okMD o.d && okV v false o.c
  | .wapp o => o.item.val + 3 < v && okWDst v o.dst
  | .wcnt o => okV v false o.d && okWDst v o.dst
  | .teamPromotion _ => true
  | .valueArrival _ _ => true
  | .asyncTrapDelivery _ => true
  | .supervisorPageResolve _ _ _ => true
  | .formFullKey _ => true
  | .formAtQuiescence _ => true
  | .rejoinTimeout _ _ => true
  | .groupDeadlock _ => true
  | .spawnMoveWait _ => true
  | .coreStepPoint _ => true
  | .clusterStepPoint _ => true
  | .engineCommandStart _ _ => true
  | .patrolScrub _ _ _ => true
  | .hbmPatrolScrub _ => true
  | .eccUncorrectable _ => true
  | .lineRequestInject _ _ => true
  | .packetRoute _ _ => true
  | .lineRead _ => true
  | .lineResponse _ => true
  | .landingWrite _ => true
  | .writeAck _ => true
  | .multicastWrite _ _ => true
  | .multicastForkResume _ _ => true
  | .pageWalk => true
  | .priResponse _ _ => true
  | .flitCrcError _ _ => true
  | .linkFailure _ _ => true
  | .groupPlacement _ => true
  | .stealRequest _ => true
  | .groupEnd _ => true
  | .phaseCommit _ _ => true
  | .launchNode _ => true
  | .forkNode _ => true
  | .joinNode _ => true
  | .condNode _ => true
  | .whileNode _ => true
  | .signalNode _ => true
  | .awaitNode _ => true
  | .awaitPoll _ => true
  | .endNode _ => true
  | .preemptThreshold _ => true
  | .flagFall _ => true
  | .faultReport _ => true
  | .eventOverflow => true
  | .bar2Read _ _ _ => true
  | .bar2Write _ _ _ => true
  | .registerWrite _ _ _ _ => true
  | .gstatRead _ => true
  | .start _ _ => true
  | .kick _ => true
  | .cmdHalt _ => true
  | .cmdResume _ => true
  | .cmdAbort _ => true
  | .cmdPreempt _ => true
  | .cmdInvalidate _ => true
  | .cmdReplayOn _ => true
  | .cmdReplayOff _ => true
  | .attestSubmit => true
  | .peerAttestRequest _ _ => true
  | .attestReportDone _ => true
  | .reset => true
  | .powerInterval _ _ => true
  | .thermalThrottle _ _ => true
  | .thermalCritical _ => true
  | .thermalRecovery => true
  | .fabricForward _ _ => true
  | .fabricLinkFailure _ => true
  | .domainRendezvous _ _ => true
  | .domainRendezvousTimeout _ => true
  | .domainVote _ _ _ => true
  | .domainDecision _ => true
  | .domainDecisionReceipt _ _ => true
  | .domainRelease _ => true
  | .engineCommandFinished _ _ => true
  | .hostInReadCompletion _ _ => true
  | .atsTranslationResponse _ _ => true
  | .powerLoss => true

end Sys2Proof
end

