-- ==== Sys2Proof/Machine/Fetch.lean ====
section
/-! DEFINITION. Fetching the instruction at a team's program counter (R41, R42, R53, R55), and what precedes its issue. -/
namespace Sys2Proof.Machine

/-- What a fetch finds. -/
inductive Fetched where
  | instr (i : Instr)
  /-- an effect in every live slot, with the length by which the program counter would have advanced -/
  | raises (id : Nat) (payload : DWord) (len : Nat)
  | malformed (level : Nat)
  /-- the code lies in a host page whose translation is not there yet (R426) -/
  | waits (page : Nat)
  /-- the line of the word lies in another package and has not come yet (R442) -/
  | far (key : Nat)
  /-- the word lies in a bad HBM4 sector, at a physical address (R377) -/
  | bad (sector pa : Nat)
  deriving DecidableEq, Repr

/-- The payload of `e.fetch` and `e.ill` (R53). -/
def fetchPayload (reason : Nat) (pc : DWord) : DWord := pc <<< 8 ||| BitVec.ofNat 64 reason

/-- Bytes of a page that holds code: of device memory as it stood at the start of the core's phase (R41), or of host memory, as it
stands now, for a HOST-IN page (log 29). -/
def State.codeBytes (s : State) (core : Nat) (p : DWord) (va n : Nat) : List Byte :=
  if pteScope p = 4 then readBytes s.host ((s.hostPage (ptePa p va / 2 ^ 16)).getD 0 * 2 ^ 16 + ptePa p va % 2 ^ 16) n
  else readBytes (s.baseOf core) (s.devKey p (ptePa p va)) n

/-- R53 on the word at an address: the checks in their order; 4 bytes before a boundary every length crosses it. A pc outside the
virtual range has no executable page (DEDUCED, log 12); of the page the check names X alone (log 29). -/
def State.fetch (s : State) (core : Nat) (vregs : Nat) (pc : DWord) : Fetched :=
  let c := s.core core
  if pc.toNat % 4 ≠ 0 then .raises 2 (fetchPayload 1 pc) 0
  else if pc.toNat % 32 = 28 then .raises 2 (fetchPayload 2 pc) 0
  else if pc.toNat / 2 ^ 52 ≠ 0 then .raises 2 (fetchPayload 3 pc) 0
  else match s.translate core pc.toNat with
    | .miss => .raises 6 pc 0
    | .malformed lv => .malformed lv
    | .bad b => .bad b (b * 64)
    | .leaf p =>
      if !s.paOk c.ctx p (ptePa p pc.toNat) then .malformed (if pteSz p = 2 then 1 else 0)
      else if pteScope p = 4 ∧ (s.hostPage (ptePa p pc.toNat / 2 ^ 16)).isNone then .waits (ptePa p pc.toNat / 2 ^ 16)
      else if !s.farKnown core p (ptePa p pc.toNat) 1 then .far (s.devKey p (ptePa p pc.toNat))
      else match s.badRead (.page p (ptePa p pc.toNat)) 1 with
      | some b => .bad b.1 b.2
      | none =>
        let len := wordLen (leNat (s.codeBytes core p pc.toNat 1))
        if pc.toNat % 32 + len > 32 then .raises 2 (fetchPayload 2 pc) 0
        else if !pteX p then .raises 2 (fetchPayload 3 pc) 0
        else match decode vregs (leNat (s.codeBytes core p pc.toNat len)) with
          | .ok i => .instr i
          | .error e => .raises 1 (fetchPayload e.code pc) len

/-- The accesses that the 16 entries of the operand log hold (R171). Those behind them wait for an entry, and the team with them
(log 34). -/
def Team.logged (t : Team) : List LogE := t.log.take 16

/-- Whether a trap's accesses have entries. -/
def Trap.entered (t : Team) (x : Trap) : Bool :=
  match x.act with
  | .access ks => t.logged.any fun e => ks.contains e.key
  | _ => true

/-- The traps that the next asynchronous delivery takes: those of the oldest instruction that has any in live slots, once
the previous delivery is over, by its handlers or by the supervisor (R239). -/
def Team.dueTraps (t : Team) : List Trap :=
  if !t.serving.isEmpty || t.traps.any fun x => x.sup then []
  else
    let l := t.traps.filter fun x => t.ltis.contains x.lti && (t.log.length ≤ 16 || x.entered t)
    match l with
    | [] => []
    | x :: r =>
      let n := r.foldl (fun n y => Nat.min n y.stamp) x.stamp
      l.filter fun y => y.stamp == n

/-- What the continuation of one slot does first, for all its traps of one delivery. -/
def mergeActs (l : List Trap) : TrapAct :=
  match l with
  | [] => .nothing
  | x :: _ =>
    match x.act with
    | .access _ => .access (l.flatMap fun y => match y.act with | .access ks => ks | _ => [])
    | a => a

/-- R239: the oldest queued traps of a team are delivered, the previous delivery being over. A translation fault that no
handler matches goes to the supervisor and waits there (R171, R240); a slot taken from a wait at `step` comes back to
it. -/
def State.deliverTraps (s : State) (k : Nat) : State :=
  let t := s.team k
  let now := t.dueTraps
  let lost := now.filter fun x => x.eff == 6 && (matchH t.h 6).isNone
  if now.isEmpty || !t.raised.isEmpty then s
  else if !lost.isEmpty then
    s.setTeam k { t with traps := t.traps.map fun x => if lost.contains x then { x with sup := true } else x }
  else
    let took := now.filter fun x => now.all fun y => y.lti != x.lti || x.eff ≤ y.eff
    let rs := (t.lanes t.live).filterMap fun i =>
      let mine := took.filter fun x => x.lti == t.lti i
      mine.head?.map fun x =>
        ({ slot := i, eff := x.eff, payload := x.payload, site := t.pc, pc := t.pc,
           dst := match x.act with | .land d => d | _ => .drop, act := mergeActs mine, perf := none } : Raised)
    let t := { t with traps := t.traps.filter fun x => !took.contains x, raised := rs, serving := rs.map fun r => t.lti r.slot }
    (s.setTeam k t).deliver k

/-- A cluster whose report the die's full FIFO has not taken stalls its groups (R397). -/
def State.holdsReport (s : State) (cl : Nat) : Bool :=
  (s.die (cl / 8)).heldReports.any fun r => r.holder == some cl

/-- Accesses of an instruction wait for entries of the log, which the supervisor will free (R171). -/
def Team.logWaits (t : Team) : Bool := 16 < t.log.length && t.serving.isEmpty

/-- Whether a team may issue: it is resident with a live slot, waits for nothing, and its core group is not halted. -/
def State.runnable (s : State) (k : Nat) : Bool :=
  let t := s.team k
  t.resident && t.live != 0 && t.wait == .run && !(s.core (coreOf k)).halted && !s.holdsReport (clusterOf (coreOf k))

/-- What comes before a team's instruction: effects not yet taken, queued traps, accesses without an entry (R171, R238, R239, R248). -/
def State.busy (s : State) (k : Nat) : Bool :=
  let t := s.team k
  !t.raised.isEmpty || !t.dueTraps.isEmpty || t.logWaits

/-- A fetch that raises, in every live slot, whatever MSK holds (R55). -/
def State.fetchRaises (s : State) (k : Nat) (id : Nat) (payload : DWord) (len : Nat) : State :=
  let t := s.team k
  let rs := (t.lanes t.live).map fun i => t.raises len .drop i (id, payload)
  (s.setTeam k { t with pc := t.pc + BitVec.ofNat 64 len, raised := rs }).deliver k

/-- A malformed table stops the team; the supervisor discards the phase (R374). -/
def State.fetchMalformed (s : State) (k : Nat) (level : Nat) : State :=
  let t := s.team k
  (s.malformed (coreOf k) t.pc level).setTeam k { t with wait := .sup }

/-- The bytes of an instruction word of `nbits` bits, up to the longest instruction. -/
def wordBytes (nbits w : Nat) : List Byte := leBytes 16 (w % 2 ^ nbits)

/-- A leaf for code in package memory (log 13). -/
def codeLeaf (frame : Nat) : DWord := BitVec.ofNat 64 (frame * 2 ^ 16 + 2 * 2 ^ 10 + 2 * 2 ^ 4 + 4 + 1)

/-- A pointer to a table. -/
def tablePtr (frame : Nat) : DWord := BitVec.ofNat 64 (frame * 2 ^ 16 + 1)

/-- The launch of a program that system software has placed: one thread in one team of 32 slots, package level. -/
def placedLaunch : Launch := { Launch.none with spawn := 64, loc := 2 ^ 21, spill := 8, det := 1 }

def placedTeam : Team :=
  { Team.vacant with resident := true, cap := 32, remap := [(0, 0)], spill := 8 }.setM 0 1

def placedPhase : Phase :=
  { num := 1, level := .package, die := none, branches := [{ br := 0, l := placedLaunch, ng := 1 }], queues := [], running := 1,
    writes := [], items := [], psw := 0, reads := [], base := [], known := [], spillAccs := [], spillLines := [], spillItems := 0 }

def placedGroup : Group := { ctx := 0, phase := 1, level := .package, br := 0, clg := 0, l := placedLaunch }

/-- A program's code, at virtual address 0 of context 0 in frame 5 under tables in frames 1 to 4, ready to be fetched: the
launch that the model gives an instruction that is placed from outside (log 13). -/
def State.placed (s : State) (bytes : List Byte) : State :=
  let m := write64 (write64 (write64 (write64 s.mem 0x10000 (tablePtr 2)) 0x20000 (tablePtr 3)) 0x30000 (tablePtr 4)) 0x40000 (codeLeaf 5)
  let m := writeBytes m 0x50000 bytes
  let s := { s with cur := 0, mem := m, agenda := [.issue 0], ctl := { s.ctl with state := 5, bring := none } }
  let s := s.setCtx 0 { Ctx.unset with rootpt := 1, cstate := .running, nextPhase := 2, phases := [{ placedPhase with base := m }],
                                       drain := BitVec.allOnes 32, spillUnits := 16, scoreUnits := 16 }
  let s := (s.setCore 0 { CoreSt.idle with grp := some placedGroup, ages := 1 }).setCluster 0 { ClusterSt.idle with grp := some placedGroup }
  s.setTeam 0 placedTeam

/-- The device key of the bytes at a team's program counter, where they are fetched from device memory and form the start
of a fetch block. -/
def State.fetchKey (s : State) (k : Nat) : Option Nat :=
  let t := s.team k
  let c := s.core (coreOf k)
  if s.runnable k && !s.busy k && t.pc.toNat % 32 == 0 && t.pc.toNat / 2 ^ 52 == 0 then
    match s.translate (coreOf k) t.pc.toNat with
    | .leaf p =>
      let a := s.devKey p (ptePa p t.pc.toNat)
      if s.paOk c.ctx p (ptePa p t.pc.toNat) && pteX p && pteScope p != 4 && s.farKnown (coreOf k) p (ptePa p t.pc.toNat) 1 &&
          !s.badSectors.contains (a / 64) then some a
      else none
    | _ => none
  else none

/-- Whether a word is an instruction's and not an event's. -/
def isEvent (i : Instr) : Bool := !i.isWord

end Sys2Proof.Machine
end

