-- ==== Sys2Proof/Machine/Log.lean ====
section
/-! DEFINITION. Loads and the operand log: what a read finds (R159 to R161), pending results (R77), logged accesses and the
traps that they queue (R171, R172, R239). -/
namespace Sys2Proof.Machine

/-! ## Reads -/

/-- What a read of one element finds. -/
inductive Got where
  | val (x : DWord)
  /-- a host page, at a bus address (R426) -/
  | host (bus : Nat)
  /-- a page of another package, at a device key whose line has not come yet (R442) -/
  | far (key : Nat)
  | miss
  /-- `e.scope`, with its reason -/
  | fails (reason : Nat)
  | broken (level : Nat)
  /-- an HBM4 sector that cannot be corrected (R377), and the physical address there -/
  | bad (sector pa : Nat)
  deriving DecidableEq, Repr

/-- A loaded value: little-endian bytes, extended to 64 bits. -/
def loadVal (width : Nat) (sx : Bool) (b : List Byte) : DWord :=
  if sx then (BitVec.ofNat (8 * width) (leNat b)).signExtend 64 else BitVec.ofNat 64 (leNat b)

def State.gotRead (s : State) (core : Nat) (lti : DWord) (align width : Nat) (sx : Bool) (a : DWord) : Got :=
  match s.find core false align a width .read with
  | .scope r => .fails r
  | .miss => .miss
  | .malformed lv => .broken lv
  | .bad b => .bad b (b * 64)
  | .here p =>
    match p with
    | .page pte pa =>
      if pteScope pte = 4 then .host pa
      else if !s.farKnown core pte pa width then .far (s.devKey pte pa)
      else match s.badRead p width with
        | some b => .bad b.1 b.2
        | none => .val (loadVal width sx (s.readSpot core lti p width))
    | _ => .val (loadVal width sx (s.readSpot core lti p width))

/-- The line of a byte of device memory, and the node that serves it. -/
def State.lineAt (s : State) (core : Nat) (a : DWord) : Option (NetNode × Nat) :=
  if a.toNat / 2 ^ 52 ≠ 0 then none
  else match s.translate core a.toNat with
    | .leaf p =>
      let pa := ptePa p a.toNat
      if pteScope p = 1 ∨ pteScope p = 2 ∨ pteScope p = 3 then some (s.nodeFor p (s.devKey p pa), s.devKey p pa / 128)
      else none
    | _ => none

/-- Lines in ascending address. -/
def insLine (x : Nat × NetNode × Nat) : List (Nat × NetNode × Nat) → List (Nat × NetNode × Nat)
  | [] => [x]
  | y :: r => if x.2.2 < y.2.2 then x :: y :: r else y :: insLine x r

/-- R416: the line requests of an instruction's reads: pending results with the addresses that they read. -/
def State.askFor (s : State) (core part : Nat) (l : List (Nat × DWord)) : State :=
  ((l.filterMap fun e => (s.lineAt core e.2).map fun x => (e.1, x.1, x.2)).foldl (fun a x => insLine x a) []).foldl
    (fun s x => s.askLine core part x.2.1 x.2.2 x.1) (l.foldl (fun s e => s.touch core e.2) s)

/-- R416: whether line requests of earlier instructions of a partition wait at its interface. Until they are in the network, no later
instruction of the partition reads or writes a page. -/
def State.linesWait (s : State) (core part : Nat) : Bool := ((s.core core).reqs.get [] part).any fun r => !r.sent

/-- Whether an address is a page's (Table 7-1). -/
def inPage (a : DWord) : Bool := a.toNat / 2 ^ 52 == 0

/-- A team whose access cannot be served stops; the supervisor discards its phase. -/
def State.stopTeam (s : State) (k : Nat) : State := s.setTeam k { s.team k with wait := .sup }

/-- Reports a malformed table or a bad sector, and stops the team. -/
def State.broken (s : State) (k : Nat) (a : DWord) (g : Got) : State :=
  match g with
  | .broken lv => (s.malformed (coreOf k) a lv).stopTeam k
  | .bad b pa => (s.badSector (coreOf k) b pa).stopTeam k
  | _ => s

def Got.isMiss : Got → Bool
  | .miss => true
  | _ => false

/-- What is read as a line of device memory. -/
def Got.lineRead : Got → Bool
  | .val _ => true
  | .far _ => true
  | _ => false

/-- A malformed table or a bad sector. -/
def Got.stops : Got → Bool
  | .broken _ => true
  | .bad _ _ => true
  | _ => false

def Got.reason : Got → Option Nat
  | .fails r => some r
  | _ => none

/-! ## The log -/

/-- Logs an access that missed and queues its fault for the slots that made it (R171, R239). -/
def Team.logAccess (t : Team) (clock stamp : Nat) (ltis : List DWord) (a : DWord) (op : LogOp) : Team :=
  let key := clock * 2 ^ 40 + t.log.length
  { t with
    log := t.log ++ [{ key := key, stamp := stamp, ltis := ltis, addr := a, op := op }]
    traps := t.traps ++ ltis.map fun l =>
      { stamp := stamp, eff := 6, lti := l, payload := a, act := .access [key], sup := false } }

/-- R171: whether a memory instruction that needs the log must wait. -/
def Team.logFull (t : Team) (need : Bool) : Bool := need && 16 ≤ t.log.length

/-- Accesses that missed, logged in order. -/
def Team.logAll (t : Team) (clock stamp : Nat) (l : List (DWord × DWord × LogOp)) : Team :=
  l.foldl (fun t e => t.logAccess clock stamp [e.1] e.2.1 e.2.2) t

/-! ## Pending results -/

/-- Identifiers of the pending results of one instruction. -/
def State.pendId (s : State) (j : Nat) : Nat := s.seq * 64 + j

/-- The instruction that made a result pending. -/
def stampOf (id : Nat) : Nat := id / 64

/-- The registers of a destination. -/
def dstsOf (d : Nat) (wide : Bool) : List PDst :=
  if wide then [.vec (Fin.ofNat 1024 d) false, .vec (Fin.ofNat 1024 (d + 1)) true] else [.vec (Fin.ofNat 1024 d) false]

def Pend.make (id : Nat) (dst : PDst) (await : Await) (vals : List (DWord × DWord)) (out : List DWord) : Pend :=
  { id := id, src := .mem, dst := dst, await := await, vals := vals, out := out, gone := [], kept := true, owed := [], fen := 0,
    vst := 0 }

/-- The pending results of a register that is loaded in some threads: each with its address and what was found there. -/
def loadPends (id d : Nat) (wide : Bool) (width : Nat) (sx : Bool) (l : List (DWord × DWord × Got)) : List Pend :=
  let vals := l.filterMap fun x => match x.2.2 with | .val v => some (x.1, v) | _ => none
  let hosts := l.filterMap fun x => match x.2.2 with | .host b => some (x.1, BitVec.ofNat 64 b) | _ => none
  let vas := l.filterMap fun x => match x.2.2 with | .host _ => some (x.1, x.2.1) | _ => none
  let fars := l.filterMap fun x => match x.2.2 with | .far k => some (x.1, BitVec.ofNat 64 k) | _ => none
  let out := (l.filter fun x => x.2.2.isMiss).map fun x => x.1
  ((dstsOf d wide).flatMap fun dst =>
    [Pend.make id dst .timed vals out, { Pend.make id dst (.hostIn width sx) hosts [] with va := vas },
     Pend.make id dst (.remote width sx) fars []]).filter Pend.live

/-- Host pages that reads need. -/
def State.askPages (s : State) (l : List Got) : State :=
  l.foldl (fun s g => match g with | .host b => s.askAts (b / 2 ^ 16) | _ => s) s

/-! ## Loads (R174, R179) -/

/-- One register of a load: its number, and by slot the address and what was found. -/
structure LoadReg where
  id : Nat
  d : Nat
  got : List (Nat × DWord × Got)
  deriving Repr

/-- Loads of consecutive elements into registers. `f` tags them; `width` bytes are read for each. -/
def State.loads (s : State) (len : Nat) (msk : MReg) (m : Addr) (f : Tag) (regs : List Nat) (width : Nat) (sx : Bool) : State :=
  let t := s.tm
  let core := coreOf s.cur
  let wide := f.pair
  s.guarded len msk (.ok f) (fun _ => Addr.vrefs m) (Addr.urefs m) (fun _ => refs wide regs) fun _ act =>
    let rs : List LoadReg := regs.zipIdx.map fun r =>
      { id := s.pendId r.2, d := r.1
        got := act.map fun i =>
          let a := t.addrOf m i + BitVec.ofNat 64 (width * r.2)
          (i, a, s.gotRead core (t.lti i) width width sx a) }
    let all := rs.flatMap LoadReg.got
    if t.logFull (all.any fun x => x.2.2.isMiss) || ((all.any fun x => inPage x.2.1) && s.linesWait core t.part) then s.stall
    else
      let eff (i : Nat) : Option (Nat × DWord) :=
        (all.find? fun x => x.1 == i && x.2.2.reason.isSome).map fun x => (7, scopePayload (x.2.2.reason.getD 0) x.2.1)
      let pends := rs.flatMap fun r => loadPends r.id r.d wide width sx (r.got.map fun x => (t.lti x.1, x.2.1, x.2.2))
      let misses := rs.flatMap fun r => (r.got.filter fun x => x.2.2.isMiss).map fun x =>
        (t.lti x.1, x.2.1, LogOp.load r.id width sx)
      let found := rs.flatMap fun r => (r.got.filter fun x => x.2.2.lineRead).map fun x => (r.id, x.2.1)
      let u := ((((s.askPages (all.map fun x => x.2.2)).finish
        { len := len, outs := act.map fun i => (i, { eff := eff i }), tags := regs.map fun r => (Fin.ofNat 1024 r, f)
          always := fun u => Team.logAll { u with pend := u.pend ++ pends } s.clock s.seq misses })).askFor core t.part found
        ).touchAll core (s.translated core width width .read (all.map fun x => x.2.1))
      match all.find? fun x => x.2.2.stops with
      | some x => u.broken s.cur x.2.1 x.2.2
      | none => u

/-- A uniform load (R176): one access for the team, made by the thread of lowest LTI. -/
def State.loadUni (s : State) (len : Nat) (msk : MReg) (d : UReg) (base : Option UReg) (off : BitVec 32) (width : Nat)
    (sx : Bool) : State :=
  let t := s.tm
  let a := t.baseOf base + off.signExtend 64
  let id := s.pendId 0
  s.guarded len msk (.ok .none) (fun _ => []) base.toList (fun _ => []) fun _ act =>
    let lti := t.lti (act.headD 0)
    let g := s.gotRead (coreOf s.cur) lti width width sx a
    let on (p : Pend) : Team :=
      { (t.supersedeU d) with pc := t.pc + BitVec.ofNat 64 len, pend := (t.supersedeU d).pend ++ [p] }
    let seen (u : State) : State := u.touchAll (coreOf s.cur) (s.translated (coreOf s.cur) width width .read [a])
    if inPage a && s.linesWait (coreOf s.cur) t.part then s.stall
    else match g with
    | .fails r => seen (s.raiseIn len act 7 (scopePayload r a))
    | .val x => (s.putTm (on (Pend.make id (.uni d) .timed [(0, x)] []))).askFor (coreOf s.cur) t.part [(id, a)]
    | .host b =>
      seen ((s.putTm (on { Pend.make id (.uni d) (.hostIn width sx) [(0, BitVec.ofNat 64 b)] [] with va := [(0, a)] })).askAts (b / 2 ^ 16))
    | .far k =>
      (s.putTm (on (Pend.make id (.uni d) (.remote width sx) [(0, BitVec.ofNat 64 k)] []))).askFor (coreOf s.cur) t.part [(id, a)]
    | .miss =>
      if t.logFull true then s.stall
      else seen (s.putTm ((on (Pend.make id (.uni d) .timed [] [0])).logAccess s.clock s.seq (act.map t.lti) a (.uload id width sx)))
    | g => seen (s.broken s.cur a g)

/-! ## Answers to logged accesses -/

/-- The team without a logged access. -/
def Team.unlog (t : Team) (key : Nat) : Team := { t with log := t.log.filter fun e => e.key != key }

/-- A pending result's threads among those of an access. -/
def owedBy (p : Pend) (ltis : List DWord) : List DWord :=
  match p.dst with
  | .uni _ => [0]
  | .vec _ _ => ltis

/-- A value has come for the threads of an access (R172, R450). -/
def answer (id : Nat) (ltis : List DWord) (x : DWord) (l : List Pend) : List Pend :=
  l.map fun p =>
    if p.id == id && p.await == Await.timed then
      let l := (owedBy p ltis).filter fun y => p.out.contains y
      { p with vals := p.vals ++ l.map fun y => (y, x), out := p.out.filter fun y => !l.contains y }
    else p

/-- A read of host memory, or of another package's page, takes the place of a logged access; `at'` is its address there. -/
def answerLater (id : Nat) (ltis : List DWord) (await : Await) (at' : Nat) (va : DWord) (l : List Pend) : List Pend :=
  let new := (l.filter fun p => p.id == id && p.await == Await.timed).map fun p =>
    { p with await := await, out := []
             vals := ((owedBy p ltis).filter fun y => p.out.contains y).map fun y => (y, BitVec.ofNat 64 at')
             va := (owedBy p ltis).map fun y => (y, va) }
  let old := l.map fun p =>
    if p.id == id && p.await == Await.timed then { p with out := p.out.filter fun y => !(owedBy p ltis).contains y } else p
  (old ++ new).filter Pend.live

/-- The access of some threads is withdrawn: no value will come for them (R450, R451). -/
def withdraw (id : Nat) (ltis : List DWord) (l : List Pend) : List Pend :=
  (l.map fun p =>
    if p.id == id then
      { p with out := p.out.filter fun y => !(owedBy p ltis).contains y, gone := p.gone.filter fun y => !ltis.contains y }
    else p).filter Pend.live

/-- A mark of a record. The exceptions of a result are delivered once, by the team where it holds the thread's result too. -/
def Team.markOf (t : Team) (lti : DWord) (m : Pend) : Pend :=
  if t.pend.any fun p => p.id == m.id && (p.threads ++ p.gone).contains lti then { m with owed := [] } else m

/-- The same happens to the pending results of a team and to the marks that records of its core hold (R450). -/
def State.settlePends (s : State) (k : Nat) (t : Team) (f : List Pend → List Pend) : State :=
  let c := s.core (coreOf k)
  (s.setCore (coreOf k) { c with recs := c.recs.map fun r => { r with marks := (f r.marks).map (t.markOf r.lti) } }).setTeam k
    { t with pend := f t.pend }

/-- A re-issued access failed a rule: its slots receive `e.scope` asynchronously (R171, R239). -/
def Team.scopeTraps (t : Team) (stamp : Nat) (ltis : List DWord) (reason : Nat) (a : DWord) : Team :=
  { t with traps := t.traps ++ ltis.map fun l =>
      { stamp := stamp, eff := 7, lti := l, payload := scopePayload reason a, act := .scope, sup := false } }

/-- A logged access misses at another of its addresses. -/
def Team.readdress (t : Team) (key : Nat) (a : DWord) : Team :=
  { t with log := t.log.map fun e => if e.key == key then { e with addr := a } else e }

/-- The fault of a logged access is queued again: its page is still not there. -/
def Team.faultAgain (t : Team) (e : LogE) : Team :=
  { t with traps := t.traps ++ e.ltis.map fun l =>
      { stamp := e.stamp, eff := 6, lti := l, payload := e.addr, act := .access [e.key], sup := false } }

end Sys2Proof.Machine
end

