-- ==== Sys2Proof/Machine/Collect.lean ====
section
/-! DEFINITION. Collectives: reductions, scans, arguments, votes, compaction and sorting (10, R208 to R222). -/
namespace Sys2Proof.Machine

/-! ## Combining (R211, R212) -/

/-- The bits of `%vstat` (Table 10-3). -/
def vEmpty : BitVec 3 := 1
def vIovf : BitVec 3 := 2
def vAllNan : BitVec 3 := 4

/-- The result of a collective, its exceptions and its `%vstat` bits. -/
structure Combined where
  val : DWord
  fl : BitVec 6
  vst : BitVec 3
  deriving Repr

/-- Formats of an operation (Table 10-4). -/
def RedOp.accepts : RedOp → Tag → Bool
  | .add, f => isSummed f
  | .min, f => isInt4 f || isFlt4 f
  | .max, f => isInt4 f || isFlt4 f
  | _, f => isInt4 f

/-- The same value in each element of a packed format. -/
def everyElem (f : Tag) (n : Nat) : DWord := (List.range (elemCount f)).foldl (fun a k => putElem f a k n) 0

/-- The identity of an operation (Table 10-4). -/
def RedOp.identity (op : RedOp) (f : Tag) : DWord :=
  match op with
  | .add | .or | .xor => 0
  | .and => ofPat f (2 ^ f.width - 1)
  | .min => if isInt4 f then BitVec.ofInt 64 f.hi else everyElem f (ieeeOf f).inf
  | .max =>
    if isInt4 f then ofPat f (BitVec.ofInt 64 f.lo).toNat
    else everyElem f ((ieeeOf f).signBit true + (ieeeOf f).inf)

/-- R104: the least or greatest of float patterns in LTI order, with exceptions and whether all are NaN. -/
def fBest (F : Ieee) (mx : Bool) (l : List Nat) : Nat × BitVec 6 × Bool :=
  let sn : BitVec 6 := if l.any fun x => (F.val x).isSig then flSN else 0
  match l.filter fun x => !(F.val x).isNan with
  | [] => (match l with | x :: _ => F.quiet (F.val x) | [] => 0, sn, true)
  | x :: r =>
    (r.foldl (fun b y => if mx then (if (F.val y).le (F.val b) then b else y) else (if (F.val b).le (F.val y) then b else y)) x, sn, false)

/-- R212: combine(OP, list), the list in LTI order. -/
def RedOp.combine (op : RedOp) (f : Tag) (l : List DWord) : Combined :=
  if l.isEmpty then { val := RedOp.identity op f, fl := 0, vst := 0 }
  else
    let best (mx : Bool) : Combined :=
      if isInt4 f then
        let v := match l.map f.ext with
          | [] => 0
          | x :: r => r.foldl (fun b y => if mx then max b y else min b y) x
        { val := (f.narrow false v).1, fl := 0, vst := 0 }
      else (List.range (elemCount f)).foldl (fun (a : Combined) k =>
        let r := fBest (ieeeOf f) mx (l.map fun v => getElem' f v k)
        { val := putElem f a.val k r.1, fl := a.fl ||| r.2.1, vst := if r.2.2 then vAllNan else a.vst }) { val := 0, fl := 0, vst := 0 }
    let bits (g : DWord → DWord → DWord) (e : DWord) : Combined := { val := l.foldl g e, fl := 0, vst := 0 }
    match op with
    | .add =>
      let r := sumTag f l
      { val := r.1, fl := r.2.1, vst := if r.2.2 then vIovf else 0 }
    | .min => best false
    | .max => best true
    | .and => bits (fun x y => x &&& y) (BitVec.allOnes 64)
    | .or => bits (fun x y => x ||| y) 0
    | .xor => bits (fun x y => x ^^^ y) 0

/-- R213: a result as a uniform register takes it. -/
def toUniform (f : Tag) (x : DWord) : DWord :=
  if f.pair then x
  else if f = .i32 then (x.setWidth 32).signExtend 64
  else (x.setWidth 32).setWidth 64

/-! ## Shared ends -/

/-- The condition bit of QE. -/
def Team.setQE (t : Team) (q : Option QReg) (b : Bool) : Team := match q with | some q => t.setQ q b | none => t

/-- A collective without an active slot (R216). -/
def State.noneActive (s : State) (len : Nat) (vst : BitVec 3) (q : Option QReg) (b : Bool) (u : Option (UReg × DWord)) : State :=
  let t := s.tm
  let t := { t.setQE q b with pc := t.pc + BitVec.ofNat 64 len, vstat := t.vstat ||| vst }
  s.putTm (match u with | some (d, x) => t.putS d x | none => t)

/-- A uniform destination becomes pending; its exceptions and status bits are owed until it arrives (R213, R214). -/
def Team.pendU (t : Team) (id : Nat) (d : UReg) (x : DWord) (lti : DWord) (c : Combined) : Team :=
  let p : Pend := { id := id, src := .coll, dst := .uni d, await := .timed, vals := [(0, x)], out := [], gone := [], kept := true,
                    owed := if c.fl = 0 then [] else [(lti, c.fl)], fen := t.fen, vst := c.vst }
  let t := t.supersedeU d
  { t with pend := t.pend ++ [p] }

/-- The status bits of the slots that complete. -/
def vstOf (fen : BitVec 6) (l : List (Nat × Combined)) : BitVec 3 :=
  l.foldl (fun a x => if fpxTraps fen x.2.fl then a else a ||| x.2.vst) 0

/-- The format of an identity written without a tag check (R216). -/
def Team.looseTag (t : Team) (fa : Tag) (a : VReg) : Tag := if fa = .none then t.tagOf a else fa

def RedOp.emptyVal (op : RedOp) (f : Tag) : DWord :=
  if f ≠ .none ∧ RedOp.accepts op f then toUniform f (RedOp.identity op f) else 0

/-! ## `vred` and `vscan`: q[Q] is written in every case, the slots that raise included (R213) -/

def execVred (o : VRed) (s : State) : Host.Outcome State Fault Refusal :=
  let t := s.tm
  .next (
    if t.exec o.msk = 0 then
      s.noneActive 12 vEmpty o.q true (match o.d with
        | .u d => some (d, RedOp.emptyVal o.op (t.looseTag o.fa o.a))
        | .v _ => none)
    else match o.d with
      | .v d =>
        s.perSlot 12 o.msk (t.arithTag s.vregs o.fa (RedOp.accepts o.op) [o.a.val] d) (fun f => [(o.a.val, f.pair)]) []
          (fun f => [(d.val, f.pair)]) fun f act =>
          let c := RedOp.combine o.op f (act.map fun i => t.rdTag f o.a i)
          { len := 12, outs := act.map fun i => (i, { fl := c.fl, vals := words d f.pair c.val }), tags := [(d, f)]
            dst := .vec d f.pair
            post := fun u => { u with vstat := u.vstat ||| c.vst }
            always := fun u => u.setQE o.q false }
      | .u d =>
        s.perSlot 12 o.msk (t.tagCheck o.fa false (RedOp.accepts o.op) [o.a.val]) (fun f => [(o.a.val, f.pair)]) [] (fun _ => [])
          fun f act =>
          let c := RedOp.combine o.op f (act.map fun i => t.rdTag f o.a i)
          { len := 12, outs := act.map fun i => (i, {})
            post := fun u => (u.setQE o.q false).pendU (s.pendId 0) d (toUniform f c.val) (t.lti (act.headD 0)) c })

/-- The prefixes of a scan, each an own combination. -/
def scanOf (op : RedOp) (exc : Bool) (f : Tag) (val : Nat → DWord) (act : List Nat) : List (Nat × Combined) :=
  act.zipIdx.map fun p => (p.1, RedOp.combine op f ((act.take (if exc then p.2 else p.2 + 1)).map val))

def execVscan (o : VScan) (s : State) : Host.Outcome State Fault Refusal :=
  let t := s.tm
  .next (
    if t.exec o.msk = 0 then
      s.noneActive 12 vEmpty o.q true (o.tot.map fun d => (d, RedOp.emptyVal o.op (t.looseTag o.fa o.a)))
    else
      s.perSlot 12 o.msk (t.arithTag s.vregs o.fa (RedOp.accepts o.op) [o.a.val] o.d) (fun f => [(o.a.val, f.pair)]) []
        (fun f => [(o.d.val, f.pair)]) fun f act =>
        let l := scanOf o.op o.exc f (fun i => t.rdTag f o.a i) act
        let c := RedOp.combine o.op f (act.map fun i => t.rdTag f o.a i)
        { len := 12, outs := l.map fun x => (x.1, { fl := x.2.fl, vals := words o.d f.pair x.2.val }), tags := [(o.d, f)]
          dst := .vec o.d f.pair
          post := fun u =>
            let u := { u with vstat := u.vstat ||| vstOf t.fen l }
            match o.tot with
            | some d => u.pendU (s.pendId 0) d (toUniform f c.val) (t.lti (act.headD 0)) c
            | none => u
          always := fun u => u.setQE o.q false })

/-! ## `vargmin` and `vargmax` (R215) -/

def isArg (f : Tag) : Bool := isInt4 f || f == .f32 || f == .f64

/-- The winning slot, with the exceptions and status bits. -/
def argOf (mx : Bool) (f : Tag) (l : List (Nat × DWord)) : Combined :=
  let w (i : Nat) (fl : BitVec 6) (v : BitVec 3) : Combined := { val := BitVec.ofNat 64 i, fl := fl, vst := v }
  if isInt4 f then
    match l with
    | [] => w 0 0 0
    | x :: r =>
      w (r.foldl (fun (b : Nat × DWord) y =>
        if (if mx then f.ext b.2 < f.ext y.2 else f.ext y.2 < f.ext b.2) then y else b) x).1 0 0
  else
    let F := ieeeOf f
    let val (x : Nat × DWord) : FVal := F.val (getElem' f x.2 0)
    let sn : BitVec 6 := if l.any fun x => (val x).isSig then flSN else 0
    match l.filter fun x => !(val x).isNan with
    | [] => w ((l.headD (0, 0)).1) sn vAllNan
    | x :: r =>
      w (r.foldl (fun (b : Nat × DWord) y =>
        if (if mx then !(val y).le (val b) else !(val b).le (val y)) then y else b) x).1 sn 0

def State.varg (s : State) (o : VArg) (mx : Bool) : State :=
  let t := s.tm
  if t.exec o.msk = 0 then
    s.noneActive 12 vEmpty o.q true (match o.d with | .u d => some (d, BitVec.allOnes 64) | .v _ => none)
  else
    s.perSlot 12 o.msk (t.tagCheck o.fa false isArg [o.a.val]) (fun f => [(o.a.val, f.pair)]) []
      (fun _ => match o.d with | .v d => [(d.val, false)] | .u _ => []) fun f act =>
      let c := argOf mx f (act.map fun i => (i, t.rdTag f o.a i))
      match o.d with
      | .v d =>
        { len := 12, outs := act.map fun i => (i, { fl := c.fl, vals := words d false c.val }), tags := [(d, .n32)]
          dst := .vec d false
          post := fun u => { u with vstat := u.vstat ||| c.vst }
          always := fun u => u.setQE o.q false }
      | .u d =>
        { len := 12, outs := act.map fun i => (i, {})
          post := fun u => (u.setQE o.q false).pendU (s.pendId 0) d c.val (t.lti (act.headD 0)) c }

def execVargmin (o : VArg) (s : State) : Host.Outcome State Fault Refusal := .next (s.varg o false)
def execVargmax (o : VArg) (s : State) : Host.Outcome State Fault Refusal := .next (s.varg o true)

/-! ## Votes and ranks (R217 to R219) -/

def execVballot (o : VBallot) (s : State) : Host.Outcome State Fault Refusal :=
  let t := s.tm
  .next (
    if t.exec o.msk = 0 then s.noneActive 8 0 o.q false none
    else s.perSlot 8 o.msk (.ok .none) (fun _ => [(o.a.val, false)]) [] (fun _ => []) fun _ act =>
      let bit (i : Nat) : Bool := if o.eq then t.rd o.a i == t.rd o.a (act.headD 0) else t.rd o.a i != 0
      { len := 8, outs := act.map fun i => (i, { bits := [(o.d, bit i)] })
        post := fun u => u.setQE o.q (act.all bit)
        always := fun u => if o.z then u.clearOutside (t.exec o.msk) o.d else u })

def execVpopc (o : VPopc) (s : State) : Host.Outcome State Fault Refusal :=
  let t := s.tm
  .next (s.perSlot 8 o.msk (.ok .n32) (fun _ => []) [] (fun _ => [(o.d.val, false)]) fun _ act =>
    let isSet (i : Nat) : Bool := t.m[o.a].getLsbD i
    let n (k : Nat) : Nat := match o.mode with
      | 0 => ((act.take k).filter isSet).length
      | 1 => ((act.take (k + 1)).filter isSet).length
      | 2 => (act.filter isSet).length
    { len := 8, outs := act.zipIdx.map fun p => (p.1, { vals := words o.d false (BitVec.ofNat 64 (n p.2)) }), tags := [(o.d, .n32)] })

def execVfirst (o : VFirst) (s : State) : Host.Outcome State Fault Refusal :=
  let t := s.tm
  .next (
    if t.exec o.msk = 0 then s.noneActive 8 0 o.q true none
    else s.perSlot 8 o.msk (.ok .n32) (fun _ => []) [] (fun _ => [(o.d.val, false)]) fun _ act =>
      let l := act.filter fun i => t.m[o.a].getLsbD i
      let x : DWord := match if o.last then l.getLast? else l.head? with
        | some i => BitVec.ofNat 64 i
        | none => 0xFFFFFFFF
      { len := 8, outs := act.map fun i => (i, { vals := words o.d false x }), tags := [(o.d, .n32)]
        post := fun u => u.setQE o.q l.isEmpty })

/-! ## `vcompact` (R220) -/

def execVcompact (o : VCompact) (s : State) : Host.Outcome State Fault Refusal :=
  let t := s.tm
  .next (
    if t.exec o.msk = 0 then s.noneActive 12 0 none false (o.cnt.map fun d => (d, 0))
    else s.guarded 12 o.msk (t.moveTag s.vregs o.fa o.a o.d) (fun f => [(o.a.val, f.pair)]) [] (fun _ => []) fun f act =>
      s.untilArrived (refs f.pair [o.d.val]) <|
      let from' := act.filter fun i => t.m[o.ms].getLsbD i
      let put (u : Team) (p : Nat × Nat) : Team :=
        match from'[p.2]? with
        | some i => u.wrW f.pair o.d p.1 (t.rdTag f o.a i)
        | none => if o.z then u.wrW f.pair o.d p.1 0 else u
      s.finish { len := 12, outs := act.map fun i => (i, {}), tags := [(o.d, f)]
                 post := fun u => match o.cnt with | some d => u.putS d (BitVec.ofNat 64 from'.length) | none => u
                 always := fun u => ((t.lanes t.live).zipIdx).foldl put u })

/-! ## `vsort` (R221) -/

def isKey (f : Tag) : Bool := f == .i32 || f == .n32 || f == .f32

/-- Whether a key comes strictly before another. -/
def keyBefore (f : Tag) (desc : Bool) (x y : DWord) : Bool :=
  if f = .f32 then
    let a := fp32.val (getElem' f x 0)
    let b := fp32.val (getElem' f y 0)
    if a.isNan then false
    else if b.isNan then true
    else if desc then !a.le b else !b.le a
  else if desc then f.ext y < f.ext x else f.ext x < f.ext y

/-- Stable insertion: behind every element that does not come later. -/
def keyInsert (f : Tag) (desc : Bool) (x : DWord × DWord) : List (DWord × DWord) → List (DWord × DWord)
  | [] => [x]
  | y :: r => if keyBefore f desc x.1 y.1 then x :: y :: r else y :: keyInsert f desc x r

def keySort (f : Tag) (desc : Bool) (l : List (DWord × DWord)) : List (DWord × DWord) :=
  l.foldl (fun a x => keyInsert f desc x a) []

/-- The checks: the key's width, the value's, then the key's tag (R74). -/
def Team.sortTag (t : Team) (o : VSort) : Except DWord Tag :=
  if badWidth o.fa true o.ak (t.tagOf o.ak) then .error (fmtPayload o.ak (t.tagOf o.ak) o.fa)
  else if (t.tagOf o.av).pair then .error (fmtPayload o.av (t.tagOf o.av) .none)
  else t.tagCheck o.fa true isKey [o.ak.val]

def execVsort (o : VSort) (s : State) : Host.Outcome State Fault Refusal :=
  let t := s.tm
  .next (s.perSlot 12 o.msk (t.sortTag o) (fun _ => [(o.ak.val, false), (o.av.val, false)]) []
    (fun _ => [(o.dk.val, false), (o.dv.val, false)]) fun f act =>
    let l := keySort f o.desc (act.map fun i => ((t.rd o.ak i).setWidth 64, (t.rd o.av i).setWidth 64))
    { len := 12, tags := [(o.dk, f), (o.dv, t.tagOf o.av)]
      outs := act.zipIdx.map fun p =>
        let x := l.getD p.2 (0, 0)
        (p.1, { vals := words o.dk false x.1 ++ words o.dv false x.2 }) })

end Sys2Proof.Machine
end

