-- ==== Sys2Proof/Machine/Harmonic.lean ====
section
/-! DEFINITION. The solid harmonics, translations and evaluations of 17 (R336 to R342) in exact arithmetic: every value is
a + √n · Σ q √d with rational a and q, an integer n and squarefree d. -/
namespace Sys2Proof.Machine

/-! ## Rationals -/

structure Q where
  n : Int
  d : Nat
  deriving DecidableEq, Repr, Inhabited

def Q.make (n : Int) (d : Nat) : Q :=
  let g := Nat.gcd n.natAbs d
  if g = 0 then { n := n, d := 1 } else { n := n / g, d := d / g }

def Q.int (n : Int) : Q := { n := n, d := 1 }
def Q.zero : Q := Q.int 0
def Q.one : Q := Q.int 1
def Q.add (x y : Q) : Q := if x.n = 0 then y else if y.n = 0 then x else Q.make (x.n * y.d + y.n * x.d) (x.d * y.d)
def Q.negate (x : Q) : Q := { x with n := -x.n }
def Q.sub (x y : Q) : Q := x.add y.negate
def Q.mul (x y : Q) : Q := if x.n = 0 ∨ y.n = 0 then Q.zero else Q.make (x.n * y.n) (x.d * y.d)
def Q.inv (x : Q) : Q := if x.n < 0 then { n := -x.d, d := x.n.natAbs } else { n := x.d, d := x.n.natAbs }
def Q.pow (x : Q) : Nat → Q
  | 0 => Q.one
  | k + 1 => x.mul (x.pow k)
def Q.ofDy (x : Dy) : Q := if 0 ≤ x.e then Q.int (x.n * 2 ^ x.e.toNat) else Q.make x.n (2 ^ (-x.e).toNat)
def Q.le (x y : Q) : Bool := x.n * y.d ≤ y.n * x.d

/-! ## Sums of square roots: squarefree radicand and rational factor, radicands rising -/

abbrev Fld2 := List (Nat × Q)

def Fld2.insert (x : Fld2) (d : Nat) (q : Q) : Fld2 :=
  if q.n = 0 then x
  else match x with
    | [] => [(d, q)]
    | (e, p) :: r =>
      if d < e then (d, q) :: (e, p) :: r
      else if d = e then (if (p.add q).n = 0 then r else (e, p.add q) :: r)
      else (e, p) :: Fld2.insert r d q

def Fld2.add (x y : Fld2) : Fld2 := y.foldl (fun (a : Fld2) t => Fld2.insert a t.1 t.2) x
def Fld2.scale (x : Fld2) (q : Q) : Fld2 := if q.n = 0 then [] else x.map fun t => (t.1, t.2.mul q)
def Fld2.negate (x : Fld2) : Fld2 := x.map fun t => (t.1, t.2.negate)

/-- √a · √b = g √(ab ÷ g²) for squarefree a and b with greatest common divisor g. -/
def Fld2.mul (x y : Fld2) : Fld2 :=
  x.foldl (fun (a : Fld2) t => y.foldl (fun (a : Fld2) u =>
    let g := Nat.gcd t.1 u.1
    Fld2.insert a (t.1 / g * (u.1 / g)) ((t.2.mul u.2).mul (Q.int g))) a) []

/-- The primes that the normalisations of orders up to 15 hold. -/
def smallPrimes : List Nat := [2, 3, 5, 7, 11, 13, 17, 19, 23, 29]

/-- How often p divides n, within fuel. -/
def ordP (p : Nat) : (fuel n : Nat) → Nat
  | 0, _ => 0
  | fuel + 1, n => if n % p = 0 then 1 + ordP p fuel (n / p) else 0

/-- √q for a positive rational whose primes are small: factor and squarefree radicand. -/
def sqrtQ (q : Q) : Fld2 :=
  let m := q.n.natAbs * q.d
  let r := smallPrimes.foldl (fun (a : Nat × Nat) p =>
    let k := ordP p 256 m
    (a.1 * p ^ (k / 2), a.2 * p ^ (k % 2))) (1, 1)
  [(r.2, Q.make r.1 q.d)]

/-! ## a + √n · E as a magnitude -/

structure Alg where
  a : Q
  n : Nat
  e : Fld2
  deriving DecidableEq, Repr

/-- The terms of a value: numerator, denominator, radicand. -/
def Alg.terms (v : Alg) : List (Int × Nat × Nat) :=
  (if v.a.n = 0 then [] else [(v.a.n, v.a.d, 1)]) ++ v.e.map fun t => (t.2.n, t.2.d, t.1 * v.n)

/-- An upper bound on the exponent of the greatest term. -/
def Alg.top (v : Alg) : Int :=
  v.terms.foldl (fun (m : Int) (t : Int × Nat × Nat) => max m ((lg t.1.natAbs : Int) - lg t.2.1 + (lg t.2.2 + 1) / 2 + 2)) (-100000)

/-- The value in units of 2^−P, to within the number of its terms plus one. -/
def Alg.fix (v : Alg) (P : Int) : Int :=
  let G : Nat := 64
  v.terms.foldl (fun (a : Int) (t : Int × Nat × Nat) =>
    -- √radicand with enough bits below the unit of the term
    let p := (P + (lg t.1.natAbs : Int) - lg t.2.1 + G).toNat + G
    let r := isqrt (t.2.2 * 4 ^ p)
    let x := t.1 * r
    let sh : Int := P - p
    a + (if 0 ≤ sh then x * 2 ^ sh.toNat / t.2.1 else x / (t.2.1 * 2 ^ (-sh).toNat))) 0

/-- Whether the value equals a rational: E² n = u² with the right sign, u = t − a. -/
def Alg.equals (v : Alg) (t : Q) : Bool :=
  let u := t.sub v.a
  if v.e.isEmpty then u.n == 0
  else if u.n = 0 then false
  else
    let s := v.e.mul v.e
    s.all (fun x => x.1 == 1) &&
      (match s with
       | [(_, q)] => q.mul (Q.int v.n) == u.mul u
       | _ => false) &&
      decide (((Alg.fix { v with a := Q.zero } (400 - (Alg.top { v with a := Q.zero }))) < 0) = (u.n < 0))

/-- Enough bits below the greatest term to tell the value from any multiple of 2^k near it that it does not equal: times a common
denominator D the difference is an algebraic integer whose conjugates, at most 2^r for r independent roots, are all below 2^S, where
S counts the bits of every term and of k; its norm is an integer, so that it is at least 2^(−2^r · S). -/
def Alg.separation (v : Alg) (k : Int) : Nat :=
  let r := (smallPrimes.filter fun p => v.e.any fun t => t.1 % p == 0).length + 1
  let size := v.terms.foldl (fun (a : Nat) (t : Int × Nat × Nat) => a + lg t.1.natAbs + lg t.2.1 + lg t.2.2 + 4) 64
  (2 ^ r + 2) * (size + k.natAbs + v.top.natAbs)

/-- The precisions tried, in bits below the greatest term; the last one always decides. -/
def Alg.precisions (v : Alg) (k : Int) : List Nat := [96, 384, 1536, 6144, 24576, 98304, 393216, v.separation k]

/-- The sign of a value that is not zero. -/
def Alg.negative (v : Alg) : Bool :=
  let c : Int := v.terms.length + 1
  ((v.precisions 0).find? fun (p : Nat) => c < (v.fix ((p : Int) - v.top)).natAbs).any fun (p : Nat) => v.fix ((p : Int) - v.top) < 0

/-- A rational multiple of 2^k. -/
def qShift (n : Nat) (k : Int) : Q := if 0 ≤ k then Q.int ((n : Int) * 2 ^ k.toNat) else Q.make n (2 ^ (-k).toNat)

/-- Bounds of |v| in units of 2^−P. -/
def Alg.bounds (v : Alg) (P : Int) : Nat × Nat :=
  let c : Int := v.terms.length + 1
  let x : Int := (v.fix P).natAbs
  ((x - c).toNat, (x + c).toNat)

def Alg.absEquals (v : Alg) (neg : Bool) (t : Q) : Bool := v.equals (if neg then t.negate else t)

def Alg.floorBy (v : Alg) (neg : Bool) (k : Int) : List Nat → Nat × Bool
  | [] => (0, true)
  | p :: r =>
    let P : Int := (p : Int) - v.top
    let b := v.bounds P
    let sh := k + P
    if sh < 0 then v.floorBy neg k r
    else
      let lo := b.1 / 2 ^ sh.toNat
      let hi := b.2 / 2 ^ sh.toNat
      if lo = hi then (lo, !(v.absEquals neg (qShift lo k)))
      else if v.absEquals neg (qShift hi k) then (hi, false)
      else v.floorBy neg k r

def Alg.ilogBy (v : Alg) (neg : Bool) : List Nat → Int
  | [] => -100000
  | p :: r =>
    let P : Int := (p : Int) - v.top
    let b := v.bounds P
    if b.1 = 0 then v.ilogBy neg r
    else if lg b.1 = lg b.2 then (lg b.1 : Int) - P
    else if v.absEquals neg (qShift 1 ((lg b.2 : Int) - P)) then (lg b.2 : Int) - P
    else v.ilogBy neg r

/-- The magnitude of a value that is not zero. -/
def Alg.mag (v : Alg) (neg : Bool) : Mag :=
  if v.e.isEmpty then Mag.ratio v.a.n.natAbs v.a.d 0
  else
    { ilog := v.ilogBy neg (v.precisions v.top ++ [v.separation (v.separation 0)])
      floorAt := fun k => if v.top < k then (0, true) else v.floorBy neg k (v.precisions k) }

/-- R340: one rounding of an exact value under RNE, an exact zero +0. -/
def Alg.round (F : Ieee) (v : Alg) : FRes :=
  if v.equals Q.zero then (0, 0)
  else
    let neg := v.negative
    F.round .rne false neg (v.mag neg)

/-! ## Solid harmonics -/

/-- A complex number with entries in the field. -/
structure Cx where
  re : Fld2
  im : Fld2
  deriving DecidableEq, Repr, Inhabited

def Cx.zero : Cx := { re := [], im := [] }
def Cx.add (x y : Cx) : Cx := { re := x.re.add y.re, im := x.im.add y.im }
def Cx.mul (x y : Cx) : Cx :=
  { re := (x.re.mul y.re).add (x.im.mul y.im).negate, im := (x.re.mul y.im).add (x.im.mul y.re) }
def Cx.scale (x : Cx) (q : Q) : Cx := { re := x.re.scale q, im := x.im.scale q }
def Cx.times (x : Cx) (f : Fld2) : Cx := { re := x.re.mul f, im := x.im.mul f }
def Cx.conj (x : Cx) : Cx := { x with im := x.im.negate }
def Cx.ofQ (a b : Q) : Cx := { re := if a.n = 0 then [] else [(1, a)], im := if b.n = 0 then [] else [(1, b)] }

def fact : Nat → Nat
  | 0 => 1
  | n + 1 => (n + 1) * fact n

/-- (−1)^m as a rational. -/
def signM (m : Nat) : Q := Q.int (if m % 2 = 0 then 1 else -1)

/-- Schmidt's normalisation: Z_n^m = √N · P_n^m (R336). -/
def normN (n m : Nat) : Q := Q.make ((if m = 0 then 1 else 2) * fact (n - m)) (fact (n + m))

/-- A point. -/
structure Pt where
  x : Q
  y : Q
  z : Q
  deriving DecidableEq, Repr

def Pt.sub (a b : Pt) : Pt := { x := a.x.sub b.x, y := a.y.sub b.y, z := a.z.sub b.z }
def Pt.sq (a : Pt) : Q := ((a.x.mul a.x).add (a.y.mul a.y)).add (a.z.mul a.z)

/-- The scaled complex harmonics of one m, from degree m on: 𝓡_n^m = ((2n−1) z 𝓡_(n−1)^m − r² 𝓡_(n−2)^m) ÷ (n² − m²). -/
def regCol (r : Pt) (m : Nat) : (k n : Nat) → (a b : Cx) → List Cx
  | 0, _, _, _ => []
  | k + 1, n, a, b =>
    let c := ((a.scale ((Q.int (2 * n - 1)).mul r.z)).add (b.scale r.sq.negate)).scale (Q.make 1 ((n - m) * (n + m)))
    c :: regCol r m k (n + 1) c a

/-- The columns m = m0, m0 + 1, … of degrees up to N, from the diagonal element. -/
def regCols (r : Pt) (N : Nat) : (k m : Nat) → (d : Cx) → List (List Cx)
  | 0, _, _ => []
  | k + 1, m, d =>
    (d :: regCol r m (N - m) (m + 1) d Cx.zero) ::
      regCols r N k (m + 1) ((d.mul (Cx.ofQ r.x.negate r.y.negate)).scale (Q.make 1 (2 * (m + 1))))

/-- 𝓡_n^m for 0 ≤ m ≤ n ≤ N, as columns by m. -/
def regular (r : Pt) (N : Nat) : List (List Cx) := regCols r N (N + 1) 0 (Cx.ofQ Q.one Q.zero)

/-- 𝓡_n^m for any sign of m, zero where |m| > n. -/
def regAt (t : List (List Cx)) (n : Nat) (m : Int) : Cx :=
  if m.natAbs > n then Cx.zero
  else
    let c := (t.getD m.natAbs []).getD (n - m.natAbs) Cx.zero
    if m < 0 then c.conj.scale (signM m.natAbs) else c

/-- R_n^m (R336): index n² + n + m. -/
def regularReal (t : List (List Cx)) (n : Nat) (m : Int) : Fld2 :=
  let k := m.natAbs
  let c := ((regAt t n k).scale ((signM k).mul (Q.int (fact (n + k))))).times (sqrtQ (normN n k))
  if m < 0 then c.im else c.re

/-- The degrees and orders of a series, by index. -/
def indices (p : Nat) : List (Nat × Int) :=
  (List.range (p + 1)).flatMap fun n => (List.range (2 * n + 1)).map fun (k : Nat) => (n, (k : Int) - (n : Int))

/-- A coefficient of a series of rationals. -/
def coef (c : List Q) (n : Nat) (m : Int) : Q := c.getD ((n * n + n : Nat) + m).toNat Q.zero

/-- Pairs (n, m) with 0 ≤ m ≤ n ≤ p. -/
def halfIndices (p : Nat) : List (Nat × Nat) :=
  (List.range (p + 1)).flatMap fun n => (List.range (n + 1)).map fun m => (n, m)

/-- A series in the order of its indices from its complex halves: real parts at m ≥ 0, `sg` times imaginary parts at −m. -/
def unfoldSeries (p : Nat) (sg : Q) (f : Nat → Nat → Cx) : List Fld2 :=
  (indices p).map fun k => if k.2 < 0 then (f k.1 k.2.natAbs).im.scale sg else (f k.1 k.2.natAbs).re

/-- R351: q R_n^m(y − c) for every coefficient. -/
def formOne (p : Nat) (y : Pt) (q : Q) : List Fld2 :=
  let t := regular y p
  (indices p).map fun k => (regularReal t k.1 k.2).scale q

/-- R338, multipole to multipole by d. -/
def shiftM (p : Nat) (M : List Q) (d : Pt) : List Fld2 :=
  let t := regular d p
  -- the complex moments of 𝓡
  let mu (k : Nat) (l : Int) : Cx :=
    let j := l.natAbs
    let c := (Cx.ofQ (coef M k j) (if j = 0 then Q.zero else coef M k (-(j : Int)))).scale (signM j)
    let c := (c.times (sqrtQ (normN k j).inv)).scale (Q.make 1 (fact (k + j)))
    if l < 0 then c.conj.scale (signM j) else c
  unfoldSeries p Q.one fun n m =>
    let s := (indices n).foldl (fun (a : Cx) k => a.add ((mu k.1 k.2).mul (regAt t (n - k.1) (m - k.2)))) Cx.zero
    (s.times (sqrtQ (normN n m))).scale ((signM m).mul (Q.int (fact (n + m))))

/-- Coefficients of Re Σ γ 𝓡_n^m(b), m ≥ 0, as a local series. -/
def toLocal (p : Nat) (γ : Nat → Nat → Cx) : List Fld2 :=
  unfoldSeries p (Q.int (-1)) fun n m =>
    ((γ n m).times (sqrtQ (normN n m).inv)).scale ((signM m).mul (Q.make 1 (fact (n + m))))

/-- R338, local to local by d: the coefficients of degree at most `q`. -/
def shiftL (p q : Nat) (L : List Q) (d : Pt) : List Fld2 :=
  let t := regular d p
  let al : List ((Nat × Nat) × Cx) := (halfIndices p).map fun k =>
    let l : Nat := k.2
    let c := Cx.ofQ (coef L k.1 (l : Int)) (if l = 0 then Q.zero else (coef L k.1 (-(l : Int))).negate)
    (k, (c.times (sqrtQ (normN k.1 l))).scale ((signM l).mul (Q.int (fact (k.1 + l)))))
  let be (n : Nat) (m : Int) : Cx :=
    al.foldl (fun (a : Cx) x => if n ≤ x.1.1 then a.add (x.2.mul (regAt t (x.1.1 - n) ((x.1.2 : Int) - m))) else a) Cx.zero
  toLocal q fun n m => if m = 0 then be n 0 else (be n m).add ((be n (-(m : Int))).conj.scale (signM m))

/-- R338, multipole to local by D ≠ 0: the coefficients without their common factor 1 ÷ |D|. -/
def convML (p : Nat) (M : List Q) (D : Pt) : List Fld2 :=
  let t := regular D (2 * p)
  let s2 := D.sq.inv
  let irr (j : Nat) (s : Int) : Cx :=
    (regAt t j s).scale ((Q.int (fact ((j : Int) - s).toNat * fact ((j : Int) + s).toNat)).mul (s2.pow j))
  let al : List ((Nat × Nat) × Cx) := (halfIndices p).map fun k =>
    let l : Nat := k.2
    let c := Cx.ofQ (coef M k.1 (l : Int)) (if l = 0 then Q.zero else (coef M k.1 (-(l : Int))).negate)
    (k, (c.times (sqrtQ (normN k.1 l))).scale ((signM l).mul (Q.make 1 (fact (k.1 - l)))))
  let be (n : Nat) (m : Int) : Cx :=
    (al.foldl (fun (a : Cx) x => a.add (x.2.mul (irr (x.1.1 + n) ((x.1.2 : Int) + m)))) Cx.zero).scale (signM n)
  toLocal p fun n m => if m = 0 then (be n 0).conj else ((be n m).conj).add ((be n (-(m : Int))).scale (signM m))

/-- 1 ÷ √x as √n times a rational. -/
def rootInv (x : Q) : Nat × Q := (x.n.natAbs * x.d, Q.make 1 x.n.natAbs)

end Sys2Proof.Machine
end

