-- ==== Sys2Proof/Machine/Expansion.lean ====
section
/-! DEFINITION. The expansion group G9 (17 and 18, R333 to R356) but for `xdirect`, whose list is read as loads are; and the
arithmetic of the near field (R341). -/
namespace Sys2Proof.Machine

/-! ## Descriptors (R333, R334) -/

def XDesc.fmt (d : XDesc) : Tag := if d.f64 then .f64 else .f32
def XDesc.k (d : XDesc) : Nat := if d.f64 then 2 else 1
def XDesc.size (d : XDesc) : Nat := (d.p.val + 1) * (d.p.val + 1)
/-- The registers of the span and of the centre, one for each element. -/
def XDesc.span (d : XDesc) : List Nat := (List.range d.size).map fun j => d.base.val + d.k * j
def XDesc.centre (d : XDesc) : List Nat := (List.range 3).map fun j => d.cen.val + d.k * j

/-- n elements at stride k from a register on. -/
def strided (r k n : Nat) : List Nat := (List.range n).map fun j => r + k * j

/-- A failed condition: its reason, and the descriptor that fails. -/
abbrev XFail := Nat × Nat

/-- The lowest reason, and for it the first in the list (R347). -/
def firstFail (l : List (Bool × XFail)) : Option XFail :=
  l.foldl (fun (a : Option XFail) c =>
    if !c.1 then a
    else match a with
      | none => some c.2
      | some b => if c.2.1 < b.1 then some c.2 else a) none

/-- The payload of `e.xpn` (R347). A range in `xform` and `xeval` fails the one descriptor that they check, one in `xadm` the first
(log 16). -/
def xpnPayload (f : XFail) : DWord := BitVec.ofNat 64 (f.1 + f.2 * 2 ^ 8)

/-- The descriptor checks come first, then the instruction goes on (R347). -/
def State.xcheck (s : State) (len : Nat) (msk : MReg) (l : List (Bool × XFail)) (go : State) : State :=
  let t := s.tm
  let act := t.lanes (t.exec msk)
  if act.isEmpty then s.putTm { t with pc := t.pc + BitVec.ofNat 64 len }
  else match firstFail l with
    | some f => s.raiseIn len act 0x14 (xpnPayload f)
    | none => go

/-- R349. -/
def execXbind (o : XBind) (s : State) : Host.Outcome State Fault Refusal :=
  let d : XDesc := { v := true, loc := o.loc, f64 := o.f64, p := o.p, base := o.base, cen := o.cen }
  let lim := s.vregs
  let n := d.size * d.k
  let overlap := o.cen.val < o.base.val + n && o.base.val < o.cen.val + 3 * d.k
  .next (s.xcheck 12 o.msk
    [(lim < o.base.val + n || lim < o.cen.val + 3 * d.k, (5, o.d.val)),
     (o.f64 && (o.base.val % 2 == 1 || o.cen.val % 2 == 1), (6, o.d.val)), (overlap, (7, o.d.val))]
    (s.uniform 12 o.msk [] fun t => { t with x := t.x.set o.d d }))

/-- R350. -/
def execXclr (o : XClr) (s : State) : Host.Outcome State Fault Refusal :=
  .next (s.uniform 8 o.msk [] fun t =>
    match o.d with
    | some d => { t with x := t.x.set d XDesc.unbound }
    | none => { t with x := Vector.replicate 16 XDesc.unbound })

/-- R350. -/
def execXmov (o : XMov) (s : State) : Host.Outcome State Fault Refusal :=
  .next (s.uniform 8 o.msk [] fun t => { t with x := t.x.set o.d t.x[o.a] })

/-! ## Results (R340, R348) -/

/-- The elements of registers in a slot. -/
def Team.elems (t : Team) (f : Tag) (l : List Nat) (i : Nat) : List FVal := l.map fun r => (ieeeOf f).val (t.rdTag f r i).toNat

def FVal.q (x : FVal) : Q := Q.ofDy x.dy

def FVal.finite : FVal → Bool
  | .fin _ _ _ => true
  | _ => false

/-- A sum of square roots with a rational part split off. -/
def algOf (a : Q) (f : Fld2) : Alg :=
  { a := f.foldl (fun (q : Q) t => if t.1 = 1 then q.add t.2 else q) a, n := 1, e := f.filter fun t => t.1 != 1 }

/-- The words of an element. -/
def wordsAt (r : Nat) (wide : Bool) (x : DWord) : List (Nat × Word) :=
  if wide then [(r, x.setWidth 32), (r + 1, (x >>> 32).setWidth 32)] else [(r, x.setWidth 32)]

/-- One slot's results: NaN in every destination when an input is not finite (R340), else the exact values rounded. -/
def xOut (f : Tag) (dsts : List Nat) (inputs : List FVal) (nan : Bool) (vals : Unit → List Alg) : Out :=
  let F := ieeeOf f
  if nan || inputs.any fun x => !x.finite then
    { fl := if inputs.any FVal.isSig then flSN else flNV
      vals := dsts.flatMap fun r => wordsAt r f.pair (BitVec.ofNat 64 F.qnan) }
  else
    let rs := (vals ()).map (Alg.round F)
    { fl := rs.foldl (fun a r => a ||| r.2) 0
      vals := (dsts.zip rs).flatMap fun p => wordsAt p.1 f.pair (BitVec.ofNat 64 p.2.1) }

/-- A per-slot instruction with results in a row of registers: `srcs` its typed sources in the order A, B, C, D. -/
def State.xmap (s : State) (len : Nat) (msk : MReg) (f : Tag) (srcs dsts : List Nat) (g : Team → Nat → Out) : State :=
  let t := s.tm
  let wide := f.pair
  s.perSlot len msk (t.tagCheck f false isFlt2 srcs) (fun _ => refs wide srcs) [] (fun _ => refs wide dsts)
    fun _ act =>
      { len := len, outs := act.map fun i => (i, g t i), tags := dsts.map fun r => (Fin.ofNat 1024 r, f)
        dst := .head (Fin.ofNat 1024 (dsts.headD 0)) wide dsts.length }

/-- Three elements as a point. -/
def ptOf (l : List FVal) : Pt := { x := (l.getD 0 .knan).q, y := (l.getD 1 .knan).q, z := (l.getD 2 .knan).q }

/-- Old values, under ADD. -/
def olds (add : Bool) (l : List FVal) : List FVal := if add then l else []

/-- The j-th old value, 0 without ADD. -/
def oldAt (l : List FVal) (j : Nat) : Q := match l[j]? with | some x => x.q | none => Q.zero

/-- R351. -/
def execXform (o : XForm) (s : State) : Host.Outcome State Fault Refusal :=
  let d := s.tm.x[o.d]
  let n := o.n1.val + 1
  let k := d.k
  let src := strided o.a k (4 * n)
  .next (s.xcheck 12 o.msk
    [(!d.v, (1, o.d.val)), (d.loc, (2, o.d.val)), (s.vregs < o.a.val + 4 * k * n, (5, o.d.val)),
     (d.f64 && o.a.val % 2 == 1, (6, o.d.val))]
    (s.xmap 12 o.msk d.fmt (src ++ d.centre ++ if o.add then d.span else []) d.span fun t i =>
      let ys := t.elems d.fmt src i
      let c := t.elems d.fmt d.centre i
      let old := olds o.add (t.elems d.fmt d.span i)
      xOut d.fmt d.span (ys ++ c ++ old) false fun _ =>
        let terms := (List.range n).map fun j =>
          formOne d.p ((ptOf (ys.drop (4 * j))).sub (ptOf c)) (ys.getD (4 * j + 3) .knan).q
        (List.range d.size).map fun e =>
          algOf (oldAt old e) (terms.foldl (fun (a : Fld2) l => a.add (l.getD e [])) [])))

/-- The checks of a translation. -/
def mapFails (x y : XDesc) (o : XMap) (dl al : Bool) : List (Bool × XFail) :=
  [(!x.v, (1, o.d.val)), (!y.v, (1, o.a.val)), (x.loc != dl, (2, o.d.val)), (y.loc != al, (2, o.a.val)),
   (x.p != y.p, (3, o.d.val)), (x.f64 != y.f64, (4, o.d.val))]

/-- A translation: `nan` whether the shift vector makes the result NaN, `g` the exact coefficients. -/
def State.xlate (s : State) (o : XMap) (dl al : Bool) (nan : Pt → Pt → Bool)
    (g : (p : Nat) → (old : Nat → Q) → List Q → (ca cd : Pt) → List Alg) : State :=
  let x := s.tm.x[o.d]
  let y := s.tm.x[o.a]
  s.xcheck 8 o.msk (mapFails x y o dl al)
    (s.xmap 8 o.msk x.fmt (y.span ++ y.centre ++ x.centre ++ if o.add then x.span else []) x.span fun t i =>
      let m := t.elems x.fmt y.span i
      let ca := t.elems x.fmt y.centre i
      let cd := t.elems x.fmt x.centre i
      let old := olds o.add (t.elems x.fmt x.span i)
      let ins := m ++ ca ++ cd ++ old
      xOut x.fmt x.span ins (ins.all FVal.finite && nan (ptOf ca) (ptOf cd)) fun _ =>
        g x.p (oldAt old) (m.map FVal.q) (ptOf ca) (ptOf cd))

def numbered (l : List Fld2) (g : Nat → Fld2 → Alg) : List Alg := l.zipIdx.map fun p => g p.2 p.1

def execXshift (o : XMap) (s : State) : Host.Outcome State Fault Refusal :=
  .next (s.xlate o false false (fun _ _ => false) fun p old m ca cd =>
    numbered (shiftM p m (ca.sub cd)) fun j f => algOf (old j) f)

def execXlshift (o : XMap) (s : State) : Host.Outcome State Fault Refusal :=
  .next (s.xlate o true true (fun _ _ => false) fun p old l ca cd =>
    numbered (shiftL p p l (cd.sub ca)) fun j f => algOf (old j) f)

/-- a + f ÷ √x. -/
def overRoot (a : Q) (f : Fld2) (x : Q) : Alg :=
  let r := rootInv x
  let w := isqrt r.1
  if w * w = r.1 then algOf a (f.scale (r.2.mul (Q.int w))) else { a := a, n := r.1, e := f.scale r.2 }

def execXconv (o : XMap) (s : State) : Host.Outcome State Fault Refusal :=
  .next (s.xlate o true false (fun ca cd => (cd.sub ca).sq.n == 0) fun p old m ca cd =>
    let D := cd.sub ca
    numbered (convML p m D) fun j f => overRoot (old j) f D.sq)

/-- R353: Φ and its gradient are the first coefficients of the series shifted to the point. -/
def execXeval (o : XEval) (s : State) : Host.Outcome State Fault Refusal :=
  let d := s.tm.x[o.a]
  let k := d.k
  let dst := strided o.d k 4
  let pt := strided o.b k 3
  .next (s.xcheck 12 o.msk
    [(!d.v, (1, o.a.val)), (!d.loc, (2, o.a.val)),
     (s.vregs < o.d.val + 4 * k || s.vregs < o.b.val + 3 * k, (5, o.a.val)),
     (d.f64 && (o.d.val % 2 == 1 || o.b.val % 2 == 1), (6, o.a.val))]
    (s.xmap 12 o.msk d.fmt (d.span ++ d.centre ++ pt ++ if o.add then dst else []) dst fun t i =>
      let l := t.elems d.fmt d.span i
      let c := t.elems d.fmt d.centre i
      let x := t.elems d.fmt pt i
      let old := olds o.add (t.elems d.fmt dst i)
      xOut d.fmt dst (l ++ c ++ x ++ old) false fun _ =>
        let r := shiftL d.p 1 (l.map FVal.q) ((ptOf x).sub (ptOf c))
        [0, 3, 1, 2].zipIdx.map fun e => algOf (oldAt old e.2) (r.getD e.1 [])))

/-! ## Admissibility (R342, R356) -/

/-- An extended real: undefined, ±∞, or a rational. -/
inductive Ext where
  | undef
  | inf
  | fin (q : Q)
  deriving DecidableEq, Repr

/-- The square of a difference. -/
def diffSq (x y : FVal) : Ext :=
  match x, y with
  | .inf a, .inf b => if a = b then .undef else .inf
  | .inf _, _ => .inf
  | _, .inf _ => .inf
  | x, y => let d := x.q.sub y.q; .fin (d.mul d)

def Ext.add : Ext → Ext → Ext
  | .undef, _ => .undef
  | _, .undef => .undef
  | .inf, _ => .inf
  | _, .inf => .inf
  | .fin a, .fin b => .fin (a.add b)

/-- The decision of R342. -/
def admits (cs ct : List FVal) (rs rt th : FVal) : Bool :=
  let bad (x : FVal) : Bool := x.isNan || (x.neg && !x.isZero)
  if bad rs || bad rt || (cs ++ ct).any FVal.isNan || bad th || th.isZero then false
  else
    let dist := (cs.zip ct).foldl (fun (a : Ext) p => a.add (diffSq p.1 p.2)) (.fin Q.zero)
    match dist with
    | .undef => false
    | .inf => true
    | .fin d =>
      if th == .inf false then d.n != 0
      else if rs == .inf false || rt == .inf false then false
      else
        let r := rs.q.add rt.q
        (r.mul r).le ((th.q.mul th.q).mul d)

def execXadm (o : XAdm) (s : State) : Host.Outcome State Fault Refusal :=
  let t := s.tm
  let x := t.x[o.a]
  let y := t.x[o.b]
  let rad := strided o.c x.k 2
  let srcs := x.centre ++ y.centre ++ rad
  .next (s.xcheck 12 o.msk
    [(!x.v, (1, o.a.val)), (!y.v, (1, o.b.val)), (x.f64 != y.f64, (4, o.a.val)),
     (s.vregs < o.c.val + 2 * x.k, (5, o.a.val)), (x.f64 && o.c.val % 2 == 1, (6, o.a.val))]
    (s.perSlot 12 o.msk (t.tagCheck x.fmt false isFlt2 srcs) (fun _ => refs x.f64 srcs) [] (fun _ => [])
      fun _ act =>
        { len := 12, dst := .mask o.d
          outs := act.map fun i =>
            let r := t.elems x.fmt rad i
            (i, { bits := [(o.d, admits (t.elems x.fmt x.centre i) (t.elems x.fmt y.centre i) (r.getD 0 .knan) (r.getD 1 .knan)
                    (fp32.val (o.theta.toNat * 2 ^ 10)))] })
          always := fun u => if o.z then u.clearOutside (maskOf act) o.d else u }))

/-! ## The near field (R341, R355) -/

/-- The four terms of an entry: target, ε, entry (position and charge). -/
def nearTerms (F : Ieee) (x : List FVal) (eps : FVal) (y : List FVal) : List FRes :=
  let q := y.getD 3 .knan
  match nanOf F (x ++ [eps] ++ y) with
  | some r => List.replicate 4 r
  | none =>
    let ds := (x.zip (y.take 3)).map fun p => diffSq p.1 p.2
    let s := ds.foldl Ext.add (match eps with | .inf _ => .inf | e => .fin (e.q.mul e.q))
    let qInf := !q.finite
    match s with
    | .undef => List.replicate 4 (F.qnan, flNV)
    | .inf =>
      -- q ÷ ∞ is 0, ∞ ÷ ∞ and 0 · ∞ are undefined
      (if qInf then (F.qnan, flNV) else (0, 0)) ::
        ds.map fun d => if qInf || d == .inf then (F.qnan, flNV) else (0, 0)
    | .fin sq =>
      if sq.n = 0 then List.replicate 4 (0, 0)
      else
        let df := (x.zip (y.take 3)).map fun p => p.1.q.sub p.2.q
        if qInf then
          (F.signBit q.neg + F.inf, 0) ::
            df.map fun d => if d.n = 0 then (F.qnan, flNV) else (F.signBit (q.neg == (d.n < 0 : Bool)) + F.inf, 0)
        else
          (if q.q.n = 0 then (0, 0) else (overRoot Q.zero [(1, q.q)] sq).round F) ::
            df.map fun d => if d.n = 0 ∨ q.q.n = 0 then (0, 0)
              else (overRoot Q.zero [(1, (q.q.mul d).negate.mul sq.inv)] sq).round F

/-- One entry is added to the four accumulators; with the exceptions so far. -/
def nearAdd (F : Ieee) (x : List FVal) (eps : FVal) (acc : List Nat × BitVec 6) (y : List FVal) : List Nat × BitVec 6 :=
  let ts := nearTerms F x eps y
  let rs := (acc.1.zip ts).map fun p => (fAdd F .rne (F.val p.1) (F.val p.2.1), p.2.2)
  (rs.map fun r => r.1.1, rs.foldl (fun f r => f ||| r.1.2 ||| r.2) acc.2)

end Sys2Proof.Machine
end

