-- ==== Sys2Proof/Machine/Memory.lean ====
section
/-! DEFINITION. The memory group G5 (07, R173 to R179) and `xdirect` (18, R354, R355). -/
namespace Sys2Proof.Machine

/-- Bytes of an element in memory (R173). -/
def elemBytes (f : Tag) : Nat := if f.pair then 8 else 4

/-- Bytes of an access (R173). -/
def subBytes (f : Tag) : Sub → Nat
  | .full => elemBytes f
  | .b8 => 1
  | .b16 => 2

/-- R174. -/
def execLd (o : Ld) (s : State) : Host.Outcome State Fault Refusal :=
  .next (s.loads 16 o.msk o.addr o.fa [o.d.val] (subBytes o.fa o.sub) (o.sub != .full && o.fa == .i32))

/-- R179. -/
def execLdt (o : Ldt) (s : State) : Host.Outcome State Fault Refusal :=
  let st := if o.fa.pair then 2 else 1
  .next (s.loads 16 o.msk o.addr o.fa ((List.range (o.n1 + 1)).map fun j => o.d.val + st * j) (elemBytes o.fa) false)

/-- R176. -/
def lduBytes (w : Fin 4) : Nat := match w with | 0 => 8 | 1 => 1 | 2 => 2 | 3 => 4

def execLdu (o : Ldu) (s : State) : Host.Outcome State Fault Refusal :=
  .next (s.loadUni 16 o.msk o.d o.base o.off (lduBytes o.wid) o.sx)

/-! ## Stores (R175) -/

/-- Formats of SUM and SUMIN elements (R166). -/
def sumFormat (f : Tag) : Bool :=
  f == .i32 || f == .n32 || f == .i64 || f == .n64 || f == .f32 || f == .f64 || f == .bf16x2

def Rule.sums (r : Rule) : Bool := r == .sum || r == .sumin

/-- The format of raw data to be stored: FA's, or under FA = 0 the source's own tag; a token, and a pair tag in an odd
register, raise `e.fmt` (R175, DEDUCED as R127 states it, log 42). -/
def Team.storeTag (t : Team) (fa : Tag) (r : VReg) : Except DWord Tag :=
  let h := t.tagOf r
  if h = .tok then .error (fmtPayload r .tok fa)
  else if fa ≠ .none then .ok fa
  else if h.pair ∧ r.val % 2 = 1 then .error (fmtPayload r h .none)
  else .ok h

/-- The payload of `e.order` (R400): the opcode. -/
def orderPayload (opc : Nat) : DWord := BitVec.ofNat 64 opc

/-- What becomes of a slot's write. -/
inductive Wr where
  | here (p : Spot) (w : Write)
  | fails (id : Nat) (payload : DWord)
  | miss (a : DWord) (op : LogOp)
  | broken (a : DWord) (g : Got)
  deriving DecidableEq, Repr

/-- Writes one after another. -/
def State.queueAll (s : State) (core : Nat) (l : List Wr) : State :=
  l.foldl (fun s x => match x with | .here p w => s.queue core p w | _ => s) s

/-- Whether a write has gone out: what it leaves in the translation caches it has left there. -/
def Wr.isHere : Wr → Bool
  | .here _ _ => true
  | _ => false

/-- A write to a page. -/
def Wr.toPage : Wr → Bool
  | .here (.page _ _) _ => true
  | .miss _ _ => true
  | _ => false

/-- The end of an instruction that writes memory: `ws` by slot, `seen` what the others translate; `post` what else happens to the team. -/
def State.writes (s : State) (len : Nat) (ws : List (Nat × Wr)) (seen : List DWord) (tags : List (VReg × Tag)) (post : Team → Team) :
    State :=
  let t := s.tm
  let misses := ws.filterMap fun x => match x.2 with | .miss a op => some (t.lti x.1, a, op) | _ => none
  if t.logFull (!misses.isEmpty) || ((ws.any fun x => x.2.toPage) && s.linesWait (coreOf s.cur) t.part) then s.stall
  else
    let u := ((s.queueAll (coreOf s.cur) (ws.map fun x => x.2)).finish
      { len := len, tags := tags
        outs := ws.map fun x => (x.1, { eff := match x.2 with | .fails id p => some (id, p) | _ => none })
        always := fun u => (post u).logAll s.clock s.seq misses }).touchAll (coreOf s.cur) seen
    match ws.findSome? fun x => match x.2 with | .broken a g => some (a, g) | _ => none with
    | some b => u.broken s.cur b.1 b.2
    | none => u

/-- One slot's store. -/
def State.storeOne (s : State) (core : Nat) (lti a : DWord) (width : Nat) (bytes : List Byte) (rule : Rule) (land : Nat)
    (f : Tag) : Wr :=
  match s.find core false width a width (.write rule land) with
  | .scope r => .fails 7 (scopePayload r a)
  | .malformed lv => .broken a (.broken lv)
  | .bad b => .broken a (.bad b (b * 64))
  | .miss =>
    if s.strict && rule == .any then .fails 0x10 (orderPayload 0xA1)
    else .miss a (.store bytes rule f s.seq land)
  | .here p =>
    if s.strict && rule == .any then .fails 0x10 (orderPayload 0xA1)
    else .here p { lti := lti, seq := s.seq, row := 0, addr := 0, va := a, bytes := bytes, rule := rule, fmt := f,
                   left := land, claim := none }

def execSt (o : St) (s : State) : Host.Outcome State Fault Refusal :=
  let t := s.tm
  let chk := if Rule.sums o.rule then t.tagCheck o.fa false sumFormat [o.src.val] else t.storeTag o.fa o.src
  .next (s.guarded 16 o.msk chk (fun f => (o.src.val, f.pair) :: Addr.vrefs o.addr) (Addr.urefs o.addr) (fun _ => [])
    fun f act =>
      let width := subBytes f o.sub
      let ws := act.map fun i =>
        (i, s.storeOne (coreOf s.cur) (t.lti i) (t.addrOf o.addr i) width (leBytes width (t.rdTag f o.src i).toNat) o.rule
          o.land.val f)
      s.writes 16 ws (s.translated (coreOf s.cur) width width (.write o.rule o.land.val)
        ((ws.filter fun x => !x.2.isHere).map fun x => t.addrOf o.addr x.1)) [] id)

/-! ## `claim` (R177) -/

/-- One slot's claim, whose result `id` arrives at the step point of its scope. -/
def State.claimOne (s : State) (core : Nat) (id : Nat) (lti a : DWord) (f : Tag) (x : DWord) : Wr :=
  let w := elemBytes f
  match s.find core false w a w .claim with
  | .scope r => .fails 7 (scopePayload r a)
  | .malformed lv => .broken a (.broken lv)
  | .bad b => .broken a (.bad b (b * 64))
  | .miss => .miss a (.claim id)
  | .here p => .here p { lti := lti, seq := s.seq, row := 0, addr := 0, va := a, bytes := leBytes w x.toNat, rule := .sumin,
                         fmt := f, left := 1, claim := some id }

/-- Which step point a claim's result waits for: none where the access was logged. -/
def Wr.await : Wr → Option Await
  | .here (.loc _) _ => some .core
  | .here (.exch _ _) _ => some .clu
  | .miss _ _ => some .timed
  | _ => none

/-- The pending results of a claim, one for each step point. -/
def claimPends (t : Team) (id : Nat) (d : VReg) (f : Tag) (ws : List (Nat × Wr)) : List Pend :=
  [Await.core, .clu, .timed].flatMap fun a =>
    ((dstsOf d f.pair).map fun dst =>
      Pend.make id dst a [] ((ws.filter fun x => x.2.await == some a).map fun x => t.lti x.1)).filter Pend.live

def execClaim (o : Claim) (s : State) : Host.Outcome State Fault Refusal :=
  let t := s.tm
  let id := s.pendId 0
  let chk := match t.tagCheck o.fa false sumFormat [o.src.val] with
    | .error p => .error p
    | .ok f => pairDest s.vregs f o.res
  .next (s.guarded 16 o.msk chk (fun f => (o.src.val, f.pair) :: Addr.vrefs o.addr) (Addr.urefs o.addr)
    (fun f => [(o.res.val, f.pair)])
    fun f act =>
      let ws := act.map fun i =>
        (i, s.claimOne (coreOf s.cur) id (t.lti i) (t.addrOf o.addr i) f (t.rdTag f o.src i))
      s.writes 16 ws (s.translated (coreOf s.cur) (elemBytes f) (elemBytes f) .claim
        ((ws.filter fun x => !x.2.isHere).map fun x => t.addrOf o.addr x.1)) [(o.res, f)] fun u => { u with pend := u.pend ++ claimPends t id o.res f ws })

/-! ## `pf` (R178): nothing architectural changes; it waits for the registers of its address (R78) -/

def execPf (o : Pf) (s : State) : Host.Outcome State Fault Refusal :=
  let t := s.tm
  let on := s.putTm { t with pc := t.pc + 16 }
  .next (if t.exec o.msk = 0 then on
    else match t.interlock (t.exec o.msk) (Addr.vrefs o.addr) (Addr.urefs o.addr) [] with
      | .stall => s.stall
      | _ =>
        (t.lanes (t.exec o.msk)).foldl (fun s i =>
          let a := t.addrOf o.addr i
          (s.touch (coreOf s.cur) a).touch (coreOf s.cur) (a + BitVec.ofNat 64 (128 * o.lines1.toNat))) on)

/-! ## `xdirect` (R354, R355) -/

def Near.fmt (o : Near) : Tag := if o.f64 then .f64 else .f32
def Near.size (o : Near) : Nat := if o.f64 then 8 else 4

/-- The address of element k of entry j. -/
def Near.elem (o : Near) (j k : Nat) : DWord := o.base + BitVec.ofNat 64 ((4 * j + k) * o.size)

/-- What a list's elements are found to be, in order. -/
def State.nearGot (s : State) (core : Nat) (o : Near) : List (DWord × Got) :=
  (List.range (4 * o.n)).map fun e => (o.elem 0 e, s.gotRead core o.lti o.size o.size false (o.elem 0 e))

/-- The addresses of a list's elements. -/
def Near.addrs (o : Near) : List DWord := (List.range (4 * o.n)).map (o.elem 0)

/-- The bits of an element, host pages being translated. -/
def State.nearBits (s : State) (o : Near) : Got → Nat
  | .val x => x.toNat
  | .host b => leNat (readBytes s.host ((s.hostPage (b / 2 ^ 16)).getD 0 * 2 ^ 16 + b % 2 ^ 16) o.size)
  | _ => 0

/-- The accumulators after the list, with the exceptions. -/
def nearSums (o : Near) (bits : List Nat) : List Nat × BitVec 6 :=
  let F := ieeeOf o.fmt
  let v (x : DWord) : FVal := F.val x.toNat
  (List.range o.n).foldl (fun (a : List Nat × BitVec 6) j =>
    nearAdd F (o.x.map v) (v o.eps) a (((bits.drop (4 * j)).take 4).map F.val)) (o.acc.map fun x => x.toNat, 0)

/-- The addresses of the entry that an address of a list lies in. -/
def Near.entryOf (o : Near) (a : DWord) : List DWord :=
  (List.range 4).map (o.elem ((a - o.base).toNat / (4 * o.size)))

/-- The first address of each entry that misses (R354). -/
def Near.missing (o : Near) (l : List (DWord × Got)) : List DWord :=
  (List.range o.n).filterMap fun j =>
    (((l.drop (4 * j)).take 4).find? fun x => x.2.isMiss).map fun x => x.1

/-- How a thread's list stands: all read; some of it in the given host pages, or in pages of other packages; or some entries missing,
each by the address that misses. -/
inductive NearState where
  | done (vals : List Nat) (fl : BitVec 6)
  | host (pages : List Nat)
  | missing (l : List DWord)
  | fails (reason : Nat) (a : DWord)
  | broken (a : DWord) (g : Got)
  deriving Repr

def State.nearState (s : State) (core : Nat) (o : Near) : NearState :=
  let l := s.nearGot core o
  match l.find? fun x => x.2.reason.isSome with
  | some x => .fails (x.2.reason.getD 0) x.1
  | none =>
    match l.find? fun x => x.2.stops with
    | some x => .broken x.1 x.2
    | none =>
      let m := o.missing l
      if !m.isEmpty then .missing m
      else
        let pages := l.filterMap fun x => match x.2 with | .host b => some (b / 2 ^ 16) | _ => none
        if pages.isEmpty && l.all (fun x => match x.2 with | .far _ => false | _ => true) then
          let r := nearSums o (l.map fun x => s.nearBits o x.2)
          .done r.1 r.2
        else .host pages

/-- The four results of a slot, pending: by number of the value and half. -/
def nearPends (id : Nat) (o : Near) (fen : BitVec 6) (st : NearState) : List Pend :=
  let k := if o.f64 then 2 else 1
  let mk (await : Await) (out : Bool) (val : Nat → Option Nat) (owed : BitVec 6) : List Pend :=
    (List.range 4).flatMap fun j => (dstsOf (o.d.val + k * j) o.f64).map fun dst =>
      { Pend.make id dst await (match val j with | some v => [(o.lti, BitVec.ofNat 64 v)] | none => [])
          (if out then [o.lti] else []) with src := .near, fen := fen, owed := if owed = 0 then [] else [(o.lti, owed)] }
  match st with
  | .done vals fl => mk .timed false (fun j => some (vals.getD j 0)) fl
  | .host _ => mk (.hostNear o) false (fun _ => some 0) 0
  | .missing _ => mk .timed true (fun _ => none) 0
  | _ => []

/-- The team once a thread's list stands as it does. -/
def Team.nearJoin (t : Team) (clock stamp : Nat) (id : Nat) (o : Near) (st : NearState) : Team :=
  let t := { t with pend := t.pend ++ nearPends id o t.fen st }
  match st with
  | .missing l => t.logAll clock stamp (l.map fun a => (o.lti, a, LogOp.near id o))
  | _ => t

/-- One slot's part of an `xdirect`. -/
structure NearSlot where
  i : Nat
  o : Near
  st : Option NearState
  deriving Repr

def execXdirect (o : XDirect) (s : State) : Host.Outcome State Fault Refusal :=
  let t := s.tm
  let f : Tag := if o.f64 then .f64 else .f32
  let k := if o.f64 then 2 else 1
  let core := coreOf s.cur
  let id := s.pendId 0
  let tgt := strided o.tgt k 3
  let dst := strided o.d k 4
  let srcs := tgt ++ if o.add then dst else []
  let ur := Addr.urefs o.addr ++ o.eps.toList
  .next (s.guarded 16 o.msk (t.tagCheck f false isFlt2 srcs)
    (fun _ => refs o.f64 srcs ++ (o.cnt.val, false) :: Addr.vrefs o.addr) ur (fun _ => refs o.f64 dst)
    fun _ act =>
      let eps : DWord := match o.eps with
        | some r => if o.f64 then t.s[r] else (t.s[r].setWidth 32).setWidth 64
        | none => 0
      let slots : List NearSlot := act.map fun i =>
        let x : Near :=
          { lti := t.lti i, d := o.d, base := t.addrOf o.addr i, n := (t.rd o.cnt i).toNat, f64 := o.f64
            x := tgt.map fun r => t.rdTag f r i, eps := eps
            acc := if o.add then dst.map fun r => t.rdTag f r i else List.replicate 4 0 }
        { i := i, o := x, st := if 4096 < x.n then none else some (s.nearState core x) }
      let missing := slots.any fun x => match x.st with | some (.missing _) => true | _ => false
      if t.logFull missing || ((slots.any fun x => x.o.n != 0 && inPage x.o.base) && s.linesWait core t.part) then s.stall
      else
        let asks := slots.flatMap fun x => match x.st with | some (.host l) => l | _ => []
        let found := slots.flatMap fun x => match x.st with
          | some (.done _ _) => x.o.addrs.map fun a => (id, a)
          | some (.host _) => x.o.addrs.map fun a => (id, a)
          | _ => []
        let seen := s.translated core (slots.head?.elim 4 fun x => x.o.size) (slots.head?.elim 4 fun x => x.o.size) .read
          (slots.flatMap fun x => if x.st.isSome then x.o.addrs else [])
        let u := (((asks.foldl State.askAts s).finish
          { len := 16, tags := dst.map fun r => (Fin.ofNat 1024 r, f)
            outs := slots.map fun x =>
              (x.i, { eff := match x.st with
                | none => some (0x14, 8)
                | some (.fails r a) => some (7, scopePayload r a)
                | _ => none })
            always := fun u => slots.foldl (fun (u : Team) x => match x.st with
              | some st => u.nearJoin s.clock s.seq id x.o st
              | none => u) u }).askFor core t.part found).touchAll core seen
        match slots.findSome? fun x => match x.st with | some (.broken a g) => some (a, g) | _ => none with
        | some b => u.broken s.cur b.1 b.2
        | none => u)

end Sys2Proof.Machine
end

