-- ==== Sys2Proof/Machine/WorkList.lean ====
section
/-! DEFINITION. Work lists (21, R391, R392): the header of a list set, `wapp` and `wcnt`. -/
namespace Sys2Proof.Machine

/-- Where a word of a list set lies, or why it cannot be used. -/
inductive ListSpot where
  /-- device key of the byte -/
  | at (key : Nat)
  | fails (reason : Nat) (a : DWord)
  | miss (a : DWord)
  | broken (a : DWord) (level : Nat)
  /-- a bad HBM4 sector (R377), and the physical address there -/
  | bad (sector pa : Nat)
  deriving DecidableEq, Repr

/-- A byte of a list set: it lies in a PACKAGE page (reason 0x12 otherwise). -/
def State.listByte (s : State) (core : Nat) (align : Nat) (a : DWord) : ListSpot :=
  let c := s.core core
  if a.toNat % align ≠ 0 then .fails 4 a
  else if a.toNat / 2 ^ 52 ≠ 0 then .fails 0x12 a
  else match s.translate core a.toNat with
    | .miss => .miss a
    | .malformed lv => .broken a lv
    | .bad b => .bad b (b * 64)
    | .leaf p =>
      let pa := ptePa p a.toNat
      if !s.paOk c.ctx p pa then .broken a (if pteSz p = 2 then 1 else 0)
      else if pteScope p ≠ 2 then .fails 0x12 a
      else if s.badSectors.contains (s.devKey p pa / 64) then .bad (s.devKey p pa / 64) pa
      else .at (s.devKey p pa)

/-- A 32-bit word of device memory. -/
def read32 (m : SMap Byte) (a : Nat) : Nat := leNat (readBytes m a 4)

/-- Fields of a header (Table 21-3) at a device key. -/
def hdrNdst (m : SMap Byte) (h : Nat) : Nat := read32 m h
def hdrCap (m : SMap Byte) (h : Nat) : Nat := read32 m (h + 4)
def hdrItems (m : SMap Byte) (h : Nat) : DWord := read64 m (h + 8)
def hdrCounts (m : SMap Byte) (h : Nat) : DWord := read64 m (h + 0x10)
def hdrOvf (m : SMap Byte) (h : Nat) : Nat := read32 m (h + 0x18)

/-- The checks of `wapp` in their order (R392). -/
def State.appSpot (s : State) (core : Nat) (header : DWord) (dst : Nat) : ListSpot :=
  if (s.core core).level == .die then .fails 8 header
  else match s.listByte core 64 header with
    | .at h => if hdrNdst (s.baseOf core) h ≤ dst then .fails 0x13 header else .at h
    | x => x

/-- What `wcnt` reads. -/
def State.cntSpot (s : State) (core : Nat) (header : DWord) (dst : Nat) (ov : Bool) : ListSpot :=
  match s.listByte core 64 header with
  | .at h =>
    if hdrNdst (s.baseOf core) h ≤ dst then .fails 0x13 header
    else if ov then .at (h + 0x18)
    else s.listByte core 4 (hdrCounts (s.baseOf core) h + BitVec.ofNat 64 (4 * dst))
  | x => x

/-- The address of that word. -/
def State.cntWord (s : State) (core : Nat) (header : DWord) (dst : Nat) (ov : Bool) : DWord :=
  match s.listByte core 64 header with
  | .at h => if ov then header + 0x18 else hdrCounts (s.baseOf core) h + BitVec.ofNat 64 (4 * dst)
  | _ => header

/-- The line of a header that is read (R416), for a result. -/
def State.headerRead (s : State) (core id : Nat) (header : DWord) : List (Nat × DWord) :=
  match s.listByte core 64 header with
  | .at _ => [(id, header)]
  | _ => []

/-- An item is queued for the commit of its phase. -/
def State.queueItem (s : State) (core : Nat) (x : Item) : State :=
  let c := s.core core
  s.addPhase c.ctx c.phase (dieOf core) fun p => { p with items := p.items ++ [x] }

/-- Header address and destination of a slot. -/
def Team.listDst (t : Team) : WDst → Nat → Nat
  | .reg r, i => (t.rd r i).toNat
  | .imm d, _ => d.toNat

def WDst.refs : WDst → VRefs
  | .reg r => [(r.val, false)]
  | .imm _ => []

/-- What stops the team: a malformed table or a bad sector. -/
def ListSpot.stops : ListSpot → Option (DWord × Got)
  | .broken a lv => some (a, .broken lv)
  | .bad b pa => some (0, .bad b pa)
  | _ => none

/-- The failing slots' effects. -/
def ListSpot.effect : ListSpot → Option (Nat × DWord)
  | .fails r a => some (7, scopePayload r a)
  | _ => none

/-- R392, `wapp`. -/
def execWapp (o : WApp) (s : State) : Host.Outcome State Fault Refusal :=
  let t := s.tm
  let core := coreOf s.cur
  let header := t.baseOf o.base + o.off.signExtend 64
  let item := strided o.item 1 4
  .next (s.guarded 16 o.msk (.ok .none) (fun _ => refs false item ++ WDst.refs o.dst) o.base.toList (fun _ => [])
    fun _ act =>
      let sp := act.map fun i => (i, s.appSpot core header (t.listDst o.dst i))
      let mk (i : Nat) : Item :=
        { header := header, dst := t.listDst o.dst i, lti := t.lti i, seq := s.seq, words := item.map fun r => t.rd r i }
      let misses := sp.filterMap fun x => match x.2 with
        | .miss a => some (t.lti x.1, a, LogOp.app header (mk x.1).words (mk x.1).dst s.seq)
        | _ => none
      if t.logFull (!misses.isEmpty) || (inPage header && s.linesWait core t.part) then s.stall
      else
        let read := (s.core core).level != .die && !act.isEmpty
        let u := (((sp.foldl (fun s x => match x.2 with | .at _ => s.queueItem core (mk x.1) | _ => s) s).finish
          { len := 16, outs := sp.map fun x => (x.1, { eff := x.2.effect })
            always := fun u => u.logAll s.clock s.seq misses }).askFor core t.part
              (if read then s.headerRead core (s.pendId 0) header else [])).touchAll core
                (if read && header.toNat % 64 == 0 then [header] else [])
        match sp.findSome? fun x => x.2.stops with
        | some b => u.broken s.cur b.1 b.2
        | none => u)

/-- R392, `wcnt`. -/
def execWcnt (o : WCnt) (s : State) : Host.Outcome State Fault Refusal :=
  let t := s.tm
  let core := coreOf s.cur
  let id := s.pendId 0
  let header := t.baseOf o.base + o.off.signExtend 64
  .next (s.guarded 16 o.msk (.ok .none) (fun _ => WDst.refs o.dst) o.base.toList (fun _ => [(o.d.val, false)])
    fun _ act =>
      let sp := act.map fun i => (i, s.cntSpot core header (t.listDst o.dst i) o.ov)
      let misses := sp.filterMap fun x => match x.2 with
        | .miss a => some (t.lti x.1, a, LogOp.cnt id header (t.listDst o.dst x.1) o.ov)
        | _ => none
      if t.logFull (!misses.isEmpty) || (inPage header && s.linesWait core t.part) then s.stall
      else
        let p := Pend.make id (.vec o.d false) .timed
          (sp.filterMap fun x => match x.2 with | .at k => some (t.lti x.1, BitVec.ofNat 64 (read32 (s.baseOf core) k)) | _ => none)
          (misses.map fun x => x.1)
        let found := s.headerRead core id header ++
          sp.filterMap fun x => match x.2 with | .at _ => some (id, s.cntWord core header (t.listDst o.dst x.1) o.ov) | _ => none
        let seen := (if header.toNat % 64 = 0 then [header] else []) ++
          (act.map fun i => s.cntWord core header (t.listDst o.dst i) o.ov).filter fun a => a.toNat % 4 == 0 && a != header
        let u := ((s.finish
          { len := 16, tags := [(o.d, .n32)], outs := sp.map fun x => (x.1, { eff := x.2.effect })
            always := fun u => Team.logAll { u with pend := u.pend ++ [p].filter Pend.live } s.clock s.seq misses }).askFor core t.part found).touchAll core seen
        match sp.findSome? fun x => x.2.stops with
        | some b => u.broken s.cur b.1 b.2
        | none => u)

end Sys2Proof.Machine
end

