-- ==== Sys2Proof/Machine/Copy.lean ====
section
/-! DEFINITION. The copy engine (13, R271 to R281) and `mcast` (19, R363 to R366): issue and its checks, and the run of a
command. -/
namespace Sys2Proof.Machine

/-! ## Rows (R276, R364) -/

/-- The numbers of a command's rows, ascending. -/
def CopyCmd.rows (c : CopyCmd) : List Nat :=
  match c.mask with
  | some k => (List.range 64).filter fun b => k.getLsbD b
  | none => List.range c.n

/-- The width of an element (R273). -/
def CopyCmd.width (c : CopyCmd) : Nat := if c.fmt.pair then 8 else 4

def times (j : Nat) (x : DWord) : DWord := BitVec.ofNat 64 (j * x.toNat)

/-- Source and destination of row j, whose index is `idx`. -/
def CopyCmd.srcAt (c : CopyCmd) (j idx : Nat) : Option DWord :=
  c.src.map fun a => match c.list, c.mask with
    | some (_, t, true), _ => a + times idx t
    | _, some _ => a
    | _, _ => a + times j c.srcStep

def CopyCmd.dstAt (c : CopyCmd) (j idx : Nat) : DWord :=
  match c.list with
  | some (_, t, false) => c.dst + times idx t
  | _ => c.dst + times j c.dstStep

/-- The address of the index of row j. -/
def CopyCmd.idxAt (c : CopyCmd) (j : Nat) : Option DWord := c.list.map fun x => x.1 + BitVec.ofNat 64 (4 * j)

/-! ## The checks at issue (R275, R449) -/

/-- The reason for which a window access of a copy fails; nothing for a page. -/
def windowFails (l : Launch) (align : Nat) (a : DWord) (width : Nat) (m : Mode) : Option (Nat × DWord) :=
  match windowOf l true align a.toNat width m with
  | some (.scope r) => some (r, a)
  | _ => none

/-- The first access, of those that do not depend on the index list, whose window check fails with one of some reasons: source
rows first, then the list, then destinations. -/
def CopyCmd.windowFail (c : CopyCmd) (l : Launch) (p : Nat → Bool) : Option (Nat × DWord) :=
  let w := c.width
  let only (x : Option (Nat × DWord)) : Option (Nat × DWord) := x.filter fun y => p y.1
  let srcDep := match c.list with | some (_, _, b) => b | none => false
  let dstDep := match c.list with | some (_, _, b) => !b | none => false
  let src := if srcDep then none
    else c.rows.findSome? fun j => (c.srcAt j 0).bind fun a => only (windowFails l w a c.len .read)
  let lst := (c.idxAt 0).bind fun a => only (windowFails l 4 a (4 * c.n) .read)
  let dst := if dstDep then none
    else c.rows.findSome? fun j => only (windowFails l w (c.dstAt j 0) c.len (.write c.rule c.land))
  src.or (lst.or dst)

/-- The first failure at issue: within one access R449 gives the reason; among accesses misalignment comes first (R275, log 35). -/
def CopyCmd.issueFails (c : CopyCmd) (l : Launch) : Option (Nat × DWord) :=
  (c.windowFail l fun r => r == 4).or (c.windowFail l fun _ => true)

/-- R275, reason 0x0D: lengths, counts and strides. -/
def CopyCmd.badSize (c : CopyCmd) (strides : List DWord) : Bool :=
  2 ^ 24 < c.n || 2 ^ 32 < c.len || 2 ^ 32 < c.n * c.len || c.len % c.width != 0 || strides.any fun x => x.toNat % c.width != 0

/-- The issue of a copy (R274, R275): `opc` its opcode, `strides` those that are checked, `more` what follows the checks. -/
def State.issueCopy (s : State) (msk : MReg) (opc : Nat) (uregs : List UReg) (mk : Team → DWord → CopyCmd)
    (strides : Team → List DWord) (more : CopyCmd → State → State) : State :=
  let t := s.tm
  s.guarded 16 msk (.ok .none) (fun _ => []) uregs (fun _ => []) fun _ act =>
    let i := act.headD 0
    let c := mk t (t.lti i)
    if 16 ≤ s.cr.copyQ.length then s.stall
    else if c.n = 0 ∨ c.len = 0 then s.putTm { t with pc := t.pc + 16 }
    else if c.badSize (strides t) then
      s.noAddress 16 [i] 0xD
    else match c.issueFails s.launch with
      | some f => s.raiseIn 16 [i] 7 (scopePayload f.1 f.2)
      | none =>
        if s.strict && c.rule == .any then s.raiseIn 16 [i] 0x10 (orderPayload opc)
        else more c s

/-- The command enters the queue. -/
def State.enqueueCopy (c : CopyCmd) (s : State) : State :=
  (s.putTm { s.tm with pc := s.tm.pc + 16 }).putCr { s.cr with copyQ := s.cr.copyQ ++ [c] }

def State.copyBase (s : State) (lti : DWord) (rule : Rule) (fmt : Tag) (land : Fin 8) : CopyCmd :=
  { id := s.pendId 0, seq := s.seq, lti := lti, n := 1, len := 0, src := none, srcStep := 0, dst := 0, dstStep := 0,
    fill := 0, list := none, mask := none, rule := rule, fmt := fmt, land := land.val }

def execCpy (o : Cpy) (s : State) : Host.Outcome State Fault Refusal :=
  .next (s.issueCopy o.msk 0xE1 ([o.d, o.n] ++ o.src.toList) (fun t lti =>
    { s.copyBase lti o.rule o.fa o.land with
        len := t.s[o.n].toNat, src := some (t.baseOf o.src + o.off.signExtend 64), dst := t.s[o.d] })
    (fun _ => []) State.enqueueCopy)

def execCpy2d (o : Cpy2d) (s : State) : Host.Outcome State Fault Refusal :=
  let sstr (t : Team) : DWord := (t.s[o.x].setWidth 32).signExtend 64
  let dstr (t : Team) : DWord := ((t.s[o.x] >>> 32).setWidth 32).signExtend 64
  .next (s.issueCopy o.msk 0xE4 ([o.d, o.n, o.x] ++ o.src.toList) (fun t lti =>
    { s.copyBase lti o.rule o.fa o.land with
        n := t.s[o.n].toNat, len := o.len.toNat, src := some (t.baseOf o.src + o.off.signExtend 64), dst := t.s[o.d]
        srcStep := sstr t, dstStep := dstr t })
    (fun t => [sstr t, dstr t]) State.enqueueCopy)

/-- `cpyg` and `cpys`. -/
def State.copyIx (s : State) (o : CpyIx) (opc : Nat) (gather : Bool) : State :=
  let T : DWord := BitVec.ofNat 64 (4 * o.stride4.toNat)
  let L : DWord := BitVec.ofNat 64 o.len.toNat
  s.issueCopy o.msk opc ([o.d, o.ix, o.n] ++ o.src.toList) (fun t lti =>
    { s.copyBase lti o.rule o.fa o.land with
        n := t.s[o.n].toNat, len := o.len.toNat, src := some (t.baseOf o.src + o.off.signExtend 64), dst := t.s[o.d]
        srcStep := L, dstStep := L, list := some (t.s[o.ix], T, gather) })
    (fun _ => [T]) State.enqueueCopy

def execCpyg (o : CpyIx) (s : State) : Host.Outcome State Fault Refusal := .next (s.copyIx o 0xE2 true)
def execCpys (o : CpyIx) (s : State) : Host.Outcome State Fault Refusal := .next (s.copyIx o 0xE3 false)

def execCpyf (o : CpyF) (s : State) : Host.Outcome State Fault Refusal :=
  .next (s.issueCopy o.msk 0xE5 ([o.d, o.n] ++ o.pat.toList) (fun t lti =>
    { s.copyBase lti o.rule o.fa o.land with len := t.s[o.n].toNat, dst := t.s[o.d], fill := t.baseOf o.pat })
    (fun _ => []) State.enqueueCopy)

/-! ## `mcast` -/

/-- One more, saturating at 0xFFFF (R366). -/
def sat16 (x : BitVec 16) : BitVec 16 := if x = 0xFFFF then x else x + 1

def execMcast (o : MCast) (s : State) : Host.Outcome State Fault Refusal :=
  let t := s.tm
  let x := t.exec o.msk
  let ur := [o.d, o.n, o.k, o.w] ++ o.src.toList
  let k := t.s[o.k]
  .next (
    if x ≠ 0 ∧ t.interlock x [] ur [] = .go ∧ k = 0 then
      s.putTm { t with pc := t.pc + 16, mcEmpty := sat16 t.mcEmpty }
    else s.issueCopy o.msk 0xE6 ur (fun t lti =>
      { s.copyBase lti o.rule o.fa o.land with
          len := t.s[o.n].toNat, src := some (t.baseOf o.src + o.off.signExtend 64), dst := t.s[o.d], dstStep := t.s[o.w]
          mask := some k })
      (fun t => [t.s[o.w]])
      fun c s =>
        let bad := k &&& ~~~(s.partBlk (s.ctx s.cr.ctx).part).mask
        if bad ≠ 0 then
          (s.putTm { t with mcOutp := true }).raiseIn 16 [(t.lanes x).headD 0] 0x15 bad
        else
          let own := k.getLsbD (clusterOf (coreOf s.cur))
          State.enqueueCopy c (s.putTm { t with mcLoop := if own then sat16 t.mcLoop else t.mcLoop }))

/-! ## The run of a command (R277, R278, R280) -/

/-- What the run of a part of a copy finds. -/
inductive Ran (α : Type) where
  | ok (x : α)
  | fails (reason : Nat) (a : DWord)
  | miss (a : DWord)
  | broken (a : DWord) (g : Got)
  /-- a host page without a translation, at an address -/
  | waits (page : Nat) (a : DWord)
  /-- a line of another package that has not come yet (R442) -/
  | far (key : Nat)

def Ran.bind {α β : Type} (x : Ran α) (f : α → Ran β) : Ran β :=
  match x with
  | .ok a => f a
  | .fails r a => .fails r a
  | .miss a => .miss a
  | .broken a g => .broken a g
  | .waits p a => .waits p a
  | .far k => .far k

/-- The bytes from an address to the end of its frame; a window range is one piece. -/
def toFrameEnd (a : DWord) (n : Nat) : Nat := if a.toNat / 2 ^ 52 = 0 then Nat.min n (2 ^ 16 - a.toNat % 2 ^ 16) else n

/-- The pieces of a row, offset and length, each in one frame at the source and at the destination. `fuel` bounds their number. -/
def pieces (src : Option DWord) (dst : DWord) : (fuel : Nat) → (off n : Nat) → List (Nat × Nat)
  | 0, _, _ => []
  | fuel + 1, off, n =>
    if n = 0 then []
    else
      let k := toFrameEnd (dst + BitVec.ofNat 64 off) n
      let k := match src with | some a => toFrameEnd (a + BitVec.ofNat 64 off) k | none => k
      (off, k) :: pieces src dst fuel (off + k) (n - k)

/-- The pieces of a row of n bytes. -/
def piecesOf (src : Option DWord) (dst : DWord) (n : Nat) : List (Nat × Nat) := pieces src dst (2 * (n / 2 ^ 16) + 4) 0 n

/-- One part of a source row. -/
def State.copyRead (s : State) (core : Nat) (lti : DWord) (align : Nat) (a : DWord) (n : Nat) : Ran (List Byte) :=
  match s.find core true align a n .read with
  | .scope r => .fails r a
  | .miss => .miss a
  | .malformed lv => .broken a (.broken lv)
  | .bad b => .broken a (.bad b (b * 64))
  | .here p =>
    match p with
    | .page pte pa =>
      if pteScope pte = 4 then
        match s.hostPage (pa / 2 ^ 16) with
        | some h => .ok (readBytes s.host (h * 2 ^ 16 + pa % 2 ^ 16) n)
        | none => .waits (pa / 2 ^ 16) a
      else match s.farLacks core pte pa n with
        | k :: _ => .far k
        | [] =>
          match s.badRead p n with
          | some b => .broken a (.bad b.1 b.2)
          | none => .ok (s.readSpot core lti p n)
    | _ => .ok (s.readSpot core lti p n)

/-- One part of a destination row: where it lies. An `mcast` wants a PACKAGE page, reason 0x11 taking its place in ascending order
(R365, R449). -/
def State.copyPlace (s : State) (core : Nat) (c : CopyCmd) (a : DWord) (n : Nat) : Ran Spot :=
  let elsewhere := c.mask.isSome && match s.translate core a.toNat with | .leaf p => pteScope p != 2 | _ => false
  match s.find core true c.width a n (.write c.rule c.land) with
  | .scope r => .fails (if a.toNat / 2 ^ 52 = 0 ∧ r ≠ 4 ∧ elsewhere then Nat.min r 0x11 else r) a
  | .miss => .miss a
  | .malformed lv => .broken a (.broken lv)
  | .bad b => .broken a (.bad b (b * 64))
  | .here p =>
    match c.mask, p with
    | none, p => .ok p
    | some _, .page pte pa => if pteScope pte = 2 then .ok (.page pte pa) else .fails 0x11 a
    | some _, _ => .fails 0x11 a

/-- Elements one by one, for SUM and SUMIN. -/
def chunks (w : Nat) : (fuel : Nat) → List Byte → List (List Byte)
  | 0, _ => []
  | fuel + 1, l => if l.isEmpty then [] else l.take w :: chunks w fuel (l.drop w)

def Spot.plus (p : Spot) (n : Nat) : Spot :=
  match p with
  | .priv o => .priv (o + n)
  | .loc o => .loc (o + n)
  | .exch k o => .exch k (o + n)
  | .page pte pa => .page pte (pa + n)

/-- Bytes with their offsets, cut where the lines of 128 bytes end that an address from `pa` on lies in. -/
def lineCuts (pa : Nat) : (fuel : Nat) → (off : Nat) → List Byte → List (Nat × List Byte)
  | 0, _, _ => []
  | fuel + 1, off, l =>
    if l.isEmpty then []
    else
      let k := 128 - (pa + off) % 128
      (off, l.take k) :: lineCuts pa fuel (off + k) (l.drop k)

/-- The parts that the bytes of a row are written in: elements under SUM and SUMIN, lines in a page, else all of it. An `mcast` is cut
where the lines of its source end too (R420). -/
def CopyCmd.cuts (c : CopyCmd) (src : DWord) (p : Spot) (b : List Byte) : List (Nat × List Byte) :=
  let lines (a : Nat) (l : List Byte) : List (Nat × List Byte) := lineCuts a (l.length / 128 + 2) 0 l
  if Rule.sums c.rule then (chunks c.width b.length b).zipIdx.map fun x => (x.2 * c.width, x.1)
  else match p with
    | .page _ pa =>
      if c.mask.isSome then
        (lines src.toNat b).flatMap fun x => (lines (pa + x.1) x.2).map fun y => (x.1 + y.1, y.2)
      else lines pa b
    | _ => [(0, b)]

/-- The writes of one part of a row. -/
def CopyCmd.writesOf (c : CopyCmd) (row : Nat) (src a : DWord) (p : Spot) (b : List Byte) : List (Spot × Write) :=
  (c.cuts src p b).map fun x =>
    (p.plus x.1, { lti := c.lti, seq := c.seq, row := row, addr := 0, va := a + BitVec.ofNat 64 x.1, bytes := x.2, rule := c.rule,
                   fmt := c.fmt, left := c.land, claim := none })

/-- Bytes of a fill, from an offset of its row on. -/
def CopyCmd.filled (c : CopyCmd) (off n : Nat) : List Byte :=
  (List.range n).map fun k => BitVec.ofNat 8 (c.fill.toNat / 2 ^ (8 * ((off + k) % 8)))

/-- One piece of a row: its bytes, and its writes. -/
def State.copyPiece (s : State) (core : Nat) (c : CopyCmd) (j idx : Nat) (x : Nat × Nat) : Ran (List (Spot × Write)) :=
  let to' := c.dstAt j idx + BitVec.ofNat 64 x.1
  let src := (c.srcAt j idx).map fun a => a + BitVec.ofNat 64 x.1
  (match src with
    | some a => s.copyRead core c.lti c.width a x.2
    | none => .ok (c.filled x.1 x.2)).bind fun b =>
      (s.copyPlace core c to' x.2).bind fun sp => .ok (c.writesOf j (src.getD 0) to' sp b)

/-- How far a run has come: rows, bytes of the next row, and the writes made on the way; and what stops it. -/
structure CopyEnd where
  at' : Nat × Nat
  got : List (Spot × Write)
  stop : Ran Unit

/-- Pieces of a row whose number among the rows is `r`. -/
def State.copyPieces (s : State) (core : Nat) (c : CopyCmd) (r j idx : Nat) : List (Nat × Nat) → CopyEnd
  | [] => { at' := (r + 1, 0), got := [], stop := .ok () }
  | x :: l =>
    match s.copyPiece core c j idx x with
    | .ok ws => let e := s.copyPieces core c r j idx l; { e with got := ws ++ e.got }
    | .fails n a => { at' := (r, x.1), got := [], stop := .fails n a }
    | .miss a => { at' := (r, x.1), got := [], stop := .miss a }
    | .broken a g => { at' := (r, x.1), got := [], stop := .broken a g }
    | .waits p a => { at' := (r, x.1), got := [], stop := .waits p a }
    | .far k => { at' := (r, x.1), got := [], stop := .far k }

/-- The index of a row (R276). -/
def State.copyIdx (s : State) (core : Nat) (c : CopyCmd) (j : Nat) : Ran Nat :=
  match c.idxAt j with
  | some a => (s.copyRead core c.lti 4 a 4).bind fun b => .ok (leNat b)
  | none => .ok 0

/-- The failure of a row's whole range in a window (R159, R275). -/
def CopyCmd.rowFails (c : CopyCmd) (l : Launch) (j idx : Nat) : Option (Nat × DWord) :=
  ((c.srcAt j idx).bind fun a => windowFails l c.width a c.len .read).or
    (windowFails l c.width (c.dstAt j idx) c.len (.write c.rule c.land))

/-- One row from an offset on. -/
def State.copyRow (s : State) (core : Nat) (c : CopyCmd) (r j off : Nat) : CopyEnd :=
  match s.copyIdx core c j with
  | .ok idx =>
    match c.rowFails (s.core core).launch j idx with
    | some f => { at' := (r, off), got := [], stop := .fails f.1 f.2 }
    | none => s.copyPieces core c r j idx ((piecesOf (c.srcAt j idx) (c.dstAt j idx) c.len).filter fun x => off ≤ x.1)
  | .fails n a => { at' := (r, off), got := [], stop := .fails n a }
  | .miss a => { at' := (r, off), got := [], stop := .miss a }
  | .broken a g => { at' := (r, off), got := [], stop := .broken a g }
  | .waits p a => { at' := (r, off), got := [], stop := .waits p a }
  | .far k => { at' := (r, off), got := [], stop := .far k }

/-- The rows from a place on. -/
def State.copyRows (s : State) (core : Nat) (c : CopyCmd) : (at' : Nat × Nat) → List Nat → CopyEnd
  | a, [] => { at' := a, got := [], stop := .ok () }
  | a, j :: l =>
    let e := s.copyRow core c a.1 j a.2
    match e.stop with
    | .ok _ => let f := s.copyRows core c e.at' l; { f with got := e.got ++ f.got }
    | _ => e

/-- The run of the first command of a core's queue, from the place that it has reached (R280). -/
def State.copyGo (s : State) (core : Nat) (c : CopyCmd) : CopyEnd :=
  let x := s.core core
  let e := s.copyRows core c x.copyAt (c.rows.drop x.copyAt.1)
  { e with got := x.copyGot ++ e.got }

/-- The writes of a command, from the snapshot of its step (which no step point has passed, R261). -/
def State.copyRun (s : State) (core : Nat) (c : CopyCmd) : Ran (List (Spot × Write)) :=
  let e := s.copyGo core c
  e.stop.bind fun _ => .ok e.got

/-! ## Threads, wherever they are -/

/-- The team of a core in which a thread stands, live or parked. -/
def State.teamOfThread (s : State) (core : Nat) (lti : DWord) : Option Nat :=
  ((s.teamsOf core).find? fun p => p.2.remap.any fun r => r.2 == lti).map fun p => p.1

/-- A fault or a failure of an engine reaches the issuing thread: in its team, in its seed, or, when it has exited, nowhere. -/
def State.toThread (s : State) (core : Nat) (lti : DWord) (f : Team → Team) (g : Seed → Seed) : State :=
  match s.teamOfThread core lti with
  | some k => s.setTeam k (f (s.team k))
  | none =>
    let c := s.core core
    let on (l : List Seed) : List Seed := l.map fun x => if x.lti == lti then g x else x
    s.setCore core { c with
      seeds := on c.seeds
      rounds := c.rounds.map fun r =>
        { r with parked := on r.parked, held := r.held.map fun x => (if x.1.lti == lti then g x.1 else x.1, x.2) } }

/-- Whether a copy's fault waits in a log of its core. -/
def State.copyLogged (s : State) (core id : Nat) : Bool :=
  let has (l : List LogE) : Bool := l.any fun e => match e.op with | .copy x _ _ => x == id | _ => false
  let c := s.core core
  ((s.teamsOf core).any fun p => has p.2.log) || (c.seeds ++ c.rounds.flatMap fun r => r.parked ++ r.held.map (·.1)).any fun x => has x.log

/-- Whether a thread stands in no team, seed or round of its core any more. -/
def State.threadGone (s : State) (core : Nat) (lti : DWord) : Bool :=
  let c := s.core core
  (s.teamOfThread core lti).isNone && !(c.seeds ++ c.rounds.flatMap fun r => r.parked ++ r.held.map (·.1)).any fun x => x.lti == lti

/-- The copy that the engine has started, where it misses in a page and its thread has gone: no log holds its fault, and the supervisor
decides (R280). -/
def State.orphanCopy (s : State) (core : Nat) (va : DWord) : Option CopyCmd :=
  match (s.core core).copyRun, (s.core core).copyQ with
  | true, c :: _ =>
    match (s.copyGo core c).stop with
    | .miss a => if s.threadGone core c.lti && a.toNat / 2 ^ 16 == va.toNat / 2 ^ 16 then some c else none
    | _ => none
  | _, _ => none

/-- A team's log has an entry for an engine's access; a thread outside every team brings its own. -/
def State.logRoom (s : State) (core : Nat) (lti : DWord) : Bool :=
  match s.teamOfThread core lti with
  | some k => (s.team k).log.length < 16
  | none => true

/-- R280: a miss takes one entry of the issuing team's log, with the row and the offset reached; a full log makes the engine wait
(R171). -/
def State.copyMiss (s : State) (core : Nat) (c : CopyCmd) (a : DWord) : State :=
  if s.copyLogged core c.id || !s.logRoom core c.lti then s
  else
    let key := s.clock * 2 ^ 40 + 2 ^ 30
    let x := s.core core
    let e : LogE := { key := key, stamp := c.seq, ltis := [c.lti], addr := a
                      op := .copy c.id ((c.rows.getD x.copyAt.1 0)) x.copyAt.2 }
    let x : Trap := { stamp := c.seq, eff := 6, lti := c.lti, payload := a, act := .access [key], sup := false }
    s.toThread core c.lti (fun t => { t with log := t.log ++ [e], traps := t.traps ++ [x] })
      fun d => { d with log := d.log ++ [e], traps := d.traps ++ [x] }

/-- The first command leaves the queue. -/
def State.popCopy (s : State) (core : Nat) : State :=
  let c := s.core core
  (s.setCore core { c with copyQ := c.copyQ.tail, copyRun := false, copyAt := (0, 0), copyGot := [] }).flow

/-- R280: the copy is withdrawn whole, and its thread receives `e.scope`. -/
def State.copyFails (s : State) (core : Nat) (c : CopyCmd) (reason : Nat) (a : DWord) : State :=
  let x : Trap := { stamp := c.seq, eff := 7, lti := c.lti, payload := scopePayload reason a, act := .scope, sup := false }
  (s.popCopy core).toThread core c.lti (fun t => { t with traps := t.traps ++ [x] }) fun d => { d with traps := d.traps ++ [x] }

/-- A malformed table or a bad sector under a copy goes to the supervisor, which discards the phase; the copy is over. -/
def State.copyBroken (s : State) (core : Nat) (a : DWord) (g : Got) : State :=
  (match g with
    | .broken lv => s.malformed core a lv
    | .bad b pa => s.badSector core b pa
    | _ => s).popCopy core

/-- The engine has started its first command and has come so far. -/
def State.copyReached (s : State) (core : Nat) (e : CopyEnd) : State :=
  s.setCore core { s.core core with copyRun := true, copyAt := e.at', copyGot := e.got }

/-- The addresses of the 128-byte lines of some bytes. -/
def lineStarts (a : DWord) (n : Nat) : List DWord :=
  if n = 0 then [] else (List.range ((a.toNat % 128 + n + 127) / 128)).map fun k => if k = 0 then a else a + BitVec.ofNat 64 (128 * k - a.toNat % 128)

/-- The addresses of the lines that a command reads between two places of its rows: of its index words and of its sources. -/
def State.copyReads (s : State) (core : Nat) (c : CopyCmd) (a b : Nat × Nat) : List DWord :=
  (c.rows.zipIdx.filter fun x => a.1 ≤ x.2 && x.2 ≤ b.1).flatMap fun x =>
    let lo := if x.2 = a.1 then a.2 else 0
    let hi := if x.2 = b.1 then b.2 else c.len
    (c.idxAt x.1).toList ++
      match c.srcAt x.1 (match s.copyIdx core c x.1 with | .ok i => i | _ => 0) with
      | some p => lineStarts (p + BitVec.ofNat 64 lo) (hi - lo)
      | none => []

/-- R415: the engine asks for lines; those of other packages that it has it does not ask for again. -/
def State.copyAsk (s : State) (core : Nat) (c : CopyCmd) (l : List DWord) : State :=
  ((l.filterMap (s.lineAt core)).filter fun x => !(x.1 == ctlNode && s.knows core x.2)).foldl
    (fun s x => s.askLine core copyReader x.1 x.2 c.id) s

/-- The engine looks at its first command, from the place that it has reached. -/
def State.copyLook (s : State) (core : Nat) : State :=
  let x := s.core core
  match x.copyQ with
  | [] => s
  | c :: _ =>
    let e := s.copyGo core c
    let on := (s.copyReached core e).copyAsk core c (s.copyReads core c x.copyAt e.at')
    match e.stop with
    | .ok _ => on
    | .fails r a => (s.copyFails core c r a).touchAll core (s.translated core c.width 1 .read [a])
    | .miss a => (on.copyMiss core c a).touch core a
    | .broken a g => (s.copyBroken core a g).touch core a
    | .waits p a => (on.askAts p).touch core a
    | .far k => if on.lineAsked core (k / 128) then on else on.askLine core copyReader ctlNode (k / 128) c.id

/-- The addresses that the rows of a command read. -/
def State.copySources (s : State) (core : Nat) (c : CopyCmd) : List DWord :=
  c.rows.flatMap fun j =>
    (c.idxAt j).toList ++ (c.srcAt j (match s.copyIdx core c j with | .ok i => i | _ => 0)).toList

/-- What the translation caches keep of a command that starts (R376). -/
def State.copyTouch (s : State) (core : Nat) (c : CopyCmd) : State :=
  let s := (s.copySources core c).foldl (fun s a => s.touch core a) s
  ((s.core core).copyGot.map fun w => w.2.va).foldl (fun s a => s.touch core a) s

/-- The engine starts its first command. -/
def State.copyStart (s : State) (core : Nat) : State :=
  match (s.core core).copyRun, (s.core core).copyQ with
  | false, c :: _ =>
    let t := s.copyLook core
    if (t.core core).copyRun then t.copyTouch core c else t
  | _, _ => s

/-- The slice that homes a place. -/
def State.homeOf (s : State) (p : Spot) : Option (NetNode × Nat) :=
  match p with
  | .page pte pa => some (keyLeaf (s.devKey pte pa), s.devKey pte pa)
  | _ => none

/-- R420, R422: the copies of an `mcast`, whose row number is that of its cluster (R364). The copy of the issuer's own cluster goes out as ordinary landing writes; the others
of one source line share a packet. -/
def State.sendMulti (s : State) (core : Nat) (c : CopyCmd) (ws : List (Spot × Write)) : State :=
  let own (w : Spot × Write) : Bool := w.2.row == clusterOf core
  let s := (ws.filter own).foldl (fun s w => s.queue core w.1 w.2) s
  let line (w : Write) : Nat := (c.src.getD 0 + (w.va - c.dstAt w.row 0)).toNat / 128
  let rest := ws.filter fun w => !own w
  (distinct (rest.map fun w => line w.2)).reverse.foldl (fun s o =>
    s.emitMulti core ((rest.filter fun w => line w.2 == o).filterMap fun w =>
      (s.homeOf w.1).map fun h => (h.1, { w.2 with addr := h.2 }))) s

/-- The engine has moved its first command, all lines that it reads having come: its writes leave for their destinations (R278). One that
could not go on looks again, unless it waits in an operand log for its thread to resume or for the supervisor (R280). -/
def State.copyFinish (s : State) (core : Nat) : State :=
  match (s.core core).copyRun, (s.core core).copyQ with
  | true, c :: _ =>
    if s.asked core c.id || s.copyLogged core c.id then s
    else if (s.core core).copyAt.1 < c.rows.length then s.copyLook core
    else match s.copyRun core c with
    | .ok ws => (if c.mask.isSome then s.sendMulti core c ws else ws.foldl (fun s w => s.queue core w.1 w.2) s).popCopy core
    | _ => s.copyLook core
  | _, _ => s

end Sys2Proof.Machine
end

