-- ==== Sys2Proof/Machine/Matrix.lean ====
section
/-! DEFINITION. The matrix engine (15 and 16, R293 to R332): shapes, windows, products by chunks, accumulator reads and
writes, compression, splitting and recombining. -/
namespace Sys2Proof.Machine

/-! ## Common rules -/

/-- The leader team, the elected issuer (R63, R301). -/
def Team.leader (t : Team) : Bool := !t.formed && t.first == 0

/-- The payload of `e.ill` raised at execution, laid out as R53, in the active slots (DEDUCED, log 43). -/
def illPayload (reason : Nat) (pc : DWord) : DWord := fetchPayload reason pc

/-- The payload of `e.acc` (Table 15-3). -/
def accPayload (reason : Nat) (idx : Bool) (row : Nat) : DWord :=
  BitVec.ofNat 64 (reason * 2 ^ 16 + (if idx then 2 ^ 12 else row % 2 ^ 12))

/-- Whether a row lies in a team's window (R302). -/
def Team.ownsRow (t : Team) (row : Int) : Bool := decide ((t.acb : Int) ≤ row) && decide (row < (t.acb : Int) + t.acl)

/-- The number of launch teams (R318). -/
def Launch.teams (l : Launch) : Nat := (l.nth + l.team - 1) / l.team

/-- Whether a row lies in some window in force (R302). -/
def CoreSt.anyRow (c : CoreSt) (row : Int) : Bool :=
  match c.win with
  | some (b, n) => decide ((b : Int) ≤ row) && decide (row < (b : Int) + n * c.launch.teams)
  | none => false

/-- What an instruction that acts once does: the slots that raise, or the work. -/
inductive Once where
  | raises (slots : List Nat) (id : Nat) (payload : DWord)
  | done (s : State)

/-- A matrix instruction that acts once (R314): `f` is given the active slots. -/
def State.once (s : State) (len : Nat) (msk : MReg) (reads : VRefs) (ureads : List UReg) (f : List Nat → Once) : State :=
  s.guarded len msk (.ok .none) (fun _ => reads) ureads (fun _ => []) fun _ act =>
    match f act with
    | .raises l id p => s.raiseIn len l id p
    | .done s => s

def State.advance (s : State) (len : Nat) : State := s.putTm { s.tm with pc := s.tm.pc + BitVec.ofNat 64 len }

/-! ## `mshape`, `mwin`, `mzero` (R317 to R319) -/

def shapeOf (c : Fin 4) : Nat := 16 * 2 ^ c.val

def execMshape (o : MShape) (s : State) : Host.Outcome State Fault Refusal :=
  .next (s.once 8 o.msk [] [] fun act =>
    if !s.tm.leader then .raises act 1 (illPayload 0xB s.tm.pc)
    else .done ((s.advance 8).putCr { s.cr with grantReq := some (shapeOf o.mc, shapeOf o.nc) }))

def execMwin (o : MWin) (s : State) : Host.Outcome State Fault Refusal :=
  .next (s.once 12 o.msk [] [] fun act =>
    if !s.tm.leader then .raises act 1 (illPayload 0xB s.tm.pc)
    else if 4096 < o.base.toNat + s.launch.teams * o.len.val then .raises act 0xB (accPayload 3 false 0)
    else .done ((s.advance 12).putCr { s.cr with winReq := some (o.base.toNat, o.len.val) }))

/-- The first row of a list that the team does not own. -/
def Team.badRow (t : Team) (l : List Int) : Option Int := l.find? fun r => !t.ownsRow r

def rowPayload (reason : Nat) (row : Int) : DWord := accPayload reason false (row % 4096).toNat

def execMzero (o : MZero) (s : State) : Host.Outcome State Fault Refusal :=
  let t := s.tm
  let r := t.s[o.r].toNat
  let n := t.s[o.n].toNat
  -- rows up to the first that cannot lie in any window
  let rows : List Int := (List.range (min n 4097)).map fun (k : Nat) => (r : Int) + (k : Int)
  .next (s.once 8 o.msk [] [o.r, o.n] fun act =>
    match t.badRow rows with
    | some b => .raises act 0xB (rowPayload 1 b)
    | none =>
      let lti := t.lti (act.headD 0)
      let ws : List AccWrite := (List.range (n * 128)).map fun e =>
        { lti := lti, seq := s.seq, elem := r * 128 + e, val := 0, low := false, left := 1 }
      .done ((s.advance 8).putCr { s.cr with accWrites := s.cr.accWrites ++ ws }))

/-! ## Operand windows (R303) -/

/-- Where a range of a matrix operand lies: the local window or an exchange window; or the reason of `e.scope`. -/
def matSpot (l : Launch) (align : Nat) (a : DWord) (n : Nat) : Except Nat Spot :=
  let loc := a.toNat / 2 ^ 21 == 0xFE00 * 2 ^ 27
  let exch := a.toNat / 2 ^ 27 == 0xFE01 * 2 ^ 21
  if !(loc || exch) then .error 0xF
  else match windowOf l false align a.toNat n .read with
    | some (.here p) => .ok p
    | some (.scope r) => .error r
    | _ => .error 0xF

/-- The first range that fails, with its reason and address. -/
def matFails (l : Launch) (rs : List (Nat × DWord × Nat)) : Option (Nat × DWord) :=
  rs.findSome? fun r => match matSpot l r.1 r.2.1 r.2.2 with
    | .error e => some (e, r.2.1)
    | .ok _ => none

/-- Bytes of an operand, from the snapshot. -/
def State.matBytes (s : State) (core : Nat) (a : DWord) (n : Nat) : List Byte :=
  match matSpot (s.core core).launch 1 a n with
  | .ok p => s.readSpot core 0 p n
  | .error _ => List.replicate n 0

/-! ## Chunks (R107 to R110, R305) -/

/-- 32 elements of one operand along K, with what its block says. -/
structure Chunk where
  bad : Bool
  sc : Nat
  es : List FVal
  deriving Repr, Inhabited

def qnanV : FVal := .nan false false (2 ^ 22) 23

def Dy.toF (x : Dy) : FVal := if x.n = 0 then .fin false 0 0 else .fin (x.n < 0) x.n.natAbs x.e

/-- A product as a contribution: a NaN operand, quieted; the default NaN of 0 × ∞; else the exact product (R109). -/
def prodF (x y : FVal) : FVal × BitVec 6 :=
  match [x, y].find? FVal.isNan with
  | some (.nan _ n f fb) => (.nan false n (if f / 2 ^ (fb - 1) % 2 = 1 then f else f + 2 ^ (fb - 1)) fb, if x.isSig || y.isSig then flNV else 0)
  | some _ => (qnanV, flNV)
  | none => match fProd x y with
    | some p => (p, 0)
    | none => (qnanV, flNV)

/-- The exponent of a product that is a number and not zero. -/
def prodLog : FVal → Option Int
  | .fin _ m e => if m = 0 then none else some (e + lg m)
  | _ => none

/-- Truncates a magnitude to a multiple of 2^q; with whether bits were discarded. -/
def truncF (q : Int) : FVal → Dy × Bool
  | .fin s m e =>
    if q ≤ e then ((FVal.fin s m e).dy, false)
    else
      let d := 2 ^ (q - e).toNat
      ((FVal.fin s (m / d) q).dy, m % d != 0)
  | _ => (Dy.zero, false)

/-- R109. -/
def chunkFloat (a b : List FVal) : FVal × BitVec 6 :=
  let ps := (a.zip b).map fun p => prodF p.1 p.2
  let fl := ps.foldl (fun f p => f ||| p.2) (0 : BitVec 6)
  let vs := ps.map fun p => p.1
  match vs.find? FVal.isNan with
  | some x => (x, fl)
  | none =>
    let pinf := vs.contains (.inf false)
    let ninf := vs.contains (.inf true)
    if pinf && ninf then (qnanV, fl ||| flNV)
    else if pinf then (.inf false, fl)
    else if ninf then (.inf true, fl)
    else match vs.filterMap prodLog with
      | [] => (.fin false 0 0, fl)
      | e :: r =>
        let E := r.foldl max e
        let ts := vs.map (truncF (E - 48))
        (Dy.toF (ts.foldl (fun (d : Dy) t => d.add t.1) Dy.zero), if ts.any fun t => t.2 then fl ||| flNX else fl)

/-- R108. -/
def chunkBlock (a b : Chunk) : FVal × BitVec 6 :=
  if a.bad || b.bad || a.sc == 255 || b.sc == 255 || (a.es ++ b.es).any FVal.isNan then (qnanV, flNV)
  else
    let d := (a.es.zip b.es).foldl (fun (d : Dy) p => d.add (p.1.dy.mul p.2.dy)) Dy.zero
    (Dy.toF { d with e := d.e + a.sc + b.sc - 254 }, 0)

def i32ok (x : Int) : Bool := decide (-(2 ^ 31 : Int) ≤ x) && decide (x < (2 ^ 31 : Int))

/-- R110: the I32 sum with its overflow; a sum that leaves the range inside a chunk only is a free value. -/
def chunkInt (acc : Int) (a b : List FVal) : Int × Bool :=
  let ps : List Int := (a.zip b).map fun p => p.1.dy.n * p.2.dy.n
  let r := ps.foldl (fun (x : Int × Bool) p => (x.1 + p, x.2 || !i32ok (x.1 + p))) (acc, false)
  (r.1, !i32ok r.1 || (r.2 && Config.innerChunkOverflow acc ps))

/-- The element after a chunk, with its exceptions as bits 5 to 0 of `%mstat` (R107, R110). -/
def chunkStep (cls : MClass) (acc : Word) (a b : Chunk) : Word × BitVec 6 :=
  match cls with
  | .i8 =>
    let r := chunkInt acc.toInt a.es b.es
    (BitVec.ofInt 32 r.1, if r.2 then 0x20 else 0)
  | cls =>
    let c := match cls with | .blk => chunkBlock a b | _ => chunkFloat a.es b.es
    let r := fp32.sum [fp32.val acc.toNat, c.1]
    (BitVec.ofNat 32 r.1, (c.2 ||| r.2) &&& 0x1F)

/-! ## Descriptors and layouts (R320 to R323) -/

/-- A product descriptor. -/
structure PDesc where
  ad : DWord
  bd : DWord
  ast : Nat
  bst : Nat
  row : Nat
  k : Nat
  ainc : DWord
  binc : DWord
  rinc : Int
  cnt : Nat
  /-- addresses, strides and increments of A scales, B scales, A tags, B tags -/
  aux : List (DWord × Nat × DWord)
  /-- a reserved bit is set -/
  reserved : Bool
  deriving Repr

/-- Bits hi to lo of a doubleword. -/
def bitsOf (x : DWord) (hi lo : Nat) : Nat := x.toNat / 2 ^ lo % 2 ^ (hi + 1 - lo)

/-- The same, sign-extended. -/
def sbitsOf (x : DWord) (hi lo : Nat) : Int :=
  let n := bitsOf x hi lo
  if 2 ^ (hi - lo) ≤ n then (n : Int) - 2 ^ (hi + 1 - lo) else n

/-- Descriptor register j. -/
def Team.desc (t : Team) (r : UReg) (j : Nat) : DWord := t.s[(Fin.ofNat 96 (r.val + j))]

def Team.pdesc (t : Team) (r : UReg) (loop blk : Bool) : PDesc :=
  let p := t.desc r
  let b := if loop then 6 else 4
  let l0 := if loop then p 4 else 0
  let l1 := if loop then p 5 else 0
  let st := p (b + 4)
  let inc := if loop then p (b + 5) else 0
  { ad := p 0, bd := p 1, ast := bitsOf (p 2) 31 0, bst := bitsOf (p 2) 63 32, row := bitsOf (p 3) 31 20, k := bitsOf (p 3) 19 0
    ainc := BitVec.ofInt 64 (sbitsOf l0 31 0), binc := BitVec.ofInt 64 (sbitsOf l0 63 32), rinc := sbitsOf l1 47 32
    cnt := if loop then bitsOf l1 23 0 else 1
    aux := if blk then [(p b, bitsOf st 15 0, BitVec.ofInt 64 (sbitsOf inc 15 0)), (p (b + 1), bitsOf st 31 16, BitVec.ofInt 64 (sbitsOf inc 31 16)),
        (p (b + 2), bitsOf st 47 32, BitVec.ofInt 64 (sbitsOf inc 47 32)), (p (b + 3), bitsOf st 63 48, BitVec.ofInt 64 (sbitsOf inc 63 48))] else []
    reserved := bitsOf (p 3) 63 32 != 0 || bitsOf l1 63 48 != 0 || bitsOf l1 31 24 != 0 }

/-- The registers of a descriptor. -/
def descRegs (r : UReg) (n : Nat) : List UReg := (List.range n).map fun j => Fin.ofNat 96 (r.val + j)

/-- The address of row r (or column) in iteration `it`. -/
def rowAt (base : DWord) (stride : Nat) (inc : DWord) (it r : Nat) : DWord := base + BitVec.ofNat 64 (r * stride) + times it inc

/-- The tag of a block (R103). -/
def blockTag (tags : List Byte) (j : Nat) : Nat := (tags.getD (j / 4) 0).toNat / 2 ^ (2 * (j % 4)) % 4

/-- Bytes of a block by its tag. -/
def blockSize (tag : Nat) : Nat := if tag < 2 then 32 else 16

/-- One row's operand as the class lays it out. -/
structure RowSrc where
  data : DWord
  scale : DWord
  tag : DWord
  deriving Repr

/-- Bytes of the data of a row. -/
def State.rowBytes (s : State) (core : Nat) (cls : MClass) (sparse : Bool) (k : Nat) (x : RowSrc) : Nat :=
  if sparse then k / 2
  else match cls with
    | .bf16 | .f16 => 2 * k
    | .i8 => k
    | .blk =>
      let tags := s.matBytes core x.tag ((k / 32 + 3) / 4)
      ((List.range (k / 32)).map fun j => blockSize (blockTag tags j)).sum

/-- A decoded block element (R103). -/
def blockElem (tag : Nat) (b : List Byte) (i : Nat) : FVal :=
  match tag with
  | 0 => k8tVal (b.getD i 0).toNat
  | 1 => (EFmt.int 8 true).val (b.getD i 0).toNat
  | 2 => f4Val ((b.getD (i / 2) 0).toNat / 2 ^ (4 * (i % 2)) % 16)
  | _ => (EFmt.int 4 true).val ((b.getD (i / 2) 0).toNat / 2 ^ (4 * (i % 2)) % 16)

/-- The blocks of a dense row, from the data on. -/
def denseBlocks (tags scales : List Byte) : (n j : Nat) → List Byte → List Chunk
  | 0, _, _ => []
  | n + 1, j, b =>
    let t := blockTag tags j
    { bad := false, sc := (scales.getD j 0).toNat, es := (List.range 32).map (blockElem t b) } ::
      denseBlocks tags scales n (j + 1) (b.drop (blockSize t))

/-- Dense places of a sparse chunk: `g` the stored values of its four groups, `w` their metadata (R307). -/
def spread (val : Byte → FVal) (g : List Byte) (w : List Nat) : List FVal :=
  (List.range 32).map fun e =>
    let m := w.getD (e / 8) 0
    match (List.range 4).find? fun j => m / 2 ^ (3 * j) % 8 == e % 8 with
    | some j => val (g.getD (4 * (e / 8) + j) 0)
    | none => .fin false 0 0

/-- The chunks of a row; `meta` the metadata words of a sparse one. -/
def State.rowChunks (s : State) (core : Nat) (cls : MClass) (md : Option (List Nat)) (k : Nat) (x : RowSrc) : List Chunk :=
  let b := s.matBytes core x.data (s.rowBytes core cls md.isSome k x)
  let n := (k + 31) / 32
  let scales := match cls with | .blk => s.matBytes core x.scale (k / 32) | _ => []
  let tags := match cls with | .blk => s.matBytes core x.tag ((k / 32 + 3) / 4) | _ => []
  match md with
  | some ws =>
    (List.range n).map fun j =>
      let tg := blockTag tags j
      let v : Byte → FVal := match cls with
        | .blk => if tg = 0 then fun y => k8tVal y.toNat else fun y => (EFmt.int 8 true).val y.toNat
        | _ => fun y => (EFmt.int 8 true).val y.toNat
      { bad := (match cls with | .blk => 1 < tg | _ => false), sc := (scales.getD j 0).toNat
        es := spread v (b.drop (16 * j)) (ws.drop (4 * j)) }
  | none =>
    match cls with
    | .blk => denseBlocks tags scales n 0 b
    | .i8 => (List.range n).map fun j =>
        { bad := false, sc := 127, es := ((b.drop (32 * j)).take 32).map fun y => (EFmt.int 8 true).val y.toNat }
    | c =>
      let F := match c with | .f16 => fp16 | _ => bf16
      (List.range n).map fun j =>
        { bad := false, sc := 127
          es := (List.range (min 32 (k - 32 * j))).map fun e => F.val (leNat ((b.drop (64 * j + 2 * e)).take 2)) }

/-! ## Products (R295, R309, R316, R320 to R325) -/

/-- The layout of a row of A or of a column of B. -/
def PDesc.rowSrc (p : PDesc) (isB : Bool) (it r : Nat) : RowSrc :=
  let a (j : Nat) : DWord := match p.aux[if isB then j + 1 else j]? with
    | some x => rowAt x.1 x.2.1 x.2.2 it r
    | none => 0
  { data := if isB then rowAt p.bd p.bst p.binc it r else rowAt p.ad p.ast p.ainc it r, scale := a 0, tag := a 2 }

/-- Metadata word w (R308). -/
def Team.metaWord (t : Team) (vregs : Nat) (m : VReg) (w : Nat) : Nat :=
  let r := m.val + w / (2 * t.cap)
  if vregs ≤ r then 0 else (t.rd r (w / 2 % t.cap)).toNat / 2 ^ (16 * (w % 2)) % 2 ^ 16

/-- R307, R309: whether a metadata word is malformed. -/
def metaBad (w : Nat) : Bool :=
  let i (j : Nat) : Nat := w / 2 ^ (3 * j) % 8
  w / 2 ^ 12 != 0 || !(i 0 < i 1 && i 1 < i 2 && i 2 < i 3)

/-- The ranges that a product reads, with their alignments: tags and scales before data, A before B. -/
def State.productRanges (s : State) (core : Nat) (cls : MClass) (sparse : Bool) (p : PDesc) (gm gn : Nat) :
    List (Nat × DWord × Nat) :=
  let rows (isB : Bool) : List RowSrc := (List.range p.cnt).flatMap fun it => (List.range (if isB then gn else gm)).map fun r => p.rowSrc isB it r
  let side (isB : Bool) : List (Nat × DWord × Nat) :=
    (match cls with
      | .blk => (rows isB).flatMap fun x => [(1, x.tag, (p.k / 32 + 3) / 4), (1, x.scale, p.k / 32)]
      | _ => []) ++
    (rows isB).map fun x => (16, x.data, s.rowBytes core cls (sparse && !isB) p.k x)
  side false ++ side true

/-- R322: AD, BD, AST, BST, AINC and BINC are multiples of 16; with the address that a payload names. -/
def PDesc.misaligned (p : PDesc) : Option DWord :=
  if p.ast % 16 ≠ 0 ∨ p.ainc.toNat % 16 ≠ 0 then some p.ad
  else if p.bst % 16 ≠ 0 ∨ p.binc.toNat % 16 ≠ 0 then some p.bd
  else none

/-- The values that a product gives its elements, iteration by iteration, and its exceptions. -/
def State.product (s : State) (core : Nat) (cls : MClass) (z : Bool) (md : Nat → Nat → Option (List Nat)) (p : PDesc) (gm gn : Nat) :
    SMap Word × BitVec 6 :=
  let acc := (s.core core).acc
  (List.range p.cnt).foldl (fun (a : SMap Word × BitVec 6) it =>
    let A := (List.range gm).map fun r => s.rowChunks core cls (md it r) p.k (p.rowSrc false it r)
    let B := (List.range gn).map fun c => s.rowChunks core cls none p.k (p.rowSrc true it c)
    let row0 := ((p.row : Int) + it * p.rinc).toNat
    (List.range gm).foldl (fun (a : SMap Word × BitVec 6) r =>
      (List.range gn).foldl (fun (a : SMap Word × BitVec 6) c =>
        let e := (row0 + r) * 128 + c
        let start := match a.1.lookup e with
          | some x => x
          | none => if z then 0 else acc.get 0 e
        let v := ((A.getD r []).zip (B.getD c [])).foldl (fun (x : Word × BitVec 6) ch =>
          let y := chunkStep cls x.1 ch.1 ch.2
          (y.1, x.2 ||| y.2)) (start, a.2)
        (a.1.put e v.1, v.2)) a) a) ([], 0)

/-- `mmul` and `mloop`. -/
def State.prod (s : State) (o : MProd) (loop : Bool) : State :=
  let t := s.tm
  let core := coreOf s.cur
  let c := s.cr
  let blk := o.cls == .blk
  let p := t.pdesc o.desc loop blk
  let nreg := if loop then (if blk then 12 else 6) else if blk then 9 else 4
  let words := p.cnt * c.gm * (p.k / 8)
  let mregs : List Nat := match o.sp with
    | some m => ((List.range ((words + 2 * t.cap - 1) / (2 * t.cap))).map fun j => m.val + j).filter fun r => r < s.vregs
    | none => []
  let void := p.k = 0 ∨ p.cnt = 0
  if 16 ≤ c.matQ.length then (if t.exec o.msk = 0 then s.advance 16 else s.stall)
  else s.once 16 o.msk (if void then [] else refs false mregs) (descRegs o.desc nreg) fun act =>
    let i := act.headD 0
    let sc (r : Nat) (a : DWord) : Once := .raises [i] 7 (scopePayload r a)
    if loop && !t.leader then .raises act 1 (illPayload 0xB t.pc)
    else if c.gm = 0 then .raises act 1 (illPayload 0xC t.pc)
    else if void then .done (s.advance 16)
    else if p.reserved || ((blk || o.sp.isSome) && p.k % 32 != 0) then
      .raises [i] 7 (s.bareScope i 0x10)
    else match matFails s.launch (s.productRanges core o.cls o.sp.isSome p c.gm c.gn) with
      | some f => sc f.1 f.2
      | none =>
        match p.misaligned with
        | some a => sc 4 a
        | none =>
          let rows : List Int := (List.range p.cnt).flatMap fun (it : Nat) => (List.range c.gm).map fun (r : Nat) => (p.row : Int) + (it : Int) * p.rinc + (r : Int)
          match rows.find? fun r => !(if loop then c.anyRow r else t.ownsRow r) with
          | some r => .raises act 0xB (rowPayload (if loop then 2 else 1) r)
          | none =>
            let g := p.k / 8
            let bad := match o.sp with
              | some m => (List.range words).find? fun w => metaBad (t.metaWord s.vregs m w)
              | none => none
            match bad with
            | some w => .raises [i] 0xC (BitVec.ofNat 64 (w % g + w / g * 2 ^ 20))
            | none =>
              let md (it r : Nat) : Option (List Nat) := o.sp.map fun m =>
                (List.range g).map fun j => t.metaWord s.vregs m ((it * c.gm + r) * g + j)
              let r := s.product core o.cls o.z md p c.gm c.gn
              let ws : List AccWrite := r.1.map fun e =>
                { lti := t.lti i, seq := s.seq, elem := e.1, val := e.2, low := o.low, left := o.land.val }
              let cmd : MatCmd := { id := s.pendId 0, acc := ws, writes := [], stats := [{ bits := r.2, clu := false, left := o.land.val }] }
              .done ((s.advance 16).putCr { c with matQ := c.matQ ++ [cmd] })

def execMmul (o : MProd) (s : State) : Host.Outcome State Fault Refusal := .next (s.prod o false)
def execMloop (o : MProd) (s : State) : Host.Outcome State Fault Refusal := .next (s.prod o true)

/-! ## `mrd` and `mwr` (R326 to R328) -/

/-- The first element of a slot that its team may not touch: the payload of `e.acc`. -/
def Team.badElem (t : Team) (e : DWord) (n : Nat) : Option DWord :=
  (List.range n).findSome? fun j =>
    let x := e.toNat + j
    if 524288 ≤ x then some (accPayload 1 true 0)
    else if t.ownsRow ((x / 128 : Nat) : Int) then none else some (accPayload 1 false (x / 128))

def execMrd (o : MRd) (s : State) : Host.Outcome State Fault Refusal :=
  let t := s.tm
  let n := o.n1.val + 1
  let regs := strided o.d 1 n
  .next (s.perSlot 16 o.msk (.ok o.fa) (fun _ => Addr.vrefs o.addr) (Addr.urefs o.addr) (fun _ => refs false regs)
    fun f act =>
      let bad (i : Nat) : Option DWord := t.badElem (t.addrOf o.addr i) n
      let ok := act.filter fun i => (bad i).isNone
      { len := 16, tags := regs.map fun r => (Fin.ofNat 1024 r, f)
        outs := act.map fun i => (i, { eff := (bad i).map fun p => (0xB, p) })
        always := fun u => { u with pend := u.pend ++ (regs.zipIdx.map fun r =>
          Pend.make (s.pendId r.2) (.vec (Fin.ofNat 1024 r.1) false) .timed
            (ok.map fun i => (t.lti i, (s.cr.acc.get 0 ((t.addrOf o.addr i).toNat + r.2)).setWidth 64)) []).filter Pend.live } })

def execMwr (o : MWr) (s : State) : Host.Outcome State Fault Refusal :=
  let t := s.tm
  let n := o.n1.val + 1
  let regs := strided o.src 1 n
  let chk : Except DWord Tag := match regs.find? fun r => (t.tagOf r).pair with
    | some r => .error (fmtPayload r (t.tagOf r) o.fa)
    | none => .ok o.fa
  .next (s.guarded 16 o.msk chk (fun _ => refs false regs ++ Addr.vrefs o.addr) (Addr.urefs o.addr) (fun _ => [])
    fun _ act =>
      let bad (i : Nat) : Option DWord := t.badElem (t.addrOf o.addr i) n
      let ws : List AccWrite := (act.filter fun i => (bad i).isNone).flatMap fun i => regs.zipIdx.map fun r =>
        { lti := t.lti i, seq := s.seq, elem := (t.addrOf o.addr i).toNat + r.2, val := t.rd r.1 i, low := o.low, left := o.land.val }
      (s.putCr { s.cr with accWrites := s.cr.accWrites ++ ws }).finish
        { len := 16, outs := act.map fun i => (i, { eff := (bad i).map fun p => (0xB, p) }) })

/-! ## `mcomp` (R310, R329) -/

/-- Whether element x ranks before y: NaN first, then the greater magnitude. -/
def ranksAbove (x y : FVal) : Bool :=
  if x.isNan then !y.isNan
  else if y.isNan then false
  else
    let a (v : FVal) : FVal := match v with | .fin _ m e => .fin false m e | v => v
    !((a x).le (a y))

/-- The indices of a group by rank, equal ones ascending. -/
def rankInsert (x : List FVal) (i : Nat) : List Nat → List Nat
  | [] => [i]
  | j :: r => if ranksAbove (x.getD i qnanV) (x.getD j qnanV) then i :: j :: r else j :: rankInsert x i r

/-- The four indices kept, ascending. -/
def kept (x : List FVal) : List Nat :=
  let order := (List.range 8).foldl (fun l i => rankInsert x i l) []
  (List.range 8).filter fun i => (order.take 4).contains i

def execMcomp (o : MComp) (s : State) : Host.Outcome State Fault Refusal :=
  let t := s.tm
  let srcs := [o.a.val, o.a.val + 1]
  .next (s.perSlot 12 o.msk (t.tagCheck o.fa false (fun f => f == .k8tx4 || f == .i8x4) srcs)
    (fun _ => refs false (srcs ++ [o.c.val])) [] (fun _ => refs false [o.d.val, o.c.val])
    fun f act =>
      { len := 12, tags := [(o.d, f), (o.c, .n32)]
        outs := act.map fun i =>
          let codes := (List.range 8).map fun e => (t.rd (o.a + e / 4) i).toNat / 2 ^ (8 * (e % 4)) % 256
          let k := kept (codes.map (elemOf f).val)
          let v := ((k.zipIdx).map fun x => codes.getD x.1 0 * 2 ^ (8 * x.2)).sum
          let m := ((k.zipIdx).map fun x => x.1 * 2 ^ (3 * x.2)).sum
          let old := (t.rd o.c i).toNat
          let c := if o.hi then old % 2 ^ 16 + m * 2 ^ 16 else old / 2 ^ 16 * 2 ^ 16 + m
          (i, { vals := [(o.d.val, BitVec.ofNat 32 v), (o.c.val, BitVec.ofNat 32 c)] }) })

/-! ## `msplit` and `mrecomb` (R311, R312, R330, R331) -/

/-- The exponent word of a line, or none when it holds an infinity or a NaN (R311). -/
def lineExp (l : List FVal) : Option Int :=
  if l.any fun x => !x.finite then none
  else some (((l.filterMap prodLog).map fun e => e + 1).foldl (fun (m : Option Int) e => some (match m with | some y => max y e | none => e)) none |>.getD 0)

/-- The slices of an element under a row exponent (R311): the digits, base 128, of r₀ · 2^(7k) truncated. -/
def slices (e : Int) (x : FVal) (k : Nat) : List Int :=
  match x with
  | .fin neg m g =>
    let sh : Int := g - e + 7 * k
    let n : Nat := if 0 ≤ sh then m * 2 ^ sh.toNat else m / 2 ^ (-sh).toNat
    (List.range k).map fun s =>
      let d : Nat := n / 128 ^ (k - 1 - s) % 128
      if neg then -(d : Int) else d
  | _ => List.replicate k 0

/-- A write of a matrix instruction into a window. -/
def matWrite (l : Launch) (lti : DWord) (seq : Nat) (a : DWord) (b : List Byte) (low : Bool) (land : Nat) :
    Option (Option (Fin 8) × Write) :=
  let w (off : Nat) : Write :=
    { lti := lti, seq := seq, row := 0, addr := off, va := a, bytes := b, rule := if low then .low else .fault, fmt := .none,
      left := land, claim := none }
  match matSpot l 1 a b.length with
  | .ok (.loc o) => some (none, w o)
  | .ok (.exch k o) => some (some (Fin.ofNat 8 k), w o)
  | _ => none

/-- A descriptor command that reads and writes windows: the checks of R316 after the first, then the command. -/
def State.matOnce (s : State) (msk : MReg) (desc : UReg) (n : Nat) (f : List Nat → Once) : State :=
  if 16 ≤ s.cr.matQ.length then (if s.tm.exec msk = 0 then s.advance 16 else s.stall)
  else s.once 16 msk [] (descRegs desc n) f

def State.enqueueMat (s : State) (cmd : MatCmd) : State :=
  (s.advance 16).putCr { s.cr with matQ := s.cr.matQ ++ [cmd] }

def execMsplit (o : MSplit) (s : State) : Host.Outcome State Fault Refusal :=
  let t := s.tm
  let core := coreOf s.cur
  let q := t.desc o.desc
  let kk := o.k1.val + 1
  let ln := bitsOf (q 4) 39 20
  let K := bitsOf (q 4) 19 0
  let line (l : Nat) : DWord := q 0 + BitVec.ofNat 64 (l * bitsOf (q 3) 31 0)
  let slc (l sl : Nat) : DWord := q 1 + times sl (q 5) + BitVec.ofNat 64 (l * bitsOf (q 3) 63 32)
  let exp (l : Nat) : DWord := q 2 + BitVec.ofNat 64 (4 * l)
  .next (s.matOnce o.msk o.desc 6 fun act =>
    let i := act.headD 0
    if K = 0 ∨ ln = 0 then .done (s.advance 16)
    else if bitsOf (q 4) 63 40 ≠ 0 then .raises [i] 7 (s.bareScope i 0x10)
    else
      let rs := ((List.range ln).map fun l => (8, line l, 8 * K)) ++
        ((List.range ln).flatMap fun l => (List.range kk).map fun sl => (1, slc l sl, K)) ++
        ((List.range ln).map fun l => (4, exp l, 4))
      match matFails s.launch rs with
      | some f => .raises [i] 7 (scopePayload f.1 f.2)
      | none =>
        if bitsOf (q 3) 31 0 % 8 ≠ 0 then .raises [i] 7 (scopePayload 4 (q 0))
        else
          let ws := (List.range ln).flatMap fun l =>
            let b := s.matBytes core (line l) (8 * K)
            let xs := (List.range K).map fun k => fp64.val (leNat ((b.drop (8 * k)).take 8))
            let e := lineExp xs
            let sl := xs.map fun x => match e with | some e => slices e x kk | none => List.replicate kk 0
            ((List.range kk).filterMap fun p =>
              matWrite s.launch (t.lti i) s.seq (slc l p) (sl.map fun d => BitVec.ofInt 8 (d.getD p 0)) o.low o.land.val) ++
            (matWrite s.launch (t.lti i) s.seq (exp l)
              (leBytes 4 (match e with | some e => (BitVec.ofInt 32 e).toNat | none => 0x80000000)) o.low o.land.val).toList
          .done (s.enqueueMat { id := s.pendId 0, acc := [], writes := ws, stats := [] }))

/-- The pairs (s, t) of the products, in order (R331). -/
def pairsOf (k : Nat) (tri : Bool) : List (Nat × Nat) :=
  ((List.range k).flatMap fun a => (List.range k).map fun b => (a + 1, b + 1)).filter fun p => !tri || p.1 + p.2 ≤ k + 1

/-- The exact sum of the products of an element, rounded (R312). -/
def recombine (ei fj : Word) (ps : List (Nat × Int)) : FRes :=
  if ei = 0x80000000 ∨ fj = 0x80000000 then (fp64.qnan, flNV)
  else
    let d := ps.foldl (fun (d : Dy) p => d.add { n := p.2, e := -7 * (p.1 : Int) }) Dy.zero
    let e : Int := d.e + ei.toInt + fj.toInt
    -- far below the least subnormal every value rounds alike
    let d : Dy := if d.n ≠ 0 ∧ e + lg d.n.natAbs < -5000 then { n := if d.n < 0 then -1 else 1, e := -5000 } else { d with e := e }
    fp64.roundDy .rne false d

def execMrecomb (o : MRecomb) (s : State) : Host.Outcome State Fault Refusal :=
  let t := s.tm
  let core := coreOf s.cur
  let q := t.desc o.desc
  let kk := o.k1.val + 1
  let nc := bitsOf (q 4) 47 40
  let mr := bitsOf (q 4) 39 32
  let pr := bitsOf (q 4) 27 16
  let pb := bitsOf (q 4) 11 0
  let pairs := (pairsOf kk o.tri).zipIdx
  let res (i : Nat) : DWord := q 0 + BitVec.ofNat 64 (i * bitsOf (q 1) 31 0)
  .next (s.matOnce o.msk o.desc 5 fun act =>
    let i := act.headD 0
    if bitsOf (q 1) 63 32 ≠ 0 ∨ bitsOf (q 4) 63 48 ≠ 0 ∨ bitsOf (q 4) 31 28 ≠ 0 ∨ bitsOf (q 4) 15 12 ≠ 0 ∨
        nc = 0 ∨ 128 < nc ∨ mr = 0 ∨ 128 < mr then
      .raises [i] 7 (s.bareScope i 0x10)
    else
      let rs := ((List.range mr).map fun r => (8, res r, 8 * nc)) ++ [(4, q 2, 4 * mr), (4, q 3, 4 * nc)]
      match matFails s.launch rs with
      | some f => .raises [i] 7 (scopePayload f.1 f.2)
      | none =>
        if bitsOf (q 1) 31 0 % 8 ≠ 0 then .raises [i] 7 (scopePayload 4 (q 0))
        else
          let rows : List Int := pairs.flatMap fun p => (List.range mr).map fun r => ((pb + p.2 * pr + r : Nat) : Int)
          match t.badRow rows with
          | some r => .raises act 0xB (rowPayload 1 r)
          | none =>
            let ea := s.matBytes core (q 2) (4 * mr)
            let eb := s.matBytes core (q 3) (4 * nc)
            let w32 (b : List Byte) (j : Nat) : Word := BitVec.ofNat 32 (leNat ((b.drop (4 * j)).take 4))
            let out := (List.range mr).map fun r =>
              let es : List FRes := (List.range nc).map fun c =>
                recombine (w32 ea r) (w32 eb c) (pairs.map fun p =>
                  (p.1.1 + p.1.2, (s.cr.acc.get 0 ((pb + p.2 * pr + r) * 128 + c)).toInt))
              (matWrite s.launch (t.lti i) s.seq (res r) (es.flatMap fun e => leBytes 8 e.1) o.low o.land.val,
                es.foldl (fun f e => f ||| e.2) (0 : BitVec 6))
            let stat (clu : Bool) : MStat :=
              { clu := clu, left := o.land.val
                bits := out.foldl (fun f x => match x.1 with
                  | some (w, _) => if w.isSome == clu then f ||| (x.2 &&& 0x1F) else f
                  | none => f) 0 }
            .done (s.enqueueMat { id := s.pendId 0, acc := [], writes := out.filterMap fun x => x.1, stats := [stat false, stat true] }))

/-! ## The engine -/

/-- The engine takes up its first command. -/
def State.matStart (s : State) (core : Nat) : State :=
  let c := s.core core
  if c.matRun || c.matQ.isEmpty then s else s.setCore core { c with matRun := true }

/-- The engine has done its first command: its writes are queued for their landing points (R298). -/
def State.matFinish (s : State) (core : Nat) : State :=
  let c := s.core core
  match c.matRun, c.matQ with
  | true, m :: r =>
    let s := s.setCore core { c with matQ := r, matRun := false, accWrites := c.accWrites ++ m.acc
                                     mstatDue := c.mstatDue ++ m.stats.filter fun x => x.bits != 0 }
    m.writes.foldl (fun s w => match w.1 with
      | none => s.queue core (.loc w.2.addr) w.2
      | some k => s.queue core (.exch k.val w.2.addr) w.2) s
  | _, _ => s

end Sys2Proof.Machine
end

