-- ==== Sys2Proof/Machine/Score.lean ====
section
/-! DEFINITION. The scoresheet (22, R402 to R405): records, their space, and their use in replay. -/
namespace Sys2Proof.Machine

/-- KIND of the model's own report of a replay divergence (R405); the manual's fault records use 1 to 7. -/
def divergenceKind : Nat := 8

/-- Bytes of a record (R402). -/
def Score.bytes (r : Score) : Nat := 32 + (2 * r.ths.length + 31) / 32 * 32

/-- The words of a record's header (Table 22-2). -/
def Score.header (r : Score) : List DWord :=
  [BitVec.ofNat 64 (r.phase.toNat * 2 ^ 32 + r.ths.length % 2 ^ 16 * 2 ^ 16 + (if r.timeout then 2 ^ 8 else 0) + r.kind % 2 ^ 8),
   r.who, r.pos, r.what]

/-- A record as it stands in the scoresheet: the header, then the threads at 16 bits each, padded with zeros to 32 bytes (R402). -/
def Score.layout (r : Score) : List Byte :=
  let b := (r.header.flatMap fun w => leBytes 8 w.toNat) ++ r.ths.flatMap fun th => leBytes 2 th
  b ++ List.replicate (r.bytes - b.length) 0

/-- Whether a core's launch records its order-sensitive outcomes. -/
def CoreSt.logged (c : CoreSt) : Bool := c.launch.det == 1

/-- Whether a core's phase is forced from records (R404). -/
def State.forced (s : State) (core : Nat) : Bool := (s.core core).logged && (s.ctx (s.core core).ctx).replay

/-- The write position of a context's scoresheet. -/
def Ctx.scorePos (c : Ctx) : Nat := (c.score.map Score.bytes).sum

/-- The records that stand in a scoresheet between two offsets, none of them used yet. -/
def readScores (m : SMap Byte) (stop : Nat) : (fuel off : Nat) → List Score
  | 0, _ => []
  | fuel + 1, off =>
    if stop < off + 32 then []
    else
      let w (k : Nat) : DWord := BitVec.ofNat 64 (leNat (readBytes m (off + 8 * k) 8))
      let r : Score :=
        { phase := (w 0 >>> 32).setWidth 32, kind := (w 0).toNat % 2 ^ 8, timeout := (w 0).getLsbD 8, who := w 1, pos := w 2,
          what := w 3, ths := (List.range ((w 0).toNat / 2 ^ 16 % 2 ^ 16)).map fun k => leNat (readBytes m (off + 32 + 2 * k) 2), used := false }
      r :: readScores m stop fuel (off + r.bytes)

/-- R402, R403: a record is written, unless the area is full. -/
def State.putScore (s : State) (x : CtxId) (die : Nat) (holder : Option Nat) (r : Score) : State :=
  let c := s.ctx x
  let used := c.scorePos + r.bytes
  let room := c.scoreUnits.toNat * 65536
  if used ≤ room then s.setCtx x { c with score := c.score ++ [r], sheet := writeBytes c.sheet c.scorePos r.layout }
  else s.report die
    { ctx := x, phase := r.phase, kind := 7, eff := 0, lti := BitVec.allOnes 64, pc := 0,
      payload := BitVec.ofNat 64 ((used - room + 65535) / 65536), loc := BitVec.ofNat 64 (die * 2 ^ 56), addr := 0, halt := none
      holder := holder }

/-- An order-sensitive outcome of a core is recorded before it takes effect, under logged mode outside replay (R401). -/
def State.logScore (s : State) (core : Nat) (r : Score) : State :=
  if (s.core core).logged && !s.forced core then s.putScore (s.core core).ctx (dieOf core) (some (clusterOf core)) r else s

/-- The report of a divergence. -/
def divergence (x : CtxId) (phase : BitVec 32) (holder : Option Nat) : Report :=
  { ctx := x, phase := phase, kind := divergenceKind, eff := 0, lti := BitVec.allOnes 64, pc := 0, payload := 0, loc := 0,
    addr := 0, halt := none, holder := holder }

/-- A divergence of a replay goes to the supervisor. -/
def State.diverge (s : State) (x : CtxId) (phase : BitVec 32) (die : Nat) (holder : Option Nat) : State :=
  s.report die (divergence x phase holder)

/-- The first unused record that matches. -/
def State.findScore (s : State) (x : CtxId) (p : Score → Bool) : Option Score := (s.ctx x).score.find? fun r => !r.used && p r

/-- A record has been used. -/
def State.useScore (s : State) (x : CtxId) (r : Score) : State :=
  let c := s.ctx x
  s.setCtx x { c with score := c.score.map fun y => if y == r then { y with used := true } else y }

/-- The LTI of a core's group with TH = 0 (Table 22-2). -/
def CoreSt.who (c : CoreSt) : DWord :=
  match c.grp with
  | some g => BitVec.ofNat 64 (g.br.toNat * 2 ^ 56 + g.clg.toNat * 2 ^ 24 + c.cg.val * 2 ^ 21)
  | none => 0

/-- The thread number of an LTI. -/
def thOf (lti : DWord) : Nat := lti.toNat % 2 ^ 14

end Sys2Proof.Machine
end

