-- ==== Sys2Proof/Machine/Reissue.lean ====
section
/-! DEFINITION. A logged access is issued again (R171, R172), as its kind wants it. -/
namespace Sys2Proof.Machine

/-- The answer to a near list: its values take the places that are still pending for the thread, and its exceptions those too
whose value is superseded. -/
def answerNear (id : Nat) (o : Near) (st : NearState) (l : List Pend) : List Pend :=
  let mine (p : Pend) : Bool := p.id == id && p.await == Await.timed && (p.out ++ p.gone).contains o.lti
  let new := l.flatMap fun p =>
    if mine p then
      ((nearPends id o p.fen st).filter fun q => q.dst == p.dst).map fun q =>
        if p.out.contains o.lti then { q with kept := p.kept } else { q.discard [o.lti] with kept := p.kept }
    else []
  let old := l.map fun p =>
    if mine p then { p with out := p.out.filter fun x => x != o.lti, gone := p.gone.filter fun x => x != o.lti } else p
  (old ++ new).filter Pend.live

/-- All of a thread's accesses for one near list leave the log, and their faults the queue. -/
def Team.dropNear (t : Team) (id : Nat) (lti : DWord) : Team :=
  let mine (e : LogE) : Bool := e.ltis == [lti] && (match e.op with | .near x _ => x == id | _ => false)
  let keys := (t.log.filter mine).map LogE.key
  { t with
    log := t.log.filter fun e => !mine e
    traps := t.traps.filter fun x => match x.act with | .access ks => !ks.any keys.contains | _ => true }

/-- Whether a thread still has logged accesses for a near list. -/
def Team.nearLogged (t : Team) (id : Nat) (lti : DWord) : Bool :=
  t.log.any fun e => e.ltis == [lti] && (match e.op with | .near x _ => x == id | _ => false)

/-- The list of a thread is looked at again, none of its accesses being in the log. -/
def State.nearAgain (s : State) (k : Nat) (e : LogE) (id : Nat) (o : Near) : State :=
  let t := s.team k
  match s.nearState (coreOf k) o with
  | .done vals fl =>
    (s.settlePends k t (answerNear id o (.done vals fl))).askFor (coreOf k) t.part (o.addrs.map fun a => (id, a))
  | .host pages =>
    ((pages.foldl State.askAts s).settlePends k t (answerNear id o (.host pages))).askFor (coreOf k) t.part (o.addrs.map fun a => (id, a))
  | .missing l => (s.setTeam k (t.logAll s.clock e.stamp (l.map fun a => (o.lti, a, LogOp.near id o)))).touchAll (coreOf k) l
  | .fails r a => s.settlePends k (t.scopeTraps e.stamp [o.lti] r a) (withdraw id [o.lti])
  | .broken a g => s.broken k a g

/-- A load is issued again. -/
def State.loadAgain (s : State) (k : Nat) (e : LogE) (id width : Nat) (sx : Bool) : State :=
  let t := s.team k
  match s.gotRead (coreOf k) (e.ltis.headD 0) width width sx e.addr with
  | .val x => (s.settlePends k (t.unlog e.key) (answer id e.ltis x)).askFor (coreOf k) t.part [(id, e.addr)]
  | .host b => (s.settlePends k (t.unlog e.key) (answerLater id e.ltis (.hostIn width sx) b e.addr)).askAts (b / 2 ^ 16)
  | .far b =>
    (s.settlePends k (t.unlog e.key) (answerLater id e.ltis (.remote width sx) b e.addr)).askFor (coreOf k) t.part [(id, e.addr)]
  | .miss => s.setTeam k (t.faultAgain e)
  | .fails r => s.settlePends k ((t.unlog e.key).scopeTraps e.stamp e.ltis r e.addr) (withdraw id e.ltis)
  | g => s.broken k e.addr g

/-- What a look at a word of a list set means for a logged access. -/
def State.listAgain (s : State) (k : Nat) (e : LogE) (sp : ListSpot) (id : Option Nat) (done : Nat → State) : State :=
  let t := s.team k
  match sp with
  | .at key => done key
  | .miss a => (s.setTeam k ((t.unlog e.key).logAll s.clock e.stamp (e.ltis.map fun l => (l, a, e.op)))).touch (coreOf k) a
  | .fails r a =>
    let t := (t.unlog e.key).scopeTraps e.stamp e.ltis r a
    match id with
    | some i => s.settlePends k t (withdraw i e.ltis)
    | none => s.setTeam k t
  | .broken a lv => s.broken k a (.broken lv)
  | .bad b pa => s.broken k 0 (.bad b pa)

/-- A logged access of a team is issued again, as its kind wants it. -/
def State.reissueOne (s : State) (k key : Nat) : State :=
  let t := s.team k
  let core := coreOf k
  match t.log.find? fun e => e.key == key with
  | none => s
  | some e =>
    let lti := e.ltis.headD 0
    let s := s.touch core e.addr
    match e.op with
    | .load id width sx => s.loadAgain k e id width sx
    | .uload id width sx => s.loadAgain k e id width sx
    | .store bytes rule fmt seq land =>
      match s.find core false bytes.length e.addr bytes.length (.write rule land) with
      | .miss => s.setTeam k (t.faultAgain e)
      | .scope r => s.setTeam k ((t.unlog key).scopeTraps e.stamp e.ltis r e.addr)
      | .malformed lv => s.broken k e.addr (.broken lv)
      | .bad b => s.broken k e.addr (.bad b (b * 64))
      | .here p =>
        (s.setTeam k (t.unlog key)).queue core p
          { lti := lti, seq := seq, row := 0, addr := 0, va := e.addr, bytes := bytes, rule := rule, fmt := fmt, left := land,
            claim := none }
    | .claim id =>
      match s.find core false 4 e.addr 4 .claim with
      | .miss => s.setTeam k (t.faultAgain e)
      | .malformed lv => s.broken k e.addr (.broken lv)
      | .bad b => s.broken k e.addr (.bad b (b * 64))
      | .scope r => s.settlePends k ((t.unlog key).scopeTraps e.stamp e.ltis r e.addr) (withdraw id e.ltis)
      | .here _ => s.settlePends k (t.unlog key) (withdraw id e.ltis)
    | .near id o =>
      let l := (o.entryOf e.addr).map fun a => (a, s.gotRead core lti o.size o.size false a)
      match l.find? (fun x => x.2.reason.isSome), l.find? (fun x => x.2.stops), l.find? fun x => x.2.isMiss with
      | some x, _, _ =>
        s.settlePends k ((t.dropNear id lti).scopeTraps e.stamp [lti] (x.2.reason.getD 0) x.1) (withdraw id [lti])
      | none, some x, _ => s.broken k x.1 x.2
      | none, none, some x => s.setTeam k ((t.readdress key x.1).faultAgain { e with addr := x.1 })
      | none, none, none =>
        let u := t.unlog key
        if u.nearLogged id lti then s.setTeam k u else (s.setTeam k u).nearAgain k e id o
    | .app header item dst seq =>
      s.listAgain k e (s.appSpot core header dst) none fun _ =>
        ((s.setTeam k (t.unlog key)).queueItem core { header := header, dst := dst, lti := lti, seq := seq, words := item }).askFor core
          t.part (s.headerRead core (64 * e.stamp) header)
    | .cnt id header dst ov =>
      s.listAgain k e (s.cntSpot core header dst ov) (some id) fun w =>
        (s.settlePends k (t.unlog key) (answer id e.ltis (BitVec.ofNat 64 (read32 (s.baseOf core) w)))).askFor core t.part
          (s.headerRead core id header ++ [(id, s.cntWord core header dst ov)])
    | .copy id _ _ =>
      let s := s.setTeam k (t.unlog key)
      match (s.core core).copyQ with
      | c :: _ => if c.id = id then s.copyLook core else s
      | [] => s

/-- A logged access of a team is issued again; HOST-OUT writes that waited for it follow (R164). -/
def State.reissue (s : State) (k key : Nat) : State := (s.reissueOne k key).flow

/-- R451: a thread abandons logged accesses. The entry leaves the log with the last of its threads; what it kept pending for
the thread is no longer pending; a copy is withdrawn whole. -/
def State.abandon (s : State) (core : Nat) (lti : DWord) : TrapAct → State
  | .access keys => keys.foldl (fun s key =>
      match (s.teamsOf core).find? fun p => p.2.log.any fun e => e.key == key with
      | none => s
      | some (k, t) =>
        match t.log.find? fun e => e.key == key with
        | none => s
        | some e =>
          let rest := e.ltis.filter fun x => x != lti
          let log := if rest.isEmpty then t.log.filter fun x => x.key != key
            else t.log.map fun x => if x.key == key then { x with ltis := rest } else x
          let t := { t with log := log }
          match e.op with
          | .load id _ _ => s.settlePends k t (withdraw id [lti])
          | .uload id _ _ => if rest.isEmpty then s.settlePends k t (withdraw id [lti]) else s.setTeam k t
          | .claim id => s.settlePends k t (withdraw id [lti])
          | .cnt id _ _ _ => s.settlePends k t (withdraw id [lti])
          | .near id _ => s.settlePends k (t.dropNear id lti) (withdraw id [lti])
          | .copy id _ _ =>
            let s := s.setTeam k t
            match (s.core core).copyQ with
            | c :: _ => if c.id = id then s.popCopy core else s
            | [] => s
          | .store _ _ _ _ _ => s.setTeam k t
          | .app _ _ _ _ => s.setTeam k t) s |>.flow
  | _ => s

/-- What a restored continuation does first (R239). -/
def State.doAct (s : State) (core : Nat) : TrapAct → State
  | .access keys => keys.foldl (fun s key =>
      match (s.teamsOf core).find? fun p => p.2.log.any fun e => e.key == key with
      | some p => s.reissue p.1 key
      | none => s) s
  | _ => s

end Sys2Proof.Machine
end

