-- ==== Sys2Proof/Machine/Form.lean ====
section
/-! DEFINITION. The team former (08, R187 to R189, R191; 12, R254): keys, places, formed teams, full-key formation,
quiescence, and rounds of rejoin points. -/
namespace Sys2Proof.Machine

/-! ## Residency (R82, R254) -/

/-- The number of teams that a partition can hold. -/
def Launch.perPart (l : Launch) : Nat := Nat.min 16 (262144 / (l.team * l.vregs * 4))

/-- The teams of a core in a partition. -/
def State.load (s : State) (core : Nat) (p : Fin 12) : Nat := ((s.teamsOf core).filter fun x => x.2.part == p).length

/-- The partition that takes a team: the fewest resident teams among those with room, then the lowest number. -/
def State.partFor (s : State) (core : Nat) : Option (Fin 12) :=
  match (List.finRange 12).filter fun p => s.load core p < (s.core core).launch.perPart with
  | [] => none
  | p :: r => some (r.foldl (fun b q => if s.load core q < s.load core b then q else b) p)

/-- The arguments of a launch in s0 to s15 (Table 3-3). -/
def Launch.uniforms (l : Launch) : Vector DWord 96 :=
  Vector.ofFn fun i => if i.val < 16 then l.args.getD i 0 else 0

/-- A team in the state of Table 3-3, before its threads take their slots. -/
def Launch.fresh (l : Launch) : Team :=
  { Team.vacant with resident := true, cap := l.team, s := l.uniforms, spill := l.spill }

/-- The accumulator window of a team, by its FIRST (R302, R318). -/
def Team.windowed (t : Team) (w : Option (Nat × Nat)) : Team :=
  match w with
  | some w => { t with acb := w.1 + t.first / t.cap * w.2, acl := w.2 }
  | none => t

/-- A team takes residency on a core: its key, and the state. -/
def State.addTeam (s : State) (core : Nat) (p : Fin 12) (t : Team) : Nat × State :=
  let c := s.core core
  let k := c.ages * 384 + core
  (k, (s.setCore core { c with ages := c.ages + 1 }).setTeam k
    ({ t with part := p, age := c.ages }.windowed c.win))

/-! ## Keys and formed teams (R187, R188) -/

def Seed.key (x : Seed) : SKey :=
  { pc := x.pc, h := x.h.map HEntry.bare, rpcs := x.div.map DEntry.rpc, range := x.range, tags := x.tags }

/-- Seeds in ascending LTI. -/
def insSeed (x : Seed) : List Seed → List Seed
  | [] => [x]
  | y :: r => if x.lti.toNat < y.lti.toNat then x :: y :: r else y :: insSeed x r

def sortSeeds (l : List Seed) : List Seed := l.foldl (fun a x => insSeed x a) []

/-- The handler stack of a formed team: every slot keeps the link of its thread (R234). -/
def seedLinks (l : List Seed) : List HEntry :=
  match l with
  | [] => []
  | x :: _ =>
    x.h.zipIdx.map fun e =>
      { e.1 with links := l.zipIdx.filterMap fun y =>
          ((y.1.h[e.2]?).bind fun z => z.links.lookup 0).map fun k => (y.2, k) }

/-- A seed's resumed value lands in its slot (R233, R238). Where D lies outside the live range, the seed of greatest LTI decides
its tag (log 119). -/
def Team.landSeed (t : Team) (i : Nat) (x : Seed) : Team :=
  match x.land with
  | none => t
  | some (d, v, f) => (t.landValue i d v f).tagPerf d f

/-- The team of some seeds of one key, in ascending LTI from slot 0 (R188, R69). -/
def Launch.formed (l : Launch) (xs : List Seed) : Team :=
  match xs with
  | [] => l.fresh
  | x :: _ =>
    let zs := xs.zipIdx
    let t : Team := { l.fresh with
      formed := true, first := thOf x.lti, pc := x.pc, h := seedLinks xs, div := x.div, tag := x.tags
      remap := zs.map fun z => (z.2, z.1.lti)
      log := xs.flatMap Seed.log, traps := xs.flatMap Seed.traps
      serving := (xs.filter Seed.serving).map Seed.lti }
    let t := t.setM 0 (BitVec.ofNat 1024 (2 ^ xs.length - 1))
    let t := zs.foldl (fun t z => z.1.vals.foldl (fun t w => t.wr w.1 z.2 w.2) t) t
    let t := zs.foldl (fun t z => t.restoreMarks z.2 z.1.marks) t
    zs.foldl (fun t z => t.landSeed z.2 z.1) t

/-- Forms a team in a partition; each continuation does what it does first (R239). -/
def State.formTeam (s : State) (core : Nat) (p : Fin 12) (xs : List Seed) : State :=
  let (_, s) := s.addTeam core p ((s.core core).launch.formed xs)
  xs.foldl (fun s x => s.doAct core x.act) s

/-- The first C seeds of a key. -/
def ofKey (l : List Seed) (k : SKey) (c : Nat) : List Seed := (l.filter fun y => y.key == k).take c

/-- A list of seeds without some. -/
def without (l m : List Seed) : List Seed := l.filter fun y => !m.any fun z => z.lti == y.lti

/-- Seeds in the order in which they are formed: the key of the lowest LTI first, C at a time. -/
def formGroups (c : Nat) : (fuel : Nat) → List Seed → List (List Seed)
  | 0, _ => []
  | fuel + 1, l =>
    match l with
    | [] => []
    | x :: _ => ofKey l x.key c :: formGroups c fuel (without l (ofKey l x.key c))

/-- All of some threads are formed, whatever the capacity (R191); those without residency wait in their seeds (R254). -/
def State.formAll (s : State) (core : Nat) (l : List Seed) : State :=
  (formGroups (s.core core).launch.team l.length (sortSeeds l)).foldl (fun s xs =>
    match s.partFor core with
    | some p => s.formTeam core p xs
    | none => s.setCore core ((s.core core).addSeeds xs)) s

/-! ## Formation by a full key and at quiescence (R188) -/

/-- The record of a formation (Table 22-2). -/
def CoreSt.formScore (c : CoreSt) (k : SKey) (ord : Nat) (xs : List Seed) : Score :=
  { phase := c.phase, kind := 2, timeout := false, who := c.who, pos := k.pc, what := BitVec.ofNat 64 ord,
    ths := xs.map fun x => thOf x.lti, used := false }

/-- How often a key has been formed full. -/
def CoreSt.ordOf (c : CoreSt) (k : SKey) : Nat := ((c.formOrd.find? fun x => x.1 == k).map (·.2)).getD 0

/-- The recorded team of a key, once every listed seed is present (R404). -/
def State.recorded (s : State) (core : Nat) (l : List Seed) (k : SKey) : Option (Score × List Seed) :=
  let c := s.core core
  let mine := l.filter fun y => y.key == k
  let hit (r : Score) : Bool :=
    r.kind == 2 && r.phase == c.phase && r.who == c.who && r.pos == k.pc && r.what == BitVec.ofNat 64 (c.ordOf k) &&
      r.ths.all fun th => mine.any fun y => thOf y.lti == th
  (s.findScore c.ctx hit).map fun r => (r, mine.filter fun y => r.ths.contains (thOf y.lti))

/-- The seeds of the next full-key formation, and the record that forces them. -/
def State.fullKey (s : State) (core : Nat) : Option (List Seed × Option Score) :=
  let c := s.core core
  let l := sortSeeds c.seeds
  if s.forced core then l.findSome? fun x => (s.recorded core l x.key).map fun r => (r.2, some r.1)
  else (l.find? fun x => (ofKey l x.key c.launch.team).length == c.launch.team).map fun x => (ofKey l x.key c.launch.team, none)

/-- A team is formed by the full-key trigger. -/
def State.formFull (s : State) (core : Nat) : State :=
  let c := s.core core
  match s.fullKey core, s.partFor core with
  | some (x :: xs, r), some p =>
    if c.launch.det == 2 || c.halted then s
    else
      let k := x.key
      let n := c.ordOf k
      let s := match r with
        | some r => s.useScore c.ctx r
        | none => s.logScore core (c.formScore k n (x :: xs))
      (s.setCore core { c with
        seeds := without c.seeds (x :: xs), formOrd := (k, n + 1) :: c.formOrd.filter fun y => y.1 != k }).formTeam core p (x :: xs)
  | _, _ => s

/-- Whether a team is runnable as R188 says: it does not wait at a step point, on a value that arrives only there, or for
spawn memory (R452). -/
def State.runs (s : State) (k : Nat) (t : Team) : Bool :=
  t.resident && t.live != 0 && t.wait != .core && t.wait != .clu && !t.stuck &&
    !(s.core (coreOf k)).moves.contains (.deliver k)

/-- No team of the core group is runnable. -/
def State.quiet (s : State) (core : Nat) : Bool := (s.teamsOf core).all fun p => !s.runs p.1 p.2

/-- Under replay seeds of a full key stand at quiescence without a record that forms them: the recorded run would have formed them by the
full-key trigger, and have recorded it (R405, log 157). -/
def State.formMissing (s : State) (core : Nat) (l : List Seed) : Bool :=
  let n := (s.core core).launch.team
  s.forced core && l.any fun x => (ofKey l x.key n).length == n

/-- A team is formed at quiescence: one, after which its core group is no longer quiescent (log 127). A full key, or under replay a
recorded team whose seeds are all there, comes first (R404); a full key that has no record then makes the replay diverge (R405). -/
def State.formQuiet (s : State) (core : Nat) : State :=
  let c := s.core core
  match sortSeeds c.seeds, s.partFor core with
  | x :: r, some p =>
    if !s.quiet core || c.halted || (c.launch.det != 2 && (s.fullKey core).isSome) then s
    else if s.formMissing core (x :: r) then
      if s.reports.contains (divergence c.ctx c.phase (some (clusterOf core))) then s
      else s.diverge c.ctx c.phase (dieOf core) (some (clusterOf core))
    else
      let xs := ofKey (x :: r) x.key c.launch.team
      (s.setCore core { c with seeds := without c.seeds xs }).formTeam core p xs
  | _, _ => s

/-! ## Rounds (R191, R404) -/

def CoreSt.round? (c : CoreSt) (id : Fin 64) : Option Round := c.rounds.find? fun r => r.id == id

def CoreSt.setRound (c : CoreSt) (r : Round) : CoreSt := { c with rounds := r :: c.rounds.filter fun x => x.id != r.id }

/-- WHERE of a round's record. -/
def roundPos (id : Fin 64) (n : Nat) : DWord := BitVec.ofNat 64 (n * 2 ^ 32 + id.val)

/-- The record that forces a round. -/
def State.roundScore (s : State) (core : Nat) (id : Fin 64) (n : Nat) : Option Score :=
  let c := s.core core
  s.findScore c.ctx fun r => r.kind == 3 && r.phase == c.phase && r.who == c.who && r.pos == roundPos id n

/-- The round of a point is over: its threads are formed, and threads held for the next round begin it. -/
def State.endRound (s : State) (core : Nat) (r : Round) (byTimeout : Bool) : State :=
  let c := s.core core
  let s := match s.forced core, s.roundScore core r.id r.number with
    | true, some x => s.useScore c.ctx x
    | true, none => s
    | false, _ => s.logScore core
        { phase := c.phase, kind := 3, timeout := byTimeout, who := c.who, pos := roundPos r.id r.number, what := 0,
          ths := (sortSeeds r.parked).map (fun (x : Seed) => thOf x.lti), used := false }
  let c := s.core core
  let next : List Round := match r.held with
    | [] => []
    | h :: hs =>
      let low := hs.foldl (fun (b x : Seed × Nat × Nat) => if x.1.lti.toNat < b.1.lti.toNat then x else b) h
      [{ id := r.id, number := r.number + 1, count := low.2.1, start := s.clock, timeout := low.2.2, parked := [], held := r.held }]
  let s := s.setCore core { c with
    rounds := next ++ c.rounds.filter (fun (x : Round) => x.id != r.id), roundNo := c.roundNo.set 0 r.id (r.number + 1) }
  s.formAll core r.parked

/-- Under replay a thread belongs to the recorded round when its record lists it. A round without a record may have ended in `e.dead`
in the recorded run too (R194); where it cannot have, the replay diverges once nothing moves (R405, `State.replayStuck`). -/
def State.sortRound (s : State) (core : Nat) (r : Round) : State :=
  let c := s.core core
  match s.roundScore core r.id r.number with
  | none => s
  | some x =>
    let isIn (y : Seed × Nat × Nat) : Bool := x.ths.contains (thOf y.1.lti)
    s.setCore core (c.setRound { r with
      parked := r.parked ++ (r.held.filter isIn).map (·.1), held := r.held.filter fun y => !isIn y })

/-- Whether the round of a point is complete without its timeout. -/
def State.roundFull (s : State) (core : Nat) (r : Round) : Bool :=
  if s.forced core then
    match s.roundScore core r.id r.number with
    | none => false
    | some x => r.parked.length == x.ths.length && !r.parked.isEmpty
  else r.count ≤ r.parked.length

/-- What a change of a point's round brings about; `fuel` bounds the rounds that held threads fill at once. -/
def State.checkRound (s : State) (core : Nat) (id : Fin 64) : (fuel : Nat) → State
  | 0 => s
  | fuel + 1 =>
    match (s.core core).round? id with
    | none => s
    | some r =>
      let s := if s.forced core then s.sortRound core r else s
      match (s.core core).round? id with
      | none => s
      | some r =>
        if s.roundFull core r then
          (s.endRound core r (match s.roundScore core r.id r.number with | some x => s.forced core && x.timeout | none => false)).checkRound core id fuel
        else s

/-- Threads arrive at a rejoin point. Under replay they are first held, and then sorted by the record. -/
def State.arriveAt (s : State) (core : Nat) (id : Fin 64) (count timeout : Nat) (l : List Seed) : State :=
  let c := s.core core
  let r := match c.round? id with
    | some r => r
    | none => { id := id, number := c.roundNo.get 0 id, count := count, start := s.clock, timeout := timeout, parked := [], held := [] }
  let r := if s.forced core then { r with held := r.held ++ l.map fun x => (x, count, timeout) } else { r with parked := r.parked ++ l }
  (s.setCore core (c.setRound r)).checkRound core id 65

/-- A round that can expire: under replay its record decides. -/
def State.mayExpire (s : State) (core : Nat) (r : Round) : Bool := r.timeout != 0 && !s.forced core

/-- A round whose timeout has passed: the clock in which an arrival would still win is over. -/
def State.expires (s : State) (core : Nat) (r : Round) : Bool := s.mayExpire core r && r.start + r.timeout < s.clock

/-- A round's timeout has passed: it completes with the threads that have arrived. -/
def State.timeoutRound (s : State) (core : Nat) (id : Fin 64) : State :=
  match (s.core core).round? id with
  | none => s
  | some r => if s.expires core r then (s.endRound core r true).checkRound core id 65 else s

end Sys2Proof.Machine
end

