-- ==== Sys2Proof/Machine/Control.lean ====
section
/-! DEFINITION. Control flow (08): `nop`, the uniform branches, the divergent branch, joins, rejoin points, `exit`; and
`step` (13, R267 to R270). -/
namespace Sys2Proof.Machine

/-! ## `nop` (R52) -/

def State.skip (s : State) (len : Nat) : State := s.putTm { s.tm with pc := s.tm.pc + BitVec.ofNat 64 len }

def execNop (s : State) : Host.Outcome State Fault Refusal := .next (s.skip 8)
def execNop96 (s : State) : Host.Outcome State Fault Refusal := .next (s.skip 12)
def execNop128 (s : State) : Host.Outcome State Fault Refusal := .next (s.skip 16)

/-! ## Uniform branches, calls and loops (R181 to R184) -/

/-- A code location: 4-byte units from the instruction that names it (R43). -/
def codeAt {n : Nat} (pc : DWord) (off : BitVec n) : DWord := pc + off.signExtend 64 * 4

def execBr (o : Br) (s : State) : Host.Outcome State Fault Refusal :=
  .next (s.uniform 8 o.msk [] fun t => { t with pc := codeAt s.tm.pc o.off })

/-- Table 8-2. -/
def Team.bqHolds (t : Team) (msk : MReg) : BqCond → Bool
  | .q r => t.q[r]
  | .any m => t.exec msk &&& t.m[m] != 0
  | .all m => t.exec msk &&& ~~~t.m[m] == 0

def execBq (o : Bq) (s : State) : Host.Outcome State Fault Refusal :=
  .next (s.uniform 8 o.msk [] fun t =>
    if s.tm.bqHolds o.msk o.cond != o.neg then { t with pc := codeAt s.tm.pc o.off } else t)

def execCall (o : Call) (s : State) : Host.Outcome State Fault Refusal :=
  .next (s.uniform 8 o.msk [] fun t => { t.putS o.sl (s.tm.pc + 8) with pc := codeAt s.tm.pc o.off })

def execRet (o : Ret) (s : State) : Host.Outcome State Fault Refusal :=
  .next (s.uniform 8 o.msk [o.sl] fun t => { t with pc := t.s[o.sl] })

def execJmpi (o : Jmpi) (s : State) : Host.Outcome State Fault Refusal :=
  .next (s.uniform 8 o.msk [o.sa] fun t => { t with pc := codeAt t.s[o.sa] o.imm })

def execLoop (o : Loop) (s : State) : Host.Outcome State Fault Refusal :=
  .next (s.uniform 8 o.msk [o.sc] fun t =>
    let c := t.s[o.sc]
    let early := match o.q with | some q => t.q[q] | none => false
    if c = 0 then t
    else
      let t := t.putS o.sc (c - 1)
      if c - 1 ≠ 0 ∧ !early then { t with pc := codeAt s.tm.pc o.off } else t)

/-! ## The divergent branch (R185, R186) -/

/-- The spill limit of a team. -/
def Team.spillLimit (t : Team) : Nat := t.spill.toNat * t.count t.live / 32

/-- The smaller side leaves as seeds at `target`; the other goes on at `go`. -/
def State.spillSide (s : State) (act : List Nat) (small : MaskBits) (g : Range) (target go : DWord) : State :=
  let t := s.tm
  let slots := t.lanes small
  let lack := s.cr.lacks (slots.length * seedBytes (rangeLen g))
  if t.captureWaits g then s.stall
  else if lack ≠ 0 then s.raiseIn 16 act 0x13 (BitVec.ofNat 64 lack)
  else
    let c := (s.cr.sumFlags t).addSeeds (slots.map fun i => t.seedOf i target g t.h t.div)
    (s.putCr c).putTm { t.leave slots with pc := go }

def execBrd (o : Brd) (s : State) : Host.Outcome State Fault Refusal :=
  let t := s.tm
  let taken := t.exec o.msk &&& t.m[o.mc]
  let other := t.live &&& ~~~taken
  let dest := codeAt t.pc o.target
  .next (
    if taken = 0 then s.skip 16
    else if other = 0 then s.putTm { t with pc := dest }
    else
      let tSmall := t.count taken ≤ t.count other
      let small := if tSmall then taken else other
      if (t.spill ≠ 0 ∧ t.count small ≤ t.spillLimit) ∨ 32 ≤ t.div.length then
        if tSmall then s.spillSide (t.lanes (t.exec o.msk)) small o.range dest (t.pc + 16)
        else s.spillSide (t.lanes (t.exec o.msk)) small o.range (t.pc + 16) dest
      else
        let e : DEntry := { eff := false, rpc := codeAt t.pc o.join, alt := t.pc + 16, wait := other, done := 0, h := [],
                            tags := [], range := o.range }
        s.putTm { t.setM 0 taken with div := e :: t.div, pc := dest })

/-- R186: a `join` acts on a divergence entry whose RPC is its own address. -/
def execJoin (o : Bare) (s : State) : Host.Outcome State Fault Refusal :=
  let t := s.tm
  .next (
    match t.div with
    | e :: below =>
      if t.exec o.msk ≠ 0 ∧ !e.eff ∧ e.rpc = t.pc then
        if e.wait ≠ 0 then
          s.putTm { t.setM 0 e.wait with div := { e with done := t.live, wait := 0 } :: below, pc := e.alt }.revive
        else s.putTm { t.setM 0 (t.live ||| e.done) with div := below, pc := t.pc + 8 }.revive
      else s.skip 8
    | [] => s.skip 8)

/-! ## Rejoin points (R190) -/

def execRejoin (o : Rejoin) (s : State) : Host.Outcome State Fault Refusal :=
  let t := s.tm
  let core := coreOf s.cur
  .next (s.guarded 16 o.msk (.ok .none) (fun _ => []) [] (fun _ => []) fun _ act =>
    let lack := s.cr.lacks (act.length * seedBytes (rangeLen o.range))
    if s.launch.rejoins ≤ o.id.val then s.noAddress 16 act 0xC
    else if s.strict then s.raiseIn 16 act 0x10 (orderPayload 9)
    else if t.captureWaits o.range then s.stall
    else if lack ≠ 0 then s.raiseIn 16 act 0x13 (BitVec.ofNat 64 lack)
    else
      let seeds := act.map fun i => t.seedOf i (t.pc + 16) o.range t.h t.div
      (s.settled s.cur { t.leave act with pc := t.pc + 16 }).arriveAt core o.id (o.count1.toNat + 1) o.timeout.toNat seeds)

/-! ## `exit` (R192, R237, R451) -/

/-- The records of threads that exit are freed, tokens and return records alike; the tokens are counted. -/
def State.exitRecs (s : State) (core : Nat) (l : List DWord) : State :=
  let c := s.core core
  let mine := c.recs.filter fun r => l.contains r.lti
  let s := s.setCore core { c with
    recs := c.recs.filter fun r => !l.contains r.lti
    tokleak := c.tokleak + BitVec.ofNat 64 (mine.filter Rec.token).length }
  mine.foldl (fun s r => s.abandon core r.lti r.act) s

/-- Logged accesses all of whose threads have gone leave the log (at an exit: log 153). -/
def Team.unlogGone (t : Team) (gone : List DWord) : Team :=
  let dead (e : LogE) : Bool := e.ltis.all fun x => gone.contains x
  { t with
    log := t.log.filter fun e => !dead e
    pend := (t.log.filter dead).foldl (fun l e => match e.op with
      | .load id _ _ | .claim id | .near id _ | .cnt id _ _ _ => withdraw id e.ltis l
      | .uload id _ _ => withdraw id [0] l
      | .store _ _ _ _ _ | .app _ _ _ _ | .copy _ _ _ => l) t.pend }

/-- Whether the supervisor holds an access of some threads: it is still to be issued again or lost (R171), so it cannot leave with
them (R172). A row of a copy does not need its thread (R280). -/
def Team.heldAccess (t : Team) (l : List DWord) : Bool :=
  t.traps.any fun x => x.sup && l.contains x.lti && match x.act with
    | .access ks => t.log.any fun e => ks.contains e.key && (match e.op with | .copy _ _ _ => false | _ => true)
    | _ => false

/-- R405: under replay a thread that a formation or a round still to come lists is gone. -/
def State.missedRecord (s : State) (core : Nat) (gone : List DWord) : Bool :=
  let c := s.core core
  s.forced core && (s.findScore c.ctx fun r =>
    r.phase == c.phase && r.who == c.who && (r.kind == 2 || r.kind == 3) && gone.any fun x => r.ths.contains (thOf x)).isSome

/-- A thread that exits may make a replay diverge. -/
def State.checkExit (s : State) (core : Nat) (gone : List DWord) : State :=
  let c := s.core core
  if s.missedRecord core gone then s.diverge c.ctx c.phase (dieOf core) (some (clusterOf core)) else s

def execExit (o : Bare) (s : State) : Host.Outcome State Fault Refusal :=
  .next (s.guarded 8 o.msk (.ok .none) (fun _ => []) [] (fun _ => []) fun _ act =>
    let gone := act.map s.tm.lti
    if s.tm.heldAccess gone then s.stall
    else
      let s := (s.putCr (s.cr.sumFlags s.tm)).exitRecs (coreOf s.cur) gone
      let t := s.tm
      ((s.settled s.cur { (t.unlogGone gone).quit act with pc := t.pc + 8 }).checkExit (coreOf s.cur) gone).flow)

/-! ## `step` (R267 to R269) -/

/-- The seeds that the parked slots of an entry become: its own entry and those below stay with them. -/
def Team.entrySeeds (t : Team) (h : List HEntry) (tags : SMap Tag) (e : DEntry) (below : List DEntry) : List Seed :=
  let mk (m : MaskBits) (pc : DWord) (h : List HEntry) (tags : SMap Tag) (div : List DEntry) : List Seed :=
    (t.lanes m).map fun i => { t.seedOf i pc e.range h div with tags := tags.filter fun p => inRange e.range p.1 }
  if e.eff then mk e.wait e.rpc e.h e.tags below
  else mk e.wait e.alt h tags (e :: below) ++ mk e.done e.rpc h tags (e :: below)

/-- The seeds of all parked slots, from the top of the stack down; below an EFF entry the saved handler stack and tags are
those of the parked slots. -/
def Team.parkSeeds (t : Team) (h : List HEntry) (tags : SMap Tag) : List DEntry → List Seed
  | [] => []
  | e :: below =>
    t.entrySeeds h tags e below ++ (if e.eff then t.parkSeeds e.h e.tags below else t.parkSeeds h tags below)

/-- R269: the parked slots of a team that waits at a step point leave it. They wait for pending registers (R81) and for
spawn memory (R452). -/
def State.parkOut (s : State) (k : Nat) : State :=
  let t := s.team k
  let core := coreOf k
  let c := s.core core
  let seeds := t.parkSeeds t.h t.tag t.div
  if seeds.isEmpty then s
  else if (t.div.any fun e => e.wait ||| e.done != 0 && t.captureWaits e.range) || c.lacks (seeds.map Seed.bytes).sum != 0 then
    if c.moves.contains (.park k) then s else s.setCore core { c with moves := c.moves ++ [.park k] }
  else
    let slots := t.div.flatMap fun e => t.slotsOf (e.wait ||| e.done)
    let t := t.leave slots
    (s.setCore core (c.addSeeds seeds)).setTeam k { t with div := t.div.map fun e => { e with wait := 0, done := 0 } }

/-- The team waits, its program counter at the `step` until the step point releases it (R268). -/
def execStep (o : StepOp) (s : State) : Host.Outcome State Fault Refusal :=
  .next ((s.putTm { s.tm with wait := if o.clu then .clu else .core }).parkOut s.cur)

end Sys2Proof.Machine
end

