-- ==== Sys2Proof/Machine/Landing.lean ====
section
/-! DEFINITION. Landing points: the resolution of queued writes (07, R165 to R170, R177; 13, R279; 15, R299), and the core
and cluster step points (12, R261, R262; 19, R360, R361). -/
namespace Sys2Proof.Machine

/-! ## Writers of a byte (R165, R166, R279) -/

def Write.covers (w : Write) (a : Nat) : Bool := w.addr ≤ a && a < w.addr + w.bytes.length
def Write.byteAt (w : Write) (a : Nat) : Byte := w.bytes.getD (a - w.addr) 0
def Write.value (w : Write) : DWord := BitVec.ofNat 64 (leNat w.bytes)
/-- The address that payloads report for a byte of a write. -/
def Write.vaAt (w : Write) (a : Nat) : DWord := w.va + BitVec.ofNat 64 (a - w.addr)

/-- Writers are ordered by LTI, then row. -/
def Write.before (w x : Write) : Bool := w.lti.toNat < x.lti.toNat || (w.lti == x.lti && w.row < x.row)

def insWrite (w : Write) : List Write → List Write
  | [] => [w]
  | x :: r => if w.before x then w :: x :: r else x :: insWrite w r

/-- Whether two neighbours come from one thread and one row. -/
def hasTwins : List Write → Bool
  | w :: x :: r => (w.lti == x.lti && w.row == x.row) || hasTwins (x :: r)
  | _ => false

/-- Of the writes that one command of a thread makes to a byte, without rows to tell them apart, one remains; which one the
manual leaves open (R331, log 121). -/
def oneTwin (a : Nat) (l : List Write) : List Write :=
  if !hasTwins l then l
  else l.zipIdx.filterMap fun x =>
    let same := l.zipIdx.filter fun y => y.1.lti == x.1.lti && y.1.row == x.1.row
    let k := Config.ownWriter x.1.lti a (same.map fun y => y.1.byteAt a)
    if (same.map (·.2))[k % same.length]? = some x.2 then some x.1 else none

/-- The remaining writes of a byte, in order: of each thread the last in program order, which for a copy are its rows. -/
def writersAt (l : List Write) (a : Nat) : List Write :=
  let here := l.filter fun w => w.covers a
  oneTwin a ((here.filter fun w => here.all fun x => x.lti != w.lti || x.seq ≤ w.seq).foldl (fun a w => insWrite w a) [])

/-- Whether the writers of a byte carry one rule, and under SUM and SUMIN one element. -/
def agree (l : List Write) : Bool :=
  match l with
  | [] => true
  | w :: r => r.all fun x =>
      x.rule == w.rule && (!Rule.sums w.rule || (x.fmt == w.fmt && x.addr == w.addr && x.bytes.length == w.bytes.length))

/-- The LTIs of some writers, each once. -/
def threadsOf (l : List Write) : List DWord := l.foldl (fun a w => if a.contains w.lti then a else a ++ [w.lti]) []

/-- The key of the collision set of a byte under ANY: the extent that all writers share, else the byte alone. -/
def anyKey (l : List Write) (a : Nat) : Nat × Nat :=
  match l with
  | [] => (a, 0)
  | w :: r => if r.all fun x => x.addr == w.addr && x.bytes.length == w.bytes.length then (w.addr, w.bytes.length) else (a, 0)

/-- The winners of the collision sets, by key. -/
abbrev Wins := List ((Nat × Nat) × DWord)

/-- What becomes of a byte. -/
inductive Fate where
  /-- with exceptions in bits 4 to 0 and an integer overflow in bit 5 -/
  | lands (b : Byte) (fl : BitVec 6)
  | collides
  | mismatch
  deriving DecidableEq, Repr

/-- The status bits of a sum. -/
def sumStatus (r : DWord × BitVec 6 × Bool) : BitVec 6 := (r.2.1 &&& 0x1F) ||| (if r.2.2 then 0x20 else 0)

/-- Table 7-4 on one byte: `wins` gives the winner of each collision set under ANY. -/
def fateOf (m : SMap Byte) (wins : Wins) (l : List Write) (a : Nat) : Fate :=
  match l with
  | [] => .lands (m.get unwritten a) 0
  | w :: r =>
    let sum (x : List DWord) : Fate :=
      let v := sumTag w.fmt (x ++ l.map Write.value)
      .lands (BitVec.ofNat 8 (v.1.toNat / 2 ^ (8 * (a - w.addr)))) (sumStatus v)
    if !agree l then .mismatch
    else match w.rule with
      | .fault => if r.isEmpty then .lands (w.byteAt a) 0 else .collides
      | .low => .lands (w.byteAt a) 0
      | .any =>
        match wins.lookup (anyKey l a) with
        | some k => .lands (((l.find? fun x => x.lti == k).getD w).byteAt a) 0
        | none => .lands (w.byteAt a) 0
      | .sum => if r.isEmpty then .lands (w.byteAt a) 0 else sum []
      | .sumin => sum [BitVec.ofNat 64 (leNat (readBytes m w.addr w.bytes.length))]

/-- R177: whether the element of a `claim` has a mismatched byte. -/
def claimBad (l : List Write) (w : Write) : Bool :=
  (List.range w.bytes.length).any fun k => !agree (writersAt l (w.addr + k))

/-! ## A landing -/

/-- What a landing does: the memory, the status, the threads that collided (`true`: mismatched) with the byte's address, and
the results of claims. -/
structure Landing where
  mem : SMap Byte
  fl : BitVec 6
  faults : List (DWord × Bool × DWord)
  claims : List (Nat × DWord × DWord)
  deriving Repr

/-- Whether a write overlaps another of a list. -/
def Write.overlaps (w x : Write) : Bool := w.addr < x.addr + x.bytes.length && x.addr < w.addr + w.bytes.length

/-- A write that no other one meets, and that adds to nothing. -/
def Write.alone (l : List Write) (w : Write) : Bool :=
  w.rule != .sumin && (l.filter fun x => w.overlaps x).length ≤ 1

/-- The bytes that some writes cover. -/
def bytesOf (l : List Write) : List Nat :=
  distinctNat (l.flatMap fun w => (List.range w.bytes.length).map fun k => w.addr + k)

/-- One byte lands. Where the element of a claim is mismatched only in another byte, its claimants report this byte too, so that the
lowest is the element's first (log 122). -/
def Landing.byte (m : SMap Byte) (wins : Wins) (l bad : List Write) (r : Landing) (a : Nat) : Landing :=
  let ws := writersAt l a
  let hurt := bad.any fun w => w.covers a
  match fateOf m wins ws a with
  | .mismatch => { r with faults := r.faults ++ ws.map fun w => (w.lti, true, w.vaAt a) }
  | .collides => { r with faults := r.faults ++ ws.map fun w => (w.lti, false, w.vaAt a) }
  | .lands b fl =>
    if hurt then { r with faults := r.faults ++ (ws.filter fun w => w.claim.isSome).map fun w => (w.lti, true, w.vaAt a) }
    else { r with mem := r.mem.set unwritten a b, fl := r.fl ||| fl }

/-- The result of a claim (R177): the previous value and the contributions of lower LTI. The exceptions of a float prefix count as
those of a landing's sum (log 123). -/
def claimResult (m : SMap Byte) (l : List Write) (w : Write) : DWord × BitVec 6 :=
  let P := BitVec.ofNat 64 (leNat (readBytes m w.addr w.bytes.length))
  if claimBad l w then (P, 0)
  else
    let below := (writersAt l w.addr).filter fun x =>
      x.rule == .sumin && x.addr == w.addr && x.bytes.length == w.bytes.length && x.lti.toNat < w.lti.toNat
    let v := sumTag w.fmt (P :: below.map Write.value)
    (v.1, sumStatus v)

/-- All writes due at a landing point. -/
def landAll (m : SMap Byte) (wins : Wins) (l : List Write) : Landing :=
  let alone := l.filter (Write.alone l)
  let rest := l.filter fun w => !Write.alone l w
  let bad := rest.filter fun w => w.claim.isSome && claimBad rest w
  let r : Landing := { mem := alone.foldl (fun m w => writeBytes m w.addr w.bytes) m, fl := 0, faults := [], claims := [] }
  let r := (bytesOf rest).foldl (Landing.byte m wins rest bad) r
  rest.foldl (fun r w => match w.claim with
    | some id =>
      let v := claimResult m rest w
      { r with claims := r.claims ++ [(id, w.lti, v.1)], fl := r.fl ||| v.2 }
    | none => r) r

/-! ## ANY (R166, R402 to R404) -/

/-- A collision set under ANY: its key, the address of its lowest byte, its threads. -/
structure AnySet where
  key : Nat × Nat
  low : Nat
  va : DWord
  ths : List DWord
  deriving Repr

/-- The collision sets under ANY, in the order of their first bytes. -/
def anySets (l : List Write) : List AnySet :=
  let rest := l.filter fun w => w.rule == .any && !Write.alone l w
  (bytesOf rest).foldl (fun acc a =>
    let ws := writersAt l a
    let k := anyKey ws a
    if agree ws && (ws.head?.map Write.rule == some .any) && 1 < (threadsOf ws).length then
      let x : AnySet := { key := k, low := a, va := (ws.head?.map fun w => w.vaAt a).getD 0, ths := threadsOf ws }
      if acc.any fun y => y.key == k then acc.map fun y => if y.key == k && a < y.low then x else y
      else acc ++ [x]
    else acc) []

/-- Whose landing it is: context, phase, die, cluster (none at a commit), and the threads whose outcomes are recorded or forced (R401, R404). -/
structure Lander where
  ctx : CtxId
  phase : BitVec 32
  die : Nat
  cl : Option Nat
  logged : DWord → Bool
  replay : Bool

/-- Whether the outcome of a collision set is recorded. The threads of a set belong to one branch, or to branches of which one is in
logged mode (log 124). -/
def Lander.logs (d : Lander) (x : AnySet) : Bool := x.ths.any d.logged

/-- The winner of one collision set. -/
def State.pickOne (s : State) (d : Lander) (what : DWord) (x : AnySet) : State × ((Nat × Nat) × DWord) :=
  let ts := x.ths
  let rec' (w : DWord) : Score :=
    { phase := d.phase, kind := 1, timeout := false, who := w, pos := x.va, what := what, ths := [], used := false }
  if d.logs x && d.replay then
    match s.findScore d.ctx fun r => r.kind == 1 && r.phase == d.phase && r.pos == x.va && r.what == what && ts.contains r.who with
    | some r => (s.useScore d.ctx r, (x.key, r.who))
    | none => (s.diverge d.ctx d.phase d.die d.cl, (x.key, ts.headD 0))
  else
    let w := ts.getD (Config.anyWinner s.free % ts.length) 0
    let s := s.bump
    (if d.logs x then s.putScore d.ctx d.die d.cl (rec' w) else s, (x.key, w))

def State.pickAll (s : State) (d : Lander) (what : DWord) : List AnySet → State × Wins
  | [] => (s, [])
  | x :: r =>
    let (s, w) := s.pickOne d what x
    let (s, ws) := s.pickAll d what r
    (s, w :: ws)

/-! ## The accumulator (R299) -/

/-- The writers of an element: of each thread the last. -/
def accWriters (l : List AccWrite) (e : Nat) : List AccWrite :=
  let here := l.filter fun w => w.elem == e
  here.filter fun w => here.all fun x => x.lti != w.lti || x.seq ≤ w.seq

/-- The payload of an accumulator collision. -/
def accCollPayload (e : Nat) : DWord := BitVec.ofNat 64 (2 ^ 62 + e)

/-- Accumulator writes land; the colliding threads. -/
def landAcc (acc : SMap Word) (l : List AccWrite) : SMap Word × List (DWord × Bool × DWord) :=
  (distinctNat (l.map AccWrite.elem)).foldl (fun (r : SMap Word × List (DWord × Bool × DWord)) e =>
    match accWriters l e with
    | [] => r
    | w :: ws =>
      if ws.isEmpty then (r.1.set 0 e w.val, r.2)
      else if (w :: ws).all AccWrite.low then
        (r.1.set 0 e (ws.foldl (fun (b x : AccWrite) => if x.lti.toNat < b.lti.toNat then x else b) w).val, r.2)
      else
        let mixed := (w :: ws).any AccWrite.low
        (r.1, r.2 ++ (w :: ws).map fun x => (x.lti, mixed, accCollPayload e))) (acc, [])

/-! ## The step points -/

/-- What a core's part of a step point has found. -/
structure Stepped where
  faults : List (DWord × Bool × DWord)
  claims : List (Nat × DWord × DWord)

def State.lander (s : State) (core : Nat) : Lander :=
  let c := s.core core
  { ctx := c.ctx, phase := c.phase, die := dieOf core, cl := some (clusterOf core), logged := fun _ => c.logged, replay := (s.ctx c.ctx).replay }

/-- The status bits that a landing adds to `%lstat` (Table 7-5). -/
def lstatOf (r : Landing) (anyRec : Bool) : BitVec 9 :=
  r.fl.setWidth 9 ||| (if r.faults.isEmpty then 0 else 0x80) ||| (if anyRec then 0x100 else 0)

/-- The writes that stay for a later landing point. -/
def later (l : List Write) : List Write := (l.filter fun w => 1 < w.left).map fun w => { w with left := w.left - 1 }

/-- CORE writes land: the local window and the accumulator (R262, R298). -/
def State.landCore (s : State) (core : Nat) : State × Stepped :=
  let c := s.core core
  let due := c.writes.filter fun w => w.left ≤ 1
  let sets := anySets due
  let (s, wins) := s.pickAll (s.lander core) (c.stepc + 1) sets
  let r := landAll c.loc wins due
  let a := landAcc c.acc (c.accWrites.filter fun w => w.left ≤ 1)
  let c := s.core core
  let st := lstatOf r (c.logged && !sets.isEmpty) ||| (if a.2.isEmpty then 0 else 0x80)
  ((s.setCore core { c with
      loc := r.mem, writes := later c.writes, spillAccs := laterKeys 0 c.spillAccs, spillWords := laterKeys 0 c.spillWords, acc := a.1, lstat := c.lstat ||| st
      accWrites := (c.accWrites.filter fun w => 1 < w.left).map fun w => { w with left := w.left - 1 } }).account core 0,
    { faults := r.faults ++ a.2, claims := r.claims })

/-- CLUSTER writes land in a core's exchange window, whose banks swap (R257). -/
def State.landExch (s : State) (core : Nat) : State × Stepped :=
  let c := s.core core
  let due := c.exWrites.filter fun w => w.left ≤ 1
  let sets := anySets due
  let (s, wins) := s.pickAll (s.lander core) (c.stepk + 1) sets
  let r := landAll c.exch wins due
  let c := s.core core
  ((s.setCore core { c with
      exch := r.mem, exWrites := later c.exWrites, spillAccs := laterKeys 1 c.spillAccs, spillWords := laterKeys 1 c.spillWords
      lstat := c.lstat ||| lstatOf r (c.logged && !sets.isEmpty) }).account core 1,
    { faults := r.faults, claims := r.claims })

/-- What a core does besides landing: counters, exceptions of the matrix engine, the granted shape and the windows
(R262, R294, R302, R306). -/
def State.stepCore (s : State) (core : Nat) (clu : Bool) : State :=
  let c := s.core core
  let counts (m : MStat) : Bool := !m.clu || clu
  let due := c.mstatDue.filter fun m => counts m && m.left ≤ 1
  let win := c.winReq.or c.win
  let s := s.setCore core { c with
    stepc := c.stepc + 1, stepk := if clu then c.stepk + 1 else c.stepk
    lstat := c.lstat ||| (if c.spillDue || (clu && c.spillDueK) then 0x40 else 0)
    spillDue := false, spillDueK := c.spillDueK && !clu
    mstat := due.foldl (fun f m => f ||| m.bits) c.mstat
    mstatDue := (c.mstatDue.filter fun m => !(counts m && m.left ≤ 1)).map fun m => if counts m then { m with left := m.left - 1 } else m
    gm := (c.grantReq.map (·.1)).getD c.gm, gn := (c.grantReq.map (·.2)).getD c.gn, grantReq := none
    win := win, winReq := none }
  match c.winReq with
  | none => s
  | some _ => (s.teamsOf core).foldl (fun s p => s.setTeam p.1 (p.2.windowed win)) s

/-- The results of claims reach their registers, and the marks in records (R177, R450). -/
def claimed (l : List (Nat × DWord × DWord)) (p : Pend) : Pend :=
  l.foldl (fun p x =>
    if p.id == x.1 && p.out.contains x.2.1 && p.atStep then
      { p with vals := p.vals ++ [x.2], out := p.out.filter fun y => y != x.2.1 }
    else p) p

/-- A team takes the results: those that have come are written. -/
def Team.takeClaims (t : Team) (l : List (Nat × DWord × DWord)) : Team :=
  let t := { t with pend := t.pend.map (claimed l) }
  (t.pend.filter fun p => p.atStep && !p.vals.isEmpty).foldl (fun t p => t.arrive p) t

def State.giveClaims (s : State) (core : Nat) (l : List (Nat × DWord × DWord)) : State :=
  if l.isEmpty then s
  else
    let c := s.core core
    let s := s.setCore core { c with recs := c.recs.map fun r => { r with marks := r.marks.map (claimed l) } }
    (s.teamsOf core).foldl (fun s p => s.setTeam p.1 (p.2.takeClaims l)) s

/-- The effect of a thread at a step point: `e.coll` before `e.rule` (R85), with the lowest address (R167). -/
def stepEffect (l : List (DWord × Bool × DWord)) (lti : DWord) : Option (Nat × DWord) :=
  let mine := l.filter fun x => x.1 == lti
  let pick (m : List (DWord × Bool × DWord)) (id : Nat) : Option (Nat × DWord) :=
    match m with
    | [] => none
    | x :: r => some (id, r.foldl (fun a y => if y.2.2.toNat < a.toNat then y.2.2 else a) x.2.2)
  (pick (mine.filter fun x => !x.2.1) 8).or (pick mine 9)

/-- The waiting teams of a core go on; threads whose writes collided raise their effects at the `step` (R167). -/
def State.release (s : State) (core : Nat) (clu : Bool) (l : List (DWord × Bool × DWord)) : State :=
  (s.teamsOf core).foldl (fun s p =>
    let t := p.2
    if t.wait == .core || (clu && t.wait == .clu) then
      let rs := (t.lanes t.live).filterMap fun i =>
        (stepEffect l (t.lti i)).map fun e => { t.raises 8 .drop i e with pc := t.pc + 8 }
      (s.setTeam p.1 { t with wait := .run, pc := t.pc + 8, raised := rs }).deliver p.1
    else s) s

/-- The collisions of threads that go on waiting, at `step clu`: they raise their effects when that step completes (R261, R262,
log 125). -/
def State.keptFaults (s : State) (core : Nat) (l : List (DWord × Bool × DWord)) : List (DWord × Bool × DWord) :=
  l.filter fun x => (s.teamsOf core).any fun p => p.2.wait == .clu && p.2.ltis.contains x.1

/-- Collisions of threads that have exited go to the supervisor (R167). -/
def State.lostFaults (s : State) (core : Nat) (cores : List Nat) (l : List (DWord × Bool × DWord)) : State :=
  let live := cores.flatMap fun k => (s.teamsOf k).flatMap fun p => p.2.ltis
  (l.foldl (fun (acc : List DWord) x => if live.contains x.1 || acc.contains x.1 then acc else acc ++ [x.1]) []).foldl (fun s lti =>
    match stepEffect l lti with
    | some e => s.report (dieOf core) ((s.core core).effReport core e.1 lti 0 e.2 none)
    | none => s) s

/-- R262: a core step point of one core group, and as part of a cluster step point (R361). -/
def State.coreStep (s : State) (core : Nat) : State :=
  let (s, r) := s.landCore core
  let s := (s.giveClaims core r.claims).stepCore core false
  let c := s.core core
  let faults := c.stepFaults ++ r.faults
  let s := s.setCore core { c with stepFaults := s.keptFaults core faults }
  (s.lostFaults core [core] faults).release core false faults

/-- The cores of a cluster group. -/
def State.groupCores (s : State) (cl : Nat) : List Nat :=
  match (s.cluster cl).grp with
  | some g => (List.range g.l.ncg).map fun k => coreIn cl k
  | none => []

/-- Landings over several cores. -/
def landOver (f : State → Nat → State × Stepped) : List Nat → State → State × Stepped
  | [], s => (s, { faults := [], claims := [] })
  | k :: r, s =>
    let (s, a) := f s k
    let (s, b) := landOver f r s
    (s, { faults := a.faults ++ b.faults, claims := a.claims ++ b.claims })

def State.clusterStep (s : State) (cl : Nat) : State :=
  let cores := s.groupCores cl
  let (s, a) := landOver State.landCore cores s
  let (s, b) := landOver State.landExch cores s
  let faults := (cores.flatMap fun k => (s.core k).stepFaults) ++ a.faults ++ b.faults
  let s := cores.foldl (fun s k => s.setCore k { s.core k with stepFaults := [] }) s
  let s := cores.foldl (fun s k => s.giveClaims k (a.claims ++ b.claims)) s
  let s := cores.foldl (fun s k => s.stepCore k true) s
  let s := s.lostFaults (cores.headD 0) cores faults
  cores.foldl (fun s k => s.release k true faults) s

/-! ## When a step point completes (R261, R360) -/

/-- A team stands at a step point with nothing left behind. -/
def Team.atStep (t : Team) : Bool :=
  (t.wait == .core || t.wait == .clu) && t.log.isEmpty && t.traps.isEmpty && t.raised.isEmpty &&
    t.div.all fun e => e.wait == 0 && e.done == 0

/-- Every live thread of a core waits at a step point, and its engines are done. -/
def State.coreAtStep (s : State) (core : Nat) : Bool :=
  let c := s.core core
  c.grp.isSome && !c.halted && c.seeds.isEmpty && c.rounds.isEmpty && c.moves.isEmpty && c.copyQ.isEmpty && c.matQ.isEmpty &&
    (s.teamsOf core).all fun p => p.2.atStep

def State.coreStepReady (s : State) (core : Nat) : Bool :=
  s.coreAtStep core && (s.teamsOf core).any fun p => p.2.wait == .core

def State.clusterStepReady (s : State) (cl : Nat) : Bool :=
  let cores := s.groupCores cl
  cores.all (fun k => s.coreAtStep k && (s.teamsOf k).all fun p => p.2.wait == .clu) &&
    cores.any fun k => !(s.teamsOf k).isEmpty

end Sys2Proof.Machine
end

