-- ==== Sys2Proof/Machine/Supervisor.lean ====
section
/-! DEFINITION. The supervisor of a context (21, R378 to R380, R389, R395 to R398; 22, R403, R405): its status block, event
records, fault records, the discard of phases, drains and the end of a graph. -/
namespace Sys2Proof.Machine

/-! ## The context status block (R379) and event records (R397, R429) -/

/-- One word of the status block, written outside the step model. -/
def State.csbWord (s : State) (x : CtxId) (off : Nat) (v : DWord) : State :=
  { s with mem := write64 s.mem ((s.ctx x).csb.toNat + off) v }

/-- HDR: the last committed phase, and the phase in flight or all ones. -/
def State.writeHdr (s : State) (x : CtxId) : State :=
  let c := s.ctx x
  let now : BitVec 32 := match c.phases.getLast? with | some p => p.num | none => 0xFFFFFFFF
  s.csbWord x 0 (BitVec.ofNat 64 (c.lastPhase.toNat * 2 ^ 32 + now.toNat))

/-- The entry of a phase: its number and its status word (Table 21-4). -/
def State.writePsw (s : State) (x : CtxId) (num : BitVec 32) (psw : BitVec 21) : State :=
  let a := 0x100 + 16 * (num.toNat % 256)
  (s.csbWord x a (num.setWidth 64)).csbWord x (a + 8) (psw.setWidth 64)

/-- Whether the event queue has room: one record always stays free, so that an empty queue is told from a full one. -/
def Ctl.eqRoom (c : Ctl) : Bool :=
  c.eqSize != 0 && (c.eqTail.toNat + 1) % c.eqSize.toNat != c.eqHead.toNat

/-- A record at the tail of the queue; the word that holds PH is written last. PH is 1 on the first lap. -/
def State.putEvent (s : State) (x : CtxId) (type : Nat) (phase arg0 arg1 : DWord) : State :=
  let c := s.ctl
  let a := c.eqBase.toNat + 32 * c.eqTail.toNat
  let h := write64 (write64 (write64 s.host (a + 8) phase) (a + 0x10) arg0) (a + 0x18) arg1
  let w := BitVec.ofNat 64 ((if c.eqPhase then 0 else 2 ^ 63) + x.val * 2 ^ 8 + type)
  let wraps := (c.eqTail.toNat + 1) % c.eqSize.toNat == 0
  { s with
    host := write64 h a w
    ctl := { c with eqTail := BitVec.ofNat 64 ((c.eqTail.toNat + 1) % c.eqSize.toNat), eqPhase := c.eqPhase != wraps } }

/-- 64 bits, saturating. -/
def sat64 (n : Nat) : DWord := BitVec.ofNat 64 (Nat.min n (2 ^ 64 - 1))

/-- An event is posted, or counted as lost while the queue is full (R397). An argument that the manual does not give is a free
value. -/
def State.postEvent (s : State) (x : CtxId) (type : Nat) (phase : DWord) (arg0 arg1 : Option DWord) : State :=
  if s.ctl.eqRoom then
    s.bump.putEvent x type phase (arg0.getD (Config.eventArg s.free 0)) (arg1.getD (Config.eventArg s.free 1))
  else
    let c := s.ctx x
    let n := sat64 (c.evovf.toNat + 1)
    let lost := (s.ctl.lost.lookup x.val).getD 0 + 1
    { s.setCtx x { c with evovf := n } with
      ctl := { s.ctl with lost := (x.val, lost) :: s.ctl.lost.filter fun e => e.1 != x.val } }.csbWord x 0x10 n

/-- R397: once space has returned, one overflow event with the count of a context. -/
def execEventOverflow (s : State) : Host.Outcome State Fault Refusal :=
  .next (match s.ctl.lost.getLast? with
    | none => s
    | some (x, n) =>
      if s.ctl.eqRoom then
        { s with ctl := { s.ctl with lost := s.ctl.lost.dropLast } }.postEvent (Fin.ofNat 64 x) 4 0 (some (BitVec.ofNat 64 n)) none
      else s)

/-! ## Waiting groups (R395) -/

/-- Whether a cluster takes groups: mapped at bring-up, and not removed from placement since, nor any of its cores (R2, R266, R367,
R414). -/
def State.placeable (s : State) (cl : Nat) : Bool :=
  s.ctl.claVail.getLsbD cl && !(s.cluster cl).removed && (List.range 6).all fun k => !(s.core (coreIn cl k)).removed

/-- What CLAVAIL shows: the clusters that take groups. -/
def State.available (s : State) : BitVec 64 :=
  (List.range 64).foldl (fun (m : BitVec 64) cl => if s.placeable cl then m else m &&& ~~~ (1#64 <<< cl)) s.ctl.claVail

/-- The clusters on which a context may place groups: of its partition, and available. -/
def State.usable (s : State) (x : CtxId) (cl : Nat) : Bool := (s.partBlk (s.ctx x).part).mask.getLsbD cl && s.placeable cl

/-- A free cluster of a die for a context, the lowest first (R390). -/
def State.freeCluster (s : State) (x : CtxId) (d : Nat) : Option Nat :=
  (List.range 8).findSome? fun k =>
    let cl := 8 * d + k
    if s.usable x cl && (s.cluster cl).grp.isNone then some cl else none

def Queue.waits (q : Queue) : Bool := q.lo < q.hi

/-- Whether a context has a ready group and no free cluster on its die. -/
def State.starved (s : State) (x : CtxId) : Bool :=
  let c := s.ctx x
  let qs := c.phases.flatMap Phase.queues
  c.cstate == .running && qs.any Queue.waits && qs.all fun q => !q.waits || (s.freeCluster x q.die).isNone

/-- Since when each context has waited for a free cluster. -/
def State.markWaits (s : State) : State :=
  s.ctxs.foldl (fun s p =>
    let x : CtxId := Fin.ofNat 64 p.1
    let c := s.ctx x
    let r := if s.starved x then (match c.readySince with | some k => some k | none => some s.clock) else none
    if r = c.readySince then s else s.setCtx x { c with readySince := r }) s

/-! ## Groups that end or are killed -/

/-- A core without its group. What belongs to the hardware stays. -/
def CoreSt.vacated (c : CoreSt) : CoreSt :=
  { CoreSt.idle with reqs := c.reqs, corrected := c.corrected, parity := c.parity, removed := c.removed, ages := c.ages }

/-- A core's group is gone, with its teams and its part of the landing spill area. -/
def State.vacateCore (s : State) (core : Nat) : State :=
  let c := s.core core
  let x := s.ctx c.ctx
  let s := s.setCtx c.ctx { x with spillUsed := x.spillUsed - c.spilled }
  { s.setCore core c.vacated with teams := s.teams.filter fun p => coreOf p.1 != core }

/-- A cluster without its group; what it still waits for in the network comes (R417, R418). -/
def State.vacate (s : State) (cl : Nat) : State :=
  let s := (s.groupCores cl).foldl State.vacateCore s
  s.setCluster cl { s.cluster cl with grp := none, coming := false, told := false }

/-- The clusters that run groups of a context, of one phase or of all. -/
def State.clustersOf (s : State) (x : CtxId) (num : Option (BitVec 32)) : List Nat :=
  (s.clusters.filter fun p => match p.2.grp with
    | some g => g.ctx == x && (match num with | some n => g.phase == n | none => true)
    | none => false).map (·.1)

/-! ## The end of a graph (R428) and of a drain (R396) -/

/-- A domain-level phase that this package has discarded, and whose decision has not been taken (R446). -/
def Domain.failing (d : Domain) (own : Fin 1024) : Bool := d.decided.isNone && d.votes.any fun v => v.1 == own && !v.2

/-- What remains of a domain-level phase when its context stops: a commit that waits for its release, or the vote against it. -/
def State.failingOf (s : State) (x : CtxId) : Option Domain :=
  (s.ctx x).domain.filter fun d => d.decided == some true || d.failing s.ctl.pkg

/-- A graph that has stopped leaves its context idle once no phase of it is in flight. -/
def State.restCtx (s : State) (x : CtxId) : State :=
  let c := s.ctx x
  if c.walk == .none && c.phases.isEmpty && c.cstate != .idle then
    s.setCtx x { c with cstate := .idle, iters := [], domain := s.failingOf x }
  else s

/-- Where the walker stands. -/
def Walk.node : Walk → DWord
  | .none => 0
  | .visit a => a
  | .join a => a
  | .meet a => a
  | .poll a => a

/-- The next group to place on a die: all ones when none waits. -/
def Ctx.nextOn (c : Ctx) (d : Nat) : DWord :=
  match ((c.phases.flatMap Phase.queues).filter fun q => q.die.val == d && q.waits).map fun q => q.off + q.stride * q.lo with
  | [] => 0xFFFFFFFF
  | n :: r => BitVec.ofNat 64 (r.foldl Nat.min n)

/-- The context save area (R395, Table 21-5). -/
def State.saveCtx (s : State) (x : CtxId) : State :=
  let c := s.ctx x
  let num : DWord := match c.phases.getLast? with | some p => p.num.setWidth 64 | none => 0xFFFFFFFF
  let pos : DWord := BitVec.ofNat 64 c.scorePos
  let s := ((s.csbWord x 0x2100 c.walk.node).csbWord x 0x2108 num).csbWord x 0x2110 pos
  let s := (List.range 8).foldl (fun s d => s.csbWord x (0x2118 + 8 * d) (c.nextOn d)) s
  ((c.iters.take 64).zipIdx).foldl (fun s e => s.csbWord x (0x2158 + 8 * e.2) e.1.2) s

/-- The drain ends when the last resident group has ended. -/
def State.endDrain (s : State) (x : CtxId) : State :=
  let c := s.ctx x
  if c.cstate == .draining && (s.clustersOf x none).isEmpty then (s.setCtx x { c with cstate := .preempted }).saveCtx x
  else s

/-! ## The discard of a phase (R371, R389, R403) -/

/-- The records of a discarded phase go, and those of other phases move up, so that the scoresheet has no gap below its write
position; those that its replay has used can be used again (R403). -/
def Ctx.rewind (c : Ctx) (num : BitVec 32) : Ctx :=
  if c.replay then { c with score := c.score.map fun r => if r.phase == num then { r with used := false } else r }
  else
    let l := c.score.filter fun r => r.phase != num
    { c with score := l, sheet := writeBytes c.sheet 0 (l.flatMap Score.layout) }

/-- A package votes. -/
def State.castVote (s : State) (x : CtxId) (d : Domain) (ok : Bool) : State :=
  let own := s.ctl.pkg
  let s := s.setCtx x { s.ctx x with domain := some { d with votes := (own, ok) :: d.votes.filter fun v => v.1 != own } }
  if d.set.headD 0 = own then s else s.tell x (d.set.headD 0) (.vote d.stamp ok)

/-- A domain-level phase that is discarded here before the decision is discarded on every package: this package votes FAIL, whatever it
has voted (R446). -/
def State.tellDiscard (s : State) (x : CtxId) : State :=
  match (s.ctx x).domain with
  | some d => if d.decided ≠ none ∨ d.set = [s.ctl.pkg] then s.setCtx x { s.ctx x with domain := none } else s.castVote x d false
  | none => s

/-- Nothing of the phase lands; what its dropped stores and copies held back on the flows of other threads goes out (R164). Its number
is free again when no later phase is in flight, so that its re-issue finds the
scoresheet as it was at its start. -/
def State.discard (s : State) (x : CtxId) (num : BitVec 32) (ff : Bool) : State :=
  match s.phaseOf x num with
  | none => s
  | some p =>
    let s := if p.level == .domain then s.tellDiscard x else s
    let s := ((s.clustersOf x (some num)).foldl State.vacate s).purge x num
    let c := s.ctx x
    let rest := c.phases.filter fun q => q.num != num
    let s := s.setCtx x { c.rewind num with
      phases := rest
      nextPhase := if rest.all fun q => q.num.toNat < num.toNat then num else c.nextPhase }
    ((s.writePsw x num (p.psw ||| 0x800 ||| if ff then 0x1000 else 0)).writeHdr x).markWaits.flow

/-- Every phase of a context is discarded. -/
def State.discardAll (s : State) (x : CtxId) (ff : Bool) : State :=
  ((s.ctx x).phases.reverse.map Phase.num).foldl (fun s n => s.discard x n ff) s

/-- A phase that is discarded for a fault stops its graph; other phases in flight go on (DESIGN CHOICE, log 50). -/
def State.failPhase (s : State) (x : CtxId) (num : BitVec 32) : State :=
  match s.phaseOf x num with
  | none => s
  | some _ =>
    let s := s.discard x num false
    ((s.setCtx x { s.ctx x with walk := .none }).endDrain x).restCtx x

/-- The context is idle, its phases discarded, and no event is posted. -/
def State.abortCtx (s : State) (x : CtxId) : State :=
  let s := s.discardAll x false
  s.setCtx x { s.ctx x with cstate := .idle, walk := .none, iters := [], domain := s.failingOf x }

/-! ## Fault records (R380) and replay divergence (R405) -/

/-- The eight words of a fault record. -/
def Report.words (r : Report) : List DWord :=
  [BitVec.ofNat 64 ((if r.kind = 1 ∨ r.kind = 4 then r.eff % 2 ^ 16 else 0) * 2 ^ 32 + r.kind % 2 ^ 8 * 2 ^ 24),
   r.phase.setWidth 64, r.lti, r.pc, r.payload, r.loc, r.addr, 0]

/-- A fault record is written; its address. -/
def State.putRecord (s : State) (r : Report) : State × DWord :=
  let c := s.ctx r.ctx
  let off := 0x1100 + 64 * (c.fcnt.toNat % 64)
  let s := s.setCtx r.ctx { c with fcnt := c.fcnt + 1 }
  let s := (r.words.zipIdx).foldl (fun s w => s.csbWord r.ctx (off + 8 * w.2) w.1) s
  (s.csbWord r.ctx 0x18 (c.fcnt + 1), c.csb + BitVec.ofNat 64 off)

/-- The first unmatched record of a phase, with its offset in the scoresheet; without one, the end of the scoresheet. -/
def firstUnused (num : BitVec 32) : List Score → Nat → Option Score × Nat
  | [], off => (none, off)
  | r :: l, off => if r.phase == num && !r.used then (some r, off) else firstUnused num l (off + r.bytes)

/-- R405: the phase is discarded and the divergence announced. The event has room for the first two words of the record's header
(R429); RDIV tells where the whole of it stands in the scoresheet (log 126). -/
def State.replayEnds (s : State) (x : CtxId) (num : BitVec 32) : State :=
  let u := firstUnused num (s.ctx x).score 0
  let s := (s.failPhase x num).csbWord x 0x20 (BitVec.ofNat 64 (num.toNat * 2 ^ 32 + u.2 % 2 ^ 32))
  match u.1 with
  | some r => s.postEvent x 8 (num.setWidth 64) (some (r.header.getD 0 0)) (some (r.header.getD 1 0))
  | none => s.postEvent x 8 (num.setWidth 64) none none

/-- R398: a breakpoint under debug halt. The context counts as halted, so that the host can resume it or abort it. -/
def State.debugHalt (s : State) (r : Report) : State :=
  let c := s.ctx r.ctx
  let s := if c.cstate == .running || c.cstate == .draining then
      s.setCtx r.ctx { c with cstate := .halted, before := c.cstate
                              drainRun := if c.cstate == .draining then c.drainRun + (s.clock - c.drainStart) else c.drainRun }
    else s
  s.postEvent r.ctx 6 (r.phase.setWidth 64) none none

/-- What the supervisor does with a report: a fault discards its phase, and every report of a fault is recorded and announced, though
its phase is discarded by then (R397). A halt and a divergence concern a phase in flight alone. -/
def State.supervise (s : State) (r : Report) : State :=
  let gone := r.late || (s.phaseOf r.ctx r.phase).isNone
  if r.halt.isSome then (if gone then s else s.debugHalt r)
  else if r.kind = divergenceKind then (if gone then s else s.replayEnds r.ctx r.phase)
  else
    let s := if gone then s else s.failPhase r.ctx r.phase
    let (s, a) := s.putRecord r
    s.postEvent r.ctx (if r.kind = 5 then 9 else 3) (r.phase.setWidth 64) (some a) none

/-- R397: the first report of a die's FIFO leaves for the control die (Table 23-2); a held report takes its place. -/
def execFaultReport (d : DieId) (s : State) : Host.Outcome State Fault Refusal :=
  let x := s.die d
  .next (match x.fifo, s.net.dieNode d with
    | r :: rest, some l =>
      let y : DieSt := match x.heldReports with
        | [] => { x with fifo := rest }
        | h :: hs => { x with fifo := rest ++ [h], heldReports := hs }
      (s.setDie d y).emitCtl l ctlNode r.ctx r.phase (.report r)
    | _, _ => s)

/-! ## Pre-emption and flag fall (R395, R396) -/

/-- A running context begins to drain. -/
def State.preempt (s : State) (x : CtxId) : State :=
  (s.setCtx x { s.ctx x with cstate := .draining, drainStart := s.clock, drainRun := 0 }).endDrain x

/-- The contexts of lower priority that keep clusters from one of the same partition. -/
def State.victims (s : State) (x : CtxId) : List CtxId :=
  (List.finRange 64).filter fun (v : CtxId) =>
    (s.ctx x).prio.val < (s.ctx v).prio.val && (s.ctx v).part == (s.ctx x).part && (s.ctx v).cstate == .running &&
      !(s.clustersOf v none).isEmpty

/-- The victim: the lowest priority, then the lowest number (DESIGN CHOICE, log 51). -/
def State.victim (s : State) (x : CtxId) : Option CtxId :=
  match s.victims x with
  | [] => none
  | v :: r => some (r.foldl (fun (b v : CtxId) => if (s.ctx b).prio.val < (s.ctx v).prio.val then v else b) v)

/-- R395: a context has had ready groups and no free cluster for longer than its threshold. -/
def execPreemptThreshold (x : CtxId) (s : State) : Host.Outcome State Fault Refusal :=
  let c := s.ctx x
  .next (match c.readySince, s.victim x with
    | some k, some v => if c.preempt ≠ 0 ∧ s.starved x ∧ c.preempt.toNat < s.clock - k then s.preempt v else s
    | _, _ => s)

/-- R396: the drain deadline has expired, and some group has not ended; one that has ended counts as ended although the control die has
not heard of it. The context is idle afterwards: the manual says that it was reset (log 52). -/
def execFlagFall (x : CtxId) (s : State) : Host.Outcome State Fault Refusal :=
  let c := s.ctx x
  .next (
    if c.cstate == .draining && (s.clustersOf x none).any (fun cl => !(s.cluster cl).told) && c.drain.toNat ≤ c.drainRun + (s.clock - c.drainStart) then
      let num : DWord := match c.phases.getLast? with | some p => p.num.setWidth 64 | none => 0
      ((s.discardAll x true).abortCtx x).postEvent x 5 num none none
    else s)

end Sys2Proof.Machine
end

