-- ==== Sys2Proof/Machine/Dispatcher.lean ====
section
/-! DEFINITION. The dispatcher (21, R383, R387, R390; 03, R63, R83; 12, R253, R254; 19, R358): kernel descriptors, the start
of a phase, the placement of cluster groups, stealing, and the end of a group. -/
namespace Sys2Proof.Machine

/-! ## What the control die reads (R382) -/

/-- Where a byte of a context's memory lies for the control die. -/
inductive CtlSpot where
  | dev (pte : DWord) (pa : Nat)
  | host (bus : Nat)
  /-- a malformed table (R374) -/
  | bad (level : Nat)
  | none
  deriving DecidableEq, Repr

/-- The control die translates by the table alone, where its sectors can be read. Pages of other packages are not open to it (R443). -/
def State.ctlFind (s : State) (x : CtxId) (a : DWord) : CtlSpot :=
  if a.toNat / 2 ^ 52 ≠ 0 ∨ (s.badTable x a.toNat).isSome then .none
  else match walk s.mem a.toNat 3 ((s.ctx x).rootFrame) with
    | .leaf p =>
      let pa := ptePa p a.toNat
      if !s.paOk x p pa then .bad (if pteSz p = 2 then 1 else 0)
      else if 5 ≤ pteScope p ∨ s.isFar p then .none
      else if pteScope p = 4 then .host pa
      else .dev p pa
    | .malformed lv => .bad lv
    | _ => .none

/-- The bad HBM4 sector that the control die meets when it reads n bytes, in a table or in a page, with its physical address; n = 0 for
a translation alone. -/
def State.ctlSector (s : State) (x : CtxId) (a : DWord) (n : Nat) : Option (Nat × Nat) :=
  if s.badSectors.isEmpty ∨ a.toNat / 2 ^ 52 ≠ 0 then none
  else match s.badTable x a.toNat with
    | some k => some (k, k * 64)
    | none => match s.ctlFind x a with
      | .dev p pa => if n = 0 then none else s.badRead (.page p pa) n
      | _ => none

/-- What goes to the supervisor when the control die cannot read n bytes: a malformed table, or a bad sector (R374, R377). -/
def State.ctlTrouble (s : State) (x : CtxId) (num : BitVec 32) (a : DWord) (n : Nat) : Option Report :=
  match s.ctlSector x a n, s.ctlFind x a with
  | some b, _ => some (sectorReport x num b.1 b.2)
  | none, .bad lv => some
    { ctx := x, phase := num, kind := 2, eff := 0, lti := BitVec.allOnes 64, pc := 0, payload := 0, loc := BitVec.ofNat 64 lv, addr := a
      halt := none }
  | none, _ => none

/-- n bytes of device memory, in one page. -/
def State.ctlRead (s : State) (x : CtxId) (a : DWord) (n : Nat) : Option (List Byte) :=
  match s.ctlFind x a with
  | .dev p pa => if a.toNat % 2 ^ 16 + n ≤ 2 ^ 16 ∧ (s.ctlSector x a n).isNone then some (s.pageBytes s.mem p pa n) else none
  | _ => none

def State.ctl64 (s : State) (x : CtxId) (a : DWord) : Option DWord :=
  (s.ctlRead x a 8).map fun b => BitVec.ofNat 64 (leNat b)

/-- Whether an address lies in a PACKAGE page, where nodes and list sets stand (R382, R391). -/
def State.inPackage (s : State) (x : CtxId) (a : DWord) : Bool :=
  match s.ctlFind x a with
  | .dev p _ => pteScope p == 2
  | _ => false

/-- R415: the control die's readers ask for the lines of what they read. Their values are those of the committed copy as it stands
(log 129). -/
def State.ctlAsk (s : State) (x : CtxId) (l : List (DWord × Nat)) : State :=
  let keys := distinct (l.flatMap fun e => match s.ctlFind x e.1 with
    | .dev p pa => (List.range ((pa % 128 + e.2 + 127) / 128)).map fun k => s.devKey p (pa / 128 * 128 + 128 * k)
    | _ => [])
  keys.foldl (fun s k =>
    let r : LineReq := { rid := s.net.rids, ctx := x, phase := 0, leaf := keyLeaf k, line := k / 128, ids := [], sent := false }
    { s with net := { s.net with rids := s.net.rids + 1 }, ctl := { s.ctl with reqs := s.ctl.reqs ++ [r] } }) s

/-! ## Kernel descriptors (Table 21-2) -/

def bits (w : DWord) (hi lo : Nat) : Nat := w.toNat / 2 ^ lo % 2 ^ (hi - lo + 1)

/-- The launch of a descriptor, by its eight words, and an argument block; `none` for a value out of the ranges of Table 1-4
or R82, or a set reserved bit (R383), or teams that do not fit one core (R83). -/
def launchOf (w : List DWord) (args : List DWord) : Option Launch :=
  match w with
  | [code, w1, w2, w3, r0, r1, r2, r3] =>
    let l : Launch :=
      { code := code, det := Fin.ofNat 3 (bits w1 49 48), spill := BitVec.ofNat 5 (bits w1 44 40), rejoins := bits w1 38 32
        vregs := bits w1 26 16, team := bits w1 10 0, ncg := bits w2 18 16, nth := bits w2 14 0, spawn := bits w3 63 32
        priv := bits w3 31 16 * 16, exch := bits w3 13 8 * 65536, loc := bits w3 5 0 * 65536, args := args }
    let zero := bits w1 63 50 = 0 ∧ bits w1 47 45 = 0 ∧ bits w1 39 39 = 0 ∧ bits w1 31 27 = 0 ∧ bits w1 15 11 = 0 ∧
      bits w2 63 19 = 0 ∧ bits w2 15 15 = 0 ∧ bits w3 15 14 = 0 ∧ bits w3 7 6 = 0 ∧ r0 = 0 ∧ r1 = 0 ∧ r2 = 0 ∧ r3 = 0
    let ok := code.toNat % 32 = 0 ∧ bits w1 49 48 ≤ 2 ∧ bits w1 44 40 ≤ 16 ∧ l.rejoins ≤ 64 ∧
      1 ≤ l.vregs ∧ l.vregs ≤ 1024 ∧ 32 ≤ l.team ∧ l.team ≤ 1024 ∧ l.team % 32 = 0 ∧ l.vregs * l.team * 4 ≤ 262144 ∧
      1 ≤ l.ncg ∧ l.ncg ≤ 6 ∧ 1 ≤ l.nth ∧ l.nth ≤ 16384 ∧ 1 ≤ l.spawn ∧ l.spawn ≤ 1024 ∧ l.priv ≤ 65536 ∧
      l.exch + l.loc ≤ 2097152
    if zero ∧ ok ∧ (l.nth + l.team - 1) / l.team ≤ 12 * l.perPart then some l else none
  | _ => none

/-- A descriptor and an argument block, read when the node runs. -/
def State.launchAt (s : State) (x : CtxId) (desc args : DWord) : Option Launch :=
  let word (a : DWord) (k : Nat) : Option DWord := s.ctl64 x (a + BitVec.ofNat 64 (8 * k))
  match (List.range 8).mapM (word desc), (List.range 16).mapM (word args) with
  | some w, some g => launchOf w g
  | _, _ => none

/-! ## Writes of other packages (R443, R445) -/

/-- A write of another package, as its slice holds it. -/
def ofRemote (w : RemoteWrite) : Write :=
  { lti := w.lti, seq := w.seq, row := w.row, addr := w.addr, va := w.va, bytes := w.bytes, rule := w.rule, fmt := w.fmt, left := 1,
    claim := none }

/-- The control die puts landing writes of another package into the network, for the slice that homes them. -/
def State.writesFrom (s : State) (pkg : Fin 1024) (x : CtxId) (num : BitVec 32) (src : NetNode) (l : List RemoteWrite) : State :=
  match l with
  | [] => s
  | w :: _ => s.emit
      { chan := .req, ctx := x, phase := num, src := ctlNode, dsts := [keyLeaf w.addr], body := .write (l.map ofRemote) (some (pkg, src))
        since := 0, forked := false, dead := false }

/-- What has come for a domain-level phase before it began here; what belongs to an earlier phase is acknowledged only. -/
def State.takePending (s : State) (x : CtxId) (num : BitVec 32) : State :=
  let mine := s.fab.pendingWrites.filter fun p => pktCtx p == some x
  mine.foldl (fun s p => match p.body with
    | .writes _ stamp src l =>
      if ((s.ctx x).domain.map Domain.stamp) == some stamp then s.writesFrom p.spkg x num src l else s.toPackage 2 p.spkg (.ack x src 1)
    | _ => s)
    { s with fab := { s.fab with pendingWrites := s.fab.pendingWrites.filter fun p => pktCtx p != some x } }

/-! ## The start of a phase (R387, R445) -/

/-- How many j give a CLG `off` + `stride` · j below n. -/
def countTo (off stride n : Nat) : Nat := if n ≤ off then 0 else (n - off + stride - 1) / stride

/-- The queues of a branch: at one die (die level), over the eight dies, or over the packages of a set, `place` being this
package's place among them. -/
def Branch.queues (b : Branch) (lv : Level) (die : Option DieId) (pkgs place : Nat) : List Queue :=
  match lv, die with
  | .die, some d => [{ die := d, br := b.br, off := 0, stride := 1, lo := 0, hi := b.ng }]
  | .die, none => []
  | .package, _ => (List.finRange 8).map fun (d : DieId) =>
      { die := d, br := b.br, off := d, stride := 8, lo := 0, hi := countTo d 8 b.ng }
  | .domain, _ => (List.finRange 8).map fun (d : DieId) =>
      { die := d, br := b.br, off := place + pkgs * d, stride := 8 * pkgs, lo := 0, hi := countTo (place + pkgs * d) (8 * pkgs) b.ng }

/-- A branch that starts, with its level and, at domain level, the packages that run its groups. -/
structure Start where
  b : Branch
  lv : Level
  pkgs : List (Fin 1024)
  deriving DecidableEq, Repr

/-- The queues of a branch on a package; a package outside its set runs none of its groups. -/
def Start.queues (b : Start) (die : Option DieId) (own : Fin 1024) : List Queue :=
  if b.lv == .domain && !b.pkgs.contains own then []
  else b.b.queues b.lv die b.pkgs.length (b.pkgs.filter fun k => k.val < own.val).length

/-- R2: whether a phase would place a group on a die that has no usable cluster. -/
def State.noCluster (s : State) (x : CtxId) (lv : Level) (qs : List Queue) : Bool :=
  lv != .package && qs.any fun q => q.waits && !(List.range 8).any fun k => s.usable x (8 * q.die + k)

/-- A phase takes its number; the status block shows it in flight. -/
def State.openPhase (s : State) (x : CtxId) (p : Phase) : State :=
  let c := s.ctx x
  let p := { p with num := c.nextPhase, base := s.mem }
  ((s.setCtx x { c with nextPhase := c.nextPhase + 1, phases := c.phases ++ [p] }).writeHdr x).markWaits

/-- R83: the start of a phase fails with a launch error, or with what the control die could not read of some bytes. -/
def State.launchError (s : State) (x : CtxId) (node : DWord) (reads : List (DWord × Nat)) : State :=
  let num := (s.ctx x).nextPhase - 1
  s.supervise ((reads.findSome? fun r => s.ctlTrouble x num r.1 r.2).getD
    { ctx := x, phase := num, kind := 5, eff := 0, lti := BitVec.allOnes 64, pc := 0, payload := 0, loc := 0, addr := node, halt := none })

/-- A phase starts with its branches; `none` for a launch that is not admitted. `reads` are the descriptors and the argument blocks. -/
def State.startPhase (s : State) (x : CtxId) (node : DWord) (lv : Level) (die : Option DieId) (bs : Option (List Start))
    (reads : List (DWord × Nat)) : State :=
  let l := bs.getD []
  let own := s.ctl.pkg
  let s := s.openPhase x
    { num := 0, base := [], known := [], spillAccs := [], spillLines := [], spillItems := 0, level := lv, die := die, branches := l.map Start.b
      queues := l.flatMap fun b => b.queues die own, running := 0, writes := [], items := [], psw := 0, reads := [] }
  if bs.isNone || (l.any fun b => s.noCluster x b.lv (b.queues die own)) then s.launchError x node (if bs.isNone then reads else [])
  else if lv == .domain then s.takePending x ((s.ctx x).nextPhase - 1)
  else s

/-! ## Placement (R358, R254, R63, R30) -/

/-- The k-th team of a core group, with its threads (R63). -/
def Launch.teamAt (l : Launch) (g : Group) (cg j : Nat) : Team :=
  let n := Nat.min l.team (l.nth - j * l.team)
  let lti (i : Nat) : DWord := BitVec.ofNat 64 (g.br.toNat * 2 ^ 56 + g.clg.toNat * 2 ^ 24 + cg * 2 ^ 21 + (j * l.team + i))
  Team.setM { l.fresh with first := j * l.team, pc := l.code, remap := (List.range n).map fun i => (i, lti i) } 0
    (BitVec.ofNat 1024 (2 ^ n - 1))

/-- Bytes at offsets below a size, as a memory. -/
def initial (n : Nat) (l : List (Nat × Byte)) : SMap Byte :=
  (l.filter fun b => b.1 < n).foldl (fun m b => m.set unwritten b.1 b.2) []

/-- What system software has loaded for the windows of a kernel's groups in a context (R30). -/
def State.loaded (s : State) (x : CtxId) (code : DWord) : KernelData :=
  ((s.windows.find? fun w => w.1 == x && w.2.code == code).map (·.2)).getD { code := code, loc := [], exch := [], priv := [] }

/-- A core begins a core group: its windows hold their initial data, and its teams take residency in ascending order. -/
def State.startCore (s : State) (core cg : Nat) (g : Group) : State :=
  let w := s.loaded g.ctx g.l.code
  let c := (s.core core).vacated
  let each := initial (2 ^ 16) w.priv
  let s := s.setCore core { c with
    grp := some g, cg := Fin.ofNat 6 cg, loc := initial (2 ^ 21) w.loc, exch := initial (2 ^ 24) w.exch
    priv := (List.range g.l.nth).flatMap fun th => each.map fun b => (th * 2 ^ 16 + b.1, b.2)
    halted := (s.ctx g.ctx).cstate == .halted }
  (List.range ((g.l.nth + g.l.team - 1) / g.l.team)).foldl (fun s j =>
    match s.partFor core with
    | some p => (s.addTeam core p (g.l.teamAt g cg j)).2
    | none => s) s

/-- A cluster group starts on a cluster: core group k on core k. -/
def State.startGroup (s : State) (cl : Nat) (g : Group) : State :=
  let s := s.setCluster cl { s.cluster cl with grp := some g, coming := false, told := false }
  (List.range g.l.ncg).foldl (fun s k => s.startCore (coreIn cl k) k g) s

/-- A group of a phase is placed on a cluster, by an order on CTL (Table 23-2). -/
def State.place (s : State) (x : CtxId) (num : BitVec 32) (br : BitVec 8) (clg cl : Nat) : State :=
  match s.phaseOf x num with
  | none => s
  | some p =>
    match p.branches.find? fun b => b.br == br with
    | none => s
    | some b =>
      let s := s.mapPhase x num fun p => { p with running := p.running + 1 }
      let g : Group := { ctx := x, phase := num, level := p.level, br := br, clg := BitVec.ofNat 32 clg, l := b.l }
      let s := s.setCluster cl { s.cluster cl with grp := some g, coming := true, told := false }
      (s.emitCtl ctlNode (leafOfCluster cl) x num (.place cl g)).markWaits

/-- The order reaches its cluster, and the group starts. -/
def State.arriveGroup (s : State) (cl : Nat) (g : Group) : State :=
  if (s.cluster cl).coming && (s.cluster cl).grp == some g then s.startGroup cl g else s

/-- A waiting group: its phase, branch and CLG. -/
abbrev Waiting := BitVec 32 × BitVec 8 × Nat

/-- The head of a context's queue on a die: ascending phase, CLG and branch. -/
def Ctx.head (c : Ctx) (d : Nat) : Option Waiting :=
  c.phases.findSome? fun p =>
    match (p.queues.filter fun q => q.die.val == d && q.waits).map fun q => (q.off + q.stride * q.lo, q.br) with
    | [] => none
    | q :: r =>
      let b := r.foldl (fun (b q : Nat × BitVec 8) => if q.1 < b.1 || (q.1 == b.1 && q.2.toNat < b.2.toNat) then q else b) q
      some (p.num, b.2, b.1)

/-- The tail of a context's queue on a die, of its package-level phases. -/
def Ctx.tail (c : Ctx) (d : Nat) : Option Waiting :=
  c.phases.reverse.findSome? fun p =>
    if p.level != .package then none
    else match (p.queues.filter fun q => q.die.val == d && q.waits).map fun q => (q.off + q.stride * (q.hi - 1), q.br) with
      | [] => none
      | q :: r =>
        let b := r.foldl (fun (b q : Nat × BitVec 8) => if b.1 < q.1 || (q.1 == b.1 && b.2.toNat < q.2.toNat) then q else b) q
        some (p.num, b.2, b.1)

/-- The group leaves its queue, at the head or at the tail. -/
def State.unqueue (s : State) (x : CtxId) (d : Nat) (r : Waiting) : State :=
  s.mapPhase x r.1 fun p => { p with queues := p.queues.map fun q =>
    if q.die.val == d && q.br == r.2.1 && q.waits then
      (if q.off + q.stride * q.lo == r.2.2 then { q with lo := q.lo + 1 }
       else if q.off + q.stride * (q.hi - 1) == r.2.2 then { q with hi := q.hi - 1 } else q)
    else q }

/-- The device places groups only while it is ready and its network whole (R414, R430, R436). -/
def State.placing (s : State) : Bool := s.ctl.state == 5 && !s.net.draining

/-- Whether a context's group can be placed on a die. -/
def State.canPlace (s : State) (d : Nat) (x : CtxId) : Bool :=
  s.placing && (s.ctx x).cstate == .running && ((s.ctx x).head d).isSome && (s.freeCluster x d).isSome

/-- The contexts from the one whose turn it is on. -/
def inTurn (turn : Nat) : List CtxId := (List.finRange 64).map fun (k : CtxId) => Fin.ofNat 64 (turn + k.val)

/-- The context that a die's queue serves next: the highest priority, contexts of equal priority in turn by number (R390); each queue
keeps a turn of its own for each priority. -/
def State.served (s : State) (d : Nat) : Option CtxId :=
  (List.finRange 4).findSome? fun (p : Fin 4) =>
    (inTurn (s.ctl.turns.get 0 (4 * d + p.val))).find? fun x => (s.ctx x).prio == p && s.canPlace d x

/-- R390: the head of a die's queue is placed on the free cluster with the lowest number. -/
def execGroupPlacement (d : DieId) (s : State) : Host.Outcome State Fault Refusal :=
  .next (match s.served d with
    | none => s
    | some x =>
      match (s.ctx x).head d, s.freeCluster x d with
      | some r, some cl =>
        let s := { s with ctl := { s.ctl with turns := s.ctl.turns.set 0 (4 * d.val + (s.ctx x).prio.val) ((x.val + 1) % 64) } }
        (s.unqueue x d r).place x r.1 r.2.1 r.2.2 cl
      | _, _ => s)

/-- Whether a context steals for a die: it has no group waiting there, a package-level phase, and a free cluster. -/
def State.steals (s : State) (d : Nat) (x : CtxId) : Bool :=
  s.placing && (s.ctx x).cstate == .running && ((s.ctx x).head d).isNone && (s.freeCluster x d).isSome &&
    (List.range 8).any fun v => ((s.ctx x).tail v).isSome

/-- R390: a die without a waiting group of a context asks a victim die, which a free value picks, and is answered from the
tail of its queue. -/
def execStealRequest (d : DieId) (s : State) : Host.Outcome State Fault Refusal :=
  .next (match (List.finRange 64).find? fun (x : CtxId) => s.steals d x with
    | none => s
    | some x =>
      let v := (d.val + 1 + Config.stealVictim s.free % 7) % 8
      let s := s.bump
      match (s.ctx x).tail v, s.freeCluster x d with
      | some r, some cl => (s.unqueue x v r).place x r.1 r.2.1 r.2.2 cl
      | _, _ => s)

/-! ## The end of a group (R192, R358, R418) -/

/-- A core group has ended: no thread, seed or parked thread is left, and its engines are done. -/
def State.coreEnded (s : State) (core : Nat) : Bool :=
  let c := s.core core
  (s.teamsOf core).isEmpty && c.seeds.isEmpty && c.rounds.isEmpty && c.moves.isEmpty && c.copyQ.isEmpty && c.matQ.isEmpty

/-- A cluster group has ended: its core groups have, the landing writes of the cluster are acknowledged (R418), and no walk of it is
under way. -/
def State.groupEnded (s : State) (cl : Nat) : Bool :=
  let c := s.cluster cl
  c.grp.isSome && !c.coming && !c.told && (s.groupCores cl).all s.coreEnded && c.acks == 0 && c.asked.isEmpty

/-- R71, R388: the flags of the cores of a group reach the phase, and the cluster is free. -/
def State.endGroup (s : State) (cl : Nat) (g : Group) : State :=
  let fl := (s.groupCores cl).foldl (fun (f : BitVec 5) k => f ||| (s.core k).fsum) 0
  let s := s.vacate cl
  let s := s.mapPhase g.ctx g.phase fun p =>
    { p with running := p.running - 1, psw := p.psw ||| (fl.setWidth 21 <<< 16) }
  (s.endDrain g.ctx).markWaits

/-- The report reaches the control die. -/
def State.groupReported (s : State) (cl : Nat) (g : Group) : State :=
  if (s.cluster cl).told && (s.cluster cl).grp == some g then s.endGroup cl g else s

/-- A cluster reports the end of its group on CTL. -/
def execGroupEnd (cl : ClusterId) (s : State) : Host.Outcome State Fault Refusal :=
  .next (match (s.cluster cl).grp with
    | some g =>
      if s.groupEnded cl then
        (s.setCluster cl { s.cluster cl with told := true }).emitCtl (leafOfCluster cl) ctlNode g.ctx g.phase (.ended cl g)
      else s
    | none => s)

end Sys2Proof.Machine
end

