-- ==== Sys2Proof/Machine/Walker.lean ====
section
/-! DEFINITION. The graph walker (21, R382 to R387, R393; 25, R444): nodes, graph errors, and what each kind of node does. -/
namespace Sys2Proof.Machine

/-! ## Nodes (Table 21-1) -/

/-- A node record. -/
structure Node where
  kind : Nat
  level : Nat
  ld : Bool
  ust : Bool
  nbr : Nat
  next : DWord
  alt : DWord
  obj : DWord
  args : DWord
  cnt : DWord
  list : DWord
  dst : Nat
  per : Nat
  deriving DecidableEq, Repr

/-- The node of eight words, or `none` for a set reserved bit, a reserved KIND or a reserved LEVEL (R384). -/
def nodeOf : List DWord → Option Node
  | [w0, next, alt, obj, args, cnt, list, w7] =>
    let n : Node :=
      { kind := bits w0 7 0, level := bits w0 9 8, ld := w0.getLsbD 10, ust := w0.getLsbD 11, nbr := bits w0 31 16, next := next
        alt := alt, obj := obj, args := args, cnt := cnt, list := list, dst := bits w7 63 32, per := bits w7 31 0 }
    if bits w0 63 32 ≠ 0 ∨ bits w0 15 12 ≠ 0 ∨ n.kind = 0 ∨ 8 < n.kind ∨ (n.kind = 1 ∧ n.level = 3) then none else some n
  | _ => none

/-- The node at an address: 64-byte aligned, in a PACKAGE page (R382). -/
def State.nodeAt (s : State) (x : CtxId) (a : DWord) : Option Node :=
  if a.toNat % 64 ≠ 0 then none
  else (s.ctlRead x a 64).bind fun b =>
    if s.inPackage x a then nodeOf ((List.range 8).map fun j => BitVec.ofNat 64 (leNat ((b.drop (8 * j)).take 8))) else none

def Node.lv (n : Node) : Level := if n.level = 0 then .die else if n.level = 1 then .package else .domain

/-- R384: the graph stops before the node runs, and the context returns to 0. -/
def State.graphError (s : State) (x : CtxId) (node : DWord) : State :=
  let s := (s.setCtx x { s.ctx x with walk := .none, domain := none }).csbWord x 8 node
  (s.postEvent x 7 0 (some node) none).restCtx x

/-- A graph error at a node for which some bytes could not be read: a malformed table, or a bad sector, is recorded too (R374, R377). -/
def State.nodeError (s : State) (x : CtxId) (node : DWord) (reads : List (DWord × Nat)) : State :=
  match reads.findSome? fun r => s.ctlTrouble x (s.ctx x).lastPhase r.1 r.2 with
  | some r => (s.supervise { r with late := true }).graphError x node
  | none => s.graphError x node

/-- The walker goes on at a node. -/
def State.goTo (s : State) (x : CtxId) (a : DWord) : State := s.setCtx x { s.ctx x with walk := .visit a }

/-- A domain-level phase has committed here and waits for its release, or has been discarded and waits for the decision (R446). -/
def State.unreleased (s : State) (x : CtxId) : Bool := (s.ctx x).domain.any fun d => d.decided == some true || d.failing s.ctl.pkg

/-- Every earlier phase of the context has committed (R385). -/
def State.clear (s : State) (x : CtxId) : Bool := (s.ctx x).phases.isEmpty && !s.unreleased x

/-- A phase in flight may still write the node that comes next, which lies in a PACKAGE page (R160, R382). -/
def State.mayWrite (s : State) (x : CtxId) : Bool := s.unreleased x || (s.ctx x).phases.any fun p => p.level != .die

/-! ## What a node reads -/

/-- Where the count of a destination of a list set stands (R393); none for a header that is not in a PACKAGE page (R391), or has no such
destination. -/
def State.countAt (s : State) (x : CtxId) (n : Node) : Option DWord :=
  match s.ctlRead x n.list 64 with
  | some h =>
    let word (o k : Nat) : Nat := leNat ((h.drop o).take k)
    if s.inPackage x n.list && n.dst < word 0 4 then some (BitVec.ofNat 64 (word 0x10 8) + BitVec.ofNat 64 (4 * n.dst)) else none
  | none => none

/-- NG of a LAUNCH: CNT, or the groups of a list (R393). -/
def State.groupCount (s : State) (x : CtxId) (n : Node) : Option Nat :=
  if !n.ld then (if n.cnt.toNat < 2 ^ 32 then some n.cnt.toNat else none)
  else if n.per = 0 then none
  else (s.countAt x n).bind fun a =>
    if s.inPackage x a then (s.ctlRead x a 4).map fun b => (leNat b + n.per - 1) / n.per else none

/-- The bytes that are read for NG. -/
def State.countReads (s : State) (x : CtxId) (n : Node) : List (DWord × Nat) :=
  if !n.ld || n.per == 0 then [] else (n.list, 64) :: (s.countAt x n).toList.map fun a => (a, 4)

/-- The bytes that a LAUNCH reads beside its node. -/
def State.launchReads (s : State) (x : CtxId) (n : Node) : List (DWord × Nat) :=
  s.countReads x n ++ [(n.obj, 64), (n.args, 128)] ++ if n.level = 2 then [(n.list, 128)] else []

/-- Branch k of a FORK, with its NG: a LAUNCH node of package or domain level (R386). -/
def State.forkBranch (s : State) (x : CtxId) (n : Node) (k : Nat) : Option (Node × Nat) :=
  (s.ctl64 x (n.alt + BitVec.ofNat 64 (8 * k))).bind fun a => (s.nodeAt x a).bind fun b =>
    if b.kind = 1 ∧ b.level ≠ 0 then (s.groupCount x b).map fun g => (b, g) else none

/-- The bytes that are read for it. -/
def State.branchReads (s : State) (x : CtxId) (n : Node) (k : Nat) : List (DWord × Nat) :=
  let p := n.alt + BitVec.ofNat 64 (8 * k)
  (p, 8) :: match s.ctl64 x p with
    | none => []
    | some a => (a, 64) :: match s.nodeAt x a with
      | some b => if b.kind = 1 ∧ b.level ≠ 0 then s.countReads x b else []
      | none => []

/-- The branches of a FORK from the k-th on, up to one that cannot be a branch, each with whether it can, and the bytes that are read for
it. -/
def State.forkFrom (s : State) (x : CtxId) (n : Node) : (left k : Nat) → List (Option (Node × Nat) × List (DWord × Nat))
  | 0, _ => []
  | left + 1, k =>
    let b := s.forkBranch x n k
    (b, s.branchReads x n k) :: if b.isSome then s.forkFrom x n left (k + 1) else []

/-- R386: the branches of a FORK with their NG: LAUNCH nodes of package or domain level that share one NEXT, a JOIN. -/
def State.forkNodes (s : State) (x : CtxId) (n : Node) : Option (List (Node × Nat) × DWord) :=
  if n.nbr = 0 ∨ 256 < n.nbr then none
  else match (s.forkFrom x n n.nbr 0).mapM (·.1) with
    | some ((b, g) :: r) =>
      if r.all (fun c => c.1.next == b.next) && ((s.nodeAt x b.next).map Node.kind == some 3) then some ((b, g) :: r, b.next) else none
    | _ => none

/-- The bytes that a FORK reads beside its node: for each branch in turn, up to one that cannot be a branch, and then its JOIN. -/
def State.forkReads (s : State) (x : CtxId) (n : Node) : List (DWord × Nat) :=
  if n.nbr = 0 ∨ 256 < n.nbr then []
  else
    let l := s.forkFrom x n n.nbr 0
    l.flatMap (·.2) ++ match l.mapM (·.1) with
      | some ((b, _) :: r) => if r.all fun c => c.1.next == b.next then [(b.next, 64)] else []
      | _ => []

/-- The bytes that the walker reads for a node at an address. -/
def State.nodeReads (s : State) (x : CtxId) (a : DWord) (n : Node) : List (DWord × Nat) :=
  (a, 64) :: match n.kind with
    | 1 => s.launchReads x n
    | 2 => s.forkReads x n ++ ((s.forkNodes x n).elim [] fun l => l.1.flatMap fun b => [(b.1.obj, 64), (b.1.args, 128)])
    | 4 => [(n.obj, 8)]
    | 5 => if n.ust then [] else [(n.obj, 8)]
    | 7 => [(n.obj, 8)]
    | _ => []

/-- The walker visits a node of a kind, as every earlier landing has left it (R382): a node that cannot be one is a graph error, whatever
event looks at it. -/
def State.visit (s : State) (x : CtxId) (kind : Nat) (f : DWord → Node → State) : State :=
  let c := s.ctx x
  match c.walk with
  | .visit a =>
    if c.cstate != .running || s.mayWrite x then s
    else match s.nodeAt x a with
      | none => s.nodeError x a [(a, 64)]
      | some n =>
        if n.kind = kind then
          let t := f a n
          if (t.ctx x).walk == c.walk then t else t.ctlAsk x (s.nodeReads x a n)
        else s
  | _ => s

/-! ## LAUNCH (R387, R393, R444) -/

/-- The die of a die-level LAUNCH: HOME of the leaf that translates argument 0 (R387), where the tables and the leaf are sound. -/
def State.launchDie (s : State) (x : CtxId) (n : Node) : Option DieId :=
  (s.ctl64 x n.args).bind fun a =>
    if a.toNat / 2 ^ 52 ≠ 0 ∨ (s.badTable x a.toNat).isSome then none
    else match walk s.mem a.toNat 3 ((s.ctx x).rootFrame) with
      | .leaf p => if s.paOk x p (ptePa p a.toNat) then some (Fin.ofNat 8 (pteHome p)) else none
      | _ => none

/-- The bytes that are read to find it; of the page of argument 0 the tables alone. -/
def State.dieReads (s : State) (x : CtxId) (n : Node) : List (DWord × Nat) :=
  (n.args, 8) :: (s.ctl64 x n.args).toList.map fun a => (a, 0)

/-- A die-level LAUNCH waits for earlier phases of its own die and for every wider phase (R385). -/
def State.clearAt (s : State) (x : CtxId) (d : DieId) : Bool :=
  !s.unreleased x && (s.ctx x).phases.all fun p => p.level == .die && p.die != some d

/-- The packages of a set record (R444). -/
def setOf (record : List Byte) : List (Fin 1024) :=
  (List.finRange 1024).filter fun (p : Fin 1024) => (record.getD (p.val / 8) 0).getLsbD (p.val % 8)

/-- The branch of a LAUNCH node, with its level and the packages of its own set record; `none` for a launch that is not admitted. -/
def State.branchOf (s : State) (x : CtxId) (n : Node) (br ng : Nat) : Option Start :=
  (s.launchAt x n.obj n.args).map fun l =>
    { b := { br := BitVec.ofNat 8 br, l := l, ng := ng }, lv := n.lv
      pkgs := if n.level = 2 then setOf ((s.ctlRead x n.list 128).getD []) else [] }

/-! ## Domain-level nodes (R444) -/

/-- What the packages of a domain-level LAUNCH must agree on; PER is zero and LD is 0 in it. -/
def State.meetingOf (s : State) (x : CtxId) (n : Node) : Option Meeting :=
  if n.ld ∨ n.per ≠ 0 then none
  else match s.ctlRead x n.list 128, s.ctlRead x n.obj 64 with
    | some r, some k => some { record := r, tag := BitVec.ofNat 32 n.dst, cnt := n.cnt, kernel := k }
    | _, _ => none

/-- The agreement for some domain-level LAUNCH nodes: one, or the domain-level branches of a FORK, whose packages agree on all of them
together (R386, log 130). This package is one of them. -/
def State.domainOf (s : State) (x : CtxId) (l : List Node) : Option Domain :=
  (l.mapM (s.meetingOf x)).bind fun parts =>
    let set := (List.finRange 1024).filter fun (p : Fin 1024) => parts.any fun m => (setOf m.record).contains p
    if set.contains s.ctl.pkg then
      some { set := set, parts := parts, since := s.clock, stamp := 0, met := [s.ctl.pkg], votes := [], done := [], decided := none }
    else none

/-- The package waits for the other packages of the set. -/
def State.meet (s : State) (x : CtxId) (a : DWord) (d : Domain) : State :=
  s.setCtx x { s.ctx x with walk := .meet a, domain := some d }

/-! ## The start of the phases of a node -/

/-- A LAUNCH starts its phase, and the walker goes on at NEXT. -/
def State.runLaunch (s : State) (x : CtxId) (a : DWord) (n : Node) (die : Option DieId) (ng : Nat) : State :=
  (s.goTo x n.next).startPhase x a n.lv die ((s.branchOf x n 0 ng).map fun b => [b]) [(n.obj, 64), (n.args, 128)]

/-- A FORK starts its phase: branch b has BR = b. -/
def State.runFork (s : State) (x : CtxId) (a : DWord) (l : List (Node × Nat)) (join : DWord) : State :=
  let bs := l.zipIdx.mapM fun e => s.branchOf x e.1.1 e.2 e.1.2
  let lv : Level := if l.any fun e => e.1.level == 2 then .domain else .package
  (s.setCtx x { s.ctx x with walk := .join join }).startPhase x a lv none bs (l.flatMap fun e => [(e.1.obj, 64), (e.1.args, 128)])

/-- A LAUNCH or a FORK runs once nothing keeps it waiting. -/
def State.runNode (s : State) (x : CtxId) (a : DWord) : State :=
  match s.nodeAt x a with
  | none => s.nodeError x a [(a, 64)]
  | some n =>
    if n.kind = 1 then
      match s.groupCount x n with
      | none => s.nodeError x a (s.countReads x n)
      | some g => s.runLaunch x a n none g
    else match s.forkNodes x n with
      | none => s.nodeError x a (s.forkReads x n)
      | some (l, j) => s.runFork x a l j

/-- The coordinator: the package of lowest number in the set. -/
def Domain.coordinator (d : Domain) : Fin 1024 := d.set.headD 0

/-- What a package says when it arrives. -/
def Domain.says (d : Domain) (pkg : Fin 1024) : Rendezvous :=
  { pkg := pkg, parts := d.parts, stamp := d.stamp }

/-- The match that the coordinator checks. -/
def Domain.agrees (d : Domain) (m : Rendezvous) : Bool := m.parts == d.parts && d.set.contains m.pkg

/-- The coordinator takes a mismatch, or a member that has not come, as a graph error on every package that has arrived. -/
def State.domainError (s : State) (x : CtxId) (a : DWord) (d : Domain) : State :=
  ((d.met.filter fun p => p != s.ctl.pkg).foldl (fun s p => s.tell x p .graphError) s).graphError x a

/-- Once all have arrived, the phase starts on every package of the set. -/
def State.domainStart (s : State) (x : CtxId) (a : DWord) (d : Domain) : State :=
  if d.set.all d.met.contains then
    ((d.set.filter fun p => p != s.ctl.pkg).foldl (fun s p => s.tell x p (.meet (d.says s.ctl.pkg))) s).runNode x a
  else s

/-- A package's arrival reaches the coordinator. -/
def State.packageArrives (s : State) (x : CtxId) (a : DWord) (m : Rendezvous) : State :=
  match (s.ctx x).walk, (s.ctx x).domain with
  | .meet _, some d =>
    let d := { d with met := d.met ++ [m.pkg] }
    if d.agrees m then (s.meet x a d).domainStart x a d else s.domainError x a d
  | _, _ => s

/-- A domain-level node begins: the package has arrived. The coordinator takes all packages that were there before it, and then looks
whether they agree. -/
def State.beginDomain (s : State) (x : CtxId) (a : DWord) (l : List Node) : State :=
  match s.domainOf x l with
  | none => s.nodeError x a (l.flatMap fun n => [(n.list, 128), (n.obj, 64)])
  | some d =>
    if d.coordinator ≠ s.ctl.pkg then (s.meet x a d).tell x d.coordinator (.meet (d.says s.ctl.pkg))
    else
      let old := s.fab.arrivals.filter fun e => e.1 == x
      let d := { d with stamp := s.clock, since := old.foldl (fun b e => Nat.min b e.2.2) s.clock, met := d.met ++ old.map fun e => e.2.1.pkg }
      let s := { s with fab := { s.fab with arrivals := s.fab.arrivals.filter fun e => e.1 != x } }
      if old.all fun e => d.agrees e.2.1 then (s.meet x a d).domainStart x a d else s.domainError x a d

def execLaunchNode (x : CtxId) (s : State) : Host.Outcome State Fault Refusal :=
  .next (s.visit x 1 fun a n =>
    match n.lv with
    | .die =>
      match s.launchDie x n, s.groupCount x n with
      | some d, some g => if s.clearAt x d then s.runLaunch x a n (some d) g else s
      | _, _ => if s.clear x then s.nodeError x a (s.dieReads x n ++ s.countReads x n) else s
    | .package => if s.clear x then s.runNode x a else s
    | .domain => if s.clear x then s.beginDomain x a [n] else s)

/-- R386. A FORK with domain-level branches meets the packages of their sets. -/
def execForkNode (x : CtxId) (s : State) : Host.Outcome State Fault Refusal :=
  .next (s.visit x 2 fun a n =>
    if !s.clear x then s
    else match s.forkNodes x n with
      | none => s.nodeError x a (s.forkReads x n)
      | some (l, _) =>
        match (l.map (·.1)).filter fun b => b.level == 2 with
        | [] => s.runNode x a
        | ds => s.beginDomain x a ds)

/-- R385: the JOIN that ends a FORK's phase; any other visit is a graph error. -/
def execJoinNode (x : CtxId) (s : State) : Host.Outcome State Fault Refusal :=
  let c := s.ctx x
  .next (match c.walk with
    | .join a =>
      if c.cstate != .running || !s.clear x then s
      else match s.nodeAt x a with
        | none => s.nodeError x a [(a, 64)]
        | some n => if n.kind = 3 then s.goTo x n.next else s.graphError x a
    | _ => s.visit x 3 fun a _ => s.graphError x a)

/-! ## The other kinds (R385) -/

/-- A 64-bit word that a node names: of device memory, or of a HOST-IN page, whose translation may have to be asked for. -/
inductive CtlWord where
  | val (v : DWord)
  | waits (page : Nat)
  | none
  deriving DecidableEq, Repr

def State.ctlWord (s : State) (x : CtxId) (a : DWord) : CtlWord :=
  match s.ctlFind x a with
  | .dev _ _ => match s.ctl64 x a with | some v => .val v | Option.none => .none
  | .host bus =>
    match s.hostPage (bus / 2 ^ 16) with
    | some h => .val (read64 s.host (h * 2 ^ 16 + bus % 2 ^ 16))
    | Option.none => .waits (bus / 2 ^ 16)
  | _ => .none

/-- A node goes on with the word that it names. -/
def State.withWord (s : State) (x : CtxId) (node a : DWord) (f : DWord → State) : State :=
  match s.ctlWord x a with
  | .val v => f v
  | .waits p => s.askAts p
  | .none => s.nodeError x node [(a, 8)]

def execCondNode (x : CtxId) (s : State) : Host.Outcome State Fault Refusal :=
  .next (s.visit x 4 fun a n =>
    if !s.clear x then s else s.withWord x a n.obj fun v => s.goTo x (if v ≠ 0 then n.next else n.alt))

/-- Iterations of a WHILE so far. -/
def Ctx.iter (c : Ctx) (a : DWord) : BitVec 64 := (c.iters.lookup a).getD 0

/-- The WHILE loops to its body, or ends. -/
def State.loopNode (s : State) (x : CtxId) (a : DWord) (n : Node) (cond : Bool) : State :=
  let c := s.ctx x
  let k := c.iter a
  let others := c.iters.filter fun e => e.1 != a
  if cond ∧ (n.cnt = 0 ∨ k.toNat < n.cnt.toNat) then s.setCtx x { c with walk := .visit n.alt, iters := (a, k + 1) :: others }
  else s.setCtx x { c with walk := .visit n.next, iters := others }

def execWhileNode (x : CtxId) (s : State) : Host.Outcome State Fault Refusal :=
  .next (s.visit x 5 fun a n =>
    if !s.clear x then s
    else if n.ust then s.loopNode x a n (!(s.ctx x).stale)
    else s.withWord x a n.obj fun v => s.loopNode x a n (v ≠ 0))

/-- The phase number of an event that no phase raises: the last committed one. -/
def Ctx.lastNum (c : Ctx) : DWord := c.lastPhase.setWidth 64

def execSignalNode (x : CtxId) (s : State) : Host.Outcome State Fault Refusal :=
  .next (s.visit x 6 fun _ n =>
    if !s.clear x then s else (s.goTo x n.next).postEvent x 2 (s.ctx x).lastNum (some n.obj) none)

/-- Whether an address lies in a HOST-IN or a PACKAGE page, as an AWAIT wants its word. -/
def State.awaitable (s : State) (x : CtxId) (a : DWord) : Bool :=
  match s.ctlFind x a with
  | .dev p _ => pteScope p == 2
  | .host _ => true
  | _ => false

/-- The AWAIT reads its word: it goes on, or polls. -/
def State.await (s : State) (x : CtxId) (a : DWord) (n : Node) : State :=
  if !s.awaitable x n.obj then s.nodeError x a [(n.obj, 8)]
  else s.withWord x a n.obj fun v =>
    if n.cnt.toNat ≤ v.toNat then s.setCtx x { s.ctx x with walk := .visit n.next }
    else s.setCtx x { s.ctx x with walk := .poll a }

def execAwaitNode (x : CtxId) (s : State) : Host.Outcome State Fault Refusal :=
  .next (s.visit x 7 fun a n => if !s.clear x then s else s.await x a n)

/-- The word is read again: after a kick, or because time has passed. -/
def execAwaitPoll (x : CtxId) (s : State) : Host.Outcome State Fault Refusal :=
  let c := s.ctx x
  .next (match c.walk with
    | .poll a =>
      if c.cstate != .running then s
      else match s.nodeAt x a with
        | some n => if n.kind = 7 then s.await x a n else s.graphError x a
        | none => s.nodeError x a [(a, 64)]
    | _ => s)

/-- R291: the completion event follows every HOST-OUT write of the graph. -/
def execEndNode (x : CtxId) (s : State) : Host.Outcome State Fault Refusal :=
  .next (s.visit x 8 fun _ _ =>
    let c := s.ctx x
    if !s.clear x || s.posts.any fun p => p.ctx == x then s
    else ((s.setCtx x { c with walk := .none }).postEvent x 1 c.lastNum none none).restCtx x)

/-! ## Host pages that the host refuses (R426) -/

/-- Whether the walker waits for a host page: the address of the word that its node reads there. -/
def State.walkerNeeds (s : State) (x : CtxId) (page : Nat) : Option DWord :=
  let c := s.ctx x
  let on (a : DWord) : Option DWord := (s.nodeAt x a).bind fun n =>
    if (n.kind == 4 || (n.kind == 5 && !n.ust) || n.kind == 7) && s.ctlWord x n.obj == .waits page then some n.obj else none
  if c.cstate != .running then none
  else match c.walk with
    | .visit a => if s.clear x then on a else none
    | .poll a => on a
    | _ => none

/-- The refused page is recorded, and the graph stops at the node. -/
def State.walkerLost (s : State) (x : CtxId) (r : Report) : State :=
  let c := s.ctx x
  (s.supervise { r with phase := c.lastPhase, late := true }).graphError x c.walk.node

end Sys2Proof.Machine
end

