-- ==== Sys2Proof/Machine/Commit.lean ====
section
/-! DEFINITION. The commit of a phase (20, R370, R371; 21, R388, R389, R391, R394; 22, R405): the resolution of its writes, the
seal of its work lists, and its status word. -/
namespace Sys2Proof.Machine

/-! ## The seal (R391) -/

/-- Items in the order of their list: by LTI, then program order. -/
def Item.before (a b : Item) : Bool := a.lti.toNat < b.lti.toNat || (a.lti == b.lti && a.seq < b.seq)

def insItem (x : Item) : List Item → List Item
  | [] => [x]
  | y :: r => if x.before y then x :: y :: r else y :: insItem x r

def sortItems (l : List Item) : List Item := l.foldl (fun a x => insItem x a) []

/-- What the seal of a phase writes, how many items it seals, and whether it drops some. -/
structure Seal where
  puts : List (Nat × List Byte)
  count : Nat
  dropped : Bool
  deriving Repr

/-- A byte of a list set for the compaction unit: it lies in a PACKAGE page. -/
def State.sealSpot (s : State) (x : CtxId) (a : DWord) : Option Nat :=
  match s.ctlFind x a with
  | .dev p pa => if pteScope p = 2 then some (s.devKey p pa) else none
  | _ => none

/-- The writes of some values at rising addresses, or the address that lies in no PACKAGE page. -/
def State.sealPuts (s : State) (x : CtxId) : List (DWord × List Byte) → Except DWord (List (Nat × List Byte))
  | [] => .ok []
  | (a, b) :: r =>
    match s.sealSpot x a with
    | none => .error a
    | some k =>
      match s.sealPuts x r with
      | .error e => .error e
      | .ok l => .ok ((k, b) :: l)

/-- One destination of a list set: its items in order, then its count. -/
def State.destPuts (m : SMap Byte) (h : Nat) (items : List Item) (d : Nat) : List (DWord × List Byte) × Nat × Nat :=
  let mine := sortItems (items.filter fun x => x.dst == d)
  let cap := hdrCap m h
  let n := Nat.min mine.length cap
  let at16 (j : Nat) : DWord := hdrItems m h + BitVec.ofNat 64 ((d * cap + j) * 16)
  ((mine.take n).zipIdx.map (fun e => (at16 e.2, e.1.words.flatMap fun w => leBytes 4 w.toNat)) ++
    [(hdrCounts m h + BitVec.ofNat 64 (4 * d), leBytes 4 n)], n, mine.length - n)

/-- A list set that received items: every destination's count is written; OVF when items were dropped. The header is that of the start of
the phase, `m`. -/
def State.sealSet (s : State) (x : CtxId) (m : SMap Byte) (h : Nat) (items : List Item) : Except DWord Seal :=
  let ds := (List.range (hdrNdst m h)).map fun d => State.destPuts m h items d
  let drop := (ds.map fun e => e.2.2).sum
  match s.sealPuts x (ds.flatMap fun e => e.1) with
  | .error a => .error a
  | .ok l => .ok
    { puts := l ++ if drop = 0 then [] else [(h + 0x18, leBytes 4 (Nat.min (hdrOvf m h + drop) 0xFFFFFFFF))]
      count := (ds.map fun e => e.2.1).sum, dropped := drop != 0 }

/-- The list sets of some items, by the place of their headers. -/
def State.sealSets (s : State) (x : CtxId) (m : SMap Byte) (items : List Item) : List Nat → Except DWord Seal
  | [] => .ok { puts := [], count := 0, dropped := false }
  | h :: r =>
    match s.sealSet x m h (items.filter fun y => s.sealSpot x y.header == some h), s.sealSets x m items r with
    | .ok a, .ok b => .ok { puts := a.puts ++ b.puts, count := a.count + b.count, dropped := a.dropped || b.dropped }
    | .error e, _ => .error e
    | _, .error e => .error e

def State.seal (s : State) (x : CtxId) (m : SMap Byte) (items : List Item) : Except DWord Seal :=
  s.sealSets x m items (distinctNat (items.filterMap fun y => s.sealSpot x y.header))

/-! ## The resolution (R370 step 1, R371) -/

/-- What a commit will write: the bytes that its writes cover, as `mem` has them, and the bytes of the seal; the bits of the status word;
whether items were sealed. -/
structure Resolved where
  mem : SMap Byte
  puts : List (Nat × List Byte)
  bits : BitVec 21
  sealed : Bool

/-- A commit fault (KIND 3). -/
def commitFault (x : CtxId) (num : BitVec 32) (lti addr : DWord) : Report :=
  { ctx := x, phase := num, kind := 3, eff := 0, lti := lti, pc := 0, payload := 0, loc := 0, addr := addr, halt := none }

/-- The commit fault of some collisions: that of the lowest LTI. -/
def worstFault (l : List (DWord × Bool × DWord)) : Option (DWord × DWord) :=
  match l with
  | [] => none
  | f :: r =>
    let b := r.foldl (fun (b y : DWord × Bool × DWord) =>
      if y.1.toNat < b.1.toNat || (y.1 == b.1 && y.2.2.toNat < b.2.2.toNat) then y else b) f
    some (b.1, b.2.2)

/-- Whose landing a commit is: a thread's outcomes are recorded, or forced, when its branch is in logged mode (R401). -/
def State.commitLander (s : State) (x : CtxId) (p : Phase) : Lander :=
  { ctx := x, phase := p.num, die := (p.die.getD 0).val, cl := none, replay := (s.ctx x).replay
    logged := fun lti => p.branches.any fun b => b.br == BitVec.ofNat 8 (lti.toNat / 2 ^ 56) && b.l.det == 1 }

/-- The sectors of a write's bytes. -/
def Write.sectors (w : Write) : List Nat :=
  (List.range ((w.addr % 64 + w.bytes.length + 63) / 64)).map fun k => w.addr / 64 + k

/-- The physical address of a sector, as the page of an address has it; where that page is not mapped here (a write of another package),
its package address. -/
def State.sectorPa (s : State) (x : CtxId) (va : DWord) (sector : Nat) : Nat :=
  match s.ctlFind x va with
  | .dev p pa => if s.devKey p (pa / 64 * 64) / 64 = sector then pa / 64 * 64 else sector * 64
  | _ => sector * 64

/-- What a resolution cannot read: the header of a list set, for a malformed table or a bad HBM4 sector; or, whichever package wrote, the
previous value of a SUMIN, for a bad sector (R371, R374, R377). -/
def State.unreadable (s : State) (x : CtxId) (p : Phase) : Option Report :=
  (p.items.findSome? fun y => s.ctlTrouble x p.num y.header 64).or
    (if s.badSectors.isEmpty then none
     else (p.writes.filter fun w => w.rule == .sumin).findSome? fun w =>
      (w.sectors.find? s.badSectors.contains).map fun b => sectorReport x p.num b (s.sectorPa x w.va b))

/-- A put of the seal that meets a store of the phase. -/
def sealClash (puts : List (Nat × List Byte)) (l : List Write) : Option Write :=
  l.find? fun w => puts.any fun e => w.addr < e.1 + e.2.length && e.1 < w.addr + w.bytes.length

/-- Step 1 of R370, with the seal: what lands, from the snapshot of the start of the phase, and the fault that discards the phase, if there
is one. -/
def State.resolve (s : State) (x : CtxId) (p : Phase) : State × Resolved × Option Report :=
  let sets := anySets p.writes
  let d := s.commitLander x p
  let (s, wins) := s.pickAll d 0 sets
  let r := landAll p.base wins p.writes
  let bits : BitVec 21 := r.fl.setWidth 21 ||| (if r.faults.isEmpty then 0 else 0x80) ||| (if sets.any d.logs then 0x100 else 0)
  let hit := (s.unreadable x p).or ((worstFault r.faults).map fun f => commitFault x p.num f.1 f.2)
  match s.seal x p.base p.items with
  | .error a =>
    (s, { mem := r.mem, puts := [], bits := bits, sealed := false },
      hit.or (some ((s.ctlTrouble x p.num a 16).getD (commitFault x p.num (BitVec.allOnes 64) a))))
  | .ok z =>
    let clash := sealClash z.puts p.writes
    (s, { mem := r.mem, puts := z.puts, sealed := z.count != 0
          bits := bits ||| (if z.dropped then 0x200 else 0) ||| (if clash.isSome then 0x80 else 0) },
      hit.or (clash.map fun w => commitFault x p.num w.lti w.va))

/-! ## The commit (R388) -/

/-- A fault report of a phase is on its way to the supervisor. -/
def State.doomed (s : State) (x : CtxId) (num : BitVec 32) : Bool :=
  s.reports.any fun r => r.ctx == x && r.phase == num && r.halt.isNone && !r.late

/-- A phase has ended: no group waits or runs, no fault of it is under way, and no HOST-OUT write of it waits for a translation,
whose failure would discard it (R426). -/
def State.ended (s : State) (x : CtxId) (p : Phase) : Bool :=
  p.running == 0 && p.queues.all (fun q => !q.waits) && !s.doomed x p.num && !(s.posts.any fun w => w.ctx == x && w.phase == p.num)

/-- R405: records of the phase are left over at its end. -/
def State.leftOver (s : State) (x : CtxId) (p : Phase) : Bool :=
  (s.ctx x).replay && (p.branches.any fun b => b.l.det == 1) && (s.ctx x).score.any fun r => r.phase == p.num && !r.used

/-- The bytes of some writes, as a memory has them, written into another. -/
def landed (l : List Write) (from' : SMap Byte) (m : SMap Byte) : SMap Byte :=
  l.foldl (fun m w => writeBytes m w.addr (readBytes from' w.addr w.bytes.length)) m

/-- The commit orders of a phase, to the slices that hold its pending lines (Table 23-2). -/
def State.orderCommit (s : State) (x : CtxId) (p : Phase) : State :=
  (p.writes.foldl (fun (a : List NetNode) w => if a.contains (keyLeaf w.addr) then a else a ++ [keyLeaf w.addr]) []).foldl (fun s l =>
    s.emit { chan := .ctl, ctx := x, phase := p.num, src := ctlNode, dsts := [l], body := .ctl (.commit x p.num), since := 0
             forked := false, dead := true }) s

/-- Steps 2 and 3 of R370, the status word, and the release of what waits for the phase. -/
def State.land (s : State) (x : CtxId) (p : Phase) (r : Resolved) : State :=
  let s := (s.orderCommit x p).ctlAsk x (p.items.map fun y => (y.header, 64))
  let c := s.ctx x
  let rest := c.phases.filter fun q => q.num != p.num
  let stale := !r.sealed && rest.isEmpty
  let m : SMap Byte := r.puts.foldl (fun m e => writeBytes m e.1 e.2) (landed p.writes r.mem s.mem)
  let s := { s with mem := m }.setCtx x { c with
    phases := rest, lastPhase := p.num, stale := stale
    domain := if p.level == Level.domain && c.pkgs == [s.ctl.pkg] then none else c.domain }
  (((s.writePsw x p.num (p.psw ||| r.bits ||| if stale then 0x400 else 0)).writeHdr x).restCtx x).markWaits

/-- A phase commits, or is discarded for what its resolution finds; a collision or a mismatch shows in its status word (R170). -/
def State.commit (s : State) (x : CtxId) (p : Phase) : State :=
  if s.leftOver x p then s.replayEnds x p.num
  else
    let (s, r, f) := s.resolve x p
    if s.doomed x p.num then s
    else match f with
      | some f => (s.mapPhase x p.num fun q => { q with psw := q.psw ||| (r.bits &&& 0x80) }).supervise f
      | none => s.land x p r

/-- The vote that step 1 of R370 gives. -/
def State.verdict (s : State) (x : CtxId) (p : Phase) : Bool :=
  let r := s.resolve x p
  !s.leftOver x p && r.2.2.isNone && !r.1.doomed x p.num

/-- R446: once a package has voted OK, a write of another package may still come and its slices find a collision: the package then votes
FAIL (log 161). -/
def State.revote (s : State) (x : CtxId) : State :=
  match (s.ctx x).domain, (s.ctx x).phases.find? fun p => p.level == .domain with
  | some d, some p =>
    if d.decided.isNone && d.votes.contains (s.ctl.pkg, true) && !s.verdict x p then s.castVote x d false else s
  | _, _ => s

/-- Whether the commit of a phase needs no agreement with other packages. -/
def State.alone (s : State) (x : CtxId) (p : Phase) : Bool := p.level != .domain || (s.ctx x).pkgs == [s.ctl.pkg]

/-- A phase that has ended, and needs no agreement, commits. -/
def State.commitIfDue (s : State) (x : CtxId) (num : BitVec 32) : State :=
  match s.phaseOf x num with
  | none => s
  | some p => if s.ended x p && s.alone x p && (s.ctx x).cstate != .halted then s.commit x p else s

def execPhaseCommit (x : CtxId) (num : BitVec 32) (s : State) : Host.Outcome State Fault Refusal := .next (s.commitIfDue x num)

end Sys2Proof.Machine
end

