-- ==== Sys2Proof/Machine/Effects.lean ====
section
/-! DEFINITION. Effects and the system instructions (11): the handler stack, `perform`, `resume`, `drop`, `brk`, special
registers and the clock. -/
namespace Sys2Proof.Machine

/-! ## `hpush` and `perform` (R226, R229, R230) -/

def execHpush (o : HPush) (s : State) : Host.Outcome State Fault Refusal :=
  let t := s.tm
  .next (s.guarded 16 o.msk (.ok .none) (fun _ => []) [] (fun _ => []) fun _ act =>
    if 16 ≤ t.h.length then s.raiseIn 16 act 0xE 1
    else
      let e : HEntry := { eff := o.eff, hpc := codeAt t.pc o.handler, stop := t.pc + BitVec.ofNat 64 (4 * o.elen.toNat), tk := o.tk,
                          hl := o.hl, ret := false, links := [] }
      s.putTm { t with h := e :: t.h, pc := t.pc + 16 })

/-- The slots of P raise the effect; taking it is the same operation as for a trap (R238). -/
def execPerform (o : Perform) (s : State) : Host.Outcome State Fault Refusal :=
  let t := s.tm
  let pay : List Nat := match o.payload with | some c => [c.val] | none => []
  .next (s.guarded 12 o.msk (.ok .none) (fun _ => refs true pay) [] (fun _ => []) fun _ act =>
    let rs : List Raised := act.map fun i =>
      { slot := i, eff := o.eff.toNat, payload := match o.payload with | some c => t.rd64 c i | none => 0, site := t.pc,
        pc := t.pc + 12, dst := .perf o.d, act := .nothing, perf := some (o.ms, o.range) }
    (s.putTm { t with pc := t.pc + 12, raised := rs }).deliver s.cur)

/-! ## `resume` and `drop` (R232 to R237) -/

/-- Whether a record is that of an asynchronous trap (R239). -/
def TrapAct.async : TrapAct → Bool
  | .nothing => false
  | _ => true

/-- A trap of a thread has been served. -/
def Team.served (t : Team) (r : Rec) : Team :=
  if r.act.async then { t with serving := t.serving.filter fun x => x != r.lti } else t

/-- The value of a collective's resumption lands in its uniform register, unless that has been superseded (R214). -/
def State.giveUni (s : State) (core : Nat) (d : Dst) (x : DWord) : State :=
  match d with
  | .uni id =>
    match (s.teamsOf core).find? fun p => p.2.pend.any fun q => q.id == id with
    | none => s
    | some (k, t) =>
      let t := t.pend.foldl (fun t q => if q.id == id && q.kept then t.landVal q.dst (0, x) else t) t
      s.setTeam k { t with pend := t.pend.filter fun q => q.id != id }
  | _ => s

/-- The checks of `resume` on its registers (R232): the token's width, the value's, the token's tag. -/
def Team.resumeTags (t : Team) (vt va : VReg) : Except DWord Tag :=
  if badWidth .tok false vt (t.tagOf vt) then .error (fmtPayload vt (t.tagOf vt) .tok)
  else if (t.tagOf va).pair ∧ va.val % 2 = 1 then .error (fmtPayload va (t.tagOf va) .none)
  else t.tagCheck .tok false (fun f => f == .tok) [vt]

/-- One slot's `resume`: the record, or the effect (R233, R236). -/
def Team.resumeSlot (t : Team) (c : CoreSt) (i : Nat) (tok : DWord) (f : Tag) : Except (Nat × DWord) Rec :=
  match c.token tok (t.lti i) with
  | .error r => .error (0xD, r)
  | .ok r =>
    let odd := match r.dst with | .perf d => f.pair && d.val % 2 == 1 | _ => false
    if odd then .error (3, fmtPayload (match r.dst with | .perf d => d.val | _ => 0) .none f)
    else if 16 < t.h.length + r.entries.length then .error (0xE, 4)
    else .ok r

/-- The continuations of a whole team in place. -/
def State.resumeHere (s : State) (l : List (Nat × Rec × DWord)) (f : Tag) : State :=
  let core := coreOf s.cur
  let c := l.foldl (fun c x => c.freeRec x.2.1) s.cr
  let t := l.foldl (fun t x => t.served x.2.1) (s.tm.resumeInPlace l f)
  l.foldl (fun s x => (s.giveUni core x.2.1.dst x.2.2).doAct core x.2.1.act) ((s.putCr c).putTm t)

/-- What the slots that leave by a `resume` or an `hpop` have brought about so far: the core, the slots that have left, and the
effects raised. -/
structure Leaving where
  c : CoreSt
  gone : List Nat
  rs : List (Nat × Nat × DWord)

/-- The seed of a record's continuation, for a slot of the team. -/
def Team.recSeed (t : Team) (i : Nat) (r : Rec) (cur : List HEntry) (x : DWord) (f : Tag) : Seed :=
  let l := t.lti i
  r.seed cur x f (t.log.filter fun e => e.ltis == [l]) (t.traps.filter fun e => e.lti == l) (t.serving.contains l && !r.act.async)

/-- The recorded entries, the first of them linked to a return record (R234). -/
def retEntries (l : List HEntry) (loc : Nat) : List HEntry :=
  match l.reverse with
  | [] => []
  | e :: r => ({ e with ret := true, links := [(0, loc)] } :: r).reverse

/-- The registers of the handler that the multi-shot token was given to. -/
def Rec.handlerRange (r : Rec) : Range := r.entries.getLast?.map fun e => (e.tk, e.hl)

/-- A resuming slot leaves (R233, R234), or raises `e.spawn` (R452). -/
def Team.resumeOut (t : Team) (d : Option VReg) (f : Tag) (a : Leaving) (x : Nat × Rec × DWord) : Leaving :=
  let (i, r, v) := x
  let cur := t.h.map (HEntry.forSlot i)
  let g := r.handlerRange
  let need := seedBytes (rangeLen r.range) + (if r.ms then recBytes (rangeLen g) else 0)
  let lack := a.c.lacks need
  if lack ≠ 0 then { a with rs := (i, 0x13, BitVec.ofNat 64 lack) :: a.rs }
  else if r.ms then
    let (c, b) := a.c.addRec
      { loc := 0, shown := 0, bytes := recBytes (rangeLen g), gen := 0, token := false, ms := false, lti := t.lti i, pc := t.pc + 8, range := g,
        vals := t.valsOf g i, tags := t.tagsOf g, entries := cur, div := t.div
        dst := match d with | some d => .perf d | none => .drop
        act := .nothing, marks := t.marksOf g (t.lti i) }
    { a with c := c.addSeeds [t.recSeed i { r with entries := retEntries r.entries b.loc } cur v f], gone := i :: a.gone }
  else { a with c := (a.c.freeRec r).addSeeds [t.recSeed i r cur v f], gone := i :: a.gone }

/-- The slots that left are gone, the others raise their effects. -/
def State.leaveWith (s : State) (a : Leaving) (len : Nat) (t : Team) : State :=
  let u := t.leave a.gone
  let rs := (t.lanes t.live).filterMap fun i => (a.rs.find? fun r => r.1 == i).map fun r => t.raises len .drop i r.2
  ((s.putCr a.c).settled s.cur { u with pc := t.pc + BitVec.ofNat 64 len, raised := rs }).deliver s.cur

def execResume (o : Resume) (s : State) : Host.Outcome State Fault Refusal :=
  let t := s.tm
  let f := t.tagOf o.va
  .next (s.guarded 8 o.msk (t.resumeTags o.vt o.va) (fun _ => [(o.vt.val, true), (o.va.val, f.pair)]) [] (fun _ => [])
    fun _ act =>
      let rs := act.map fun i => (i, t.resumeSlot s.cr i (t.rd64 o.vt i) f)
      let ok := rs.filterMap fun x => match x.2 with | .ok r => some (x.1, r, t.rdTag f o.va x.1) | .error _ => none
      let bad := rs.filterMap fun x => match x.2 with | .ok _ => none | .error e => some (x.1, e)
      if t.inPlace (ok.map fun x => (x.1, x.2.1)) then s.resumeHere ok f
      else if ok.any fun x => x.2.1.ms && t.captureWaits x.2.1.handlerRange then s.stall
      else
        let a := ok.foldl (t.resumeOut o.d f) { c := s.cr, gone := [], rs := bad }
        let s := s.leaveWith a 8 t
        ok.foldl (fun s x => if a.gone.contains x.1 then s.giveUni (coreOf s.cur) x.2.1.dst x.2.2 else s) s)

/-- A token is dropped (R235, R451). -/
def State.dropRec (s : State) (r : Rec) : State :=
  let s := (s.putCr (s.cr.freeRec r)).abandon (coreOf s.cur) r.lti r.act
  s.putTm (s.tm.served r)

def execDrop (o : Drop) (s : State) : Host.Outcome State Fault Refusal :=
  let t := s.tm
  .next (s.guarded 8 o.msk (t.tagCheck .tok false (fun f => f == .tok) [o.vt.val]) (fun _ => [(o.vt.val, true)]) [] (fun _ => [])
    fun _ act =>
      let rs := act.map fun i => (i, s.cr.token (t.rd64 o.vt i) (t.lti i))
      let s := rs.foldl (fun s x => match x.2 with | .ok r => s.dropRec r | .error _ => s) s
      s.finish { len := 8, outs := rs.map fun x => (x.1, { eff := match x.2 with | .ok _ => none | .error e => some (0xD, e) }) })

/-! ## `hpop` (R227, R234) -/

/-- The return record of a slot. -/
def CoreSt.retRec (c : CoreSt) (e : HEntry) (t : Team) (i : Nat) : Option Rec :=
  (e.links.lookup i).bind fun l => c.recs.find? fun r => !r.token && r.loc == l && r.lti == t.lti i

/-- A thread ends its run of a resumed region: it leaves as the seed of its return record; without one it stays (log 154). -/
def Team.popOut (t : Team) (e : HEntry) (res : Option (VReg × Tag)) (a : Leaving) (i : Nat) : Leaving :=
  match a.c.retRec e t i with
  | none => a
  | some r =>
    let lack := a.c.lacks (seedBytes (rangeLen r.range))
    let (v, f, r') := match res, r.dst with
      | some (x, f), .perf _ => (t.rdTag f x i, f, r)
      | _, _ => (0, Tag.none, { r with dst := .drop })
    let odd := match r'.dst with | .perf d => f.pair && d.val % 2 == 1 | _ => false
    if odd then { a with rs := (i, 3, fmtPayload (match r'.dst with | .perf d => d.val | _ => 0) .none f) :: a.rs }
    else if lack ≠ 0 then { a with rs := (i, 0x13, BitVec.ofNat 64 lack) :: a.rs }
    else { a with c := (a.c.freeRec r).addSeeds [t.recSeed i r' [] v f], gone := i :: a.gone }

def execHpop (o : HPop) (s : State) : Host.Outcome State Fault Refusal :=
  let t := s.tm
  let ends := match t.h with | e :: _ => e.stop == t.pc && e.ret | [] => false
  let res : Option (VReg × Tag) := if ends then o.res.map fun r => (r, t.tagOf r) else none
  let chk : Except DWord Tag := match res with
    | some (r, f) => if f.pair ∧ r.val % 2 = 1 then .error (fmtPayload r f .none) else .ok .none
    | none => .ok .none
  .next (s.guarded 8 o.msk chk (fun _ => match res with | some (r, f) => [(r.val, f.pair)] | none => []) [] (fun _ => [])
    fun _ act =>
      match t.h with
      | [] => s.raiseIn 8 act 0xE 2
      | e :: below =>
        if e.stop ≠ t.pc then s.raiseIn 8 act 0xE 3
        else if !e.ret then s.putTm { t with h := below, pc := t.pc + 8 }
        else
          let a := (t.lanes t.live).foldl (t.popOut e res) { c := s.cr, gone := [], rs := [] }
          s.leaveWith a 8 (if a.rs.isEmpty then { t with h := below } else t))

/-! ## `brk` (R242) -/

def execBrk (o : Brk) (s : State) : Host.Outcome State Fault Refusal :=
  .next (s.guarded 8 o.msk (.ok .none) (fun _ => []) [] (fun _ => []) fun _ act =>
    s.raiseIn 8 act 0xF (o.code.setWidth 64))

/-! ## Special registers (R70, R71, R243, R244) -/

/-- Whether a result that delivers exceptions is still to arrive (R91): a collective with a uniform destination, or an
`xdirect`. One that waits for the handler of its trap has arrived. -/
def Team.owesFlags (t : Team) : Bool := t.pend.any fun p => p.src != .mem && p.await != .handler

/-- Whether a collective with a uniform destination is still to arrive (R210). -/
def Team.owesStatus (t : Team) : Bool := t.pend.any fun p => p.src == .coll && p.await != .handler

/-- Whether a special register waits (R91, R210). -/
def Team.specialWaits (t : Team) (idx : Nat) : Bool := (idx == 5 && t.owesFlags) || (idx == 9 && t.owesStatus)

/-- The value of a special register (Tables 3-4 to 3-6, 15-2, 19-1). -/
def State.special (s : State) (idx : Nat) : DWord :=
  let t := s.tm
  let c := s.cr
  let l := c.launch
  match idx with
  | 1 => BitVec.ofNat 64 ((if t.formed then 2 ^ 20 else 0) + t.cap / 32 * 2 ^ 14 + t.first)
  | 2 => BitVec.ofNat 64 (t.count t.live)
  | 3 => BitVec.ofNat 64 ((l.nth - 1) * 2 ^ 6 + (l.ncg - 1) * 2 ^ 3 + c.cg)
  | 4 => match c.grp with
    | some g => BitVec.ofNat 64 (g.br.toNat * 2 ^ 32 + g.clg.toNat)
    | none => 0
  | 5 => t.fflags.setWidth 64
  | 6 => t.fen.setWidth 64
  | 7 => t.round.setWidth 64
  | 8 => t.seed.setWidth 64
  | 9 => t.vstat.setWidth 64
  | 10 => c.lstat.setWidth 64
  | 11 => c.mstat.setWidth 64
  | 12 => BitVec.ofNat 64 (c.gn * 2 ^ 8 + c.gm)
  | 13 => BitVec.ofNat 64 t.acb
  | 14 => BitVec.ofNat 64 t.acl
  | 15 => c.stepc
  | 16 => c.stepk
  | 17 => c.phase.setWidth 64
  | 18 => BitVec.ofNat 64 l.det
  | 19 => t.spill.setWidth 64
  | 20 => c.tokleak
  | 21 => BitVec.ofNat 64 ((if t.mcOutp then 2 ^ 32 else 0) + t.mcLoop.toNat * 2 ^ 16 + t.mcEmpty.toNat)
  | _ => 0

def execSrd (o : Srd) (s : State) : Host.Outcome State Fault Refusal :=
  let t := s.tm
  .next (match o.form with
    | .uni d idx =>
      if t.exec o.msk ≠ 0 ∧ t.specialWaits idx then s.stall
      else s.uniform 8 o.msk [] fun t => t.putS d (s.special idx)
    | .lti d =>
      s.perSlot 8 o.msk (.ok .n64) (fun _ => []) [] (fun _ => [(d.val, true)]) fun _ act =>
        { len := 8, outs := act.map fun i => (i, { vals := words d true (t.lti i) }), tags := [(d, .n64)] })

/-- R71: an illegal value for `%round` or `%spill`. -/
def badSpecial (idx : Nat) (x : DWord) : Bool :=
  (idx == 7 && (x.toNat % 8 == 6 || x.toNat % 8 == 7)) || (idx == 19 && 16 < x.toNat % 32)

/-- The team with the writable fields of a special register replaced. -/
def Team.setSpecial (t : Team) (idx : Nat) (x : DWord) : Team :=
  match idx with
  | 5 => { t with fflags := x.setWidth 5 }
  | 6 => { t with fen := x.setWidth 6 }
  | 7 => { t with round := x.setWidth 3 }
  | 8 => { t with seed := x.setWidth 32 }
  | 9 => { t with vstat := x.setWidth 3 }
  | 19 => { t with spill := x.setWidth 5 }
  | 21 => { t with mcEmpty := x.setWidth 16, mcLoop := (x >>> 16).setWidth 16, mcOutp := x.getLsbD 32 }
  | _ => t

def execSwr (o : Swr) (s : State) : Host.Outcome State Fault Refusal :=
  let t := s.tm
  .next (s.guarded 8 o.msk (.ok .none) (fun _ => []) [o.a] (fun _ => []) fun _ act =>
    if t.specialWaits o.idx then s.stall
    else if badSpecial o.idx t.s[o.a] then s.raiseIn 8 act 1 (illPayload 0xA t.pc)
    else s.putTm { t.setSpecial o.idx t.s[o.a] with pc := t.pc + 8 })

/-! ## `tmrd` (R245, R401, R404) -/

/-- The key of a reading: how many `tmrd` a thread has executed in its phase. -/
def Phase.readsOf (p : Phase) (lti : DWord) : Nat := ((p.reads.find? fun x => x.1 == lti).map (·.2)).getD 0

def Phase.countRead (p : Phase) (lti : DWord) : Phase :=
  { p with reads := (lti, p.readsOf lti + 1) :: p.reads.filter fun x => x.1 != lti }

/-- The clock is read: it has advanced by a free value since the last step. -/
def execTmrd (o : Tmrd) (s : State) : Host.Outcome State Fault Refusal :=
  let t := s.tm
  let core := coreOf s.cur
  .next (s.guarded 8 o.msk (.ok .none) (fun _ => []) [] (fun _ => []) fun _ act =>
    if s.strict then s.raiseIn 8 act 0x10 (orderPayload 0x13)
    else
      let c := s.cr
      let lti := t.lti (act.headD 0)
      let n := match s.phaseOf c.ctx c.phase with | some p => p.readsOf lti | none => 0
      let s1 := { s.bump with clock := s.clock + Config.clockAdvance s.free }
      let s2 := s1.mapPhase c.ctx c.phase fun p => p.countRead lti
      let write (s : State) (x : DWord) : State := s.putTm { t.putS o.d x with pc := t.pc + 8 }
      if s.forced core then
        match s.findScore c.ctx fun r => r.kind == 4 && r.phase == c.phase && r.who == lti && r.pos == BitVec.ofNat 64 n with
        | some r => (write s2 r.what).useScore c.ctx r
        | none => (s.diverge c.ctx c.phase (dieOf core) (some (clusterOf core))).stopTeam s.cur
      else
        let x := BitVec.ofNat 64 s1.clock
        write (s2.logScore core { phase := c.phase, kind := 4, timeout := false, who := lti, pos := BitVec.ofNat 64 n, what := x,
                                  ths := [], used := false }) x)

end Sys2Proof.Machine
end

