-- ==== Sys2Proof/Machine/CoreEvents.lean ====
section
/-! DEFINITION. The events of teams, core groups and engines (03, 07, 08, 11, 12, 19), and errors in the hardware (12, 19,
20). An event that does not hold in a state leaves it as it is. -/
namespace Sys2Proof.Machine

/-! ## Promotion (R249) -/

/-- R249: a team whose pass-over count has reached 64 is promoted, until it issues. -/
def execTeamPromotion (k : Nat) (s : State) : Host.Outcome State Fault Refusal :=
  let t := s.team k
  .next (if t.resident ∧ 64 ≤ t.pass ∧ t.promo = none then s.setTeam k { t with promo := some s.clock } else s)

/-! ## Values that arrive (R77, R91, R213, R214, R355) -/

/-- Whether something of a pending result comes by itself. -/
def Pend.due (p : Pend) : Bool := p.await == .timed && !(p.vals.isEmpty && p.owed.isEmpty)

/-- The exceptions that some results owe, by thread. -/
def mergeOwed (l : List Pend) : List (DWord × BitVec 6) :=
  (l.flatMap Pend.owed).foldl (fun (a : List (DWord × BitVec 6)) x =>
    if a.any fun y => y.1 == x.1 then a.map fun y => if y.1 == x.1 then (y.1, y.2 ||| x.2) else y else a ++ [x]) []

/-- The threads whose values wait for a handler of `e.fpx`. -/
def Pend.holds (trapped : List DWord) (p : Pend) : List DWord :=
  match p.dst with
  | .uni _ => if !trapped.isEmpty && p.kept && !p.vals.isEmpty then [0] else []
  | .vec _ _ => (p.vals.map (·.1)).filter trapped.contains

/-- What remains pending of a result that has come. -/
def Pend.after (trapped : List DWord) (p : Pend) : List Pend :=
  [{ p with vals := [], owed := [], vst := 0 },
   { p with await := .handler, vals := [], owed := [], vst := 0, gone := [], out := p.holds trapped }].filter Pend.live

/-- Where a result's resumed value lands. -/
def landOf (l : List Pend) (lti : DWord) : Dst :=
  match l.filter fun p => p.owed.any fun x => x.1 == lti with
  | [] => .drop
  | p :: r =>
    match p.dst with
    | .uni _ => .uni p.id
    | .vec d _ => .near d (r.any fun q => match q.dst with | .vec _ hi => hi | .uni _ => false) p.id

/-- The threads that trap when results arrive, by the enables at issue (R90); a thread that is no longer in the team takes no trap. -/
def Team.hot (t : Team) (ps : List Pend) : List (DWord × BitVec 6) :=
  (mergeOwed ps).filter fun x => (t.seat? x.1).isSome && ps.any fun p => p.owed.any (fun y => y.1 == x.1) && fpxTraps p.fen x.2

/-- The results of one instruction arrive together: values are written, exceptions recorded, enabled traps queued. -/
def Team.arriveAll (t : Team) (id : Nat) : Team :=
  let mine (p : Pend) : Bool := p.id == id && p.due
  let ps := t.pend.filter mine
  let owed := mergeOwed ps
  let hot := t.hot ps
  let trapped := hot.map (·.1)
  let lands (p : Pend) (v : DWord × DWord) : Bool :=
    match p.dst with
    | .uni _ => p.kept && trapped.isEmpty
    | .vec _ _ => !trapped.contains v.1
  let u := ps.foldl (fun (u : Team) p => (p.vals.filter (lands p)).foldl (fun (u : Team) v => u.landVal p.dst v) u) t
  { u with
    fflags := owed.foldl (fun f x => f ||| x.2.setWidth 5) u.fflags
    vstat := ps.foldl (fun v p => v ||| p.vst) u.vstat
    pend := t.pend.flatMap fun p => if mine p then p.after trapped else [p]
    traps := u.traps ++ hot.map fun x =>
      { stamp := stampOf id, eff := 4, lti := x.1, payload := x.2.setWidth 64, act := .land (landOf ps x.1), sup := false } }

/-- R77: the value of a pending register arrives, with the other values of its instruction's result. -/
def execValueArrival (k j : Nat) (s : State) : Host.Outcome State Fault Refusal :=
  let t := s.team k
  .next (match t.pend[j]? with
    | some p => if p.due && !s.asked (coreOf k) p.id then s.setTeam k (t.arriveAll p.id) else s
    | none => s)

/-- The value of a read of host memory, once its page is translated. -/
def State.hostVal (s : State) (width : Nat) (sx : Bool) (bus : DWord) : Option DWord :=
  (s.hostPage (bus.toNat / 2 ^ 16)).map fun h =>
    loadVal width sx (readBytes s.host (h * 2 ^ 16 + bus.toNat % 2 ^ 16) width)

/-- A pending host read with its values, when all of them are there. -/
def State.hostDone (s : State) (p : Pend) : Pend :=
  match p.await with
  | .hostIn w sx =>
    let vs := p.vals.map fun v => (s.hostVal w sx v.2).map fun x => (v.1, x)
    if vs.all Option.isSome then { p with await := .timed, vals := vs.filterMap fun v => v } else p
  | _ => p

/-- The results of a near list that waited, once it has been read. -/
def givenNear (id : Nat) (o : Near) (st : NearState) (l : List Pend) : List Pend :=
  (l.filterMap fun p =>
    if p.id == id && p.await == .hostNear o then
      ((nearPends id o p.fen st).find? fun q => q.dst == p.dst).map fun q =>
        { q with kept := p.kept, vals := if p.vals.isEmpty then [] else q.vals }
    else some p).filter Pend.live

/-- A near list that waits for host memory is read. -/
def State.nearDone (s : State) (k id : Nat) (o : Near) : State :=
  let t := s.team k
  match s.nearState (coreOf k) o with
  | .done vals fl => s.setTeam k (Team.arriveAll { t with pend := givenNear id o (.done vals fl) t.pend } id)
  | .host pages => pages.foldl State.askAts s
  | _ => s

/-- The host writes aligned words of its memory. -/
def State.hostWrites (s : State) (l : List (Nat × DWord)) : State :=
  { s with host := l.foldl (fun m w => write64 m (8 * w.1) w.2) s.host }

/-- R161, R292, R426: a read of a HOST-IN page completes, with what host memory then holds; the host has made its changes before. -/
def execHostInReadCompletion (k : Nat) (r : HostRead) (s : State) : Host.Outcome State Fault Refusal :=
  let s := s.hostWrites r.changed
  let t := s.team k
  .next (match t.pend[r.k]? with
    | none => s
    | some p =>
      match p.await with
      | .hostIn _ _ =>
        if (s.hostDone p).await = .timed then
          let give (q : Pend) : Pend := if q.id == p.id then s.hostDone q else q
          s.setTeam k (Team.arriveAll { t with pend := t.pend.map give } p.id)
        else p.vals.foldl (fun s v => s.askAts (v.2.toNat / 2 ^ 16)) s
      | .hostNear o => s.nearDone k p.id o
      | _ => s)

/-! ## Asynchronous traps and their resolution by the supervisor (R171, R239, R240) -/

/-- R239: the oldest queued trap is delivered at the team's next instruction, or while the team issues nothing; one whose capture had
to wait for a pending register (R81) is delivered once the value has come. -/
def execAsyncTrapDelivery (k : Nat) (s : State) : Host.Outcome State Fault Refusal :=
  let t := s.team k
  .next (if t.resident ∧ t.wait ≠ .sup ∧ !(s.core (coreOf k)).halted then
      (if t.raised.isEmpty then s.deliverTraps k else s.deliver k)
    else s)

/-- A leaf is written into the tables that lead to its address (R374): its entry, or the 32 entries of its range. -/
def installLeaf (m : SMap Byte) (va : Nat) (p : DWord) : (level : Nat) → (frame : Nat) → Option (SMap Byte)
  | 0, frame =>
    let ix := va / 2 ^ 16 % 512
    let n := if pteSz p = 0 then 1 else 32
    some ((List.range n).foldl (fun m k => write64 m (frame * 2 ^ 16 + 8 * (ix / n * n + k)) p) m)
  | lv + 1, frame =>
    let ix := va / 2 ^ (16 + 9 * (lv + 1)) % 512
    let e := tableEntry m frame ix
    if lv = 0 ∧ pteSz p = 2 then
      some ((List.range 32).foldl (fun m k => write64 m (frame * 2 ^ 16 + 8 * (ix / 32 * 32 + k)) p) m)
    else if pteV e ∧ pteScope e = 0 then installLeaf m va p lv (ptePfn e)
    else none

/-- The traps of a team that the supervisor holds for the page of an address. -/
def Team.heldFor (t : Team) (va : DWord) : List Trap :=
  t.traps.filter fun x => x.sup && x.payload.toNat / 2 ^ 16 == va.toNat / 2 ^ 16

/-- A page is there: what waited for it is done again. A fetch is repeated by the team itself. -/
def State.pageThere (s : State) (k : Nat) (va : DWord) : State :=
  let t := s.team k
  let held := t.heldFor va
  let t := { t with traps := t.traps.filter fun x => !held.contains x
                    raised := t.raised.filter fun r => !(r.eff == 6 && r.payload.toNat / 2 ^ 16 == va.toNat / 2 ^ 16) }
  let keys := held.flatMap fun x => match x.act with | .access ks => ks | _ => []
  keys.foldl (fun s key => s.doAct (coreOf k) (.access [key])) (s.setTeam k t)

/-- R240: the supervisor cannot resolve a fault; it is fatal to the phase. -/
def State.pageLost (s : State) (k : Nat) (va : DWord) : State :=
  let core := coreOf k
  let t := s.team k
  let c := s.core core
  let page (a : DWord) : Bool := a.toNat / 2 ^ 16 == va.toNat / 2 ^ 16
  let held := t.heldFor va
  let s := s.setTeam k { t with traps := t.traps.filter fun x => !held.contains x
                                raised := t.raised.filter fun r => !(r.eff == 6 && page r.payload) }
  match held, t.raised.find? fun r => r.eff == 6 && page r.payload with
  | x :: _, _ => (s.report (dieOf core) { c.effReport core 6 x.lti 0 x.payload none with addr := x.payload }).stopTeam k
  | [], some r =>
    (s.report (dieOf core) { c.effReport core 6 (t.lti r.slot) r.site r.payload none with addr := r.payload }).stopTeam k
  | [], none =>
    -- a copy whose thread is no longer there
    match s.orphanCopy core va with
    | some x => (s.report (dieOf core) { c.effReport core 6 x.lti 0 va none with addr := va }).popCopy core
    | none => s

/-- Whether a page fault of a team or of its core's copy engine waits for the supervisor. -/
def State.faultWaits (s : State) (k : Nat) (va : DWord) : Bool :=
  let t := s.team k
  !(t.heldFor va).isEmpty ||
    (t.raised.any fun r => r.eff == 6 && r.payload.toNat / 2 ^ 16 == va.toNat / 2 ^ 16 && (matchH t.h 6).isNone) ||
    (s.orphanCopy (coreOf k) va).isSome

/-- R240: the supervisor resolves an unhandled page fault, once for each page of a context: the leaf is written unless the
page has one by now. A leaf to whose address no tables lead resolves nothing. -/
def execSupervisorPageResolve (k : Nat) (va : DWord) (pte : Option DWord) (s : State) : Host.Outcome State Fault Refusal :=
  let x := s.ctx (s.core (coreOf k)).ctx
  .next (
    if !s.faultWaits k va then s
    else match pte with
      | none => s.pageLost k va
      | some p =>
        match walk s.mem va.toNat 3 (x.rootFrame) with
        | .miss =>
          match installLeaf s.mem va.toNat p 3 (x.rootFrame) with
          | some m => { s with mem := m }.pageThere k va
          | none => s.pageLost k va
        | _ => s.pageThere k va)

/-! ## The team former (R188, R191) -/

def execFormFullKey (c : CoreId) (s : State) : Host.Outcome State Fault Refusal := .next (s.formFull c)
def execFormAtQuiescence (c : CoreId) (s : State) : Host.Outcome State Fault Refusal := .next (s.formQuiet c)
def execRejoinTimeout (c : CoreId) (id : Fin 64) (s : State) : Host.Outcome State Fault Refusal := .next (s.timeoutRound c id)

/-! ## Deadlock (R193, R194) and moves that wait (R452) -/

/-- A value or a trap of a team comes by itself, or from the host or the supervisor. Queued traps come after the effects that wait to
be delivered. -/
def Team.awaitsValue (t : Team) : Bool :=
  (t.pend.any fun q => q.due || (match q.await with | .hostIn _ _ => true | .hostNear _ => true | .remote _ _ => true | _ => false)) ||
    (t.raised.isEmpty && !t.dueTraps.isEmpty) || t.traps.any Trap.sup

/-- A value, an engine transfer or a landing at a slice of a core group is outstanding. -/
def State.underWay (s : State) (core : Nat) : Bool :=
  let c := s.core core
  ((s.teamsOf core).any fun p => p.2.awaitsValue) || (match c.copyQ with | x :: _ => !s.copyLogged core x.id | [] => false) ||
    !c.matQ.isEmpty || (s.cluster (clusterOf core)).acks != 0

/-- Something of a core group is outstanding, or a raised effect waits to be delivered. -/
def State.outstanding (s : State) (core : Nat) : Bool :=
  s.underWay core || (s.teamsOf core).any fun p => !p.2.raised.isEmpty

/-- A team all of whose live threads wait for a step point. -/
def Team.waits (t : Team) : Bool := t.wait == .core || t.wait == .clu || (t.wait == .run && t.stuck)

/-- Every live thread of a core group waits, is parked, or lies in a seed that no residency can take; nothing moves, and no
round can expire. -/
def State.blocked (s : State) (core : Nat) : Bool :=
  let c := s.core core
  c.grp.isSome && !c.halted && c.moves.isEmpty && !s.outstanding core && (s.teamsOf core).all (fun p => p.2.waits) &&
    (c.seeds.isEmpty || (s.partFor core).isNone) && c.rounds.all fun r => !s.mayExpire core r

/-- A core group whose every thread has come to the cluster step point waits for the other core groups alone. -/
def State.awaitsOthers (s : State) (core : Nat) : Bool :=
  let c := s.core core
  c.seeds.isEmpty && c.rounds.isEmpty && (s.teamsOf core).all fun p => p.2.wait == .clu

def State.anyThread (s : State) (core : Nat) : Bool :=
  !(s.teamsOf core).isEmpty || !(s.core core).seeds.isEmpty || !(s.core core).rounds.isEmpty

/-- R193, for a core group. -/
def State.coreDead (s : State) (core : Nat) : Bool :=
  s.blocked core && s.anyThread core && !s.coreStepReady core && !s.awaitsOthers core

/-- R193, for a cluster group. -/
def State.clusterDead (s : State) (cl : Nat) : Bool :=
  let cores := s.groupCores cl
  cores.any s.anyThread && cores.all (fun k => s.blocked k && !s.coreStepReady k) && !s.clusterStepReady cl

/-- `e.dead` in every live slot of a team (Table 8-3); a retry, so the continuation is the waiting instruction. -/
def State.raiseDead (s : State) (k : Nat) (payload : Nat) : State :=
  let t := s.team k
  let rs := (t.lanes t.live).map fun i => t.raises 0 .drop i (0x11, BitVec.ofNat 64 payload)
  (s.setTeam k { t with wait := .run, stuck := false, raised := rs }).deliver k

/-- KIND of a waiting team: 01 core step, 10 cluster step. -/
def Team.deadKind (t : Team) : Nat :=
  if t.wait == .clu || (t.wait == .run && t.pend.any fun p => p.await == .clu) then 2 else 1

/-- The parked threads of a round are formed at their `rejoin`, and raise the effect there. -/
def State.deadRound (s : State) (core : Nat) (r : Round) : State :=
  let n := (s.core core).ages
  let back := (r.parked ++ r.held.map (·.1)).map fun (x : Seed) => { x with pc := x.pc - 16 }
  let c := s.core core
  let s := (s.setCore core { c with rounds := c.rounds.filter fun x => x.id != r.id }).formAll core back
  (s.teamsOf core).foldl (fun s p => if n ≤ p.2.age then s.raiseDead p.1 (3 * 2 ^ 10 + r.id.val * 2 ^ 16) else s) s

/-- The report of a deadlock without a thread that waits (R194). -/
def CoreSt.deadReport (c : CoreSt) (core : Nat) : Report := c.effReport core 0x11 (BitVec.allOnes 64) 0 0 none

/-- A report is on its way to the supervisor. -/
def State.reported (s : State) (r : Report) : Bool := s.reports.contains r

/-- R194, for one core group. -/
def State.die1 (s : State) (core : Nat) : State :=
  let c := s.core core
  let teams := s.teamsOf core
  if teams.isEmpty && c.rounds.isEmpty then s
  else
    let s := c.rounds.foldl (fun s r => s.deadRound core r) s
    teams.foldl (fun s p => s.raiseDead p.1 (p.2.deadKind * 2 ^ 10)) s

/-- Nothing could raise the effect: the supervisor takes the deadlock as fatal. -/
def State.deadFatal (s : State) (core : Nat) (cores : List Nat) : State :=
  let r := (s.core core).deadReport core
  if cores.all (fun k => (s.teamsOf k).isEmpty && (s.core k).rounds.isEmpty) && !s.reported r then
    s.report (dieOf core) r
  else s

/-- Under replay nothing moves any more, but the round of a point cannot have ended so in the recorded run: its record lists threads
that have not come, or it has none although each of its threads could have completed it (R405). -/
def State.replayStuck (s : State) (core : Nat) : Bool :=
  s.forced core && (s.core core).rounds.any fun r =>
    (s.roundScore core r.id r.number).isSome || r.held.all fun h => h.2.2 != 0 || h.2.1 ≤ r.held.length

/-- The threads of some core groups raise `e.dead`; a replay that is stuck diverges. -/
def State.dead (s : State) (core : Nat) (cores : List Nat) : State :=
  if cores.any s.replayStuck then
    let r := divergence (s.core core).ctx (s.core core).phase (some (clusterOf core))
    if s.reported r then s else s.report (dieOf core) r
  else (cores.foldl State.die1 s).deadFatal core cores

/-- R194: a deadlocked core group, or the cluster group that it belongs to, raises `e.dead`. -/
def execGroupDeadlock (c : CoreId) (s : State) : Host.Outcome State Fault Refusal :=
  let cores := s.groupCores (clusterOf c)
  .next (
    if s.coreDead c then s.dead c [c.val]
    else if cores.contains c.val ∧ s.clusterDead (clusterOf c) then s.dead c cores
    else s)

/-- The bytes of spawn memory that a move lacks. -/
def State.moveLack (s : State) (core : Nat) : Move → Nat
  | .deliver k =>
    let t := s.team k
    match t.raised with
    | [] => 0
    | r0 :: _ =>
      match (effIds t.raised).filterMap t.effGroup with
      | [] => 0
      | first :: others =>
        (s.core core).lacks (t.deliveryNeed (raisedRange (s.core core).launch.vregs r0) first others (t.count t.live - t.raised.length))
  | .park k =>
    let t := s.team k
    (s.core core).lacks ((t.parkSeeds t.h t.tag t.div).map Seed.bytes).sum

/-- A move is tried again. -/
def State.retryMove (s : State) (core : Nat) (m : Move) : State :=
  let c := s.core core
  let s := s.setCore core { c with moves := c.moves.filter fun x => x != m }
  match m with
  | .deliver k => if (s.team k).raised.isEmpty then s else s.deliver k
  | .park k => if (s.team k).wait == .core || (s.team k).wait == .clu then s.parkOut k else s

def Move.team : Move → Nat
  | .deliver k => k
  | .park k => k

/-- Whether seeds of a core group can be formed at quiescence: then a team is about to run again (log 128). -/
def State.canForm (s : State) (core : Nat) : Bool := !(s.core core).seeds.isEmpty && (s.partFor core).isSome

/-- R452: a move is made once memory has room for it; when nothing can free any, the oldest is fatal to the phase. -/
def execSpawnMoveWait (c : CoreId) (s : State) : Host.Outcome State Fault Refusal :=
  let x := s.core c
  .next (match x.moves.find? (fun m => s.moveLack c m == 0), x.moves with
    | some m, _ => s.retryMove c m
    | none, [] => s
    | none, m :: _ =>
      if s.underWay c ∨ s.canForm c ∨ !s.quiet c then s
      else
        let s' := s.setCore c { x with moves := x.moves.filter fun y => y != m }
        (s'.report (dieOf c) (x.effReport c 0x13 (BitVec.allOnes 64) 0 (BitVec.ofNat 64 (s.moveLack c m)) none)).stopTeam m.team)

/-! ## Step points and engines (R260 to R262, R360, R361) -/

def execCoreStepPoint (c : CoreId) (s : State) : Host.Outcome State Fault Refusal :=
  .next (if s.coreStepReady c then s.coreStep c else s)

def execClusterStepPoint (cl : ClusterId) (s : State) : Host.Outcome State Fault Refusal :=
  .next (if s.clusterStepReady cl then s.clusterStep cl else s)

/-- R260: an engine starts the next command of its queue. -/
def execEngineCommandStart (c : CoreId) (e : Engine) (s : State) : Host.Outcome State Fault Refusal :=
  .next (match e with | .copy => s.copyStart c | .matrix => s.matStart c)

/-- R261, R278, R298: an engine has finished the reads of its command, and its writes reach their destination. -/
def execEngineCommandFinished (c : CoreId) (e : Engine) (s : State) : Host.Outcome State Fault Refusal :=
  .next (match e with | .copy => s.copyFinish c | .matrix => s.matFinish c)

/-! ## Errors (R264 to R266, R367, R377) -/

/-- R264: a word is visited; an error in it is corrected and counted. Whether it held one is a free value. -/
def execPatrolScrub (c : CoreId) (_array _word : Nat) (s : State) : Host.Outcome State Fault Refusal :=
  let x := s.core c
  .next (if Config.scrubFinds s.free then s.bump.setCore c { x with corrected := x.corrected + 1 } else s.bump)


/-- A corrected error is counted at its stack. -/
def State.countStack (s : State) (d stack : Nat) : State :=
  let x := s.die d
  s.setDie d { x with corrected := x.corrected.set 0 stack (x.corrected.get 0 stack + 1) }

/-- R377: the same for an HBM4 sector, counted at its stack. -/
def execHbmPatrolScrub (sector : Nat) (s : State) : Host.Outcome State Fault Refusal :=
  let k := sector * 64
  .next (if Config.scrubFinds s.free then s.bump.countStack (keyDie k) (stackOf (keySlice k)) else s.bump)

/-- A report of `e.ecc` (KIND 4). -/
def eccReport (x : CtxId) (phase : BitVec 32) (loc addr : DWord) : Report :=
  { ctx := x, phase := phase, kind := 4, eff := 0x16, lti := BitVec.allOnes 64, pc := 0, payload := 0, loc := loc, addr := addr,
    halt := none }

/-- A logic or array error of a core: its phase is discarded; a core that runs nothing has none (R265). -/
def State.coreError (s : State) (c : Nat) (array word : Nat) : State :=
  match (s.core c).grp with
  | none => s
  | some g => s.report (dieOf c) { eccReport g.ctx g.phase (locOfCore c + BitVec.ofNat 64 (array * 2 ^ 32 + word)) 0 with holder := some (clusterOf c) }

/-- The phases in flight that a die may serve: those of the die itself, and all wider ones. -/
def State.phasesAt (s : State) (d : DieId) : List (CtxId × BitVec 32) :=
  (List.finRange 64).flatMap fun (x : CtxId) =>
    ((s.ctx x.val).phases.filter fun p => match p.die with | some e => e == d | none => true).map fun p => (x, p.num)

/-- A phase of those in flight at a die, by a free choice. -/
def State.hitAt (s : State) (d : DieId) : Option (CtxId × BitVec 32) :=
  let l := s.phasesAt d
  l[Config.hitPhase s.free % l.length]?

/-- R265, R266, R367, R414, Table 20-4. -/
def execEccUncorrectable (p : EccPlace) (s : State) : Host.Outcome State Fault Refusal :=
  .next (match p with
    | .coreArray c array word => s.coreError c array word
    | .coreLogic c =>
      let x := s.core c
      let twice := x.grp.isSome && x.parity.contains x.ctx
      (s.setCore c { x with parity := if x.grp.isSome then x.ctx :: x.parity else x.parity, removed := x.removed || twice }).coreError c 0 0
    | .clusterPort cl port =>
      let x := s.cluster cl
      match x.grp with
      | none => s
      | some g =>
        let twice := x.parity.contains g.ctx
        let s := s.setCluster cl { x with parity := g.ctx :: x.parity, removed := x.removed || twice }
        let s := s.report (cl.val / 8) { eccReport g.ctx g.phase
          (BitVec.ofNat 64 (cl.val / 8 * 2 ^ 56 + cl.val % 8 * 2 ^ 48 + port * 2 ^ 32)) 0 with holder := some cl.val }
        if twice then s.cutLeaf (leafOfCluster cl) else s
    | .switchBuffer sw => s.failSwitch (switchNum sw)
    | .committedLine d slice => s.countStack d (stackOf slice)
    | .pendingLine d slice =>
      match s.hitAt d with
      | none => s
      | some h => s.bump.report d (eccReport h.1 h.2 (BitVec.ofNat 64 (d.val * 2 ^ 56 + slice.val * 2 ^ 32)) 0)
    | .hbmSector sector => if s.badSectors.contains sector then s else { s with badSectors := sector :: s.badSectors }
    | .sliceLogic d slice =>
      match s.hitAt d with
      | none => s
      | some h =>
        let x := s.die d
        (s.bump.setDie d { x with sliceFails := (slice, h.1) :: x.sliceFails }).report d
          (eccReport h.1 h.2 (BitVec.ofNat 64 (d.val * 2 ^ 56 + slice.val * 2 ^ 32)) 0))

end Sys2Proof.Machine
end

