-- ==== Sys2Proof/Machine/Network.lean ====
section
/-! DEFINITION. The events of the package network and of the slices (20, R368, R369, R376; 23, R411 to R421; 24, R426). -/
namespace Sys2Proof.Machine

/-! ## Control packets (Table 23-2) -/

/-- What a control packet of a phase does where it is delivered. -/
def State.control (s : State) (num : BitVec 32) : CtlMsg → State
  | .walk x va cl => { s with ctl := s.ctl.addWalk { ctx := x, phase := num, va := va, cl := cl, done := 0, asked := none } }
  | .walked x va cl pte =>
    let c := s.cluster cl
    let tlb := match pte with | some p => fillCache 4096 c.tlb x va p | none => c.tlb
    s.setCluster cl { c with asked := c.asked.filter fun r => r != (x, va), tlb := tlb }
  | .place cl g => s.arriveGroup cl g
  | .ended cl g => s.groupReported cl g
  | .report r => s.supervise r
  | .commit _ _ => s

/-! ## Requests (R415, R416) -/

/-- Whether a packet finds a buffer at the input where its source puts it in. -/
def Net.room (n : Net) (p : Packet) : Bool :=
  if p.src = ctlNode then (match n.spineFor p with | some sw => 0 < n.free sw 32 p.chan | none => true)
  else 0 < n.free (leafEdge p.src) (leafPort p.src) p.chan

/-- The packet of a line request. -/
def LineReq.packet (r : LineReq) (src : NetNode) : Packet :=
  { chan := .req, ctx := r.ctx, phase := r.phase, src := src, dsts := [r.leaf], body := .read r.rid r.line none, since := 0,
    forked := false, dead := false }

/-- The request of a list that is injected next, while fewer than `slots` are in use and the network has room. -/
def nextRequest (n : Net) (slots : Nat) (src : NetNode) (l : List LineReq) : Option LineReq :=
  match l.find? fun r => !r.sent with
  | none => none
  | some r => if (l.filter LineReq.sent).length < slots && n.room (r.packet src) then some r else none

/-- A request takes its slot. -/
def markSent (rid : Nat) (l : List LineReq) : List LineReq := l.map fun q => if q.rid == rid then { q with sent := true } else q

/-- The next request of a requester of a core enters the network. -/
def State.injectAt (s : State) (core part slots : Nat) : State :=
  let x := s.core core
  let l := x.reqs.get [] part
  let src := leafOfCluster (clusterOf core)
  match nextRequest s.net slots src l with
  | none => s
  | some r => (s.setCore core { x with reqs := x.reqs.put part (markSent r.rid l) }).emit (r.packet src)

/-- The lines of tables that a walk reads. -/
def State.walkLines (s : State) (x : CtxId) (va : Nat) : List Nat := (distinct ((s.tableSectors x va).map (· / 2))).reverse

/-- The request of a walker for the next line of its walk. -/
def State.injectWalk (s : State) (w : Nat) : State :=
  match s.ctl.walks[w]? with
  | none => s
  | some q =>
    match q.asked, (s.walkLines q.ctx q.va)[q.done]? with
    | none, some k =>
      let n := s.net
      let r : LineReq := { rid := n.rids, ctx := q.ctx, phase := q.phase, leaf := keyLeaf (k * 128), line := k, ids := [], sent := true }
      if n.room (r.packet ctlNode) then
        { s with net := { n with rids := n.rids + 1 }
                 ctl := { s.ctl with walks := s.ctl.walks.modify w fun q => { q with asked := some r.rid } } }.emit (r.packet ctlNode)
      else s
    | _, _ => s

/-- R415, R416: the next line request of a reader enters the network once one of its response slots and a buffer are free. -/
def execLineRequestInject (r : Reader) (k : Fin 64) (s : State) : Host.Outcome State Fault Refusal :=
  .next (match r with
    | .core c => if k.val < 12 then s.injectAt c k 8 else if k.val = copyReader then s.injectAt c copyReader 256 else s
    | .walkers => s.injectWalk k
    | .control =>
      match nextRequest s.net 64 ctlNode s.ctl.reqs with
      | none => s
      | some r => { s with ctl := { s.ctl with reqs := markSent r.rid s.ctl.reqs } }.emit { r.packet ctlNode with dead := true })

/-! ## Switches (R410 to R412, R414, R420, R421) -/

/-- A multicast that divides at a switch: its set lies in the down table. -/
def Net.forks (n : Net) (sw : Nat) (p : Packet) : Bool := 1 < p.dsts.length && below n.known sw p.dsts

/-- The part of a multicast for some leaves. -/
def Packet.part (p : Packet) (ls : List NetNode) : Packet :=
  { p with dsts := ls, body := match p.body with | .multi c => .multi (c.filter fun x => ls.contains x.1) | b => b }

/-- The down-ports that a multicast needs at a switch, ascending, each with its leaves. -/
def Net.branches (n : Net) (sw : Nat) (p : Packet) : List (Nat × List NetNode) :=
  (List.range 33).filterMap fun q =>
    let ls := p.dsts.filter fun a => downPort n.known sw a == some q
    if ls.isEmpty then none else some (q, ls)

/-- The ports that a packet in a switch wants. -/
def Net.wants (n : Net) (sw : Nat) (p : Packet) : List Nat :=
  if p.forked || n.forks sw p then (n.branches sw p).map (·.1) else (n.portFor sw p.chan p.dsts).toList

def Chan.rank : Chan → Nat
  | .ctl => 0 | .rsp => 1 | .req => 2

/-- R411: whether one packet goes before another at an output. -/
def goesBefore (a b : Nat × Packet) : Bool :=
  a.2.chan.rank < b.2.chan.rank || (a.2.chan.rank == b.2.chan.rank &&
    (a.2.since < b.2.since || (a.2.since == b.2.since && a.1 < b.1)))

/-- A packet has won an output (R411) that has credit. -/
def Net.wins (n : Net) (sw port : Nat) (x : Nat × Packet) : Bool :=
  !((n.buf.get [] sw).any fun y => (n.wants sw y.2).contains port && goesBefore y x) && 0 < n.credit sw port x.2.chan

/-- A packet comes to a node: control packets act there, others wait for its events. -/
def State.comesTo (s : State) (l : NetNode) (p : Packet) : State :=
  match p.body with
  | .ctl m => s.control p.phase m
  | _ => { s with net := { s.net with arrived := s.net.arrived.put l (s.net.arrived.get [] l ++ [p]) } }

/-- A packet goes through a port: into the next input, or to its destination. -/
def State.pass (s : State) (sw port : Nat) (p : Packet) : State :=
  match farEnd sw port with
  | .leaf l => s.comesTo l p
  | .ctl => s.comesTo ctlNode p
  | .switch t q => { s with net := s.net.enter t q s.clock { p with forked := false } }
  | .none => s

/-- A packet leaves the buffer that held it; packets that wait at a node for that input follow. -/
def State.takeOut (s : State) (sw k : Nat) : State :=
  let l := s.net.buf.get [] sw
  let s' := { s with net := { s.net with buf := s.net.buf.set [] sw (l.eraseIdx k) } }
  match l[k]? with
  | some x => match farEnd sw x.1 with
    | .leaf a => s'.inject a
    | .ctl => s'.inject ctlNode
    | _ => s'
  | none => s'

/-- R412: a packet goes down by the table or adaptively up, when it has won its output and the next input has credit. One that no port
leads on, or only a failed link, is lost (R414). -/
def execPacketRoute (sw : Switch) (k : Nat) (s : State) : Host.Outcome State Fault Refusal :=
  let i := (switchNum sw)
  .next (match (s.net.buf.get [] i)[k]? with
    | none => s
    | some x =>
      if x.2.forked || s.net.forks i x.2 then s
      else match s.net.wants i x.2 with
        | [] => ((s.takeOut i k).packetLost i x.2).retree
        | port :: _ =>
          if s.net.failed.contains (linkOf i port) then ((s.takeOut i k).packetLost i x.2).retree
          else if s.net.wins i port x then ((s.takeOut i k).pass i port x.2).retree
          else s)

/-- R421: copies go to the ports that have a free buffer and that they have won; the rest waits in the input buffer. Copies for a failed
link are lost. -/
def State.fork (s : State) (sw k : Nat) (x : Nat × Packet) : State :=
  let all := s.net.branches sw x.2
  let lost := all.filter fun b => s.net.failed.contains (linkOf sw b.1)
  let go := all.filter fun b => !s.net.failed.contains (linkOf sw b.1) && s.net.wins sw b.1 x
  let gone := (go ++ lost).flatMap fun b => b.2
  let left := x.2.dsts.filter fun a => !gone.contains a
  if gone.isEmpty then s
  else
    let s := if left.isEmpty then s.takeOut sw k
      else { s with net := { s.net with buf := s.net.buf.put sw ((s.net.buf.get [] sw).modify k fun y =>
        (y.1, { y.2.part left with forked := true })) } }
    let s := go.foldl (fun s b => s.pass sw b.1 (x.2.part b.2)) s
    (lost.foldl (fun s b => s.packetLost sw (x.2.part b.2)) s).retree

/-- R420: a multicast divides at the lowest switch whose table holds its whole set. -/
def execMulticastWrite (sw : Switch) (k : Nat) (s : State) : Host.Outcome State Fault Refusal :=
  .next (match (s.net.buf.get [] (switchNum sw))[k]? with
    | some x => if !x.2.forked && s.net.forks (switchNum sw) x.2 then s.fork (switchNum sw) k x else s
    | none => s)

/-- R421: a multicast that has partly left sends its remaining copies. -/
def execMulticastForkResume (sw : Switch) (k : Nat) (s : State) : Host.Outcome State Fault Refusal :=
  .next (match (s.net.buf.get [] (switchNum sw))[k]? with
    | some x => if x.2.forked then s.fork (switchNum sw) k x else s
    | none => s)

/-! ## Leaves (R368, R369, R417, R418) and the control die's end of remote traffic (R442, R443) -/

/-- The first packet of a kind that a node has received, and the node's other packets. -/
def Net.takeAt (n : Net) (l : NetNode) (f : Packet → Bool) : Option (Packet × Net) :=
  let q := n.arrived.get [] l
  match q.findIdx? f with
  | none => none
  | some i => (q[i]?).map fun p => (p, { n with arrived := n.arrived.set [] l (q.eraseIdx i) })

/-- The answer of a node to a packet. -/
def Packet.reply (p : Packet) (leaf : NetNode) (b : Body) : Packet :=
  { chan := .rsp, ctx := p.ctx, phase := p.phase, src := leaf, dsts := [p.src], body := b, since := 0, forked := false, dead := p.dead }

/-- The package of a remote device key, and the key there. -/
def keyPkg (k : Nat) : Fin 1024 := Fin.ofNat 1024 (k / 2 ^ 52 - 1)
def keyThere (k : Nat) : Nat := k % 2 ^ 52

/-- Whether a packet reads a line, or writes. -/
def Packet.isRead (p : Packet) : Bool := match p.body with | .read _ _ _ => true | _ => false
def Packet.isWrite (p : Packet) : Bool := match p.body with | .write _ _ => true | .multi _ => true | _ => false

/-- The lines that a request asks for at a node. -/
def Packet.linesAt (p : Packet) (leaf : NetNode) : List Nat :=
  match p.body with
  | .read _ k _ => [k]
  | .write ws _ => ws.flatMap Write.lines
  | .multi c => (c.filter fun x => x.1 == leaf).flatMap fun x => x.2.lines
  | _ => []

/-- The k-th of the 256 requests, reads and writes, in a slice's request queue, if none before it is for the same line: each line is
served oldest first (Table 20-1). -/
def requestAt (leaf : NetNode) (q : List Packet) (k : Nat) : Option Packet :=
  let l := (q.filter fun p => p.isRead || p.isWrite).take 256
  l[k]?.filter fun p => !(l.take k).any fun e => (e.linesAt leaf).any (p.linesAt leaf).contains

/-- The first write that can be served. -/
def nextWrite (leaf : NetNode) (q : List Packet) : Option Packet :=
  (List.range (Nat.min q.length 256)).findSome? fun k => (requestAt leaf q k).filter Packet.isWrite

/-- Device memory for a read of another package: as it stood when the domain-level phase of the context began here (R445). -/
def State.domainBase (s : State) (x : CtxId) : SMap Byte :=
  match (s.ctx x).phases.find? fun p => p.level == .domain with
  | some p => p.base
  | none => s.mem

/-- A slice answers a read of another package, unless a sector of the line is bad (R377). -/
def State.serveRemote (s : State) (p : Packet) (leaf : NetNode) (rid line : Nat) (pkg : Fin 1024) : State :=
  let s := match ([2 * line, 2 * line + 1]).find? s.badSectors.contains with
    | some b => s.report (keyDie (b * 64)) (sectorReport p.ctx p.phase b (b * 64))
    | none => s
  s.emit (p.reply leaf (.line rid (readBytes (s.domainBase p.ctx) (line * 128) 128) (some pkg)))

/-- R368, R369: a slice answers a line read from the committed copy. A result of this package that waits for the line holds the snapshot's
values already, which are the line's. The control die sends a read of another package's line there. -/
def execLineRead (r : QueuedRead) (s : State) : Host.Outcome State Fault Refusal :=
  let leaf := r.leaf
  let q := s.net.arrived.get [] leaf
  .next (match (requestAt leaf q r.k).filter Packet.isRead with
    | none => s
    | some p =>
      let s := { s with net := { s.net with arrived := s.net.arrived.set [] leaf (q.erase p) } }
      match p.body with
      | .read rid line via =>
        if leaf = ctlNode then s.toPackage 1 (keyPkg (line * 128)) (.read p.ctx rid (keyThere (line * 128) / 128))
        else match via with
          | some pkg => s.serveRemote p leaf rid line pkg
          | none => s.emit (p.reply leaf (.line rid [] none))
      | _ => s)

/-- The bytes of a line of another package join what its phase has read. -/
def State.learn (s : State) (x : CtxId) (num : BitVec 32) (line : Nat) (bytes : List Byte) : State :=
  s.mapPhase x num fun p => { p with base := writeBytes p.base (line * 128) bytes, known := if p.known.contains line then p.known else line :: p.known }

/-- A result that waits for lines of another package, once all have come: its values. -/
def State.remoteDone (s : State) (core : Nat) (p : Pend) : Pend :=
  match p.await with
  | .remote w sx =>
    if p.vals.all fun v => s.knows core (v.2.toNat / 128) then
      { p with await := .timed, vals := p.vals.map fun v => (v.1, loadVal w sx (readBytes (s.baseOf core) v.2.toNat w)) }
    else p
  | _ => p

/-- The marks of a continuation, once lines of other packages have come (R450): the values that they lead to. -/
def State.fillMarks (s : State) (core : Nat) (lti : DWord) (l : List Pend) : List Pend :=
  let l := (l.map (s.remoteDone core)).foldl (fun (l : List Pend) p =>
    match p.await with
    | .hostNear o => match s.nearState core o with
      | .done vals fl => givenNear p.id o (.done vals fl) l
      | _ => l
    | _ => l) (l.map (s.remoteDone core))
  l.map fun m => (s.teamsOf core).foldl (fun m t => t.2.markOf lti m) m

/-- What waited at a core for lines of other packages goes on, in its teams, its seeds and its records. -/
def State.fillRemote (s : State) (core : Nat) : State :=
  let c := s.core core
  let fill (x : Seed) : Seed := { x with marks := s.fillMarks core x.lti x.marks }
  let s := s.setCore core { c with
    seeds := c.seeds.map fill
    recs := c.recs.map fun r => { r with marks := s.fillMarks core r.lti r.marks }
    rounds := c.rounds.map fun r => { r with parked := r.parked.map fill, held := r.held.map fun x => (fill x.1, x.2) } }
  let s := (s.teamsOf core).foldl (fun (s : State) t => s.setTeam t.1 { t.2 with pend := t.2.pend.map (s.remoteDone core) }) s
  (s.teamsOf core).foldl (fun s t =>
    t.2.pend.foldl (fun s p => match p.await with | .hostNear o => s.nearDone t.1 p.id o | _ => s) s) s

/-- The core of a cluster that has asked for a line under a number, and its request. -/
def State.requestOf (s : State) (cl rid : Nat) : Option (Nat × LineReq) :=
  (List.range 6).findSome? fun k =>
    let c := coreIn cl k
    ((s.core c).reqs.flatMap (·.2)).find? (fun r => r.rid == rid) |>.map fun r => (c, r)

/-- R417: a line has come to a cluster: its request is done, and its slot is free. -/
def State.lineComes (s : State) (cl rid : Nat) (bytes : List Byte) (dead : Bool) : State :=
  match s.requestOf cl rid with
  | none => s
  | some (c, r) =>
    let x := s.core c
    let s := s.setCore c { x with reqs := x.reqs.map fun e => (e.1, e.2.filter fun r => r.rid != rid) }
    if bytes.isEmpty || dead then s else (s.learn r.ctx r.phase r.line bytes).fillRemote c

/-- A line has come to the control die: for a walker, or for another of its readers. -/
def Ctl.lineComes (c : Ctl) (rid : Nat) : Ctl :=
  { c with
    walks := c.walks.map fun w => if w.asked == some rid then { w with asked := none, done := w.done + 1 } else w
    reqs := c.reqs.filter fun r => r.rid != rid }

/-- R417, R442: a line response comes to its destination; one for another package leaves for it. -/
def execLineResponse (leaf : NetNode) (s : State) : Host.Outcome State Fault Refusal :=
  .next (match s.net.takeAt leaf fun p => match p.body with | .line _ _ _ => true | _ => false with
    | some (p, n) =>
      let s := { s with net := n }
      match p.body with
      | .line rid bytes via =>
        if leaf = ctlNode then
          match via with
          | some pkg => s.toPackage 2 pkg (.line p.ctx rid bytes)
          | none => { s with ctl := s.ctl.lineComes rid }
        else s.lineComes (leafCluster leaf) rid bytes p.dead
      | _ => s
    | none => s)

/-- R369: writes enter the pending lines of their phase. -/
def State.accept (s : State) (p : Packet) (die : Nat) (ws : List Write) : State :=
  if p.dead then s else s.addPhase p.ctx p.phase die fun ph => { ph with writes := ph.writes ++ ws }

/-- A write for another package, as it travels. -/
def toRemote (w : Write) : RemoteWrite :=
  { lti := w.lti, seq := w.seq, row := w.row, addr := keyThere w.addr, va := w.va, bytes := w.bytes, rule := w.rule, fmt := w.fmt }

/-- R418: a slice accepts a landing write, or its copies of a multicast, and acknowledges it; a package that has voted OK looks at its
vote again before another package hears that a write has come (R446). The control die sends a write to another
package's page there (R443). -/
def execLandingWrite (leaf : NetNode) (s : State) : Host.Outcome State Fault Refusal :=
  let q := s.net.arrived.get [] leaf
  .next (match nextWrite leaf q with
    | some p =>
      let s := { s with net := { s.net with arrived := s.net.arrived.set [] leaf (q.erase p) } }
      match p.body with
      | .write ws via =>
        if leaf ≠ ctlNode then
          ((if via.isSome then (s.accept p (leafDie leaf) ws).revote p.ctx else s.accept p (leafDie leaf) ws)).emit (p.reply leaf (.ack 1 via))
        else if p.dead then s.emit (p.reply leaf (.ack 1 none))
        else s.toPackage 1 (keyPkg ((ws.head?.map Write.addr).getD 0))
          (.writes p.ctx (((s.ctx p.ctx).domain.map Domain.stamp).getD 0) p.src (ws.map toRemote))
      | .multi c =>
        (s.accept p (leafDie leaf) ((c.filter fun x => x.1 == leaf).map (·.2))).emit (p.reply leaf (.ack 1 none))
      | _ => s
    | none => s)

/-- R418: an acknowledgment has come; the cluster has fewer writes outstanding. One for another package leaves for it. -/
def execWriteAck (leaf : NetNode) (s : State) : Host.Outcome State Fault Refusal :=
  .next (match s.net.takeAt leaf fun p => match p.body with | .ack _ _ => true | _ => false with
    | some (p, n) =>
      let s := { s with net := n }
      match p.body with
      | .ack j (some (pkg, src)) => s.toPackage 2 pkg (.ack p.ctx src j)
      | .ack j none =>
        let cl := leafCluster leaf
        let x := s.cluster cl
        s.setCluster cl { x with acks := x.acks - j }
      | _ => s
    | none => s)

/-! ## Walks and host pages (R376, R426) -/

/-- A walk that has read its lines: its leaf, if its place is sound (R375), or a bad sector of a table, which discards the phase for which the cluster walks (R377). -/
def State.walkResult (s : State) (q : WalkReq) : State × Option DWord :=
  match s.badTable q.ctx q.va with
  | some b => (s.report (keyDie (b * 64)) (sectorReport q.ctx q.phase b (b * 64)), none)
  | none => match walk s.mem q.va 3 ((s.ctx q.ctx).rootFrame) with
    | .leaf p => (s, if s.paOk q.ctx p (ptePa p q.va) then some p else none)
    | _ => (s, none)

/-- A walker has read all the lines of its walk. -/
def State.walked (s : State) (q : WalkReq) : Bool := q.asked.isNone && (s.walkLines q.ctx q.va).length ≤ q.done

/-- R376: a walker has read the tables. A valid leaf goes to the cluster that asked; a fault leaves nothing behind. A held request takes the
free place of the queue. -/
def execPageWalk (s : State) : Host.Outcome State Fault Refusal :=
  .next (match (s.ctl.walks.take 64).zipIdx.find? fun e => s.walked e.1 with
    | none => s
    | some (q, w) =>
        let left := s.ctl.walks.eraseIdx w
        let ctl : Ctl := match s.ctl.heldWalks with
          | [] => { s.ctl with walks := left }
          | h :: hs => { s.ctl with walks := left ++ [h], heldWalks := hs }
        let r := { s with ctl := ctl }.walkResult q
        r.1.emitCtl ctlNode (leafOfCluster q.cl) q.ctx q.phase (.walked q.ctx q.va q.cl r.2))

/-- R426: the host answers an ATS request: with a translation, or with a fault, after which the page is requested through
PRI. -/
def execAtsTranslationResponse (page : Nat) (target : Option Nat) (s : State) : Host.Outcome State Fault Refusal :=
  let c := s.ctl
  .next (
    if !c.atsWait.contains page then s
    else
      let rest := c.atsWait.filter fun p => p != page
      match target with
      | some h =>
        let s := { s with ctl := { c with atsWait := rest, ats := (page, h) :: c.ats } }
        s.drain s.posts []
      | none => { s with ctl := { c with atsWait := rest, priWait := c.priWait ++ [page] } })

/-- An access that waits for a host page: its thread, the program counter of a fetch (0 for an access that is under way), its virtual
address. -/
structure HostWait where
  lti : DWord
  pc : DWord
  va : DWord

/-- Whether a team waits for a host page, and for which access. -/
def State.needsHost (s : State) (k : Nat) (t : Team) (page : Nat) : Option HostWait :=
  match t.pend.findSome? fun p => match p.await with
    | .hostIn _ _ => (p.vals.find? fun v => v.2.toNat / 2 ^ 16 == page).map fun v =>
        let lti := match p.dst with | .vec _ _ => v.1 | .uni _ => ((t.lanes t.live).head?.map t.lti).getD v.1
        ({ lti := lti, pc := 0, va := (p.va.lookup v.1).getD v.2 } : HostWait)
    | .hostNear o => ((s.nearGot (coreOf k) o).find? fun x => match x.2 with | .host b => b / 2 ^ 16 == page | _ => false).map fun x =>
        { lti := o.lti, pc := 0, va := x.1 }
    | _ => none with
  | some l => some l
  | none =>
    if s.runnable k && !s.busy k && s.fetch (coreOf k) (s.core (coreOf k)).launch.vregs t.pc == .waits page then
      (t.lanes t.live).head?.map fun i => { lti := t.lti i, pc := t.pc, va := t.pc }
    else none

/-- The report of an access that the host has failed: an unresolved `e.page`, with the full virtual address (R171, R380). -/
def hostFault (x : CtxId) (num : BitVec 32) (loc : DWord) (holder : Option Nat) (w : HostWait) : Report :=
  { ctx := x, phase := num, kind := 1, eff := 6, lti := w.lti, pc := w.pc, payload := w.va, loc := loc, addr := w.va, halt := none
    holder := holder }

/-- R426: the accesses that wait for a page, those of instruction fetches and of the graph walker among them, go to the supervisor. -/
def State.hostLost (s : State) (page : Nat) : State :=
  let s := s.teams.foldl (fun s p =>
    let core := coreOf p.1
    match s.needsHost p.1 p.2 page with
    | some w => (s.report (dieOf core) (hostFault (s.core core).ctx (s.core core).phase (locOfCore core) (some (clusterOf core)) w)).stopTeam p.1
    | none => s) s
  let s := (s.posts.filter fun p => p.page == page).foldl (fun s p =>
    s.report 0 (hostFault p.ctx p.phase 0 none { lti := p.lti, pc := 0, va := p.va })) s
  let s := { s with posts := s.posts.filter fun p => p.page != page }
  let s := s.cores.foldl (fun s c =>
    match c.2.copyRun, c.2.copyQ with
    | true, x :: _ =>
      match s.copyRun c.1 x with
      | .waits p a =>
        if p = page then
          (s.report (dieOf c.1) (hostFault c.2.ctx c.2.phase (locOfCore c.1) (some (clusterOf c.1)) { lti := x.lti, pc := 0, va := a })).popCopy c.1
        else s
      | _ => s
    | _, _ => s) s
  (List.finRange 64).foldl (fun s x =>
    match s.walkerNeeds x page with
    | some a => s.walkerLost x (hostFault x 0 0 none { lti := BitVec.allOnes 64, pc := 0, va := a })
    | none => s) s

/-- R426: the host answers a page request. A page that it has made present is translated again. -/
def execPriResponse (page : Nat) (ok : Bool) (s : State) : Host.Outcome State Fault Refusal :=
  let c := s.ctl
  .next (
    if !c.priWait.contains page then s
    else
      let rest := c.priWait.filter fun p => p != page
      if ok then { s with ctl := { c with priWait := rest, atsWait := c.atsWait ++ [page] } }
      else { s with ctl := { c with priWait := rest } }.hostLost page)

/-! ## Link errors (R414) -/

/-- R414: a failed flit of a link is replayed; one that still fails after 8 replays fails the link. -/
def State.linkCrc (s : State) (sw port : Nat) (again : Bool) : State :=
  let l := linkOf sw port
  let key := l.1 * 64 + l.2
  let n := if again then s.net.replays.get 0 key else 0
  if farEnd sw port = .none ∨ s.net.failed.contains l then s
  else if n < 8 then { s with net := { s.net with replays := s.net.replays.put key (n + 1) } }
  else s.failLinks sw [port]

def execLinkFailure (sw : Switch) (port : Fin 33) (s : State) : Host.Outcome State Fault Refusal := .next (s.failLinks (switchNum sw) [port])

end Sys2Proof.Machine
end

