-- ==== Sys2Proof/Machine/Fabric.lean ====
section
/-! DEFINITION. The events of the fabric (25, R437 to R448): link ports, buffers and credits, forwarding, flows, and the agreement of
the packages of a domain-level phase. -/
namespace Sys2Proof.Machine

/-! ## The agreement on a domain-level phase (R446, R447) -/

/-- The domain-level phase of a context. -/
def Ctx.domainPhase (c : Ctx) : Option Phase := c.phases.find? fun p => p.level == .domain

/-- A context has no flow between some packages any more. -/
def Fabric.unmark (f : Fabric) (x : CtxId) (set : List (Fin 1024)) : Fabric :=
  { f with flows := f.flows.filter fun e => !(e.ctx == x && set.contains e.src && set.contains e.dst) }

/-- A package's part is discarded, with the fault that its own resolution has found, if that was its vote. -/
def State.dropPart (s : State) (x : CtxId) (p : Phase) (d : Domain) : State :=
  if d.votes.contains (s.ctl.pkg, false) && s.ended x p then
    if s.leftOver x p then s.replayEnds x p.num
    else match s.resolve x p with
      | (s, r, some f) => (s.mapPhase x p.num fun q => { q with psw := q.psw ||| (r.bits &&& 0x80) }).supervise f
      | _ => s.failPhase x p.num
  else s.failPhase x p.num

/-- A package commits or discards its part. The decision is final: on COMMIT what it holds lands (R447). -/
def State.obey (s : State) (x : CtxId) (d : Domain) (commit : Bool) : State :=
  let s := s.setCtx x { s.ctx x with domain := some { d with decided := some commit } }
  match (s.ctx x).domainPhase, commit with
  | some p, true => let (s, r, _) := s.resolve x p; s.land x p r
  | none, true => s
  | some p, false =>
    let t := s.dropPart x p d
    { t with fab := t.fab.unmark x d.set }
  | none, false => ({ s with fab := s.fab.unmark x d.set }.setCtx x { s.ctx x with domain := none }).restCtx x

/-- The coordinator decides, and tells every member. -/
def State.decide (s : State) (x : CtxId) (d : Domain) (commit : Bool) : State :=
  let s := (d.set.filter fun k => k != s.ctl.pkg).foldl (fun s k => s.tell x k (.decision d.stamp commit)) s
  s.obey x { d with done := s.ctl.pkg :: d.done } commit

/-- Every vote has arrived. -/
def Domain.voted (d : Domain) : Bool := d.set.all fun k => d.votes.any fun v => v.1 == k

/-- The same, with the votes that no event has taken yet. -/
def State.allVoted (s : State) (x : CtxId) (d : Domain) : Bool :=
  d.set.all fun k => (d.votes.any fun v => v.1 == k) || s.fab.inbox.any fun e =>
    e.1 == k && e.2.1 == x && match e.2.2 with | .vote n _ => n == d.stamp | _ => false

/-- R448: a domain-level phase that is not decided is aborted: the coordinator takes ABORT, unless its last vote has arrived (R447); a
member votes FAIL. -/
def State.abortDomain (s : State) (x : CtxId) : State :=
  match (s.ctx x).domain, (s.ctx x).domainPhase with
  | some d, some _ =>
    if d.decided ≠ none ∨ d.set = [s.ctl.pkg] then s
    else if d.coordinator = s.ctl.pkg then (if s.allVoted x d then s else s.decide x d false)
    else s.castVote x d false
  | _, _ => s

/-! ## Link ports (R437, R438, R448) -/

/-- Members of a context's domain-level phase, at its coordinator, that no port leads to. -/
def State.cutOff (s : State) (x : CtxId) : Bool :=
  match (s.ctx x).domain with
  | some d => d.coordinator == s.ctl.pkg && d.set.any fun k => k != s.ctl.pkg && !s.reachable k
  | none => false

/-- Whether a flow belongs to the domain-level phase of a context here: both of its packages are in the set. -/
def State.flowOf (s : State) (x : CtxId) (e : FlowMark) : Bool :=
  e.ctx == x && (s.ctx x).pkgs.contains e.src && (s.ctx x).pkgs.contains e.dst

/-- Whether a packet that was handed to a port may not have come where it goes: it is not known to have been received (R441). -/
def State.mayBeLost (s : State) (p : FabPkt) : Bool :=
  !(p.spkg == s.ctl.pkg && p.cls != 0 &&
    let d := (s.fab.acked.get 0 (flowKey p.cls p.dpkg) - p.seq).toNat
    0 < d && d < 2 ^ 31)

/-- A port goes down: a fault event is posted, and the domain-level phases that had a flow over it, or that have lost a member, are
aborted; the packages of a flow that was forwarded over it hear of that (R448, log 162). What was handed to the port and may be lost is
sent again by another (R447). -/
def State.failPort (s : State) (port : Fin 18) : State :=
  if s.fab.down.contains port then s
  else
    let own := s.ctl.pkg
    let hit := s.fab.flows.filter fun e => e.port == port
    let back := (s.fab.sent.filter fun e => e.1 == port && s.mayBeLost e.2).map (·.2)
    let f := { s.fab with
      down := port :: s.fab.down, flows := s.fab.flows.filter fun e => e.port != port, sent := s.fab.sent.filter fun e => e.1 != port }
    let s := { s with fab := f }.bump.postEvent (Config.eventCtx s.free) 3 0 none none
    let s := (List.finRange 64).foldl (fun s (x : CtxId) => if hit.any (s.flowOf x) || s.cutOff x then s.abortDomain x else s) s
    let s := (hit.filter fun e => e.src != own && e.dst != own).foldl (fun s e =>
      (s.tell e.ctx e.src .linkFailed).tell e.ctx e.dst .linkFailed) s
    back.foldl State.sendOrWait s

/-- A failed flit of a port is replayed; one that still fails after 8 replays fails the port (Table 25-1, R438). -/
def State.portCrc (s : State) (port : Fin 18) (again : Bool) : State :=
  let n := if again then s.fab.replays.get 0 port else 0
  if s.fab.down.contains port then s
  else if n < 8 then { s with fab := { s.fab with replays := s.fab.replays.put port (n + 1) } }
  else s.failPort port

def execFlitCrcError (l : LinkEnd) (flit : FailedFlit) (s : State) : Host.Outcome State Fault Refusal :=
  .next (match l with
    | .inner sw => s.linkCrc (switchNum sw) flit.port flit.again
    | .fabric => if flit.port.val < 18 then s.portCrc (Fin.ofNat 18 flit.port.val) flit.again else s)

def execFabricLinkFailure (port : Fin 18) (s : State) : Host.Outcome State Fault Refusal := .next (s.failPort port)

/-! ## Flows (R441) -/

/-- The number of the domain-level phase of a context, or of its next phase. -/
def Ctx.domainNum (c : Ctx) : BitVec 32 := match c.domainPhase with | some p => p.num | none => c.nextPhase

/-- The cluster that has asked for a line under a number. -/
def State.readerOf (s : State) (rid : Nat) : Option (Nat × LineReq) :=
  (List.range 64).findSome? fun cl => (s.requestOf cl rid).map fun r => (cl, r.2)

/-- Landing writes of another package: for the domain-level phase of their context; kept while that phase is about to begin here;
for one that has been discarded they are acknowledged only. -/
def State.remoteWrites (s : State) (p : FabPkt) (x : CtxId) (stamp : Nat) (src : NetNode) (l : List RemoteWrite) : State :=
  let c := s.ctx x
  match c.domainPhase, c.walk with
  | some ph, _ =>
    if c.pkgs.contains p.spkg && c.domain.map Domain.stamp == some stamp then s.writesFrom p.spkg x ph.num src l else s.toPackage 2 p.spkg (.ack x src 1)
  | none, .meet _ => { s with fab := { s.fab with pendingWrites := s.fab.pendingWrites ++ [p] } }
  | none, _ => s.toPackage 2 p.spkg (.ack x src 1)

/-- What the delivery of a packet does. -/
def State.deliverPkt (s : State) (p : FabPkt) : State :=
  match p.body with
  | .msg x .linkFailed => s.abortDomain x
  | .msg x m => { s with fab := { s.fab with inbox := s.fab.inbox ++ [(p.spkg, x, m)] } }
  | .attest n => { s with fab := { s.fab with asks := s.fab.asks ++ [(p.spkg, n)] } }
  | .attested _ _ _ => { s with fab := { s.fab with others := s.fab.others ++ [p] } }
  | .other _ => { s with fab := { s.fab with others := s.fab.others ++ [p] } }
  | .read x rid line => s.emit
      { chan := .req, ctx := x, phase := (s.ctx x).domainNum, src := ctlNode, dsts := [keyLeaf (line * 128)], body := .read rid line (some p.spkg)
        since := 0, forked := false, dead := false }
  | .line _ rid bytes =>
    match s.readerOf rid with
    | some (cl, r) => s.emit
        { chan := .rsp, ctx := r.ctx, phase := r.phase, src := ctlNode, dsts := [leafOfCluster cl], body := .line rid bytes none
          since := 0, forked := false, dead := false }
    | none => s
  | .writes x stamp src l => s.remoteWrites p x stamp src l
  | .ack x src n => s.emit
      { chan := .rsp, ctx := x, phase := (s.ctx x).domainNum, src := ctlNode, dsts := [src], body := .ack n none
        since := 0, forked := false, dead := false }
  | .complete cls seq => { s with fab := { s.fab with acked := s.fab.acked.set 0 (flowKey cls p.spkg) seq } }

/-- CTL packets of a flow that have come early are delivered, behind the number below which all have come. -/
def State.inOrder (s : State) (key : Nat) : (fuel : Nat) → State
  | 0 => s
  | fuel + 1 =>
    let n := s.fab.low.get 0 key
    let held := s.fab.early.get [] key
    match held.find? fun p => p.seq == n with
    | none => s
    | some p =>
      let f := { s.fab with low := s.fab.low.set 0 key (n + 1), early := s.fab.early.set [] key (held.filter fun q => q.seq != n) }
      ({ s with fab := f }.deliverPkt p).inOrder key fuel

/-- The number below which all packets have come moves up over those that are there. -/
def moveLow (seen : List (BitVec 32)) : (fuel : Nat) → BitVec 32 → BitVec 32
  | 0, n => n
  | fuel + 1, n => if seen.contains n then moveLow seen fuel (n + 1) else n

/-- A packet that does not wait in a reorder buffer is delivered on arrival, once; the source hears below which number all have come. -/
def State.onArrival (s : State) (p : FabPkt) : State :=
  let key := flowKey p.cls p.spkg
  let low := s.fab.low.get 0 key
  let seen := s.fab.seen.get [] key
  if 2 ^ 31 ≤ (p.seq - low).toNat ∨ seen.contains p.seq then s
  else
    let all := p.seq :: seen
    let up := moveLow all all.length low
    let s := { s with fab := { s.fab with
      low := s.fab.low.set 0 key up, seen := s.fab.seen.set [] key (all.filter fun n => (n - up).toNat < 2 ^ 31) } }.deliverPkt p
    if up = low then s else s.toPackage 0 p.spkg (.complete p.cls up)

/-- Whether a CTL packet lies beyond the reorder buffer of 512 packets of its source: it waits in the port's buffer. -/
def Fabric.beyond (f : Fabric) (p : FabPkt) : Bool :=
  let d := (p.seq - f.low.get 0 (flowKey p.cls p.spkg)).toNat
  p.cls == 0 && 512 ≤ d && d < 2 ^ 31

/-- A packet for this package: CTL is delivered in the order of its flow, REQ and RSP on arrival. -/
def State.receive (s : State) (p : FabPkt) : State :=
  let key := flowKey p.cls p.spkg
  let held := s.fab.early.get [] key
  if p.cls ≠ 0 then s.onArrival p
  else if 512 ≤ (p.seq - s.fab.low.get 0 key).toNat ∨ (held.any fun q => q.seq == p.seq) then s
  else { s with fab := { s.fab with early := s.fab.early.set [] key (held ++ [p]) } }.inOrder key (held.length + 1)

/-! ## Arrival and forwarding (R439, R440, Table 25-1) -/

/-- The flits of a class in a port's input buffer. -/
def Fabric.heldFlits (f : Fabric) (port : Fin 18) (cls : Fin 3) : Nat :=
  (((f.held.get [] port).filter fun p => p.cls == cls).map pktFlits).sum

/-- A packet in a port's buffer goes where it can: to this package, or on by the forwarding table; `none` when it must wait. -/
def State.routePkt (s : State) (p : FabPkt) : Option State :=
  if p.dpkg = s.ctl.pkg then (if s.fab.beyond p then none else some (s.receive p)) else s.sendBy p

/-- R440: a packet arrives at a port, with one hop less. With none left before its destination its route has failed. -/
def State.arrivePkt (s : State) (port : Fin 18) (p : FabPkt) : State :=
  let f := s.fab
  let p := { p with hops := p.hops - 1 }
  if 64 < f.heldFlits port p.cls + pktFlits p then s
  else
    let s := { s with fab := f.mark port p }
    if p.dpkg ≠ s.ctl.pkg ∧ p.hops = 0 then s.failPort port
    else match s.routePkt p with
      | some t => t
      | none => { s with fab := { s.fab with held := s.fab.held.put port (s.fab.held.get [] port ++ [p]) } }

/-- The packets that wait in a port's buffer go on as far as they can. -/
def State.goOn (s : State) (port : Fin 18) : List FabPkt → (kept : List FabPkt) → State
  | [], kept => { s with fab := { s.fab with held := s.fab.held.set [] port kept } }
  | p :: r, kept => match s.routePkt p with
    | some t => t.goOn port r kept
    | none => s.goOn port r (kept ++ [p])

/-- The packets of this package that wait for a port leave as far as they can. -/
def State.leave (s : State) : List FabPkt → State
  | [] => s
  | p :: r => (s.sendOrWait p).leave r

/-- An arrival at a port, credit from its neighbour, or neither: then what waits tries again. Over a failed port nothing comes; what its
buffer holds goes on. -/
def execFabricForward (port : Fin 18) (i : FabIn) (s : State) : Host.Outcome State Fault Refusal :=
  .next (match i with
      | .packet p => if s.fab.down.contains port then s else s.arrivePkt port p
      | .credit cls n =>
        if s.fab.down.contains port then s
        else { s with fab := { s.fab with spent := s.fab.spent.set 0 (3 * port.val + cls.val) (s.fab.inUse port cls - n) } }
      | .next =>
        let t := s.goOn port (s.fab.held.get [] port) []
        { t with fab := { t.fab with waits := [] } }.leave t.fab.waits)

/-! ## Messages (R441, R444, R446) -/

/-- The first message for a context that CTL has delivered, of a source and a kind that are asked for, no earlier one of its source for
the context being there still. -/
def State.takeMsg (s : State) (x : CtxId) (source : Fin 1024 → Bool) (f : Msg → Bool) : Option (Fin 1024 × Msg × State) :=
  let l := s.fab.inbox
  let first (k : Nat) (e : Fin 1024 × CtxId × Msg) : Bool := !(l.take k).any fun y => y.1 == e.1 && y.2.1 == e.2.1
  ((l.zipIdx.find? fun e => e.1.2.1 == x && source e.1.1 && f e.1.2.2 && first e.2 e.1)).map fun e =>
    (e.1.1, e.1.2.2, { s with fab := { s.fab with inbox := l.eraseIdx e.2 } })

def Msg.isMeet : Msg → Bool
  | .meet _ => true
  | .graphError => true
  | _ => false

def Msg.isVote : Msg → Bool
  | .vote _ _ => true
  | _ => false

/-- A decision, for or against. -/
def Msg.decides (commit : Bool) : Msg → Bool
  | .decision _ c => c == commit
  | _ => false

def Msg.isRelease : Msg → Bool
  | .release _ => true
  | _ => false

def Msg.isDone : Msg → Bool
  | .done _ => true
  | _ => false

/-- The stamp of the phase that a message of the agreement names. -/
def Msg.stamp : Msg → Option Nat
  | .vote n _ => some n
  | .decision n _ => some n
  | .done n => some n
  | .release n => some n
  | _ => none

/-! ## The rendezvous (R444) -/

/-- What a message of the rendezvous does: at the coordinator a package has arrived; its arrival is kept while this package is not at its
LAUNCH. To a member, the coordinator says that all have arrived, or that they differ. -/
def State.rendezvous (s : State) (x : CtxId) (from' : Fin 1024) (m : Msg) : State :=
  let c := s.ctx x
  match m, c.walk, c.domain with
  | .meet m, .meet a, some d =>
    if d.coordinator = s.ctl.pkg then (if d.met.contains m.pkg then s else s.packageArrives x a m)
    else if from' = d.coordinator then
      (if d.agrees m then (s.setCtx x { c with domain := some { d with stamp := m.stamp } }).runNode x a else s.graphError x a)
    else s
  | .meet m, _, _ => { s with fab := { s.fab with arrivals := s.fab.arrivals ++ [(x, m, s.clock)] } }
  | .graphError, .meet a, some d => if from' = d.coordinator then s.graphError x a else s
  | _, _, _ => s

def execDomainRendezvous (x : CtxId) (pkg : Fin 1024) (s : State) : Host.Outcome State Fault Refusal :=
  .next (match s.takeMsg x (· == pkg) Msg.isMeet with
    | some (k, m, t) => t.rendezvous x k m
    | none => s)

/-- R444: 2^32 clocks after the first member, a member is still missing. -/
def execDomainRendezvousTimeout (x : CtxId) (s : State) : Host.Outcome State Fault Refusal :=
  let c := s.ctx x
  .next (match c.walk, c.domain with
    | .meet a, some d =>
      if d.coordinator = s.ctl.pkg ∧ 2 ^ 32 ≤ s.clock - d.since then s.domainError x a d else s
    | _, _ =>
      let mine := s.fab.arrivals.filter fun e => e.1 == x
      if mine.any fun e => 2 ^ 32 ≤ s.clock - e.2.2 then
        mine.foldl (fun s e => s.tell x e.2.1.pkg .graphError) { s with fab := { s.fab with arrivals := s.fab.arrivals.filter fun e => e.1 != x } }
      else s)

/-! ## The votes and the decision (R446 to R448) -/

/-- This package may vote: its groups have ended, with every landing write acknowledged (R418). -/
def State.votesNow (s : State) (x : CtxId) (d : Domain) : Option Phase :=
  (s.ctx x).domainPhase.filter fun p =>
    d.decided.isNone && d.set != [s.ctl.pkg] && !(d.votes.any fun v => v.1 == s.ctl.pkg) && s.ended x p && (s.ctx x).cstate != .halted

/-- The coordinator hears a vote on its phase; one that comes when all have voted changes nothing. -/
def State.hearVote (s : State) (x : CtxId) (k : Fin 1024) (stamp : Nat) (ok : Bool) : State :=
  let c := s.ctx x
  match c.domain with
  | some d =>
    if d.stamp = stamp ∧ d.coordinator = s.ctl.pkg ∧ d.decided = none ∧ d.set.contains k ∧ !d.voted then
      s.setCtx x { c with domain := some { d with votes := (k, ok) :: d.votes.filter fun v => v.1 != k } }
    else s
  | none => s

/-- R446: this package votes when it can; of another one the coordinator hears the vote. R448: of a member that can no longer reach it the
coordinator takes ABORT. -/
def execDomainVote (x : CtxId) (pkg : Fin 1024) (lost : Bool) (s : State) : Host.Outcome State Fault Refusal :=
  .next (match lost, (s.ctx x).domain with
    | true, some d => if d.coordinator = s.ctl.pkg ∧ pkg ≠ s.ctl.pkg ∧ d.set.contains pkg then s.abortDomain x else s
    | true, none => s
    | false, d =>
      if pkg = s.ctl.pkg then
        match d with
        | some d => match s.votesNow x d with | some p => s.castVote x d (s.verdict x p) | none => s.revote x
        | none => s
      else match s.takeMsg x (· == pkg) Msg.isVote with
        | some (k, .vote stamp ok, t) => t.hearVote x k stamp ok
        | _ => s)

/-- R446: the coordinator decides when every vote has arrived. -/
def execDomainDecision (x : CtxId) (s : State) : Host.Outcome State Fault Refusal :=
  .next (match (s.ctx x).domain with
    | some d =>
      if d.coordinator = s.ctl.pkg ∧ d.decided = none ∧ d.set ≠ [s.ctl.pkg] ∧ d.voted then s.decide x d (d.votes.all fun v => v.2)
      else s
    | none => s)

/-- R446: a member commits or discards; having committed it replies DONE. -/
def execDomainDecisionReceipt (x : CtxId) (commit : Bool) (s : State) : Host.Outcome State Fault Refusal :=
  .next (match s.takeMsg x (fun _ => true) (Msg.decides commit) with
    | some (k, m, t) =>
      match (t.ctx x).domain with
      | some d =>
        if Msg.stamp m = some d.stamp ∧ d.coordinator = k ∧ k ≠ t.ctl.pkg ∧ d.decided = none then
          let u := t.obey x d commit
          if commit then u.tell x k (.done d.stamp) else u
        else t
      | none => t
    | none => s)

/-- What the coordinator has heard of DONE, or a member of the release. -/
def State.hearEnd (s : State) (x : CtxId) (d : Domain) : State × Domain :=
  let mine := s.fab.inbox.filter fun e => e.2.1 == x && e.2.2 == .done d.stamp
  ({ s with fab := { s.fab with inbox := s.fab.inbox.filter fun e => !(e.2.1 == x && Msg.isDone e.2.2) } },
    { d with done := mine.foldl (fun l e => if l.contains e.1 then l else e.1 :: l) d.done })

/-- The phase is released here: the walker may go on. -/
def State.released (s : State) (x : CtxId) : State :=
  ({ s with fab := s.fab.unmark x (s.ctx x).pkgs }.setCtx x { s.ctx x with domain := none }).restCtx x

/-- R446: the coordinator releases the phase when every DONE reply has arrived; a member hears of it. -/
def execDomainRelease (x : CtxId) (s : State) : Host.Outcome State Fault Refusal :=
  .next (match (s.ctx x).domain with
    | some d =>
      if d.coordinator = s.ctl.pkg then
        let r := s.hearEnd x d
        let t := r.1.setCtx x { r.1.ctx x with domain := some r.2 }
        if d.decided = some true ∧ r.2.set.all r.2.done.contains then
          (d.set.filter fun k => k != s.ctl.pkg).foldl (fun s k => s.tell x k (.release d.stamp)) (t.released x)
        else t
      else match s.takeMsg x (fun _ => true) Msg.isRelease with
        | some (_, m, t) => if Msg.stamp m = some d.stamp ∧ d.decided = some true then t.released x else t
        | none => s
    | none => match s.takeMsg x (fun _ => true) fun m => Msg.isRelease m || Msg.isDone m with
      | some (_, _, t) => t
      | none => s)

end Sys2Proof.Machine
end

