-- ==== Sys2Proof/Machine/Hash.lean ====
section
/-! DEFINITION. SHAKE256, which the boot ROM measures with (24, R431). The manual names the function; its steps are those of
FIPS 202 (PRESUMED, log 54). -/
namespace Sys2Proof.Machine

/-- A lane rotated left. -/
def rotLane (x : DWord) (n : Nat) : DWord := x.rotateLeft n

/-- Lane (x, y) of a state of 25 lanes, at index x + 5 · y. -/
def laneAt (a : List DWord) (x y : Nat) : DWord := a.getD (x % 5 + 5 * (y % 5)) 0

/-- A state from its lanes. -/
def lanesOf (f : Nat → Nat → DWord) : List DWord := (List.range 25).map fun i => f (i % 5) (i / 5)

def theta (a : List DWord) : List DWord :=
  let c := (List.range 5).map fun x => laneAt a x 0 ^^^ laneAt a x 1 ^^^ laneAt a x 2 ^^^ laneAt a x 3 ^^^ laneAt a x 4
  let d := (List.range 5).map fun x => c.getD ((x + 4) % 5) 0 ^^^ rotLane (c.getD ((x + 1) % 5) 0) 1
  lanesOf fun x y => laneAt a x y ^^^ d.getD x 0

/-- Rotation of lane (x, y), at index x + 5 · y. -/
def rhoOffsets : List Nat :=
  [0, 1, 62, 28, 27, 36, 44, 6, 55, 20, 3, 10, 43, 25, 39, 41, 45, 15, 21, 8, 18, 2, 61, 56, 14]

/-- Rotation and transposition: lane (x, y) comes from (x + 3 · y, x). -/
def rhoPi (a : List DWord) : List DWord :=
  lanesOf fun x y =>
    let u := (x + 3 * y) % 5
    rotLane (laneAt a u x) (rhoOffsets.getD (u + 5 * x) 0)

def chi (a : List DWord) : List DWord :=
  lanesOf fun x y => laneAt a x y ^^^ (~~~laneAt a (x + 1) y &&& laneAt a (x + 2) y)

/-- The constants of the 24 rounds. -/
def roundConstants : List DWord :=
  [0x0000000000000001, 0x0000000000008082, 0x800000000000808A, 0x8000000080008000, 0x000000000000808B, 0x0000000080000001,
   0x8000000080008081, 0x8000000000008009, 0x000000000000008A, 0x0000000000000088, 0x0000000080008009, 0x000000008000000A] ++
  [0x000000008000808B, 0x800000000000008B, 0x8000000000008089, 0x8000000000008003, 0x8000000000008002, 0x8000000000000080,
   0x000000000000800A, 0x800000008000000A, 0x8000000080008081, 0x8000000000008080, 0x0000000080000001, 0x8000000080008008]

def keccakRound (a : List DWord) (rc : DWord) : List DWord :=
  match chi (rhoPi (theta a)) with
  | [] => []
  | l :: r => (l ^^^ rc) :: r

def keccakF (a : List DWord) : List DWord := roundConstants.foldl keccakRound a

/-- Bytes of one block of 136, as lanes. -/
def blockLanes (b : List Byte) : List DWord :=
  (List.range 25).map fun i => BitVec.ofNat 64 (leNat ((b.drop (8 * i)).take 8))

/-- The input absorbed block by block; `fuel` bounds the number of blocks. -/
def absorb : (fuel : Nat) → List Byte → List DWord → List DWord
  | 0, _, a => a
  | fuel + 1, b, a =>
    if b.isEmpty then a
    else absorb fuel (b.drop 136) (keccakF ((a.zip (blockLanes (b.take 136))).map fun p => p.1 ^^^ p.2))

/-- The padded input: suffix 1111 and the padding 10*1. -/
def shakePad (b : List Byte) : List Byte :=
  let n := 136 - b.length % 136
  if n = 1 then b ++ [0x9F] else b ++ [0x1F] ++ List.replicate (n - 2) 0 ++ [0x80]

/-- SHAKE256 with 512 bits of output. -/
def shake512 (b : List Byte) : List Byte :=
  let p := shakePad b
  ((absorb (p.length / 136 + 1) p (List.replicate 25 0)).flatMap fun x => leBytes 8 x.toNat).take 64

end Sys2Proof.Machine
end

