-- ==== Sys2Proof/Machine/HostIf.lean ====
section
/-! DEFINITION. The host interface (24, R424 to R436): the control region, BAR2, commands, attestation, bring-up, power and
temperature. -/
namespace Sys2Proof.Machine

/-! ## The control region (R427, Tables 24-2 and 24-4) -/

/-- A register of the control region. -/
inductive Reg where
  | id | gstat | winbase | clavail
  /-- a register of a context block, by its offset -/
  | ctx (x : CtxId) (r : Nat)
  | part (k : Fin 8) (r : Nat)
  | eq (r : Nat)
  | mctrl | mstatus
  /-- word of NONCE, of REPORT, of ERRCNT and of PWR -/
  | nonce (k : Nat)
  | report (k : Nat)
  | errcnt (k : Nat)
  | pwr (k : Nat)
  | none
  deriving DecidableEq, Repr

/-- The register at an offset. -/
def hostReg (off : Nat) : Reg :=
  if off % 8 ≠ 0 then .none
  else if off = 0 then .id
  else if off = 8 then .gstat
  else if off = 0x10 then .winbase
  else if off = 0x18 then .clavail
  else if 0x10000 ≤ off ∧ off < 0x20000 then .ctx (Fin.ofNat 64 ((off - 0x10000) / 0x400)) (off % 0x400)
  else if 0x100000 ≤ off ∧ off < 0x100800 then .part (Fin.ofNat 8 ((off - 0x100000) / 0x100)) (off % 0x100)
  else if 0x200000 ≤ off ∧ off < 0x200020 then .eq (off - 0x200000)
  else if off = 0x300000 then .mctrl
  else if off = 0x300008 then .mstatus
  else if 0x300020 ≤ off ∧ off < 0x300040 then .nonce ((off - 0x300020) / 8)
  else if 0x301000 ≤ off ∧ off < 0x302000 then .report ((off - 0x301000) / 8)
  else if 0x400000 ≤ off ∧ off < 0x500000 then .errcnt ((off - 0x400000) / 8)
  else if 0x500000 ≤ off ∧ off < 0x600000 then .pwr ((off - 0x500000) / 8)
  else .none

/-- What a function's BAR0 shows: all of it for the PF (f = 0); for VF k = f - 1 the contexts and the block of its partition,
its WINBASE, ID and CLAVAIL. -/
def State.shows (s : State) (f : FnId) (r : Reg) : Bool :=
  f == 0 || match r with
    | .id => true
    | .winbase => true
    | .clavail => true
    | .ctx x _ => (s.ctx x).part.val + 1 == f.val
    | .part k _ => k.val + 1 == f.val
    | _ => false

/-- CSTATE as Table 24-4 numbers it. -/
def CState.num : CState → Nat
  | .idle => 0 | .running => 1 | .preempted => 2 | .halted => 3 | .draining => 4

def Ctl.gstat (c : Ctl) : DWord :=
  BitVec.ofNat 64 ((if c.cmdErr then 2 ^ 16 else 0) + c.failed.toNat * 2 ^ 8 + c.state.toNat)

/-- A register of a context block. START, KICK and CMD are written; they read as zero (log 56). -/
def Ctx.reg (c : Ctx) (r : Nat) : DWord :=
  if r = 0x00 then BitVec.ofNat 64 ((if c.debug then 2 ^ 7 else 0) + c.part.val * 2 ^ 4 + c.prio.val)
  else if r = 0x08 then c.rootpt
  else if r = 0x10 then BitVec.ofNat 64 (c.preempt.toNat * 2 ^ 32 + c.drain.toNat)
  else if r = 0x18 then BitVec.ofNat 64 (c.scoreUnits.toNat * 2 ^ 32 + c.spillUnits.toNat)
  else if r = 0x20 then c.csb
  else if r = 0x40 then BitVec.ofNat 64 c.cstate.num
  else 0

/-- A register of a partition block: mask, four pairs of base and size in frames, cap (log 56). -/
def PartBlk.reg (b : PartBlk) (r : Nat) : DWord :=
  if r = 0 then b.mask
  else if r < 0x48 then
    let p := b.ranges.getD ((r - 8) / 16) (0, 0)
    BitVec.ofNat 64 (if r % 16 = 8 then p.1 else p.2)
  else if r = 0x48 then b.cap
  else 0

/-- Corrected errors: words 0 to 383 count the cores, words 384 to 399 the stacks, 2 · die + stack (log 56). -/
def State.errCount (s : State) (k : Nat) : Nat :=
  if k < 384 then (s.core k).corrected else if k < 400 then (s.die ((k - 384) / 2)).corrected.get 0 (k % 2) else 0

/-- The word at a byte of a list. -/
def wordOf (l : List Byte) (k : Nat) : DWord := BitVec.ofNat 64 (leNat ((l.drop (8 * k)).take 8))

/-- PWR: three words for each die: the clock steps of its clusters, four bits each, its power in watts, and its temperature in °C, as
last measured (log 131). -/
def State.powerWord (s : State) (k : Nat) : DWord :=
  let d := k / 3
  if 8 ≤ d then 0
  else if k % 3 = 0 then BitVec.ofNat 64 (((List.range 8).map fun j => (s.cluster (8 * d + j)).step.val * 16 ^ j).sum)
  else if k % 3 = 1 then BitVec.ofNat 64 (s.die d).watts
  else BitVec.ofNat 64 (s.die d).celsius

/-- What a read of a register returns (R427); registers that are hidden or only written read as zero. -/
def State.regRead (s : State) (f : FnId) (off : Nat) : DWord :=
  let c := s.ctl
  if !s.shows f (hostReg off) then 0
  else match hostReg off with
    | .id => BitVec.ofNat 64 (0x4B38 * 2 ^ 32 + Config.revision.toNat * 2 ^ 16) ||| (Config.firmwareVersion.setWidth 16).setWidth 64
    | .gstat => c.gstat
    | .winbase => c.winbase.get 0 f
    | .clavail => s.available
    | .ctx x r => (s.ctx x).reg r
    | .part k r => (s.partBlk k).reg r
    | .eq r => if r = 0 then c.eqBase else if r = 8 then c.eqSize else if r = 0x10 then c.eqHead else c.eqTail
    | .mstatus => BitVec.ofNat 64 (c.mboxLeaf.toNat * 2 ^ 32 + c.mboxCode.toNat * 2 ^ 8 + c.mboxState.toNat)
    | .nonce k => wordOf c.nonce k
    | .report k => wordOf c.report k
    | .errcnt k => BitVec.ofNat 64 (s.errCount k)
    | .pwr k => s.powerWord k
    | .mctrl => 0
    | .none => 0

/-- A malformed or refused write (Table 24-3). -/
def State.refuse (s : State) : State := { s with ctl := { s.ctl with cmdErr := true } }

/-- Reading GSTAT clears CMDERR. A VF's BAR0 does not show it. -/
def execGstatRead (f : FnId) (s : State) : Host.Outcome State Fault Refusal :=
  let s1 := { s with hostData := leBytes 8 (s.regRead f 8).toNat }
  .next (if f = 0 then { s1 with ctl := { s.ctl with cmdErr := false } } else s1)

/-! ## BAR2 (R425) -/

/-- The size of a function's BAR2 (Table 24-1). -/
def State.barOf (s : State) (f : FnId) : Nat := s.ctl.barSize.get (2 ^ 41) f

/-- The device key of a byte of a function's window; none where the function reaches nothing. -/
def State.barByte (s : State) (f : FnId) (off : Nat) : Option Nat :=
  let pa := (s.ctl.winbase.get 0 f).toNat + off
  let mine := f == 0 || (s.partBlk (f.val - 1)).ranges.any fun r => r.1 ≤ pa / 2 ^ 16 && pa / 2 ^ 16 < r.1 + r.2
  if off < s.barOf f ∧ pa < 1536 * 2 ^ 30 ∧ mine then some pa else none

/-- The context in whose scoresheet's area a physical address lies, and the offset there (R402; where the area stands is a free value:
log 155). -/
def State.sheetAt (s : State) (pa : Nat) : Option (CtxId × Nat) :=
  (List.finRange 64).findSome? fun (x : CtxId) =>
    let n := (s.ctx x).scoreUnits.toNat
    if n = 0 then none
    else
      let a := Config.scoreFrame x * 2 ^ 16
      if a ≤ pa ∧ pa < a + n * 2 ^ 16 then some (x, pa - a) else none

/-- A byte of device memory by physical address, as the host sees it. -/
def State.deviceByte (s : State) (pa : Nat) : Byte :=
  match s.sheetAt pa with
  | some (x, o) => (s.ctx x).sheet.get unwritten o
  | none => s.mem.get unwritten pa

/-- A byte of a scoresheet is changed: its records are what then stands below the write position. -/
def Ctx.writeSheet (c : Ctx) (off : Nat) (b : Byte) : Ctx :=
  let m := c.sheet.set unwritten off b
  { c with sheet := m, score := readScores m c.scorePos (c.scorePos / 32) 0 }

/-- The host changes a byte of device memory. -/
def State.setDeviceByte (s : State) (pa : Nat) (b : Byte) : State :=
  match s.sheetAt pa with
  | some (x, o) => s.setCtx x ((s.ctx x).writeSheet o b)
  | none => { s with mem := s.mem.set unwritten pa b }

/-- A host read returns the committed copy. -/
def execBar2Read (f : FnId) (off len : Nat) (s : State) : Host.Outcome State Fault Refusal :=
  .next { s with hostData := (List.range len).map fun k =>
    match s.barByte f (off + k) with | some a => s.deviceByte a | none => 0 }

/-- A host write changes the committed copy, outside the step model; a sector that it writes whole is good again (R377). -/
def execBar2Write (f : FnId) (off : Nat) (bytes : List Byte) (s : State) : Host.Outcome State Fault Refusal :=
  let l := bytes.zipIdx.filterMap fun b => (s.barByte f (off + b.2)).map fun a => (a, b.1)
  let s := l.foldl (fun s e => s.setDeviceByte e.1 e.2) s
  .next { s with badSectors := s.badSectors.filter fun q => !(List.range 64).all fun k => l.any fun e => e.1 == 64 * q + k }

/-! ## Contexts and commands (R428, Table 24-9) -/

/-- A graph starts: the device has come up (R430, log 88), and CSTATE is 0. -/
def State.startGraph (s : State) (x : CtxId) (node : DWord) : State :=
  let c := s.ctx x
  if s.ctl.state = 0 ∨ s.ctl.state = 0xF ∨ s.ctl.bring ≠ none ∨ c.cstate ≠ .idle then s.refuse
  else s.setCtx x { c with cstate := .running, walk := .visit node, iters := [], stale := false }

/-- System software has loaded what the windows of some kernels hold at first (R30), and starts the graph. -/
def execStart (x : CtxId) (g : GraphStart) (s : State) : Host.Outcome State Fault Refusal :=
  let old := s.windows.filter fun w => !(w.1 == x && g.kernels.any fun k => k.code == w.2.code)
  .next ({ s with windows := old ++ g.kernels.map fun k => (x, k) }.startGraph x g.node)

/-- A KICK wakes the AWAIT node that the walker stands at: its word is read next. -/
def State.wake (s : State) (x : CtxId) : State := { s with agenda := .event (.awaitPoll x) :: s.agenda }

def execKick (x : CtxId) (s : State) : Host.Outcome State Fault Refusal := .next (s.wake x)

/-- The cores of a context's groups are halted, or go on. -/
def State.haltCores (s : State) (x : CtxId) (on : Bool) : State :=
  ((s.clustersOf x none).flatMap s.groupCores).foldl (fun s k => s.setCore k { s.core k with halted := on }) s

/-- Command 1. The drain deadline pauses (R396). -/
def State.cmdHalt (s : State) (x : CtxId) : State :=
  let c := s.ctx x
  match c.cstate with
  | .running => (s.setCtx x { c with cstate := .halted, before := .running }).haltCores x true
  | .draining =>
    (s.setCtx x { c with cstate := .halted, before := .draining, drainRun := c.drainRun + (s.clock - c.drainStart) }).haltCores x true
  | .halted => s
  | _ => s.refuse

/-- Command 2. -/
def State.cmdResume (s : State) (x : CtxId) : State :=
  let c := s.ctx x
  match c.cstate with
  | .preempted => (s.setCtx x { c with cstate := .running }).markWaits
  | .halted => (((s.setCtx x { c with cstate := c.before, drainStart := s.clock }).haltCores x false).endDrain x).restCtx x
  | _ => s.refuse

/-- Command 3. -/
def State.cmdAbort (s : State) (x : CtxId) : State := if (s.ctx x).cstate = .idle then s.refuse else s.abortCtx x

/-- Command 4. -/
def State.cmdPreempt (s : State) (x : CtxId) : State :=
  match (s.ctx x).cstate with
  | .running => s.preempt x
  | .draining => s
  | _ => s.refuse

/-- Commands 5, 6 and 7 are done only while the context is idle or pre-empted. -/
def State.atRest (s : State) (x : CtxId) (f : Ctx → State) : State :=
  match (s.ctx x).cstate with
  | .idle => f (s.ctx x)
  | .preempted => f (s.ctx x)
  | _ => s.refuse

def State.cmdInvalidate (s : State) (x : CtxId) : State :=
  s.atRest x fun _ => { s with
    clusters := s.clusters.map fun e => (e.1, { e.2 with tlb := e.2.tlb.filter fun t => t.1 != x })
    cores := s.cores.map fun e => (e.1, { e.2 with utlb := e.2.utlb.filter fun t => t.1 != x }) }

/-- Replay mode. The phases that follow take their numbers from the start of the scoresheet again, so that each runs against its
records; afterwards numbers go on beyond the records (log 55). -/
def State.setReplay (s : State) (x : CtxId) (on : Bool) : State :=
  s.atRest x fun c =>
    let beyond := c.score.foldl (fun (n : BitVec 32) r => if n.toNat ≤ r.phase.toNat then r.phase + 1 else n) c.nextPhase
    let next := if !c.phases.isEmpty || on == c.replay then c.nextPhase else if on then 0 else beyond
    s.setCtx x { c with replay := on, nextPhase := next, score := c.score.map fun r => { r with used := false } }

def execCmdHalt (x : CtxId) (s : State) : Host.Outcome State Fault Refusal := .next (s.cmdHalt x)
def execCmdResume (x : CtxId) (s : State) : Host.Outcome State Fault Refusal := .next (s.cmdResume x)
def execCmdAbort (x : CtxId) (s : State) : Host.Outcome State Fault Refusal := .next (s.cmdAbort x)
def execCmdPreempt (x : CtxId) (s : State) : Host.Outcome State Fault Refusal := .next (s.cmdPreempt x)
def execCmdInvalidate (x : CtxId) (s : State) : Host.Outcome State Fault Refusal := .next (s.cmdInvalidate x)
def execCmdReplayOn (x : CtxId) (s : State) : Host.Outcome State Fault Refusal := .next (s.setReplay x true)
def execCmdReplayOff (x : CtxId) (s : State) : Host.Outcome State Fault Refusal := .next (s.setReplay x false)

/-- A CMD write. -/
def State.command (s : State) (x : CtxId) (n : DWord) : State :=
  if n = 1 then s.cmdHalt x
  else if n = 2 then s.cmdResume x
  else if n = 3 then s.cmdAbort x
  else if n = 4 then s.cmdPreempt x
  else if n = 5 then s.cmdInvalidate x
  else if n = 6 then s.setReplay x true
  else if n = 7 then s.setReplay x false
  else s.refuse

/-! ## Attestation (R432 to R434) -/

/-- A report without its signature (Table 24-8). -/
def Ctl.signedPart (c : Ctl) (nonce : List Byte) : List Byte :=
  ((nonce ++ List.replicate 32 0).take 32) ++ c.meas.flatten ++ leBytes 16 Config.serial.toNat ++
    leBytes 8 Config.firmwareVersion.toNat ++ leBytes 4 c.leaf ++ leBytes 4 2820

/-- A report: its signature begins with the leaf index. -/
def Ctl.makeReport (c : Ctl) (nonce : List Byte) : List Byte :=
  let l := c.signedPart nonce
  l ++ leBytes 4 c.leaf ++ (List.range 2816).map fun k => Config.signatureByte c.leaf l (k + 4)

/-- A submitted nonce: refused while busy, and once the leaf indices are used up. -/
def State.attest (s : State) : State :=
  let c := s.ctl
  { s with ctl :=
    if c.mboxState = 1 then { c with mboxCode := 1 }
    else if 2 ^ 20 ≤ c.leaf then { c with mboxCode := 2, mboxState := 2 }
    else { c with mboxState := 1, requests := c.requests ++ [(.host, c.nonce)] } }

def execAttestSubmit (s : State) : Host.Outcome State Fault Refusal := .next s.attest

/-- The packets of an answer to a peer: the code, with the report in parts that a packet carries (R440, log 160). -/
def answerParts (code : BitVec 8) (report : List Byte) : List FabBody :=
  if report.isEmpty then [.attested code 0 []]
  else (List.range ((report.length + 127) / 128)).map fun k => .attested code (128 * k) ((report.drop (128 * k)).take 128)

/-- An answer leaves for a peer, on the CTL flow to it (R433, R441). -/
def State.answerPeer (s : State) (pkg : Fin 1024) (code : BitVec 8) (report : List Byte) : State :=
  (answerParts code report).foldl (fun s b => s.toPackage 0 pkg b)
    { s with ctl := { s.ctl with sent := s.ctl.sent ++ [{ pkg := pkg, code := code, report := report }] } }

/-- R434: a request of a peer that CTL has delivered; one of the host in the same clock is served first. -/
def execPeerAttestRequest (pkg : Fin 1024) (q : PeerRequest) (s : State) : Host.Outcome State Fault Refusal :=
  let s := if q.withHost then s.attest else s
  .next (match s.fab.asks.find? fun e => e.1 == pkg with
    | none => s
    | some e =>
      let s := { s with fab := { s.fab with asks := s.fab.asks.erase e } }
      if 2 ^ 20 ≤ s.ctl.leaf then s.answerPeer pkg 2 []
      else { s with ctl := { s.ctl with requests := s.ctl.requests ++ [(.peer pkg, e.2)] } })

/-- An answer reaches its requester. -/
def State.answered (s : State) (r : Requester) (code : BitVec 8) (leaf : Nat) (report : List Byte) : State :=
  match r with
  | .host =>
    if code = 0 then { s with ctl := { s.ctl with mboxLeaf := BitVec.ofNat 32 leaf, mboxCode := 0, mboxState := 2, report := report } }
    else { s with ctl := { s.ctl with mboxCode := code, mboxState := 2 } }
  | .peer p => s.answerPeer p code report

/-- The first request is served: the counter advances before the signature leaves, or nothing leaves. -/
def execAttestReportDone (committed : Bool) (s : State) : Host.Outcome State Fault Refusal :=
  let c := s.ctl
  .next (match c.requests with
    | [] => s
    | (r, nonce) :: rest =>
      let d := { c with requests := rest }
      if 2 ^ 20 ≤ c.leaf then { s with ctl := d }.answered r 2 c.leaf []
      else if !committed then { s with ctl := d }.answered r 3 c.leaf []
      else { s with ctl := { d with leaf := c.leaf + 1 } }.answered r 0 c.leaf (c.makeReport nonce))

/-! ## Register writes (R427, R428) -/

/-- A write to a context block. -/
def State.writeCtxReg (s : State) (x : CtxId) (r : Nat) (v : DWord) : State :=
  let c := s.ctx x
  if r = 0x28 then s.startGraph x v
  else if r = 0x30 then s.wake x
  else if r = 0x38 then s.command x v
  else if r ≤ 0x20 then
    if c.cstate ≠ .idle then s.refuse
    else if r = 0x00 then
      if bits v 63 8 ≠ 0 ∨ bits v 3 2 ≠ 0 then s.refuse
      else s.setCtx x { c with debug := v.getLsbD 7, part := Fin.ofNat 8 (bits v 6 4), prio := Fin.ofNat 4 (bits v 1 0) }
    else if r = 0x08 then s.setCtx x { c with rootpt := v }
    else if r = 0x10 then
      if bits v 31 0 = 0 then s.refuse
      else s.setCtx x { c with preempt := BitVec.ofNat 32 (bits v 63 32), drain := BitVec.ofNat 32 (bits v 31 0) }
    else if r = 0x18 then s.setCtx x { c with scoreUnits := BitVec.ofNat 32 (bits v 63 32), spillUnits := BitVec.ofNat 32 (bits v 31 0) }
    else if r = 0x20 then (if bits v 15 0 ≠ 0 then s.refuse else s.setCtx x { c with csb := v })
    else s
  else s

/-- A write to a partition block. -/
def PartBlk.put (b : PartBlk) (r : Nat) (v : DWord) : PartBlk :=
  if r = 0 then { b with mask := v }
  else if r < 0x48 then
    let i := (r - 8) / 16
    let four := (List.range 4).map fun k => b.ranges.getD k (0, 0)
    { b with ranges := four.modify i fun p => if r % 16 = 8 then (v.toNat, p.2) else (p.1, v.toNat) }
  else if r = 0x48 then { b with cap := v }
  else b

/-- A write to the event queue's registers; a new base or size starts it anew (log 56). -/
def State.writeEq (s : State) (r : Nat) (v : DWord) : State :=
  let c := s.ctl
  if r = 0 then { s with ctl := { c with eqBase := v, eqTail := 0, eqPhase := false } }
  else if r = 8 then
    if v.toNat < 64 ∨ 2 ^ 20 < v.toNat ∨ v &&& (v - 1) ≠ 0 then s.refuse
    else { s with ctl := { c with eqSize := v, eqTail := 0, eqPhase := false } }
  else if r = 0x10 then
    if c.eqSize.toNat ≤ v.toNat then s.refuse else { s with ctl := { c with eqHead := v } }
  else s

/-- A write to a register that a function shows. A VF may not write its partition block; read-only registers ignore writes. -/
def State.writeReg (s : State) (f : FnId) (r : Reg) (v : DWord) : State :=
  let c := s.ctl
  match r with
  | .winbase => if v.toNat % s.barOf f ≠ 0 then s.refuse else { s with ctl := { c with winbase := c.winbase.set 0 f v } }
  | .ctx x o => s.writeCtxReg x o v
  | .part k o => if f = 0 then (s.setPart k ((s.partBlk k).put o v)).markWaits else s
  | .eq o => s.writeEq o v
  | .mctrl => if v = 1 then s.attest else s.refuse
  | .nonce k => { s with ctl := { c with nonce := c.nonce.take (8 * k) ++ leBytes 8 v.toNat ++ c.nonce.drop (8 * k + 8) } }
  | _ => s

/-- R427: registers are written as aligned words of 8 bytes. -/
def execRegisterWrite (f : FnId) (off size : Nat) (val : DWord) (s : State) : Host.Outcome State Fault Refusal :=
  .next (
    if size ≠ 8 ∨ off % 8 ≠ 0 then s.refuse
    else if s.shows f (hostReg off) then s.writeReg f (hostReg off) val
    else s)

/-! ## Bring-up (R430, R431, R2) -/

/-- Bring-up stops at a stage. -/
def State.bringUpFails (s : State) (stage : Nat) : State :=
  { s with ctl := { s.ctl with state := 0xF, failed := BitVec.ofNat 8 stage, bring := none } }

/-- An image is measured into its register. -/
def Ctl.measure (c : Ctl) (k : Nat) (image : List Byte) : Ctl :=
  { c with meas := c.meas.modify k fun m => shake512 (m ++ shake512 image) }

/-- Images k to 4 in order (Table 24-6); the boot ROM stops at one that does not verify. -/
def State.boot (s : State) : (images : List Nat) → State × Bool
  | [] => (s, true)
  | k :: r =>
    if Config.imageVerifies k (Config.image k) then { s with ctl := s.ctl.measure k (Config.image k) }.boot r else (s, false)

/-- R2, R266: the spares of a die go to its clusters in ascending order; a cluster whose failed cores they cannot all replace
is unavailable. -/
def State.mapDie (s : State) (occasion d : Nat) : State :=
  let bad (k : Nat) : Bool := (s.core k).removed || Config.coreFails occasion k
  (List.range 8).foldl (fun (s : State) c =>
    let cl := 8 * d + c
    let cores := (List.range 6).map (coreIn cl)
    let n := (cores.filter bad).length
    let x := s.die d
    if x.dead + n ≤ 2 then
      cores.foldl (fun s k => s.setCore k { s.core k with removed := false }) (s.setDie d { x with dead := x.dead + n })
    else
      let s := cores.foldl (fun s k => s.setCore k { s.core k with removed := bad k }) s
      { s with ctl := { s.ctl with claVail := s.ctl.claVail &&& ~~~ (1#64 <<< cl) } }) s

/-- The links of the package network, by their lower ends. -/
def allLinks : List (Nat × Nat) :=
  ((List.range 32).flatMap fun e => (List.range 8).map fun p => (e, p)) ++
    ((List.range 32).flatMap fun m => (List.range 8).map fun p => (32 + m, 4 + p)) ++ (List.range 8).map fun k => (64 + k, 32)

/-- R414: the boot tree, of the links that work; a cluster that it cannot reach takes no groups. -/
def State.bootTree (s : State) (occasion : Nat) : State :=
  let bad := allLinks.filter (Config.linkFails occasion)
  { s with net := { s.net with failed := bad, draining := true } }.retree

/-- Ready: partition 0 owns the available clusters (R381), and the domain configuration is in force. -/
def State.ready (s : State) : State :=
  { s.setPart 0 { PartBlk.all with mask := s.available } with
    ctl := { s.ctl with state := 5, bring := none, pkg := Config.packageNumber
                        members := (List.finRange 1024).filter fun k => Config.inDomain k || k == Config.packageNumber } }

/-- The network tree stands: it reaches a leaf of every die (R1, R430, log 159). -/
def Net.stands (n : Net) : Bool :=
  (List.range 8).all fun d => (List.range 16).any fun k => n.reachesLeaf (Fin.ofNat 129 (16 * d + k))

/-- The device is at a stage of Table 24-5, if it has come so far. -/
def State.atStage (s : State) (passed : Bool) (stage : Nat) : State :=
  if passed then { s with ctl := { s.ctl with state := BitVec.ofNat 4 (stage + 1) } } else s.bringUpFails stage

/-- The boot ROM: the first of the states of Table 24-5. -/
def State.bringUp (s : State) : State :=
  let r := s.bump.boot (List.range 5)
  { r.1 with ctl := { r.1.ctl with bring := some s.free } }.atStage r.2 0

/-- The stage of Table 24-5 at which the device stands: it leads to the next, or to the failure of the bring-up. -/
def State.bringOn (s : State) : State :=
  match s.ctl.bring with
  | none => s
  | some t =>
    let k := s.ctl.state.toNat
    if k < 3 then s.atStage (Config.stagePasses t k) k
    else if k = 3 then ((List.range 8).foldl (fun (s : State) d => s.mapDie t d) s).atStage (Config.stagePasses t 3) 3
    else
      let s := s.bootTree t
      if Config.stagePasses t 4 && s.net.stands then s.ready else s.bringUpFails 4

/-- Table 20-4: the slices of a die that are removed: those removed before, and those that have failed twice in one context. -/
def DieSt.lostSlices (x : DieSt) : List (Fin 8) :=
  (List.finRange 8).filter fun k =>
    x.removed.contains k || x.sliceFails.any fun e => e.1 == k && 1 < (x.sliceFails.filter fun y => y == e).length

/-- The machine at its reset, where the clock count starts (R245), with what outlives it: host memory, the counter on the module, what
system software has loaded, and, for the coming bring-up, the cores that were replaced or removed and the slices that are removed. -/
def State.restart (s : State) : State :=
  let r := State.reset
  let dead := (s.dies.map fun e =>
    (e.1, { DieSt.idle with dead := e.2.dead, removed := e.2.lostSlices })).filter fun e => e.2 != DieSt.idle
  let gone := (s.cores.filter fun e => e.2.removed).map fun e => (e.1, { CoreSt.idle with removed := true })
  { r with
    agenda := s.agenda, free := s.free, seq := s.seq, host := s.host, windows := s.windows
    dies := dead, cores := gone, ctl := { r.ctl with leaf := s.ctl.leaf, barSize := s.ctl.barSize } }

/-- The host gives the BAR2 of each function a size of its own (Table 24-1): free values. -/
def State.sizeBars (s : State) (n : Nat → Fin 12) : State :=
  { s with ctl := { s.ctl with
      barSize := (List.finRange 9).foldl (fun m (f : FnId) => m.set (2 ^ 41) f (2 ^ (30 + (n f).val))) s.ctl.barSize } }

/-- R430: reset, and the boot ROM runs. -/
def execReset (s : State) : Host.Outcome State Fault Refusal := .next (s.bump.restart.sizeBars (Config.bar2Size s.free)).bringUp

/-- Power is lost: of the device the committed counter is kept (R432), and a failed core stays failed (R266). -/
def execPowerLoss (s : State) : Host.Outcome State Fault Refusal := .next s.restart

/-! ## Power and temperature (R435, R436) -/

/-- The clusters of a partition. -/
def PartBlk.clusters (b : PartBlk) : List Nat := (List.range 64).filter fun k => b.mask.getLsbD k

/-- The clock of a cluster moves by one step of 50 MHz between 1.00 GHz (0) and 1.75 GHz (15). -/
def State.stepClock (s : State) (cl : Nat) (up : Bool) : State :=
  let x := s.cluster cl
  s.setCluster cl { x with step := if up then Fin.ofNat 16 (Nat.min 15 (x.step.val + 1)) else Fin.ofNat 16 (x.step.val - 1) }

/-- The readings of the dies. -/
def State.measured (s : State) (readings : List (Nat × Nat)) : State :=
  (readings.zipIdx.take 8).foldl (fun (s : State) r => s.setDie r.2 { s.die r.2 with watts := r.1.1, celsius := r.1.2 }) s

/-- Clusters of hot dies that no partition owns: they step down in partition 0's interval (log 132). -/
def State.ownerless (s : State) (part : Fin 8) : List Nat :=
  if part ≠ 0 then []
  else (List.range 64).filter fun cl => (s.die (cl / 8)).hot && (List.range 8).all fun k => !(s.partBlk k).mask.getLsbD cl

/-- One interval of a partition (R435, R436). -/
def execPowerInterval (part : Fin 8) (r : PowerReading) (s : State) : Host.Outcome State Fault Refusal :=
  let s := s.measured r.dies
  let b := s.partBlk part
  let s := (s.ownerless part).foldl (fun s cl => s.stepClock cl false) s
  .next (b.clusters.foldl (fun (s : State) cl =>
    if b.cap.toNat < r.watts ∨ (s.die (cl / 8)).hot then s.stepClock cl false
    else if r.watts * 100 < b.cap.toNat * 95 then s.stepClock cl true
    else s) s)

/-- A thermal event; the manual gives it neither context nor arguments. -/
def State.thermalEvent (s : State) : State := s.bump.postEvent (Config.eventCtx s.free) 10 0 none none

/-- A die rises above 95 °C, or has fallen below. -/
def execThermalThrottle (d : DieId) (hot : Bool) (s : State) : Host.Outcome State Fault Refusal :=
  let x := s.die d
  .next (
    if hot then (if x.hot then s else (s.setDie d { x with hot := true }).thermalEvent)
    else s.setDie d { x with hot := false })

/-- A die reaches 105 °C: every group is killed, every phase discarded, and the device waits at STATE 4. A commit in the same clock
wins. -/
def execThermalCritical (t : CriticalTrip) (s : State) : Host.Outcome State Fault Refusal :=
  let s := t.commits.foldl (fun s c => s.commitIfDue c.1 c.2) s
  let x := s.die t.die
  .next (
    if s.ctl.state ≠ 5 ∧ s.ctl.state ≠ 4 then s
    else
      let s := (s.setDie t.die { x with hot := true })
      let s := { s with ctl := { s.ctl with state := 4 } }
      ((List.finRange 64).foldl (fun (s : State) (k : CtxId) =>
        ((s.ctx k).phases.reverse.map Phase.num).foldl (fun s n => s.failPhase k n) s) s).thermalEvent)

/-- R436: every die has fallen below 95 °C, and the device is ready again. -/
def execThermalRecovery (s : State) : Host.Outcome State Fault Refusal :=
  .next (if s.ctl.state = 4 ∧ s.ctl.bring = none ∧ (s.dies.all fun e => !e.2.hot) then { s with ctl := { s.ctl with state := 5 } } else s)

end Sys2Proof.Machine
end

