-- ==== Sys2Proof/Machine/Mask.lean ====
section
/-! DEFINITION. The mask group G2 (05, R132, R133). -/
namespace Sys2Proof.Machine

/-- A mask instruction: the bits of the active slots of md take the bits of `g`. -/
def State.mop (s : State) (msk d : MReg) (g : Team → MaskBits) : State :=
  let t := s.tm
  let x := t.exec msk
  let t' := if x = 0 then t else t.setM d ((t.m[d] &&& ~~~x) ||| (g t &&& x))
  s.putTm { t' with pc := t.pc + 8 }

def execMand (o : MBin) (s : State) : Host.Outcome State Fault Refusal :=
  .next (s.mop o.msk o.d fun t => t.m[o.a] &&& t.m[o.b])
def execMor (o : MBin) (s : State) : Host.Outcome State Fault Refusal :=
  .next (s.mop o.msk o.d fun t => t.m[o.a] ||| t.m[o.b])
def execMxor (o : MBin) (s : State) : Host.Outcome State Fault Refusal :=
  .next (s.mop o.msk o.d fun t => t.m[o.a] ^^^ t.m[o.b])
def execMnot (o : MUn) (s : State) : Host.Outcome State Fault Refusal :=
  .next (s.mop o.msk o.d fun t => ~~~t.m[o.a])
def execMandn (o : MBin) (s : State) : Host.Outcome State Fault Refusal :=
  .next (s.mop o.msk o.d fun t => t.m[o.a] &&& ~~~t.m[o.b])
def execMset (o : MSet) (s : State) : Host.Outcome State Fault Refusal :=
  .next (s.mop o.msk o.d fun _ => if o.val then BitVec.allOnes 1024 else 0)

/-- A bit of md is set where the raw element of va is not zero. -/
def execMfrom (o : MFrom) (s : State) : Host.Outcome State Fault Refusal :=
  let t := s.tm
  .next (s.perSlot 8 o.msk (.ok .none) (fun _ => [(o.a.val, false)]) [] (fun _ => [])
    fun _ act => { len := 8, outs := act.map fun i => (i, { bits := [(o.d, t.rd o.a i != 0)] }) })

def execMto (o : MTo) (s : State) : Host.Outcome State Fault Refusal :=
  let t := s.tm
  .next (s.perSlot 8 o.msk (.ok .none) (fun _ => []) [] (fun _ => [(o.d.val, false)])
    fun _ act =>
      { len := 8
        outs := act.map fun i =>
          (i, { vals := [(o.d.val, if t.m[o.a].getLsbD i then (if o.ones then BitVec.allOnes 32 else 1) else 0)] })
        tags := [(o.d, .i32)] })

/-- R133: these two write also when `exec` is empty; a write supersedes a pending value (R134). -/
def State.mcount (s : State) (d : UReg) (x : Team → DWord) : State :=
  let t := s.tm
  s.putTm (({ t with pc := t.pc + 8 }.supersedeU d).setS d (x t))

def execMcnt (o : MCount) (s : State) : Host.Outcome State Fault Refusal :=
  .next (s.mcount o.d fun t => BitVec.ofNat 64 (t.count (t.m[o.a] &&& t.exec o.msk)))

def execMfirst (o : MCount) (s : State) : Host.Outcome State Fault Refusal :=
  .next (s.mcount o.d fun t => match t.lanes (t.m[o.a] &&& t.exec o.msk) with
    | [] => BitVec.allOnes 64
    | i :: _ => BitVec.ofNat 64 i)

end Sys2Proof.Machine
end

