-- ==== Sys2Proof/Machine/Dispatch.lean ====
section
/-! DEFINITION. One arm per constructor of Instr, each one call of its meaning. -/
namespace Sys2Proof.Machine

def exec (i : Instr) (s : State) : Host.Outcome State Fault Refusal :=
  match i with
  | .nop => Sys2Proof.Machine.execNop s
  | .nop96 => Sys2Proof.Machine.execNop96 s
  | .nop128 => Sys2Proof.Machine.execNop128 s
  | .br o => Sys2Proof.Machine.execBr o s
  | .bq o => Sys2Proof.Machine.execBq o s
  | .brd o => Sys2Proof.Machine.execBrd o s
  | .join o => Sys2Proof.Machine.execJoin o s
  | .call o => Sys2Proof.Machine.execCall o s
  | .ret o => Sys2Proof.Machine.execRet o s
  | .jmpi o => Sys2Proof.Machine.execJmpi o s
  | .loop o => Sys2Proof.Machine.execLoop o s
  | .rejoin o => Sys2Proof.Machine.execRejoin o s
  | .exit o => Sys2Proof.Machine.execExit o s
  | .hpush o => Sys2Proof.Machine.execHpush o s
  | .hpop o => Sys2Proof.Machine.execHpop o s
  | .perform o => Sys2Proof.Machine.execPerform o s
  | .resume o => Sys2Proof.Machine.execResume o s
  | .drop o => Sys2Proof.Machine.execDrop o s
  | .brk o => Sys2Proof.Machine.execBrk o s
  | .srd o => Sys2Proof.Machine.execSrd o s
  | .swr o => Sys2Proof.Machine.execSwr o s
  | .tmrd o => Sys2Proof.Machine.execTmrd o s
  | .add o => Sys2Proof.Machine.execAdd o s
  | .sub o => Sys2Proof.Machine.execSub o s
  | .mul o => Sys2Proof.Machine.execMul o s
  | .mulh o => Sys2Proof.Machine.execMulh o s
  | .mad o => Sys2Proof.Machine.execMad o s
  | .div o => Sys2Proof.Machine.execDiv o s
  | .rem o => Sys2Proof.Machine.execRem o s
  | .neg o => Sys2Proof.Machine.execNeg o s
  | .abs o => Sys2Proof.Machine.execAbs o s
  | .min o => Sys2Proof.Machine.execMin o s
  | .max o => Sys2Proof.Machine.execMax o s
  | .and o => Sys2Proof.Machine.execAnd o s
  | .or o => Sys2Proof.Machine.execOr o s
  | .xor o => Sys2Proof.Machine.execXor o s
  | .not o => Sys2Proof.Machine.execNot o s
  | .andn o => Sys2Proof.Machine.execAndn o s
  | .shl o => Sys2Proof.Machine.execShl o s
  | .shr o => Sys2Proof.Machine.execShr o s
  | .sar o => Sys2Proof.Machine.execSar o s
  | .rot o => Sys2Proof.Machine.execRot o s
  | .clz o => Sys2Proof.Machine.execClz o s
  | .ctz o => Sys2Proof.Machine.execCtz o s
  | .popc o => Sys2Proof.Machine.execPopc o s
  | .brev o => Sys2Proof.Machine.execBrev o s
  | .bfe o => Sys2Proof.Machine.execBfe o s
  | .bfi o => Sys2Proof.Machine.execBfi o s
  | .cmp o => Sys2Proof.Machine.execCmp o s
  | .sel o => Sys2Proof.Machine.execSel o s
  | .mov o => Sys2Proof.Machine.execMov o s
  | .movi o => Sys2Proof.Machine.execMovi o s
  | .addc o => Sys2Proof.Machine.execAddc o s
  | .cvti o => Sys2Proof.Machine.execCvti o s
  | .mand o => Sys2Proof.Machine.execMand o s
  | .mor o => Sys2Proof.Machine.execMor o s
  | .mxor o => Sys2Proof.Machine.execMxor o s
  | .mnot o => Sys2Proof.Machine.execMnot o s
  | .mandn o => Sys2Proof.Machine.execMandn o s
  | .mset o => Sys2Proof.Machine.execMset o s
  | .mfrom o => Sys2Proof.Machine.execMfrom o s
  | .mto o => Sys2Proof.Machine.execMto o s
  | .mcnt o => Sys2Proof.Machine.execMcnt o s
  | .mfirst o => Sys2Proof.Machine.execMfirst o s
  | .sadd o => Sys2Proof.Machine.execSadd o s
  | .ssub o => Sys2Proof.Machine.execSsub o s
  | .smul o => Sys2Proof.Machine.execSmul o s
  | .sdiv o => Sys2Proof.Machine.execSdiv o s
  | .sand o => Sys2Proof.Machine.execSand o s
  | .sor o => Sys2Proof.Machine.execSor o s
  | .sxor o => Sys2Proof.Machine.execSxor o s
  | .sshl o => Sys2Proof.Machine.execSshl o s
  | .sshr o => Sys2Proof.Machine.execSshr o s
  | .ssar o => Sys2Proof.Machine.execSsar o s
  | .smin o => Sys2Proof.Machine.execSmin o s
  | .smax o => Sys2Proof.Machine.execSmax o s
  | .scmp o => Sys2Proof.Machine.execScmp o s
  | .ssel o => Sys2Proof.Machine.execSsel o s
  | .smov o => Sys2Proof.Machine.execSmov o s
  | .sli o => Sys2Proof.Machine.execSli o s
  | .sbfe o => Sys2Proof.Machine.execSbfe o s
  | .sclz o => Sys2Proof.Machine.execSclz o s
  | .spopc o => Sys2Proof.Machine.execSpopc o s
  | .qop o => Sys2Proof.Machine.execQop o s
  | .fadd o => Sys2Proof.Machine.execFadd o s
  | .fsub o => Sys2Proof.Machine.execFsub o s
  | .fmul o => Sys2Proof.Machine.execFmul o s
  | .fma o => Sys2Proof.Machine.execFma o s
  | .fnma o => Sys2Proof.Machine.execFnma o s
  | .fdiv o => Sys2Proof.Machine.execFdiv o s
  | .fsqrt o => Sys2Proof.Machine.execFsqrt o s
  | .frcp o => Sys2Proof.Machine.execFrcp o s
  | .frsq o => Sys2Proof.Machine.execFrsq o s
  | .fmin o => Sys2Proof.Machine.execFmin o s
  | .fmax o => Sys2Proof.Machine.execFmax o s
  | .fabs o => Sys2Proof.Machine.execFabs o s
  | .fneg o => Sys2Proof.Machine.execFneg o s
  | .fcpsgn o => Sys2Proof.Machine.execFcpsgn o s
  | .fcmp o => Sys2Proof.Machine.execFcmp o s
  | .fclass o => Sys2Proof.Machine.execFclass o s
  | .frnd o => Sys2Proof.Machine.execFrnd o s
  | .fexpo o => Sys2Proof.Machine.execFexpo o s
  | .fscale o => Sys2Proof.Machine.execFscale o s
  | .fexp2 o => Sys2Proof.Machine.execFexp2 o s
  | .flog2 o => Sys2Proof.Machine.execFlog2 o s
  | .fsin o => Sys2Proof.Machine.execFsin o s
  | .fcos o => Sys2Proof.Machine.execFcos o s
  | .ftanh o => Sys2Proof.Machine.execFtanh o s
  | .fcvt o => Sys2Proof.Machine.execFcvt o s
  | .fcvti o => Sys2Proof.Machine.execFcvti o s
  | .fpack o => Sys2Proof.Machine.execFpack o s
  | .smxi o => Sys2Proof.Machine.execSmxi o s
  | .smxf o => Sys2Proof.Machine.execSmxf o s
  | .ld o => Sys2Proof.Machine.execLd o s
  | .st o => Sys2Proof.Machine.execSt o s
  | .ldu o => Sys2Proof.Machine.execLdu o s
  | .claim o => Sys2Proof.Machine.execClaim o s
  | .pf o => Sys2Proof.Machine.execPf o s
  | .ldt o => Sys2Proof.Machine.execLdt o s
  | .vget o => Sys2Proof.Machine.execVget o s
  | .vpost o => Sys2Proof.Machine.execVpost o s
  | .vbcast o => Sys2Proof.Machine.execVbcast o s
  | .vlti o => Sys2Proof.Machine.execVlti o s
  | .vslot o => Sys2Proof.Machine.execVslot o s
  | .vred o => Sys2Proof.Machine.execVred o s
  | .vscan o => Sys2Proof.Machine.execVscan o s
  | .vargmin o => Sys2Proof.Machine.execVargmin o s
  | .vargmax o => Sys2Proof.Machine.execVargmax o s
  | .vballot o => Sys2Proof.Machine.execVballot o s
  | .vpopc o => Sys2Proof.Machine.execVpopc o s
  | .vfirst o => Sys2Proof.Machine.execVfirst o s
  | .vcompact o => Sys2Proof.Machine.execVcompact o s
  | .vsort o => Sys2Proof.Machine.execVsort o s
  | .step o => Sys2Proof.Machine.execStep o s
  | .cpy o => Sys2Proof.Machine.execCpy o s
  | .cpyg o => Sys2Proof.Machine.execCpyg o s
  | .cpys o => Sys2Proof.Machine.execCpys o s
  | .cpy2d o => Sys2Proof.Machine.execCpy2d o s
  | .cpyf o => Sys2Proof.Machine.execCpyf o s
  | .mcast o => Sys2Proof.Machine.execMcast o s
  | .mshape o => Sys2Proof.Machine.execMshape o s
  | .mwin o => Sys2Proof.Machine.execMwin o s
  | .mzero o => Sys2Proof.Machine.execMzero o s
  | .mmul o => Sys2Proof.Machine.execMmul o s
  | .mloop o => Sys2Proof.Machine.execMloop o s
  | .mrd o => Sys2Proof.Machine.execMrd o s
  | .mwr o => Sys2Proof.Machine.execMwr o s
  | .mcomp o => Sys2Proof.Machine.execMcomp o s
  | .msplit o => Sys2Proof.Machine.execMsplit o s
  | .mrecomb o => Sys2Proof.Machine.execMrecomb o s
  | .xbind o => Sys2Proof.Machine.execXbind o s
  | .xclr o => Sys2Proof.Machine.execXclr o s
  | .xmov o => Sys2Proof.Machine.execXmov o s
  | .xform o => Sys2Proof.Machine.execXform o s
  | .xshift o => Sys2Proof.Machine.execXshift o s
  | .xconv o => Sys2Proof.Machine.execXconv o s
  | .xlshift o => Sys2Proof.Machine.execXlshift o s
  | .xeval o => Sys2Proof.Machine.execXeval o s
  | .xdirect o => Sys2Proof.Machine.execXdirect o s
  | .xadm o => Sys2Proof.Machine.execXadm o s
  | .wapp o => Sys2Proof.Machine.execWapp o s
  | .wcnt o => Sys2Proof.Machine.execWcnt o s
  | .teamPromotion t => Sys2Proof.Machine.execTeamPromotion t s
  | .valueArrival t k => Sys2Proof.Machine.execValueArrival t k s
  | .asyncTrapDelivery t => Sys2Proof.Machine.execAsyncTrapDelivery t s
  | .supervisorPageResolve t va pte => Sys2Proof.Machine.execSupervisorPageResolve t va pte s
  | .formFullKey c => Sys2Proof.Machine.execFormFullKey c s
  | .formAtQuiescence c => Sys2Proof.Machine.execFormAtQuiescence c s
  | .rejoinTimeout c id => Sys2Proof.Machine.execRejoinTimeout c id s
  | .groupDeadlock c => Sys2Proof.Machine.execGroupDeadlock c s
  | .spawnMoveWait c => Sys2Proof.Machine.execSpawnMoveWait c s
  | .coreStepPoint c => Sys2Proof.Machine.execCoreStepPoint c s
  | .clusterStepPoint cl => Sys2Proof.Machine.execClusterStepPoint cl s
  | .engineCommandStart c e => Sys2Proof.Machine.execEngineCommandStart c e s
  | .patrolScrub c array word => Sys2Proof.Machine.execPatrolScrub c array word s
  | .hbmPatrolScrub sector => Sys2Proof.Machine.execHbmPatrolScrub sector s
  | .eccUncorrectable p => Sys2Proof.Machine.execEccUncorrectable p s
  | .lineRequestInject r k => Sys2Proof.Machine.execLineRequestInject r k s
  | .packetRoute sw k => Sys2Proof.Machine.execPacketRoute sw k s
  | .lineRead r => Sys2Proof.Machine.execLineRead r s
  | .lineResponse leaf => Sys2Proof.Machine.execLineResponse leaf s
  | .landingWrite leaf => Sys2Proof.Machine.execLandingWrite leaf s
  | .writeAck leaf => Sys2Proof.Machine.execWriteAck leaf s
  | .multicastWrite sw k => Sys2Proof.Machine.execMulticastWrite sw k s
  | .multicastForkResume sw k => Sys2Proof.Machine.execMulticastForkResume sw k s
  | .pageWalk => Sys2Proof.Machine.execPageWalk s
  | .priResponse page ok => Sys2Proof.Machine.execPriResponse page ok s
  | .flitCrcError l port => Sys2Proof.Machine.execFlitCrcError l port s
  | .linkFailure sw port => Sys2Proof.Machine.execLinkFailure sw port s
  | .groupPlacement d => Sys2Proof.Machine.execGroupPlacement d s
  | .stealRequest d => Sys2Proof.Machine.execStealRequest d s
  | .groupEnd cl => Sys2Proof.Machine.execGroupEnd cl s
  | .phaseCommit x phase => Sys2Proof.Machine.execPhaseCommit x phase s
  | .launchNode x => Sys2Proof.Machine.execLaunchNode x s
  | .forkNode x => Sys2Proof.Machine.execForkNode x s
  | .joinNode x => Sys2Proof.Machine.execJoinNode x s
  | .condNode x => Sys2Proof.Machine.execCondNode x s
  | .whileNode x => Sys2Proof.Machine.execWhileNode x s
  | .signalNode x => Sys2Proof.Machine.execSignalNode x s
  | .awaitNode x => Sys2Proof.Machine.execAwaitNode x s
  | .awaitPoll x => Sys2Proof.Machine.execAwaitPoll x s
  | .endNode x => Sys2Proof.Machine.execEndNode x s
  | .preemptThreshold x => Sys2Proof.Machine.execPreemptThreshold x s
  | .flagFall x => Sys2Proof.Machine.execFlagFall x s
  | .faultReport d => Sys2Proof.Machine.execFaultReport d s
  | .eventOverflow => Sys2Proof.Machine.execEventOverflow s
  | .bar2Read f off len => Sys2Proof.Machine.execBar2Read f off len s
  | .bar2Write f off bytes => Sys2Proof.Machine.execBar2Write f off bytes s
  | .registerWrite f off size val => Sys2Proof.Machine.execRegisterWrite f off size val s
  | .gstatRead f => Sys2Proof.Machine.execGstatRead f s
  | .start x g => Sys2Proof.Machine.execStart x g s
  | .kick x => Sys2Proof.Machine.execKick x s
  | .cmdHalt x => Sys2Proof.Machine.execCmdHalt x s
  | .cmdResume x => Sys2Proof.Machine.execCmdResume x s
  | .cmdAbort x => Sys2Proof.Machine.execCmdAbort x s
  | .cmdPreempt x => Sys2Proof.Machine.execCmdPreempt x s
  | .cmdInvalidate x => Sys2Proof.Machine.execCmdInvalidate x s
  | .cmdReplayOn x => Sys2Proof.Machine.execCmdReplayOn x s
  | .cmdReplayOff x => Sys2Proof.Machine.execCmdReplayOff x s
  | .attestSubmit => Sys2Proof.Machine.execAttestSubmit s
  | .peerAttestRequest pkg q => Sys2Proof.Machine.execPeerAttestRequest pkg q s
  | .attestReportDone committed => Sys2Proof.Machine.execAttestReportDone committed s
  | .reset => Sys2Proof.Machine.execReset s
  | .powerInterval part r => Sys2Proof.Machine.execPowerInterval part r s
  | .thermalThrottle d hot => Sys2Proof.Machine.execThermalThrottle d hot s
  | .thermalCritical t => Sys2Proof.Machine.execThermalCritical t s
  | .thermalRecovery => Sys2Proof.Machine.execThermalRecovery s
  | .fabricForward port inp => Sys2Proof.Machine.execFabricForward port inp s
  | .fabricLinkFailure port => Sys2Proof.Machine.execFabricLinkFailure port s
  | .domainRendezvous x pkg => Sys2Proof.Machine.execDomainRendezvous x pkg s
  | .domainRendezvousTimeout x => Sys2Proof.Machine.execDomainRendezvousTimeout x s
  | .domainVote x pkg lost => Sys2Proof.Machine.execDomainVote x pkg lost s
  | .domainDecision x => Sys2Proof.Machine.execDomainDecision x s
  | .domainDecisionReceipt x commit => Sys2Proof.Machine.execDomainDecisionReceipt x commit s
  | .domainRelease x => Sys2Proof.Machine.execDomainRelease x s
  | .engineCommandFinished c e => Sys2Proof.Machine.execEngineCommandFinished c e s
  | .hostInReadCompletion t r => Sys2Proof.Machine.execHostInReadCompletion t r s
  | .atsTranslationResponse page target => Sys2Proof.Machine.execAtsTranslationResponse page target s
  | .powerLoss => Sys2Proof.Machine.execPowerLoss s

end Sys2Proof.Machine
end

