-- ==== Sys2Proof/Machine/Sched.lean ====
section
/-! DEFINITION. What one act of the machine does, and which act comes next when the agenda is empty: the issue rules of
R246 to R251, and a free choice among everything that can happen. -/
namespace Sys2Proof.Machine

/-! ## Pipes (R246, R247) -/

/-- The pipes of a partition. -/
inductive Pipe where
  | vector | second
  deriving DecidableEq, Repr

/-- Table 12-1: the pipe of an instruction, by its group. An event uses none. -/
def pipeOf (i : Instr) : Option Pipe :=
  match i with
  | .add _ | .sub _ | .mul _ | .mulh _ | .mad _ | .div _ | .rem _ | .neg _ | .abs _ | .min _ | .max _ | .and _ | .or _ | .xor _
  | .not _ | .andn _ | .shl _ | .shr _ | .sar _ | .rot _ | .clz _ | .ctz _ | .popc _ | .brev _ | .bfe _ | .bfi _ | .cmp _ | .sel _
  | .mov _ | .movi _ | .addc _ | .cvti _
  | .fadd _ | .fsub _ | .fmul _ | .fma _ | .fnma _ | .fdiv _ | .fsqrt _ | .frcp _ | .frsq _ | .fmin _ | .fmax _ | .fabs _
  | .fneg _ | .fcpsgn _ | .fcmp _ | .fclass _ | .frnd _ | .fexpo _ | .fscale _ | .fexp2 _ | .flog2 _ | .fsin _ | .fcos _
  | .ftanh _ | .fcvt _ | .fcvti _ | .fpack _ | .smxi _ | .smxf _
  | .vget _ | .vpost _ | .vbcast _ | .vlti _ | .vslot _ | .vred _ | .vscan _ | .vargmin _ | .vargmax _ | .vballot _ | .vpopc _
  | .vfirst _ | .vcompact _ | .vsort _
  | .xbind _ | .xclr _ | .xmov _ | .xform _ | .xshift _ | .xconv _ | .xlshift _ | .xeval _ | .xdirect _ | .xadm _ => some .vector
  | i => if i.isWord then some .second else none

/-! ## Acts -/

/-- R264: the single-bit errors that a core's reads have met are corrected and counted. -/
def State.countErrors (s : State) (core : Nat) : State :=
  let c := s.core core
  s.setCore core { c with corrected := c.corrected + Config.readErrors s.clock core }

/-- What the fetch of a team's word leaves in the translation caches, past the checks before translation (R53, R376). -/
def State.touchCode (s : State) (k : Nat) : State :=
  let pc := (s.team k).pc
  if pc.toNat % 4 = 0 ∧ pc.toNat % 32 ≠ 28 then s.touch (coreOf k) pc else s

/-- The selected team as it begins an instruction. -/
def State.begun (s : State) (k : Nat) : State :=
  let s := s.touch (coreOf k) (s.team k).pc
  s.putTm { s.tm with stuck := false }

/-- A team whose code lies in another package asks for the line (R442). -/
def State.askCode (s : State) (k key : Nat) : State :=
  if s.lineAsked (coreOf k) (key / 128) then s else s.askLine (coreOf k) (s.team k).part ctlNode (key / 128) 0

/-- The memory instructions (G5). -/
def isMemory (i : Instr) : Bool :=
  match i with
  | .ld _ | .st _ | .ldu _ | .claim _ | .pf _ | .ldt _ => true
  | _ => false

/-- R248: no memory instruction of a team is ready while the 16 entries of its operand log are in use. -/
def Team.logBars (t : Team) (i : Instr) : Bool := isMemory i && 16 ≤ t.log.length

/-- A team issues the instruction at its program counter, unless something must come before it. -/
def issue (s : State) (k : Nat) : Host.Outcome State Fault Refusal :=
  let s := { s with cur := k, seq := s.seq + 1 }
  if !s.runnable k then .next s
  else if !(s.team k).raised.isEmpty then .next (s.deliver k)
  else if s.busy k then .next (s.deliverTraps k)
  else match s.fetch (coreOf k) s.vregs (s.team k).pc with
    | .instr i => if (s.team k).logBars i then .next s else exec i (s.begun k)
    | .raises id p len => .next ((s.touchCode k).fetchRaises k id p len)
    | .malformed lv => .next ((s.touchCode k).fetchMalformed k lv)
    | .bad b pa => .next (((s.touchCode k).badSector (coreOf k) b pa).stopTeam k)
    | .far key => .next ((s.touchCode k).askCode k key)
    | .waits page => .next ((s.touchCode k).askAts page)

/-! ## Issue (R248 to R250) -/

/-- Whether an act changes the machine, beyond what only the model counts. -/
def State.changes (s : State) (o : Host.Outcome State Fault Refusal) : Bool :=
  match o with
  | .next t => { t with cur := s.cur, seq := s.seq, clock := s.clock } != s
  | _ => true

/-- Whether a branch has its sources: one that goes to itself leaves the machine as it was. -/
def State.branches (s : State) (i : Instr) : Bool :=
  let t := s.tm
  match i with
  | .br _ | .bq _ | .call _ => true
  | .brd o => t.exec o.msk &&& t.m[o.mc] == t.live
  | .ret o => t.interlock (t.exec o.msk) [] [o.sl] [] == .go
  | .jmpi o => t.interlock (t.exec o.msk) [] [o.sa] [] == .go
  | _ => false

/-- Whether an instruction issues, the team having begun it: it does more than note that it waits. An instruction whose sources or
captured registers are pending, or that finds the log or the queue that it needs full, waits (R78, R81, R171, R248, R259). -/
def State.issues (b : State) (i : Instr) : Bool :=
  match exec i b with
  | .next u => u.setTeam b.cur { u.team b.cur with stuck := false } != b || b.branches i
  | _ => true

/-- R248: a team is ready: its instruction issues, or what must come before it does something. -/
def State.canIssue (s : State) (k : Nat) : Bool :=
  let u := { s with cur := k, seq := s.seq + 1 }
  match u.runnable k && !u.busy k, u.fetch (coreOf k) u.vregs (u.team k).pc with
  | true, .instr i => !(u.team k).logBars i && (u.begun k).issues i
  | _, _ => s.changes (issue s k)

/-- Whether a team that is not ready comes to wait for a step point, or ceases to (R188). -/
def State.notes (s : State) (k : Nat) : Bool :=
  match issue s k with
  | .next u => !s.canIssue k && (u.team k).stuck != (s.team k).stuck
  | _ => false

/-- The pipe that a team's next issue uses; what comes before its instruction uses none, and takes the place of either (log 57). -/
def State.nextPipe (s : State) (k : Nat) : Option Pipe :=
  if s.busy k then none
  else match s.fetch (coreOf k) s.vregs (s.team k).pc with
    | .instr i => pipeOf i
    | _ => none

/-- A team and the pipe that it is ready for. -/
structure Bidder where
  key : Nat
  team : Team
  pipe : Option Pipe

/-- The ready teams of a partition. -/
def State.bidders (s : State) (core part : Nat) : List Bidder :=
  (s.teams.filter fun p => coreOf p.1 == core && p.2.part.val == part && p.2.resident && s.canIssue p.1).map fun p =>
    { key := p.1, team := p.2, pipe := s.nextPipe p.1 }

/-- R250: a promoted team goes before the others, the earliest promotion first; then the older team. -/
def issuesBefore (a b : Team) : Bool :=
  match a.promo, b.promo with
  | some x, some y => x < y || (x == y && a.age < b.age)
  | some _, none => true
  | none, some _ => false
  | none, none => a.age < b.age

/-- The first of some teams by R250. -/
def firstTeam : List Bidder → Option Bidder
  | [] => none
  | p :: r => some (r.foldl (fun b q => if issuesBefore q.team b.team then q else b) p)

/-- The team that issues to a pipe. -/
def chosen (pipe : Pipe) (l : List Bidder) : Option Bidder := firstTeam (l.filter fun b => b.pipe.isNone || b.pipe == some pipe)

/-- R246, R250: the teams that issue in a clock of a partition, at most one to each pipe: the vector pipe's choice comes first, and
the second pipe's is made among the other teams. -/
def issuers (l : List Bidder) : List Nat :=
  let v := (chosen .vector l).map Bidder.key
  v.toList ++ ((chosen .second (l.filter fun b => some b.key != v)).map Bidder.key).toList

/-- R249: the pass-over counts at the end of a clock of a partition: that of a team which issues returns to 0, and that of a ready team
which does not rises by one. -/
def State.passOver (s : State) (ready issued : List Nat) : State :=
  { s with teams := s.teams.map fun p =>
      if issued.contains p.1 then (p.1, { p.2 with pass := 0, promo := none })
      else if ready.contains p.1 then (p.1, { p.2 with pass := p.2.pass + 1 })
      else p }

/-- The teams of a partition that are not ready, and whose wait is to be noted; they take no pipe. -/
def State.waiters (s : State) (core part : Nat) : List Nat :=
  ((s.teams.filter fun p => coreOf p.1 == core && p.2.part.val == part && p.2.resident).map (·.1)).filter s.notes

/-- A clock of a partition: what issues in it comes next. -/
def State.partClock (s : State) (core part : Nat) : State :=
  let l := s.bidders core part
  let w := s.waiters core part
  let s := s.passOver (l.map Bidder.key) (issuers l)
  { s with agenda := (issuers l ++ w).map Act.issue ++ s.agenda }

/-- An act of the agenda: an instruction word is no event. -/
def act (a : Act) (s : State) : Host.Outcome State Fault Refusal :=
  match a with
  | .issue k => issue (s.countErrors (coreOf k)) k
  | .clock core part => .next (s.partClock core part)
  | .event i => if isEvent i then exec i s else .next s
  | .bringUp => .next s.bringOn

/-! ## What can happen next -/

/-- R249: the teams whose pass-over count has reached 64; of those of one partition the older is promoted first, so that no younger
one has an earlier promotion. -/
def State.promotions (s : State) : List Instr :=
  let l := s.teams.filter fun p => p.2.resident && 64 ≤ p.2.pass && p.2.promo.isNone
  let first (p : Nat × Team) : Bool :=
    l.all fun q => !(coreOf q.1 == coreOf p.1 && q.2.part == p.2.part && q.2.age < p.2.age)
  (l.filter first).map fun p => .teamPromotion p.1

/-- Events of teams. -/
def State.teamEvents (s : State) : List Instr :=
  s.teams.flatMap fun p =>
    [.asyncTrapDelivery p.1] ++
      (List.range p.2.pend.length).flatMap fun j => [.valueArrival p.1 j, .hostInReadCompletion p.1 { k := j, changed := [] }]

/-- Rejoin rounds that have expired. -/
def State.timeouts (s : State) : List Instr :=
  s.cores.flatMap fun p => p.2.rounds.map fun r => .rejoinTimeout (Fin.ofNat 384 p.1) r.id

/-- Events of cores and clusters. -/
def State.coreEvents (s : State) : List Instr :=
  (s.cores.flatMap fun p =>
    let c : CoreId := Fin.ofNat 384 p.1
    [.formFullKey c, .formAtQuiescence c, .groupDeadlock c, .spawnMoveWait c, .coreStepPoint c,
     .engineCommandStart c .copy, .engineCommandStart c .matrix, .engineCommandFinished c .copy, .engineCommandFinished c .matrix] ++
      (List.range 13).map fun k => .lineRequestInject (.core c) (Fin.ofNat 64 k)) ++
  s.clusters.flatMap fun p => [.clusterStepPoint (Fin.ofNat 64 p.1)]

/-- The switch of a number. -/
def switchAt (n : Nat) : Switch :=
  if n < 32 then .edge (Fin.ofNat 32 n) else if n < 64 then .middle (Fin.ofNat 32 (n - 32)) else .spine (Fin.ofNat 8 (n - 64))

/-- Events of the network. -/
def State.netEvents (s : State) : List Instr :=
  (s.net.buf.flatMap fun p => (List.range p.2.length).flatMap fun k =>
    [.packetRoute (switchAt p.1) k, .multicastWrite (switchAt p.1) k, .multicastForkResume (switchAt p.1) k]) ++
  (s.net.arrived.flatMap fun p =>
    let l : NetNode := Fin.ofNat 129 p.1
    ((List.range p.2.length).map fun k => .lineRead { leaf := l, k := k }) ++ [.lineResponse l, .landingWrite l, .writeAck l]) ++
  ((List.finRange 64).map fun w => .lineRequestInject .walkers w) ++ [.lineRequestInject .control 0, .pageWalk]

/-- The ends of groups (R396). -/
def State.groupEnds (s : State) : List Instr := s.clusters.map fun p => .groupEnd (Fin.ofNat 64 p.1)

/-- Events of the control die. -/
def State.ctlEvents (s : State) : List Instr :=
  [.eventOverflow, .attestReportDone true, .thermalRecovery] ++
  ((List.finRange 8).flatMap fun d => [.faultReport d, .groupPlacement d, .stealRequest d]) ++
  (s.ctxs.flatMap fun p =>
    let x : CtxId := Fin.ofNat 64 p.1
    [.launchNode x, .forkNode x, .joinNode x, .condNode x, .whileNode x, .signalNode x, .awaitNode x, .awaitPoll x, .endNode x,
     .preemptThreshold x, .flagFall x, .domainRendezvousTimeout x, .domainVote x s.ctl.pkg false, .domainDecision x,
     .domainDecisionReceipt x true, .domainDecisionReceipt x false, .domainRelease x] ++
      (s.fab.inbox.flatMap fun e => [.domainRendezvous x e.1, .domainVote x e.1 false]) ++
      p.2.phases.map fun q => .phaseCommit x q.num)

/-- The packets that the ports of the fabric can send on, and the requests of peers that have come. -/
def State.fabEvents (s : State) : List Instr :=
  ((List.finRange 18).map fun p => .fabricForward p .next) ++ s.fab.asks.map fun e => .peerAttestRequest e.1 { withHost := false }

/-- Those of some events that would change the machine. -/
def State.able (s : State) (l : List Instr) : List Act := (l.map Act.event).filter fun a => s.changes (act a s)

/-- The clocks of partitions in which something issues, or comes to wait. -/
def State.clocks (s : State) : List Act :=
  s.cores.flatMap fun p => (List.range 12).filterMap fun k =>
    if (s.bidders p.1 k).isEmpty && (s.waiters p.1 k).isEmpty then none else some (.clock p.1 k)

/-- Everything that the machine can do by itself. What comes from outside it (the host, other packages, errors, power) stands on
the agenda. Promotions come at their clock (R249), and rounds that have expired complete, before anything else (R191); the end of a group
comes before a flag fall (R396). -/
def State.ownActs (s : State) : List Act :=
  let p := s.able s.promotions
  let t := s.able s.timeouts
  if !p.isEmpty then p
  else if !t.isEmpty then t
  else
    let g := s.able s.groupEnds
    let flag (a : Act) : Bool := match a with | .event (.flagFall _) => true | _ => false
    let l := s.able (s.teamEvents ++ s.coreEvents ++ s.netEvents ++ s.ctlEvents ++ s.fabEvents)
    s.clocks ++ g ++ (if g.isEmpty then l else l.filter fun a => !flag a)

/-- What happens next when nothing is on the agenda: the boot ROM runs after reset, and the bring-up goes on; then a free choice. -/
def State.pick (s : State) : Option Act :=
  if s.ctl.state = 0 then some (.event .reset)
  else if s.ctl.bring.isSome then some .bringUp
  else s.ownActs[Config.nextAct s.free s.clock % s.ownActs.length]?

end Sys2Proof.Machine
end

