-- ==== Sys2Proof/Machine/Step.lean ====
section
/-! DEFINITION. One step: the next act of the agenda, or the one that the model's scheduler picks, is done. -/
namespace Sys2Proof.Machine

/-- One step of the machine; a clock passes. -/
def step (s : State) : Host.Outcome State Fault Refusal :=
  let s := { s with clock := s.clock + 1 }
  match s.agenda with
  | a :: r => act a { s with agenda := r }
  | [] =>
    match s.pick with
    | some a => act a s
    | none => .next s

/-- The state with an instruction stored where the next step fetches it: at the selected team's program counter when that
team is about to fetch at the start of a block, else in a program placed from outside (log 13). -/
def State.withFetchWord (s : State) (nbits w : Nat) : State :=
  match s.fetchKey s.cur with
  | some a =>
    let c := s.core (coreOf s.cur)
    { s.mapPhase c.ctx c.phase (fun p => { p with base := writeBytes p.base a (wordBytes nbits w) }) with
      mem := writeBytes s.mem a (wordBytes nbits w), agenda := .issue s.cur :: s.agenda }
  | none => s.placed (wordBytes nbits w)

end Sys2Proof.Machine
end

