-- ==== Sys2Proof/Safety.lean ====
section
/-! DEFINITION. The terms in which claims are stated: when an instruction meets nothing that holds it up, what its result
leaves unchanged, and the invariant of memory that every step keeps. -/
namespace Sys2Proof.Machine

/-! ## When an instruction runs -/

/-- The registers that an operand covers: a pair is its even register and the odd partner. -/
def span (wide : Bool) (r : Nat) : List Nat := if wide then [r, r + 1] else [r]

/-- No register of the lists is pending (R77). -/
def Team.nonePending (t : Team) (vs : List Nat) (us : List UReg) : Bool :=
  t.pend.all fun p => !p.kept || match p.dst with
    | .vec r _ => !vs.contains r.val
    | .uni r => !us.contains r

/-- Some slot is active under a mask register (R45). -/
def Team.active (t : Team) (msk : MReg) : Bool := !(t.slotsOf (t.exec msk)).isEmpty

/-- The typed sources hold the format f, asserted by FA or, under FA = 0, held by all of them; pairs are even (R74, R114). -/
def Team.typed (t : Team) (fa f : Tag) (srcs : List VReg) : Bool :=
  srcs.all fun r =>
    (if fa = .none then t.tagOf r == f else fa == f && (t.tagOf r == .none || t.tagOf r == f)) && (!f.pair || r.val % 2 == 0)

/-- A destination of format f lies below `.vregs` where it is a pair (R114). -/
def destFits (vregs : Nat) (f : Tag) (d : VReg) : Bool := !f.pair || (d.val % 2 == 0 && d.val + 1 < vregs)

/-- A vector instruction meets nothing that holds it up: a slot is active, its typed sources `srcs` hold f, its destination d
fits its format df, and none of its registers, the raw 32-bit sources `raw` among them, is pending. -/
def State.goes (s : State) (msk : MReg) (fa f : Tag) (srcs raw : List VReg) (d : VReg) (df : Tag) : Bool :=
  s.tm.active msk && f != .none && s.tm.typed fa f srcs && destFits s.vregs df d &&
    s.tm.nonePending (srcs.flatMap (fun r => span f.pair r.val) ++ raw.map (·.val) ++ span df.pair d.val) []

/-- As `goes`, of an instruction whose destination may also be pending, where it writes the destination in every live slot: it issues
at once, and supersedes what is pending there (R78). -/
def State.goesOver (s : State) (msk : MReg) (fa f : Tag) (srcs : List VReg) (d : VReg) (df : Tag) : Bool :=
  s.tm.active msk && f != .none && s.tm.typed fa f srcs && destFits s.vregs df d &&
    s.tm.nonePending (srcs.flatMap fun r => span f.pair r.val) [] &&
    (s.tm.exec msk &&& s.tm.live == s.tm.live || s.tm.nonePending (span df.pair d.val) [])

/-! ## What a result leaves unchanged -/

/-- Every element outside the registers `rs` of the slots of x is unchanged. -/
def Team.keepsV (t u : Team) (x : MaskBits) (rs : List Nat) : Prop :=
  ∀ r i, i < 1024 → (r ∉ rs ∨ i ∉ t.slotsOf x) → u.rd r i = t.rd r i

/-- The other register of a pair. -/
def partnerOf (r : Nat) : Nat := if r % 2 = 0 then r + 1 else r - 1

/-- R73: the tag of a destination, of its partner, and of every other register, after a result of format f. -/
def Team.retagged (t u : Team) (d : Nat) (f : Tag) : Prop :=
  u.tagOf d = f ∧
  u.tagOf (partnerOf d) = (if f.pair then f else if (t.tagOf d).pair then .none else t.tagOf (partnerOf d)) ∧
  ∀ r, r ≠ d → r ≠ partnerOf d → u.tagOf r = t.tagOf r

/-- The bits of mask register r: in the slots of x as `b` says, in the other slots below the capacity as before; every other
mask register is unchanged. m0 as `r` stands for no mask at all. -/
def Team.maskWrote (t u : Team) (x : MaskBits) (r : MReg) (b : Nat → Bool) : Prop :=
  (∀ q : MReg, q ≠ r ∨ r = 0 → u.m[q] = t.m[q]) ∧
  (r ≠ 0 → ∀ i, i < t.cap → u.m[r].getLsbD i = if i ∈ t.slotsOf x then b i else t.m[r].getLsbD i)

/-- The bits of a value that a destination of format f takes. -/
def takes (f : Tag) (x : DWord) : DWord := if f.pair then x else (x.setWidth 32).setWidth 64

/-- A vector instruction of `len` bytes has run: the slots of x hold `val` in d, under format f; `om` takes the bits `bit`;
nothing else of the machine has changed but the program counter. -/
def State.vectorRan (s s' : State) (len : Nat) (x : MaskBits) (d : VReg) (f : Tag) (val : Nat → DWord) (om : MReg)
    (bit : Nat → Bool) : Prop :=
  ∃ u : Team, s' = s.putTm u ∧
    u = { s.tm with pc := s.tm.pc + BitVec.ofNat 64 len, v := u.v, tag := u.tag, m := u.m, raised := [] } ∧
    (∀ i ∈ s.tm.slotsOf x, u.rdTag f d i = takes f (val i)) ∧
    s.tm.keepsV u x (span f.pair d.val) ∧ s.tm.retagged u d f ∧ s.tm.maskWrote u x om bit

/-- Whether a pending result is to be written to one of some vector registers. -/
def Pend.writes (p : Pend) (rs : List Nat) : Bool := match p.dst with | .vec r _ => rs.contains r.val | .uni _ => false

/-- The registers `rs` are pending no more: no live thread is still to receive a value there, and what else is pending is as before
(R78). -/
def Team.superseded (t u : Team) (rs : List Nat) : Prop :=
  (t.nonePending rs [] = true → u.pend = t.pend) ∧ u.nonePending rs [] = true ∧
  (∀ p ∈ u.pend, p ∈ t.pend ∨ ∀ x ∈ p.threads, x ∉ t.ltis) ∧
  ∀ p ∈ t.pend, p.live = true → p.writes rs = false → p ∈ u.pend

/-- As `vectorRan`, of an instruction that may supersede what is pending on its destination. -/
def State.ranOver (s s' : State) (len : Nat) (x : MaskBits) (d : VReg) (f : Tag) (val : Nat → DWord) (om : MReg)
    (bit : Nat → Bool) : Prop :=
  ∃ u : Team, s' = s.putTm u ∧
    u = { s.tm with pc := s.tm.pc + BitVec.ofNat 64 len, v := u.v, tag := u.tag, m := u.m, pend := u.pend, raised := [] } ∧
    s.tm.superseded u (span f.pair d.val) ∧ (∀ i ∈ s.tm.slotsOf x, u.rdTag f d i = takes f (val i)) ∧
    s.tm.keepsV u x (span f.pair d.val) ∧ s.tm.retagged u d f ∧ s.tm.maskWrote u x om bit

/-- As `vectorRan`, of an instruction whose slots have floating-point exceptions `fl`: each adds its own to the team's flags (R36,
R88). -/
def State.floatRan (s s' : State) (len : Nat) (x : MaskBits) (d : VReg) (f : Tag) (val : Nat → DWord) (fl : Nat → BitVec 6) : Prop :=
  ∃ u : Team, s' = s.putTm u ∧
    u = { s.tm with pc := s.tm.pc + BitVec.ofNat 64 len, v := u.v, tag := u.tag, fflags := u.fflags, raised := [] } ∧
    u.fflags = (s.tm.lanes x).foldl (fun a i => a ||| (fl i).setWidth 5) s.tm.fflags ∧
    (∀ i ∈ s.tm.slotsOf x, u.rdTag f d i = takes f (val i)) ∧ s.tm.keepsV u x (span f.pair d.val) ∧ s.tm.retagged u d f

/-- No active slot's exceptions are enabled to trap (R89). -/
def State.noTrap (s : State) (msk : MReg) (fl : Nat → BitVec 6) : Prop :=
  ∀ i ∈ s.tm.slotsOf (s.tm.exec msk), fpxTraps s.tm.fen (fl i) = false

/-! ## The words of the integer group (05) -/

/-- The integer formats (R113). -/
def integerFormats : List Tag := [.i32, .n32, .i64, .n64]

/-- R122: the shifts of a w-bit pattern by n: zeros, zeros, copies of bit w − 1, or the bits that fall out. -/
def shiftRows : List ((VShift → Instr) × ((w : Nat) → BitVec w → Nat → BitVec w)) :=
  [(.shl, fun _ x n => x <<< n), (.shr, fun _ x n => x >>> n), (.sar, fun _ x n => x.sshiftRight n),
   (.rot, fun _ x n => x.rotateLeft n)]

/-- Which bits of a w-bit pattern are set, lowest first. -/
def setBits (w : Nat) (x : DWord) : List Nat := (List.range w).filter fun k => x.getLsbD k

/-- The comparison that a code names, on integers (R125). -/
def compares (cc : Cond) (x y : Int) : Prop :=
  match cc with
  | .eq => x = y | .ne => x ≠ y | .lt => x < y | .le => x ≤ y | .gt => x > y | .ge => x ≥ y | .un => False | .or => True

/-! ## The words of the uniform group (05) -/

/-- An instruction has written one uniform register: it holds v, whatever was pending on it is superseded (R134), and nothing else of
the team has changed but the program counter. -/
def Team.wroteS (t u : Team) (len : Nat) (d : UReg) (v : DWord) : Prop :=
  u = { t with pc := t.pc + BitVec.ofNat 64 len, s := u.s, pend := u.pend } ∧ u.s[d] = v ∧
  (∀ r : UReg, r ≠ d → u.s[r] = t.s[r]) ∧ u.pend = t.pend.map fun p => if p.dst = .uni d then { p with kept := false } else p

/-- One condition bit is b, and the others are unchanged. -/
def Team.wroteQ (t u : Team) (d : QReg) (b : Bool) : Prop := u.q[d] = b ∧ ∀ r : QReg, r ≠ d → u.q[r] = t.q[r]

/-- Table 5-5: the instructions of two uniform sources (R135). -/
def uniformRows : List ((SBin → Instr) × (DWord → DWord → DWord)) :=
  [(.sadd, fun x y => x + y), (.ssub, fun x y => x - y), (.smul, fun x y => x * y), (.sand, fun x y => x &&& y),
   (.sor, fun x y => x ||| y), (.sxor, fun x y => x ^^^ y), (.sshl, fun x y => x <<< y.toNat), (.sshr, fun x y => x >>> y.toNat),
   (.ssar, fun x y => x.sshiftRight y.toNat)]

/-! ## The words of the float group (06) -/

/-- The float formats that the arithmetic of the group takes (R141). -/
def floatFormats : List Tag := [.f32, .f64, .bf16x2, .f16x2]

/-- The instructions of two float sources with a rounding mode: the exact operation on one element, rounded once. -/
def floatRows : List ((FBin → Instr) × (Ieee → RMode → FVal → FVal → FRes)) :=
  [(.fadd, fAdd), (.fsub, fSub), (.fmul, fMul), (.fdiv, fDiv)]

/-- The instructions of one float source without a rounding mode, with the formats that each takes. -/
def functionRows : List ((VUn → Instr) × List Tag × (Ieee → FVal → FRes)) :=
  [(.frcp, floatFormats, fRcp), (.frsq, floatFormats, fRsq), (.fexp2, [.f32, .bf16x2, .f16x2], fExp2),
   (.flog2, [.f32, .bf16x2, .f16x2], fLog2), (.fsin, [.f32, .bf16x2, .f16x2], fSin), (.fcos, [.f32, .bf16x2, .f16x2], fCos),
   (.ftanh, [.f32, .bf16x2, .f16x2], fTanh)]

/-- The sign bits of the elements of a float format. -/
def signBits (f : Tag) : DWord := if f = .f64 then 1 <<< 63 else if f = .f32 then 1 <<< 31 else 0x80008000

/-- Some registers hold none or the tag that an instruction expects of each. -/
def Team.holds (t : Team) (l : List (Nat × Tag)) : Bool := l.all fun p => t.tagOf p.1 == .none || t.tagOf p.1 == p.2

/-- The number in element k of a source. -/
def Team.number (t : Team) (f : Tag) (r : VReg) (i k : Nat) : FVal := (ieeeOf f).val (t.el f r i k)

/-! ## The words of the memory group (07) -/

/-- Only the selected team, now u, has changed, and what reads bring about: translation caches, walks and host pages that are
asked for, line requests, and the packets of these (R376, R416, R426); a packet that cannot leave is reported lost (R414). No memory, no
window and no queue of writes has. -/
def State.hasRead (s t : State) (u : Team) : Prop :=
  t = { s.putTm u with
    cores := t.cores
    clusters := t.clusters
    dies := t.dies
    net := { s.net with out := t.net.out, buf := t.net.buf, rids := t.net.rids }
    ctl := { s.ctl with reqs := t.ctl.reqs, walks := t.ctl.walks, atsWait := t.ctl.atsWait } } ∧
  (∀ c, t.core c = { s.core c with reqs := (t.core c).reqs, utlb := (t.core c).utlb }) ∧
  (∀ c, t.cluster c = { s.cluster c with asked := (t.cluster c).asked, acks := (t.cluster c).acks }) ∧
  ∀ d, t.die d = { s.die d with fifo := (t.die d).fifo, heldReports := (t.die d).heldReports }

/-- An access may go out at once: it reaches no page, or no line request of an earlier instruction of the partition still waits
(R416). -/
def State.linesGone (s : State) (l : List DWord) : Prop := (∀ a ∈ l, inPage a = false) ∨ s.linesWait (coreOf s.cur) s.tm.part = false

/-- The registers of an instruction with a memory operand are at hand: a slot is active, no register of the address nor of the
list `rs` is pending (R78). -/
def State.reaches (s : State) (msk : MReg) (a : Addr) (rs : List Nat) : Bool :=
  s.tm.active msk && s.tm.nonePending ((Addr.vrefs a).regs ++ rs) a.base.toList

/-- Bytes of an access (R173): 4 or 8 by the format, 1 or 2 under a sub-size. -/
def accessBytes (f : Tag) (b : Sub) : Nat := match b with | .full => if f.pair then 8 else 4 | .b8 => 1 | .b16 => 2

/-- Every byte of memory reads as before: of device and host memory, and of the windows of every core. -/
def State.sameBytes (s t : State) : Prop :=
  (∀ a, t.mem.get unwritten a = s.mem.get unwritten a) ∧ (∀ a, t.host.get unwritten a = s.host.get unwritten a) ∧
  ∀ c a, (t.core c).loc.get unwritten a = (s.core c).loc.get unwritten a ∧
    (t.core c).exch.get unwritten a = (s.core c).exch.get unwritten a ∧ (t.core c).priv.get unwritten a = (s.core c).priv.get unwritten a

/-- A map of bytes after `b` has been written from address a on. -/
def wroteBytes (m m' : SMap Byte) (a : Nat) (b : List Byte) : Prop :=
  ∀ x, m'.get unwritten x = if a ≤ x ∧ x < a + b.length then b.getD (x - a) 0 else m.get unwritten x

/-! ## The words of the cross-lane and collective groups (09, 10) -/

/-- A raw source of width and tag f (R127, R197): FA's format, or the register's tag; a destination of f fits. -/
def State.rawTag (s : State) (fa f : Tag) (a d : VReg) : Bool :=
  f == (if fa = .none then s.tm.tagOf a else fa) && (fa != .none || !f.pair || a.val % 2 == 0) && destFits s.vregs f d

/-- R196: a number names a valid slot. -/
def Team.names (t : Team) (n : Int) (j : Nat) : Prop := n = j ∧ j < t.cap ∧ t.live.getLsbD j = true

/-- Formats of sums (R166, R202, R211). -/
def summedFormats : List Tag := [.i32, .n32, .i64, .n64, .f32, .f64, .bf16x2]

/-- Table 10-4: the identities other than 0, as a uniform register takes them (R213). -/
def identityRows : List ((RedOp × Tag) × DWord) :=
  [((.min, .i32), 0x7FFFFFFF), ((.min, .n32), 0xFFFFFFFF), ((.min, .i64), 0x7FFFFFFFFFFFFFFF), ((.min, .n64), 0xFFFFFFFFFFFFFFFF),
   ((.min, .f32), 0x7F800000), ((.min, .f64), 0x7FF0000000000000), ((.min, .bf16x2), 0x7F807F80), ((.min, .f16x2), 0x7C007C00),
   ((.max, .i32), 0xFFFFFFFF80000000), ((.max, .i64), 0x8000000000000000), ((.max, .f32), 0xFF800000),
   ((.max, .f64), 0xFFF0000000000000), ((.max, .bf16x2), 0xFF80FF80), ((.max, .f16x2), 0xFC00FC00),
   ((.and, .i32), 0xFFFFFFFFFFFFFFFF), ((.and, .n32), 0xFFFFFFFF), ((.and, .i64), 0xFFFFFFFFFFFFFFFF),
   ((.and, .n64), 0xFFFFFFFFFFFFFFFF)]

/-- The identity of an operation in a format; 0 also where the operation does not accept it (R216). -/
def identityAs (op : RedOp) (f : Tag) : DWord := (identityRows.lookup (op, f)).getD 0

/-- The active slots, in LTI order (R34). -/
def State.P (s : State) (msk : MReg) : List Nat := s.tm.lanes (s.tm.exec msk)

/-- The team with one condition bit replaced, if one is named. -/
def Team.withQ (t : Team) (q : Option QReg) (b : Bool) : Team := match q with | some q => { t with q := t.q.set q.val b } | none => t

/-- What is pending after a collective with a uniform destination d: x, with the exceptions and status bits of c still owed (R213,
R214). -/
def State.owing (s : State) (msk : MReg) (d : UReg) (x : DWord) (c : Combined) : List Pend :=
  (s.tm.pend.map fun p => if p.dst = .uni d then { p with kept := false } else p) ++
    [{ id := s.pendId 0, src := .coll, dst := .uni d, await := .timed, vals := [(0, x)], out := [], gone := [], kept := true,
       owed := if c.fl = 0 then [] else [(s.tm.lti ((s.P msk).headD 0), c.fl)], fen := s.tm.fen, vst := c.vst }]

/-- A collective with a uniform destination has run. -/
def State.uniformRan (s s' : State) (msk : MReg) (q : Option QReg) (d : UReg) (x : DWord) (c : Combined) : Prop :=
  s' = s.putTm { s.tm.withQ q false with pc := s.tm.pc + 12, raised := [], pend := s.owing msk d x c }

/-! ## The words of control flow and of effects (08, 11) -/

/-- The address that a word at the program counter names by an offset in 4-byte units (R43). -/
def Team.there (t : Team) {n : Nat} (off : BitVec n) : DWord := t.pc + off.signExtend 64 * 4

/-- A core can place n more bytes in spawn memory, and a capture of the range g needs wait for no pending register (R81, R452). -/
def State.canCapture (s : State) (g : Range) (n : Nat) : Prop := s.tm.captureWaits g = false ∧ s.cr.lacks n = 0

/-- The effects that a team has raised: slot, identifier, payload, and where the continuation goes on. -/
def Team.effects (t : Team) : List (Nat × Nat × DWord × DWord) := t.raised.map fun r => (r.slot, r.eff, r.payload, r.pc)

/-- An instruction that raises one effect in each of some slots, and does nothing else before the effects are taken. -/
def State.raisesAll (s s' : State) (l : List Nat) (e : Nat) (payload pc : DWord) : Prop :=
  ∃ u : Team, s' = (s.putTm u).deliver s.cur ∧ u = { s.tm with pc := u.pc, raised := u.raised } ∧
    u.effects = l.map fun i => (i, e, payload, pc)

/-- What was pending for some threads in the vector registers `rs` is discarded; what else is pending is as before (R76, R78). -/
def Team.dropped (t u : Team) (ltis : List DWord) (rs : List Nat) : Prop :=
  (∀ p ∈ u.pend, p ∈ t.pend ∨ p.writes rs = true) ∧ (∀ p ∈ u.pend, p.writes rs = true → ∀ x ∈ p.threads, x ∉ ltis) ∧
  ∀ p ∈ t.pend, p.live = true → p.writes rs = false → p ∈ u.pend

/-- A slot's record matches what a capture writes (R230). -/
def recordsSlot (t : Team) (r : Rec) (x : Raised) (g : Range) (j : Nat) : Prop :=
  r.lti = t.lti x.slot ∧ r.pc = x.pc ∧ r.range = g ∧ r.vals = t.valsOf g x.slot ∧ r.tags = t.tag ∧ r.div = t.div ∧ r.dst = x.dst ∧
    r.entries.map HEntry.bare = (t.h.take (j + 1)).map HEntry.bare ∧ r.token = true ∧
    r.ms = (match x.perf with | some q => q.1 | none => false)

/-! ## The words of the copy engine, the step points and the matrix engine (12, 13, 15, 16) -/

/-- A copy passes its checks at issue (R274, R275): a slot is active and no register pending, the queue has room, there is something
to move, its sizes and strides are legal, and no access that is known at issue fails. -/
def State.copyGoes (s : State) (msk : MReg) (us : List UReg) (c : CopyCmd) (strides : List DWord) : Prop :=
  let w := if c.fmt.pair then 8 else 4
  s.tm.active msk = true ∧ s.tm.nonePending [] us = true ∧ s.cr.copyQ.length < 16 ∧ c.n ≠ 0 ∧ c.len ≠ 0 ∧
    c.n ≤ 2 ^ 24 ∧ c.len ≤ 2 ^ 32 ∧ c.n * c.len ≤ 2 ^ 32 ∧ c.len % w = 0 ∧ strides.all (fun x => x.toNat % w == 0) = true ∧
    c.issueFails s.launch = none ∧ (s.strict = true → c.rule ≠ .any)

/-- A command has entered the copy engine's queue. -/
def State.copyQueued (s : State) (c : CopyCmd) (t : Team) : State :=
  (s.putTm { t with pc := t.pc + 16 }).putCr { s.cr with copyQ := s.cr.copyQ ++ [c] }

/-- The writes that land at the next core step point, and at the next cluster step point in an exchange window. -/
def CoreSt.due (c : CoreSt) : List Write := c.writes.filter fun w => w.left ≤ 1
def CoreSt.exDue (c : CoreSt) : List Write := c.exWrites.filter fun w => w.left ≤ 1

/-- A core has one team of a key. -/
def State.hasTeam (s : State) (core k : Nat) : Prop := (s.teamsOf core).filter (fun p => p.1 == k) = [(k, s.team k)]

/-- Nothing collides in the core's part of a step point, nor has collided in an earlier one for a team that still waits. -/
def State.landsClean (s : State) (core : Nat) : Prop :=
  let c := s.core core
  c.stepFaults = [] ∧ anySets c.due = [] ∧ (landAll c.loc [] c.due).faults = [] ∧ (landAcc c.acc (c.accWrites.filter fun w => w.left ≤ 1)).2 = []

/-- The descriptor of a product (R321). -/
def State.desc (s : State) (o : MProd) (loop : Bool) : PDesc := s.tm.pdesc o.desc loop (o.cls == .blk)

/-- The metadata words of a sparse row (R308). -/
def State.rowMeta (s : State) (o : MProd) (k it r : Nat) : Option (List Nat) :=
  o.sp.map fun m => (List.range (k / 8)).map fun j => s.tm.metaWord s.vregs m ((it * s.cr.gm + r) * (k / 8) + j)

/-- A product passes its checks (R316, R322): the team may issue it, a shape is granted, nothing is pending, the queue has room, the
descriptor has no reserved bit, its ranges lie in windows, its rows in the accumulator window, its metadata are well-formed. -/
def State.productGoes (s : State) (o : MProd) (loop : Bool) : Prop :=
  let p := s.desc o loop
  let blk := o.cls == .blk
  let words := p.cnt * s.cr.gm * (p.k / 8)
  let row (it r : Nat) : Int := (p.row : Int) + (it : Int) * p.rinc + (r : Int)
  s.tm.active o.msk = true ∧ s.cr.matQ.length < 16 ∧ (loop = true → s.tm.leader = true) ∧ s.cr.gm ≠ 0 ∧ p.k ≠ 0 ∧ p.cnt ≠ 0 ∧
    p.reserved = false ∧ ((blk = true ∨ o.sp.isSome = true) → p.k % 32 = 0) ∧
    s.tm.nonePending (match o.sp with | some m => (List.range 1024).map (m.val + ·) | none => [])
      (descRegs o.desc (if loop then (if blk then 12 else 6) else if blk then 9 else 4)) = true ∧
    matFails s.launch (s.productRanges (coreOf s.cur) o.cls o.sp.isSome p s.cr.gm s.cr.gn) = none ∧ p.misaligned = none ∧
    (∀ it ∈ List.range p.cnt, ∀ r ∈ List.range s.cr.gm, (if loop then s.cr.anyRow (row it r) else s.tm.ownsRow (row it r)) = true) ∧
    ∀ m ∈ o.sp.toList, ∀ w ∈ List.range words, metaBad (s.tm.metaWord s.vregs m w) = false

/-- The command of a product. -/
def State.productCmd (s : State) (o : MProd) (r : SMap Word × BitVec 6) : MatCmd :=
  { id := s.pendId 0, writes := [], stats := [{ bits := r.2, clu := false, left := o.land.val }]
    acc := r.1.map fun e =>
      { lti := s.tm.lti ((s.P o.msk).headD 0), seq := s.seq, elem := e.1, val := e.2, low := o.low, left := o.land.val } }

/-- A window descriptor command meets nothing that holds it up. -/
def State.matGoes (s : State) (msk : MReg) (desc : UReg) (n : Nat) : Prop :=
  s.tm.active msk = true ∧ s.tm.nonePending [] (descRegs desc n) = true ∧ s.cr.matQ.length < 16

/-- A command has entered the matrix engine's queue. -/
def State.matQueued (s : State) (cmd : MatCmd) : State :=
  (s.putTm { s.tm with pc := s.tm.pc + 16 }).putCr { s.cr with matQ := s.cr.matQ ++ [cmd] }

/-- The writes of a window command are those of the thread that issued it, under the rule and with the landing distance of its word. -/
def State.windowWrites (s : State) (msk : MReg) (low : Bool) (land : Fin 8) (cmd : MatCmd) : Prop :=
  ∀ w ∈ cmd.writes, w.2.lti = s.tm.lti ((s.P msk).headD 0) ∧ w.2.seq = s.seq ∧ w.2.rule = (if low then .low else .fault) ∧
    w.2.left = land.val ∧ w.2.claim = none

/-! ## The words of the expansion group (17, 18) -/

/-- An instruction whose results stand in a row of registers has run: the slots of x hold the words of their results, `dsts` take the
tag f, the exceptions are recorded, and nothing else of the machine has changed but the program counter. -/
def State.rowRan (s s' : State) (len : Nat) (x : MaskBits) (f : Tag) (dsts : List Nat) (out : Nat → Out) : Prop :=
  ∃ u : Team, s' = s.putTm u ∧
    u = { s.tm with pc := s.tm.pc + BitVec.ofNat 64 len, v := u.v, tag := u.tag, fflags := u.fflags, raised := [] } ∧
    u.fflags = (s.tm.lanes x).foldl (fun a i => a ||| (out i).fl.setWidth 5) s.tm.fflags ∧
    (∀ i ∈ s.tm.slotsOf x, ∀ w ∈ (out i).vals, u.rd w.1 i = w.2) ∧
    s.tm.keepsV u x (dsts.flatMap (Machine.span f.pair)) ∧ ∀ r ∈ dsts, u.tagOf r = f

/-- An instruction of the expansion group is at hand: a slot is active, every source holds f or no tag and a pair is even, the
destinations lie in the register file, and none of the registers is pending. -/
def State.mapGoes (s : State) (msk : MReg) (f : Tag) (srcs dsts : List Nat) : Prop :=
  s.tm.active msk = true ∧ (∀ r ∈ srcs, (s.tm.tagOf r = .none ∨ s.tm.tagOf r = f) ∧ (f.pair = true → r % 2 = 0)) ∧
    (∀ r ∈ dsts, r + (if f.pair then 1 else 0) < 1024) ∧
    s.tm.nonePending ((srcs ++ dsts).flatMap (Machine.span f.pair)) [] = true

/-- The operands of a translation: the coefficients of the source, both centres and, under ADD, the old coefficients. -/
def XMap.srcs (o : XMap) (x y : XDesc) : List Nat := y.span ++ y.centre ++ x.centre ++ if o.add then x.span else []

/-! ## The whole machine -/

/-- Device memory and host memory are in canonical form: keys rising, no listed byte equal to what an unlisted one reads as. -/
def State.canonical (s : State) : Prop := Memory.wf s.mem = true ∧ Memory.wf s.host = true

end Sys2Proof.Machine
end

