-- ==== Sys2Proof/Certificates/Slice0/Obligations.lean ====
section
/-! DEFINITION. The statements for the provers, from the numbered rules of spec/. -/

open Sys2Proof Sys2Proof.Machine

/-! ## G1: the vector integer group (05) -/

/-- R116: what an exact integer becomes: itself in range; the nearer bound under SAT; else its residue modulo 2^w read under the
format; and the overflow bit.

R119, R116: `add`, `sub`, `mul` with two sources, `neg` and `abs` with one, `mad` with three: the exact result, narrowed, in
each active slot, the overflow bit in OM; nothing else changes but the tag and the program counter. R78: where every live slot is
active the destination may be pending; what is pending there is superseded.

R119: the bitwise instructions and the minimum and maximum, on the patterns of the operation format. -/
def Obligations.IntegerArithmetic : Prop :=
  (∀ f ∈ integerFormats, ∀ (sat : Bool) (t : Int),
    let r := f.narrow sat t
    (f.lo ≤ f.ext r.1 ∧ f.ext r.1 ≤ f.hi) ∧
    (f.lo ≤ t ∧ t ≤ f.hi → f.ext r.1 = t ∧ r.2 = false) ∧
    (t < f.lo → r.2 = true ∧ (sat = true → f.ext r.1 = f.lo)) ∧
    (f.hi < t → r.2 = true ∧ (sat = true → f.ext r.1 = f.hi)) ∧
    (sat = false → (f.ext r.1 - t) % 2 ^ f.width = 0)) ∧
  ((∀ p ∈ ([(Instr.add, fun x y => x + y), (Instr.sub, fun x y => x - y), (Instr.mul, fun x y => x * y)] :
        List ((VArith → Instr) × (Int → Int → Int))),
    ∀ (o : VArith) (s : State), ∀ f ∈ integerFormats, s.goesOver o.msk o.fa f [o.a, o.b] o.d f = true →
      let exact (i : Nat) : DWord × Bool := f.narrow o.sat (p.2 (f.ext (s.tm.rdTag f o.a i)) (f.ext (s.tm.rdTag f o.b i)))
      ∃ s', exec (p.1 o) s = .next s' ∧
        s.ranOver s' 8 (s.tm.exec o.msk) o.d f (fun i => (exact i).1) o.om (fun i => (exact i).2)) ∧
  (∀ p ∈ ([(Instr.neg, fun x => -x), (Instr.abs, fun x => if x < 0 then -x else x)] :
        List ((VArith1 → Instr) × (Int → Int))),
    ∀ (o : VArith1) (s : State), ∀ f ∈ [Tag.i32, Tag.i64], s.goesOver o.msk o.fa f [o.a] o.d f = true →
      let exact (i : Nat) : DWord × Bool := f.narrow o.sat (p.2 (f.ext (s.tm.rdTag f o.a i)))
      ∃ s', exec (p.1 o) s = .next s' ∧
        s.ranOver s' 8 (s.tm.exec o.msk) o.d f (fun i => (exact i).1) o.om (fun i => (exact i).2)) ∧
  (∀ (o : VMad) (s : State), ∀ f ∈ integerFormats,
    s.goesOver o.msk o.fa f ([o.a, o.b] ++ match o.c with | .reg c => [c] | .imm _ => []) o.d f = true →
      let addend (i : Nat) : Int := match o.c with | .reg c => f.ext (s.tm.rdTag f c i) | .imm w => f.ext (w.signExtend 64)
      let exact (i : Nat) : DWord × Bool :=
        f.narrow o.sat (f.ext (s.tm.rdTag f o.a i) * f.ext (s.tm.rdTag f o.b i) + addend i)
      ∃ s', exec (.mad o) s = .next s' ∧
        s.ranOver s' 12 (s.tm.exec o.msk) o.d f (fun i => (exact i).1) o.om (fun i => (exact i).2))) ∧
  ((∀ p ∈ ([(Instr.and, fun x y => x &&& y), (Instr.or, fun x y => x ||| y), (Instr.xor, fun x y => x ^^^ y),
        (Instr.andn, fun x y => x &&& ~~~y)] : List ((VBin → Instr) × (DWord → DWord → DWord))),
    ∀ (o : VBin) (s : State), ∀ f ∈ integerFormats, s.goes o.msk o.fa f [o.a, o.b] [] o.d f = true →
    ∃ s', exec (p.1 o) s = .next s' ∧
      s.vectorRan s' 8 (s.tm.exec o.msk) o.d f (fun i => p.2 (s.tm.rdTag f o.a i) (s.tm.rdTag f o.b i)) 0 fun _ => false) ∧
  (∀ p ∈ ([(Instr.min, fun x y => decide (x ≤ y)), (Instr.max, fun x y => decide (y ≤ x))] :
        List ((VBin → Instr) × (Int → Int → Bool))),
    ∀ (o : VBin) (s : State), ∀ f ∈ integerFormats, s.goes o.msk o.fa f [o.a, o.b] [] o.d f = true →
    ∃ s', exec (p.1 o) s = .next s' ∧
      s.vectorRan s' 8 (s.tm.exec o.msk) o.d f
        (fun i => if p.2 (f.ext (s.tm.rdTag f o.a i)) (f.ext (s.tm.rdTag f o.b i)) then s.tm.rdTag f o.a i
          else s.tm.rdTag f o.b i) 0 fun _ => false) ∧
  (∀ (o : VUn) (s : State), ∀ f ∈ integerFormats, s.goes o.msk o.fa f [o.a] [] o.d f = true →
    ∃ s', exec (.not o) s = .next s' ∧
      s.vectorRan s' 8 (s.tm.exec o.msk) o.d f (fun i => ~~~s.tm.rdTag f o.a i) 0 fun _ => false))

/-- R119, R120 where no divisor is zero: `mulh` gives ⌊xy ÷ 2^w⌋; `div` the quotient truncated toward zero, narrowed; `rem` the
remainder of that quotient.

R120: a zero divisor raises `e.idiv` (0x12) in its slot, with the dividend extended to 64 bits, and the slot writes nothing.
The statement is of a `div` all of whose active slots have a zero divisor, before the effects are taken. -/
def Obligations.IntegerDivision : Prop :=
  ((∀ (o : VBin) (s : State), ∀ f ∈ integerFormats, s.goes o.msk o.fa f [o.a, o.b] [] o.d f = true →
    ∃ s', exec (.mulh o) s = .next s' ∧
      s.vectorRan s' 8 (s.tm.exec o.msk) o.d f
        (fun i => BitVec.ofInt 64 (f.ext (s.tm.rdTag f o.a i) * f.ext (s.tm.rdTag f o.b i) / 2 ^ f.width)) 0 fun _ => false) ∧
  (∀ (o : VArith) (s : State), ∀ f ∈ integerFormats, s.goes o.msk o.fa f [o.a, o.b] [] o.d f = true →
    (∀ i ∈ s.tm.slotsOf (s.tm.exec o.msk), f.ext (s.tm.rdTag f o.b i) ≠ 0) →
      let exact (i : Nat) : DWord × Bool :=
        f.narrow o.sat ((f.ext (s.tm.rdTag f o.a i)).tdiv (f.ext (s.tm.rdTag f o.b i)))
      ∃ s', exec (.div o) s = .next s' ∧
        s.vectorRan s' 8 (s.tm.exec o.msk) o.d f (fun i => (exact i).1) o.om (fun i => (exact i).2)) ∧
  (∀ (o : VBin) (s : State), ∀ f ∈ integerFormats, s.goes o.msk o.fa f [o.a, o.b] [] o.d f = true →
    (∀ i ∈ s.tm.slotsOf (s.tm.exec o.msk), f.ext (s.tm.rdTag f o.b i) ≠ 0) →
    ∃ s', exec (.rem o) s = .next s' ∧
      s.vectorRan s' 8 (s.tm.exec o.msk) o.d f
        (fun i => BitVec.ofInt 64 ((f.ext (s.tm.rdTag f o.a i)).tmod (f.ext (s.tm.rdTag f o.b i)))) 0 fun _ => false)) ∧
  (∀ (o : VArith) (s : State), ∀ f ∈ integerFormats, s.goes o.msk o.fa f [o.a, o.b] [] o.d f = true →
    (∀ i ∈ s.tm.slotsOf (s.tm.exec o.msk), f.ext (s.tm.rdTag f o.b i) = 0) →
    ∃ u : Team, exec (.div o) s = .next ((s.putTm u).deliver s.cur) ∧
      u.raised.map (fun r => (r.slot, r.eff, r.payload, r.pc)) =
        (s.tm.lanes (s.tm.exec o.msk)).map (fun i => (i, 0x12, BitVec.ofInt 64 (f.ext (s.tm.rdTag f o.a i)), s.tm.pc + 8)) ∧
      (∀ r i, u.rd r i = s.tm.rd r i) ∧ (∀ q : MReg, u.m[q] = s.tm.m[q]) ∧ s.tm.retagged u o.d f)

/-- R122: the shift instructions write the shifted pattern of a.

R123: `clz`, `ctz` and `popc` write a count to the single register d with tag N32; `brev` reverses the pattern.

R124: bit fields. `bfe` takes l bits from position p of the infinite extension of a, sign-extended under an I format; `bfi`
puts the low l bits of b at positions p to min(p + l, w) − 1. -/
def Obligations.ShiftsAndBitFields : Prop :=
  (∀ p ∈ shiftRows, ∀ (o : VShift) (s : State), ∀ f ∈ integerFormats,
    s.goes o.msk o.fa f [o.a] (match o.amt with | .reg r => [r] | .imm _ => []) o.d f = true →
    let n (i : Nat) : Nat := match o.amt with | .reg r => (s.tm.rd r i).toNat | .imm k => k.val
    ∃ s', exec (p.1 o) s = .next s' ∧
      s.vectorRan s' 8 (s.tm.exec o.msk) o.d f
        (fun i => (p.2 f.width ((s.tm.rdTag f o.a i).setWidth f.width) (n i)).setWidth 64) 0 fun _ => false) ∧
  ((∀ p ∈ ([(Instr.clz, fun w l => w - (l.getLast?.map (· + 1)).getD 0), (Instr.ctz, fun w l => l.head?.getD w),
        (Instr.popc, fun _ l => l.length)] : List ((VUn → Instr) × (Nat → List Nat → Nat))),
    ∀ (o : VUn) (s : State), ∀ f ∈ integerFormats, s.goes o.msk o.fa f [o.a] [] o.d .n32 = true →
    ∃ s', exec (p.1 o) s = .next s' ∧
      s.vectorRan s' 8 (s.tm.exec o.msk) o.d .n32
        (fun i => BitVec.ofNat 64 (p.2 f.width (setBits f.width (s.tm.rdTag f o.a i)))) 0 fun _ => false) ∧
  (∀ (o : VUn) (s : State), ∀ f ∈ integerFormats, s.goes o.msk o.fa f [o.a] [] o.d f = true →
    ∃ s', exec (.brev o) s = .next s' ∧
      s.vectorRan s' 8 (s.tm.exec o.msk) o.d f
        (fun i => ((s.tm.rdTag f o.a i).setWidth f.width).reverse.setWidth 64) 0 fun _ => false)) ∧
  ((∀ (o : VBfe) (s : State), ∀ f ∈ integerFormats,
    s.goes o.msk o.fa f [o.a] (match o.fld with | .reg c => [c] | .imm _ _ => []) o.d f = true →
    let p (i : Nat) : Nat := match o.fld with | .imm p _ => p.val | .reg c => (s.tm.rd c i).toNat % 64
    let l (i : Nat) : Nat := match o.fld with | .imm _ l => l.val | .reg c => Nat.min ((s.tm.rd c i).toNat / 256 % 128) 64
    let field (i : Nat) : Int := f.ext (s.tm.rdTag f o.a i) / 2 ^ p i % 2 ^ l i
    ∃ s', exec (.bfe o) s = .next s' ∧
      s.vectorRan s' 12 (s.tm.exec o.msk) o.d f
        (fun i => BitVec.ofInt 64
          (if f.signed = true ∧ 0 < l i ∧ 2 ^ (l i - 1) ≤ field i then field i - 2 ^ l i else field i)) 0 fun _ => false) ∧
  (∀ (o : VBfi) (s : State), ∀ f ∈ integerFormats,
    s.goes o.msk o.fa f [o.a, o.b] (match o.fld with | .reg c => [c] | .imm _ _ => []) o.d f = true →
    let p (i : Nat) : Nat := match o.fld with | .imm p _ => p.val | .reg c => (s.tm.rd c i).toNat % 64
    let l (i : Nat) : Nat := match o.fld with | .imm _ l => l.val | .reg c => Nat.min ((s.tm.rd c i).toNat / 256 % 128) 64
    ∃ (s' : State) (val : Nat → DWord), exec (.bfi o) s = .next s' ∧
      s.vectorRan s' 12 (s.tm.exec o.msk) o.d f val 0 (fun _ => false) ∧
      ∀ i k, k < f.width → (val i).getLsbD k =
        (if p i ≤ k ∧ k < p i + l i then decide (f.ext (s.tm.rdTag f o.b i) / 2 ^ (k - p i) % 2 = 1)
         else (s.tm.rdTag f o.a i).getLsbD k)))

/-- R125: `cmp` writes the bit of each active slot; under Z every other bit below the capacity is cleared, else it is kept. No
vector register, tag or other mask changes.

R126 to R130: `sel`, `mov` (of a register that holds a tag other than NONE, by the name of the even register), `movi`, `addc`
and `cvti`. -/
def Obligations.IntegerComparesAndMoves : Prop :=
  (∀ (o : VCmp) (s : State), ∀ f ∈ integerFormats, o.d ≠ 0 → s.tm.active o.msk = true → s.tm.typed o.fa f [o.a, o.b] = true →
    s.tm.nonePending ([o.a, o.b].flatMap fun r => span f.pair r.val) [] = true →
    ∃ u : Team, exec (.cmp o) s = .next (s.putTm u) ∧
      u = { s.tm with pc := s.tm.pc + 8, m := u.m, raised := [] } ∧ (∀ q : MReg, q ≠ o.d → u.m[q] = s.tm.m[q]) ∧
      ∀ i, i < s.tm.cap → (u.m[o.d].getLsbD i = true ↔
        if i ∈ s.tm.slotsOf (s.tm.exec o.msk) then compares o.cc (f.ext (s.tm.rdTag f o.a i)) (f.ext (s.tm.rdTag f o.b i))
        else o.z = false ∧ s.tm.m[o.d].getLsbD i = true)) ∧
  ((∀ (o : VSel) (s : State) (f : Tag), s.goes o.msk o.fa f [o.a, o.b] [] o.d f = true →
    ∃ s', exec (.sel o) s = .next s' ∧
      s.vectorRan s' 8 (s.tm.exec o.msk) o.d f
        (fun i => if s.tm.m[o.sm].getLsbD i then s.tm.rdTag f o.a i else s.tm.rdTag f o.b i) 0 fun _ => false) ∧
  (∀ (o : VUn) (s : State), s.tm.active o.msk = true →
    let f := if o.fa = .none then s.tm.tagOf o.a else o.fa
    (f.pair = true → o.a.val % 2 = 0) → destFits s.vregs f o.d = true →
    s.tm.nonePending (span f.pair o.a.val ++ span f.pair o.d.val) [] = true →
    ∃ s', exec (.mov o) s = .next s' ∧
      s.vectorRan s' 8 (s.tm.exec o.msk) o.d f (fun i => s.tm.rdTag f o.a i) 0 fun _ => false) ∧
  (∀ (o : VMovi) (s : State), s.tm.active o.msk = true → destFits s.vregs o.fa o.d = true →
    s.tm.nonePending (span o.fa.pair o.d.val) [] = true →
    ∃ s', exec (.movi o) s = .next s' ∧
      s.vectorRan s' 12 (s.tm.exec o.msk) o.d o.fa
        (fun _ => if o.fa = .i64 then o.imm.signExtend 64 else if o.fa = .f64 then o.imm.setWidth 64 <<< 32
          else o.imm.setWidth 64) 0 fun _ => false) ∧
  (∀ (o : VAddc) (s : State), ∀ f ∈ integerFormats, s.goes o.msk o.fa f [o.a, o.b] [] o.d f = true →
    let x (i : Nat) : Nat := (s.tm.rdTag f o.a i).toNat
    let y (i : Nat) : Nat := (s.tm.rdTag f o.b i).toNat
    let c (i : Nat) : Nat := if o.ci ≠ 0 ∧ s.tm.m[o.ci].getLsbD i = true then 1 else 0
    ∃ s', exec (.addc o) s = .next s' ∧
      s.vectorRan s' 12 (s.tm.exec o.msk) o.d f
        (fun i => if o.bor then BitVec.ofInt 64 ((x i : Int) - y i - c i) else BitVec.ofNat 64 (x i + y i + c i)) o.co
        (fun i => if o.bor then decide (x i < y i + c i) else decide (2 ^ f.width ≤ x i + y i + c i))) ∧
  (∀ (o : VCvti) (s : State), ∀ f ∈ integerFormats, o.tgt ∈ integerFormats → s.goes o.msk .none f [o.a] [] o.d o.tgt = true →
    let exact (i : Nat) : DWord × Bool := o.tgt.narrow true (f.ext (s.tm.rdTag f o.a i))
    ∃ s', exec (.cvti o) s = .next s' ∧
      s.vectorRan s' 8 (s.tm.exec o.msk) o.d o.tgt (fun i => (exact i).1) o.om (fun i => (exact i).2)))

/-! ## G2: the mask group, and G3: the uniform group (05) -/

/-- R132: the mask instructions with mask sources write the bits of the active slots of md, from the bits of the same slots; every
other bit below the capacity, every other mask and everything else of the machine is unchanged. They read no register that can be
pending, and run whatever is.

R132: `mfrom` sets a bit where the raw 32-bit element is not zero; `mto` writes 1 or all ones where the bit is set and 0 where
it is not, with tag I32. -/
def Obligations.MaskOperations : Prop :=
  (∀ p ∈ ([(fun k d a b => .mand ⟨k, d, a, b⟩, fun x y => x && y), (fun k d a b => .mor ⟨k, d, a, b⟩, fun x y => x || y),
      (fun k d a b => .mxor ⟨k, d, a, b⟩, fun x y => x != y), (fun k d a b => .mandn ⟨k, d, a, b⟩, fun x y => x && !y),
      (fun k d a _ => .mnot ⟨k, d, a⟩, fun x _ => !x), (fun k d _ _ => .mset ⟨k, d, true⟩, fun _ _ => true),
      (fun k d _ _ => .mset ⟨k, d, false⟩, fun _ _ => false)] :
        List ((MReg → MReg → MReg → MReg → Instr) × (Bool → Bool → Bool))),
  ∀ (msk d a b : MReg) (s : State), d ≠ 0 → s.tm.active msk = true →
    ∃ u : Team, exec (p.1 msk d a b) s = .next (s.putTm u) ∧ u = { s.tm with pc := s.tm.pc + 8, m := u.m } ∧
      s.tm.maskWrote u (s.tm.exec msk) d fun i => p.2 (s.tm.m[a].getLsbD i) (s.tm.m[b].getLsbD i)) ∧
  ((∀ (o : MFrom) (s : State), o.d ≠ 0 → s.tm.active o.msk = true → s.tm.nonePending [o.a.val] [] = true →
    ∃ u : Team, exec (.mfrom o) s = .next (s.putTm u) ∧ u = { s.tm with pc := s.tm.pc + 8, m := u.m, raised := [] } ∧
      s.tm.maskWrote u (s.tm.exec o.msk) o.d fun i => decide (s.tm.rd o.a i ≠ 0)) ∧
  (∀ (o : MTo) (s : State), s.tm.active o.msk = true → s.tm.nonePending [o.d.val] [] = true →
    ∃ s', exec (.mto o) s = .next s' ∧
      s.vectorRan s' 8 (s.tm.exec o.msk) o.d .i32
        (fun i => if s.tm.m[o.a].getLsbD i then (if o.ones then 0xFFFFFFFF else 1) else 0) 0 fun _ => false))

/-- R133: `mcnt` counts the active slots of a mask, `mfirst` gives the one of lowest LTI, or −1; both write also when no slot is
active, and supersede what was pending on the register, which bits 22 to 16 of the word name. -/
def Obligations.MaskCounts : Prop :=
  ∀ (o : MCount) (s : State),
    (∀ w, encode (.mcnt o) = some w ∨ encode (.mfirst o) = some w → w / 2 ^ 16 % 2 ^ 7 = o.d.val) ∧
    let x := s.tm.m[o.a] &&& (s.tm.m[o.msk] &&& s.tm.m[0])
    (∃ u : Team, exec (.mcnt o) s = .next (s.putTm u) ∧
      s.tm.wroteS u 8 o.d (BitVec.ofNat 64 (s.tm.slotsOf x).length)) ∧
    (∃ (u : Team) (v : DWord), exec (.mfirst o) s = .next (s.putTm u) ∧ s.tm.wroteS u 8 o.d v ∧
      (s.tm.slotsOf x = [] → v = BitVec.allOnes 64) ∧
      (s.tm.slotsOf x ≠ [] → ∃ i ∈ s.tm.slotsOf x, v = BitVec.ofNat 64 i ∧
        ∀ j ∈ s.tm.slotsOf x, (s.tm.lti i).toNat ≤ (s.tm.lti j).toNat))

/-- R134 to R139: the uniform instructions with a uniform destination: with an active slot and no source pending, sd takes the
64-bit result, and nothing else changes.

R138: `sli` writes IMM21 at its position: sign-extended over the whole register, or into bits 41 to 21, 62 to 42, or bit 63,
the other bits kept. At position 0 it does not wait for sd.

R136: `sdiv` truncates toward zero; by a zero divisor the quotient is all ones and the remainder the dividend; q reports a zero
divisor or the overflow of the signed quotient, which wraps.

R137, R140: `scmp` and `qop` write one condition bit and nothing else. -/
def Obligations.UniformOperations : Prop :=
  ((∀ p ∈ uniformRows, ∀ (o : SBin) (s : State), s.tm.active o.msk = true → s.tm.nonePending [] (o.a :: USrc.regs o.b) = true →
    ∃ u : Team, exec (p.1 o) s = .next (s.putTm u) ∧ s.tm.wroteS u 8 o.d (p.2 s.tm.s[o.a] (s.tm.usrc o.b))) ∧
  (∀ (o : SMinMax) (s : State), s.tm.active o.msk = true → s.tm.nonePending [] (o.a :: USrc.regs o.b) = true →
    let x := s.tm.s[o.a]
    let y := s.tm.usrc o.b
    let below := if o.u then decide (x.toNat < y.toNat) else decide (x.toInt < y.toInt)
    (∃ u : Team, exec (.smin o) s = .next (s.putTm u) ∧ s.tm.wroteS u 8 o.d (if below then x else y)) ∧
    (∃ u : Team, exec (.smax o) s = .next (s.putTm u) ∧ s.tm.wroteS u 8 o.d (if below then y else x))) ∧
  (∀ (o : SSel) (s : State), s.tm.active o.msk = true → s.tm.nonePending [] (o.a :: USrc.regs o.b) = true →
    ∃ u : Team, exec (.ssel o) s = .next (s.putTm u) ∧
      s.tm.wroteS u 8 o.d (if s.tm.q[o.q] then s.tm.s[o.a] else s.tm.usrc o.b)) ∧
  (∀ p ∈ ([(Instr.smov, fun x => x),
        (Instr.sclz, fun x => BitVec.ofNat 64 (64 - ((setBits 64 x).getLast?.map (· + 1)).getD 0)),
        (Instr.spopc, fun x => BitVec.ofNat 64 (setBits 64 x).length)] : List ((SUn → Instr) × (DWord → DWord))),
    ∀ (o : SUn) (s : State), s.tm.active o.msk = true → s.tm.nonePending [] [o.a] = true →
    ∃ u : Team, exec (p.1 o) s = .next (s.putTm u) ∧ s.tm.wroteS u 8 o.d (p.2 s.tm.s[o.a])) ∧
  (∀ (o : SBfe) (s : State), s.tm.active o.msk = true → s.tm.nonePending [] [o.a] = true →
    let field : Int := (if o.sx then s.tm.s[o.a].toInt else (s.tm.s[o.a].toNat : Int)) / 2 ^ o.p.val % 2 ^ o.l.val
    ∃ u : Team, exec (.sbfe o) s = .next (s.putTm u) ∧
      s.tm.wroteS u 8 o.d (BitVec.ofInt 64
        (if o.sx = true ∧ 0 < o.l.val ∧ 2 ^ (o.l.val - 1) ≤ field then field - 2 ^ o.l.val else field)))) ∧
  (∀ (o : SLi) (s : State), s.tm.active o.msk = true → (o.pos = 0 ∨ s.tm.nonePending [] [o.d] = true) →
    ∃ (u : Team) (v : DWord), exec (.sli o) s = .next (s.putTm u) ∧ s.tm.wroteS u 8 o.d v ∧
      (o.pos = 0 → v = o.imm.signExtend 64) ∧
      (∀ (lo hi : Nat), (o.pos, lo, hi) ∈ [((1 : Fin 4), 21, 42), (2, 42, 63), (3, 63, 64)] →
        ∀ k, k < 64 → v.getLsbD k = if lo ≤ k ∧ k < hi then o.imm.getLsbD (k - lo) else s.tm.s[o.d].getLsbD k)) ∧
  (∀ (o : SDiv) (s : State), s.tm.active o.msk = true → s.tm.nonePending [] (o.a :: USrc.regs o.b) = true →
    let a := s.tm.s[o.a]
    let b := s.tm.usrc o.b
    let x : Int := if o.u then (a.toNat : Int) else a.toInt
    let y : Int := if o.u then (b.toNat : Int) else b.toInt
    ∃ u : Team, exec (.sdiv o) s = .next (s.putTm u) ∧
      s.tm.wroteS { u with q := s.tm.q } 8 o.d
        (if y = 0 then (if o.rem then a else BitVec.allOnes 64)
          else BitVec.ofInt 64 (if o.rem then x.tmod y else x.tdiv y)) ∧
      s.tm.wroteQ u o.q (decide (y = 0) || decide (o.u = false ∧ x = -(2 ^ 63) ∧ y = -1))) ∧
  ((∀ (o : SCmp) (s : State), s.tm.active o.msk = true → s.tm.nonePending [] (o.a :: USrc.regs o.b) = true →
    let x : Int := if o.u then (s.tm.s[o.a].toNat : Int) else s.tm.s[o.a].toInt
    let y : Int := if o.u then ((s.tm.usrc o.b).toNat : Int) else (s.tm.usrc o.b).toInt
    ∃ (u : Team) (b : Bool), exec (.scmp o) s = .next (s.putTm u) ∧ u = { s.tm with pc := s.tm.pc + 8, q := u.q } ∧
      s.tm.wroteQ u o.q b ∧ (b = true ↔ compares o.cc x y)) ∧
  (∀ (o : QOp) (s : State), s.tm.active o.msk = true →
    s.tm.nonePending [] (match o.op with | .test r => [r] | _ => []) = true →
    ∃ u : Team, exec (.qop o) s = .next (s.putTm u) ∧ u = { s.tm with pc := s.tm.pc + 8, q := u.q } ∧
      s.tm.wroteQ u o.d (match o.op with
        | .and a b => s.tm.q[a] && s.tm.q[b] | .or a b => s.tm.q[a] || s.tm.q[b] | .xor a b => s.tm.q[a] ^^ s.tm.q[b]
        | .andn a b => s.tm.q[a] && !s.tm.q[b] | .not a => !s.tm.q[a] | .set v => v | .test r => decide (s.tm.s[r] ≠ 0)
        | .mov a => s.tm.q[a])))

/-! ## G4: the float group (06) -/

/-- R141, R142, R88, R94: `fadd`, `fsub`, `fmul`, `fdiv`, `fsqrt`, `fma` and `fnma` write in each element the exact result rounded once
in the mode that MOD names; the exceptions of all slots are added to `%fflags`. No exception being enabled to trap, nothing else
changes.

R151, R152: the functions of one source, with the exceptions of each element; no exception being enabled to trap, nothing else
changes.

R144, R87: a NaN operand of `fadd`, `fsub`, `fmul` or `fdiv` gives the first NaN operand, quieted, and invalid exactly where some
operand is signalling; the difference of two infinities of one sign and 0 × ∞, 0 ÷ 0, ∞ ÷ ∞ are invalid and give the default NaN. -/
def Obligations.FloatArithmetic : Prop :=
  ((∀ p ∈ floatRows, ∀ (o : FBin) (s : State), ∀ f ∈ floatFormats, s.goes o.msk o.fa f [o.a, o.b] [] o.d f = true →
    let r (i : Nat) : DWord × BitVec 6 :=
      packed f fun k => p.2 (ieeeOf f) (s.tm.mode o.rnd) (s.tm.number f o.a i k) (s.tm.number f o.b i k)
    s.noTrap o.msk (fun i => (r i).2) →
    ∃ s', exec (p.1 o) s = .next s' ∧
      s.floatRan s' 8 (s.tm.exec o.msk) o.d f (fun i => (r i).1) (fun i => (r i).2)) ∧
  (∀ (o : FUn) (s : State), ∀ f ∈ floatFormats, s.goes o.msk o.fa f [o.a] [] o.d f = true →
    let r (i : Nat) : DWord × BitVec 6 := packed f fun k => fSqrt (ieeeOf f) (s.tm.mode o.rnd) (s.tm.number f o.a i k)
    s.noTrap o.msk (fun i => (r i).2) →
    ∃ s', exec (.fsqrt o) s = .next s' ∧
      s.floatRan s' 8 (s.tm.exec o.msk) o.d f (fun i => (r i).1) (fun i => (r i).2)) ∧
  (∀ p ∈ ([(Instr.fma, false), (Instr.fnma, true)] : List ((FMad → Instr) × Bool)),
    ∀ (o : FMad) (s : State), ∀ f ∈ floatFormats,
    s.goes o.msk o.fa f ([o.a, o.b] ++ match o.c with | .reg c => [c] | .imm _ => []) [] o.d f = true →
    let c (i k : Nat) : FVal := match o.c with
      | .reg c => s.tm.number f c i k
      | .imm w => (ieeeOf f).val (getElem' f (if f = .f64 then w.setWidth 64 <<< 32 else w.setWidth 64) k)
    let r (i : Nat) : DWord × BitVec 6 :=
      packed f fun k => fFma (ieeeOf f) (s.tm.mode o.rnd) p.2 (s.tm.number f o.a i k) (s.tm.number f o.b i k) (c i k)
    s.noTrap o.msk (fun i => (r i).2) →
    ∃ s', exec (p.1 o) s = .next s' ∧
      s.floatRan s' 12 (s.tm.exec o.msk) o.d f (fun i => (r i).1) (fun i => (r i).2))) ∧
  (∀ p ∈ functionRows, ∀ (o : VUn) (s : State), ∀ f ∈ p.2.1, s.goes o.msk o.fa f [o.a] [] o.d f = true →
    let r (i : Nat) : DWord × BitVec 6 := packed f fun k => p.2.2 (ieeeOf f) (s.tm.number f o.a i k)
    s.noTrap o.msk (fun i => (r i).2) →
    ∃ s', exec (p.1 o) s = .next s' ∧
      s.floatRan s' 8 (s.tm.exec o.msk) o.d f (fun i => (r i).1) (fun i => (r i).2)) ∧
  ((∀ p ∈ floatRows, ∀ (F : Ieee) (md : RMode) (x y : FVal), x.isNan = true ∨ y.isNan = true →
    p.2 F md x y = (F.quiet (if x.isNan then x else y), if x.isSig || y.isSig then flSN else 0)) ∧
  (∀ (F : Ieee) (md : RMode) (a : Bool), fAdd F md (.inf a) (.inf !a) = (F.qnan, flNV) ∧ fSub F md (.inf a) (.inf a) = (F.qnan, flNV) ∧
    ∀ (b c : Bool) (e : Int), fMul F md (.inf a) (.fin b 0 e) = (F.qnan, flNV) ∧ fMul F md (.fin b 0 e) (.inf a) = (F.qnan, flNV) ∧
      fDiv F md (.inf a) (.inf c) = (F.qnan, flNV) ∧ fDiv F md (.fin a 0 e) (.fin b 0 e) = (F.qnan, flNV)))

/-- R89: an enabled exception raises `e.fpx` (0x04) in its slot, with the exceptions as payload, and the slot writes nothing; the flags
are set all the same. The statement is of an `fadd` all of whose active slots trap, before the effects are taken. -/
def Obligations.EnabledExceptionsTrap : Prop :=
  ∀ (o : FBin) (s : State), ∀ f ∈ floatFormats, s.goes o.msk o.fa f [o.a, o.b] [] o.d f = true →
    let r (i : Nat) : DWord × BitVec 6 :=
      packed f fun k => fAdd (ieeeOf f) (s.tm.mode o.rnd) (s.tm.number f o.a i k) (s.tm.number f o.b i k)
    (∀ i ∈ s.tm.slotsOf (s.tm.exec o.msk), fpxTraps s.tm.fen (r i).2 = true) →
    ∃ u : Team, exec (.fadd o) s = .next ((s.putTm u).deliver s.cur) ∧
      u.raised.map (fun q => (q.slot, q.eff, q.payload, q.pc)) =
        (s.tm.lanes (s.tm.exec o.msk)).map (fun i => (i, 4, (r i).2.setWidth 64, s.tm.pc + 8)) ∧
      u.fflags = (s.tm.lanes (s.tm.exec o.msk)).foldl (fun a i => a ||| (r i).2.setWidth 5) s.tm.fflags ∧
      ∀ q i, u.rd q i = s.tm.rd q i

/-- R144, R145: `fabs`, `fneg` and `fcpsgn` change the sign bits of the elements and nothing else, without exceptions; `fmin` and `fmax`
give the lesser and the greater number.

R146 to R150: `fcmp` writes a mask; `fclass` a class bit for each element, `fexpo` an exponent, `frnd` an integral value, `fscale`
a product by a power of two. -/
def Obligations.FloatSignsComparesAndParts : Prop :=
  ((∀ (o : VUn) (s : State), ∀ f ∈ floatFormats, s.goes o.msk o.fa f [o.a] [] o.d f = true →
    (∃ s', exec (.fabs o) s = .next s' ∧
      s.vectorRan s' 8 (s.tm.exec o.msk) o.d f (fun i => s.tm.rdTag f o.a i &&& ~~~signBits f) 0 fun _ => false) ∧
    (∃ s', exec (.fneg o) s = .next s' ∧
      s.vectorRan s' 8 (s.tm.exec o.msk) o.d f (fun i => s.tm.rdTag f o.a i ^^^ signBits f) 0 fun _ => false)) ∧
  (∀ (o : VBin) (s : State), ∀ f ∈ floatFormats, s.goes o.msk o.fa f [o.a, o.b] [] o.d f = true →
    ∃ s', exec (.fcpsgn o) s = .next s' ∧
      s.vectorRan s' 8 (s.tm.exec o.msk) o.d f
        (fun i => (s.tm.rdTag f o.a i &&& ~~~signBits f) ||| (s.tm.rdTag f o.b i &&& signBits f)) 0 fun _ => false) ∧
  (∀ p ∈ ([(Instr.fmin, false), (Instr.fmax, true)] : List ((VBin → Instr) × Bool)),
    ∀ (o : VBin) (s : State), ∀ f ∈ floatFormats, s.goes o.msk o.fa f [o.a, o.b] [] o.d f = true →
    let r (i : Nat) : DWord × BitVec 6 := packed f fun k => fMinMax (ieeeOf f) p.2 (s.tm.el f o.a i k) (s.tm.el f o.b i k)
    s.noTrap o.msk (fun i => (r i).2) →
    ∃ s', exec (p.1 o) s = .next s' ∧
      s.floatRan s' 8 (s.tm.exec o.msk) o.d f (fun i => (r i).1) (fun i => (r i).2))) ∧
  ((∀ (o : FCmp) (s : State), ∀ f ∈ floatFormats, (o.el = true → f = .bf16x2 ∨ f = .f16x2) → o.d ≠ 0 → s.tm.active o.msk = true →
    s.tm.typed o.fa f [o.a, o.b] = true → s.tm.nonePending ([o.a, o.b].flatMap fun r => span f.pair r.val) [] = true →
    let r (i : Nat) : Bool × BitVec 6 :=
      fCompare o.cc (s.tm.number f o.a i (if o.el then 1 else 0)) (s.tm.number f o.b i (if o.el then 1 else 0))
    s.noTrap o.msk (fun i => (r i).2) →
    ∃ u : Team, exec (.fcmp o) s = .next (s.putTm u) ∧
      u = { s.tm with pc := s.tm.pc + 8, m := u.m, fflags := u.fflags, raised := [] } ∧
      u.fflags = (s.tm.lanes (s.tm.exec o.msk)).foldl (fun a i => a ||| (r i).2.setWidth 5) s.tm.fflags ∧
      (∀ q : MReg, q ≠ o.d → u.m[q] = s.tm.m[q]) ∧
      ∀ i, i < s.tm.cap → u.m[o.d].getLsbD i =
        if i ∈ s.tm.slotsOf (s.tm.exec o.msk) then (r i).1 else !o.z && s.tm.m[o.d].getLsbD i) ∧
  (∀ (o : VUn) (s : State), ∀ f ∈ floatFormats, s.goes o.msk o.fa f [o.a] [] o.d .n32 = true →
    ∃ s', exec (.fclass o) s = .next s' ∧
      s.vectorRan s' 8 (s.tm.exec o.msk) o.d .n32
        (fun i => BitVec.ofNat 64 (fClass (ieeeOf f) (s.tm.el f o.a i 0) +
          if f = .bf16x2 ∨ f = .f16x2 then fClass (ieeeOf f) (s.tm.el f o.a i 1) * 2 ^ 16 else 0)) 0 fun _ => false) ∧
  (∀ (o : VUn) (s : State), ∀ f ∈ [Tag.f32, Tag.f64], s.goes o.msk o.fa f [o.a] [] o.d .i32 = true →
    let r (i : Nat) : FRes := fExpo (s.tm.number f o.a i 0)
    s.noTrap o.msk (fun i => (r i).2) →
    ∃ s', exec (.fexpo o) s = .next s' ∧
      s.floatRan s' 8 (s.tm.exec o.msk) o.d .i32 (fun i => BitVec.ofNat 64 (r i).1) (fun i => (r i).2)) ∧
  (∀ (o : FUn) (s : State), ∀ f ∈ floatFormats, s.goes o.msk o.fa f [o.a] [] o.d f = true →
    let r (i : Nat) : DWord × BitVec 6 := packed f fun k => fIntegral (ieeeOf f) (s.tm.mode o.rnd) (s.tm.el f o.a i k)
    s.noTrap o.msk (fun i => (r i).2) →
    ∃ s', exec (.frnd o) s = .next s' ∧
      s.floatRan s' 8 (s.tm.exec o.msk) o.d f (fun i => (r i).1) (fun i => (r i).2)) ∧
  (∀ (o : FBin) (s : State), ∀ f ∈ [Tag.f32, Tag.f64], s.goes o.msk o.fa f [o.a] [o.b] o.d f = true →
    let r (i : Nat) : DWord × BitVec 6 :=
      packed f fun _ => fScale (ieeeOf f) (s.tm.mode o.rnd) (s.tm.number f o.a i 0) (s.tm.rd o.b i).toInt
    s.noTrap o.msk (fun i => (r i).2) →
    ∃ s', exec (.fscale o) s = .next s' ∧
      s.floatRan s' 8 (s.tm.exec o.msk) o.d f (fun i => (r i).1) (fun i => (r i).2)))

/-- R153 to R155, R96: `fcvt` and `fcvti` convert the elements that POS selects, in the mode that MOD names, and keep the other elements of
a wider destination; the stochastic mode draws one count of the slot's conversion counter for each conversion; `fpack` rounds two numbers into one register. -/
def Obligations.FloatConversions : Prop :=
  (∀ p ∈ ([(Instr.fcvt, fun f _ => isFloatTag f), (Instr.fcvti, fun f g => if isIntTag g then isFloatTag f else isIntTag f)] :
        List ((FCvt → Instr) × (Tag → Tag → Bool))),
    ∀ (o : FCvt) (s : State) (f : Tag), p.2 f o.tgt = true → posOk (elemCount f) (elemCount o.tgt) o.pos = true →
    s.goes o.msk .none f [o.a] [] o.d o.tgt = true →
    let r (i : Nat) : Out := convOut s.tm o f i
    s.noTrap o.msk (fun i => (r i).fl) →
    ∃ (u : Team) (val : Nat → DWord), exec (p.1 o) s = .next (s.putTm u) ∧
      s.floatRan (s.putTm { u with ctr := s.tm.ctr }) 8 (s.tm.exec o.msk) o.d o.tgt val (fun i => (r i).fl) ∧
      (∀ i, (r i).vals = words o.d o.tgt.pair (val i)) ∧
      ∀ i, u.ctr.get 0 i = s.tm.ctr.get 0 i +
        if o.rnd = .sr ∧ i ∈ s.tm.slotsOf (s.tm.exec o.msk) then BitVec.ofNat 32 (Nat.min (elemCount f) (elemCount o.tgt)) else 0) ∧
  (∀ (o : FPack) (s : State), ∀ f ∈ [Tag.f32, Tag.f64],
    let g : Tag := if o.f16 then .f16x2 else .bf16x2
    s.goes o.msk o.fa f [o.a, o.b] [] o.d g = true →
    let r (i : Nat) : DWord × BitVec 6 :=
      packed g fun k => (elemOf g).conv (s.tm.mode o.rnd) (s.tm.number f (if k = 0 then o.a else o.b) i 0)
    s.noTrap o.msk (fun i => (r i).2) →
    ∃ s', exec (.fpack o) s = .next s' ∧
      s.floatRan s' 8 (s.tm.exec o.msk) o.d g (fun i => (r i).1) (fun i => (r i).2))

/-- R156, R157: the online-softmax instructions replace the running sum and the running maximum of each active slot. Where one register is
both (S = M), the maximum, which the entries assign last, stands (log 60). -/
def Obligations.OnlineSoftmax : Prop :=
  ∀ p ∈ ([(Instr.smxi, .i32, fun b s m l => let r := smxiSlot b s.toNat m.toInt l; (r.1, (BitVec.ofInt 32 r.2.1).toNat, r.2.2)),
      (Instr.smxf, .f32, fun b s m l => smxfSlot b s.toNat m.toNat l)] :
        List ((Smx → Instr) × Tag × (Bool → Word → Word → List Nat → Nat × Nat × BitVec 6))),
  ∀ (o : Smx) (s : State),
    let scores := (List.range (o.n1.val + 1)).map fun j => o.b.val + j
    s.tm.active o.msk = true → s.tm.holds ((o.d.val, .f32) :: (o.a.val, p.2.1) :: scores.map fun r => (r, .f32)) = true →
    s.tm.nonePending (o.d.val :: o.a.val :: scores) [] = true →
    let r (i : Nat) : Nat × Nat × BitVec 6 :=
      p.2.2 o.b2 (s.tm.rd o.d i) (s.tm.rd o.a i) (scores.map fun q => (s.tm.rd q i).toNat)
    s.noTrap o.msk (fun i => (r i).2.2) →
    ∃ u : Team, exec (p.1 o) s = .next (s.putTm u) ∧
      u = { s.tm with pc := s.tm.pc + 12, v := u.v, tag := u.tag, fflags := u.fflags, raised := [] } ∧
      u.fflags = (s.tm.lanes (s.tm.exec o.msk)).foldl (fun a i => a ||| (r i).2.2.setWidth 5) s.tm.fflags ∧
      (∀ i ∈ s.tm.slotsOf (s.tm.exec o.msk), u.rd o.a i = BitVec.ofNat 32 (r i).2.1 ∧
        (o.d ≠ o.a → u.rd o.d i = BitVec.ofNat 32 (r i).1)) ∧
      s.tm.keepsV u (s.tm.exec o.msk) [o.d.val, o.a.val] ∧ u.tagOf o.a = p.2.1 ∧ (o.d ≠ o.a → u.tagOf o.d = .f32) ∧
      ∀ q, q ≠ o.d.val → q ≠ o.a.val → u.tagOf q = s.tm.tagOf q

/-! ## G5: the memory group (07) -/

/-- R159, Table 7-1, R449: the windows of the 64-bit address space and the checks on them in their order: the class of the address,
the core group, the copy engine's ban on PRIVATE, alignment, the end of the window, and the access rules of PRIVATE. -/
def Obligations.WindowsOfTheAddressSpace : Prop :=
  ∀ (l : Launch) (copy : Bool) (n w : Nat) (m : Mode), 0 < n →
    (∀ a, a < 2 ^ 52 → windowOf l copy n a w m = if a % n = 0 then none else some (.scope 4)) ∧
    (∀ off, off < 2 ^ 16 → windowOf l copy n (0xFD00000000000000 + off) w m = some (
      if copy = true then .scope 0xE
      else if (0xFD00000000000000 + off) % n ≠ 0 then .scope 4
      else if l.priv < off + w then .scope 2
      else match m with
        | .read => .here (.priv off)
        | .claim => .scope 9
        | .write _ land => if land = 1 then .here (.priv off) else .scope 0xA)) ∧
    (∀ off, off < 2 ^ 21 → windowOf l copy n (0xFE00000000000000 + off) w m = some (
      if (0xFE00000000000000 + off) % n ≠ 0 then .scope 4 else if l.loc < off + w then .scope 2 else .here (.loc off))) ∧
    (∀ k off, k < 8 → off < 2 ^ 24 → windowOf l copy n (0xFE01000000000000 + k * 2 ^ 24 + off) w m = some (
      if l.ncg ≤ k then .scope 3
      else if (0xFE01000000000000 + k * 2 ^ 24 + off) % n ≠ 0 then .scope 4
      else if l.exch < off + w then .scope 2
      else .here (.exch k off))) ∧
    (∀ a, 2 ^ 52 ≤ a → (a < 0xFD00000000000000 ∨ 0xFD00000000010000 ≤ a) → (a < 0xFE00000000000000 ∨ 0xFE00000000200000 ≤ a) →
      (a < 0xFE01000000000000 ∨ 0xFE01000008000000 ≤ a) → windowOf l copy n a w m = some (.scope 1))

/-- R174, R176, R179, R77: `ld`, `ldt` and `ldu` tag their destinations at once and leave them pending with the values read, one for
each active slot in LTI order; where a slot's access breaks a rule, that slot raises `e.scope` (0x07), its page having been looked up
in the translation caches all the same (R376). An access to a page waits while line requests of the partition's earlier instructions do
(R416).

R178, R52: `pf` and the three `nop` encodings change nothing but the program counter (and, `pf`, what reading brings about). -/
def Obligations.LoadsBecomePending : Prop :=
  ((∀ (o : Ld) (s : State) (x : Nat → DWord),
    let n := accessBytes o.fa o.sub
    s.reaches o.msk o.addr (span o.fa.pair o.d.val) = true → destFits 1024 o.fa o.d = true →
    s.linesGone ((s.tm.slotsOf (s.tm.exec o.msk)).map (s.tm.addrOf o.addr)) →
    (∀ i ∈ s.tm.slotsOf (s.tm.exec o.msk),
      s.gotRead (coreOf s.cur) (s.tm.lti i) n n (o.sub != .full && o.fa == .i32) (s.tm.addrOf o.addr i) = .val (x i)) →
    ∃ (t : State) (u : Team), exec (.ld o) s = .next t ∧ s.hasRead t u ∧
      u = { s.tm with pc := s.tm.pc + 16, tag := u.tag, pend := u.pend, raised := [] } ∧ s.tm.retagged u o.d o.fa ∧
      u.pend = s.tm.pend ++ (dstsOf o.d o.fa.pair).map fun dst =>
        Pend.make (s.pendId 0) dst .timed ((s.tm.lanes (s.tm.exec o.msk)).map fun i => (s.tm.lti i, x i)) []) ∧
  (∀ (o : Ldt) (s : State) (x : Nat → Nat → DWord),
    let n := accessBytes o.fa .full
    let st := if o.fa.pair then 2 else 1
    s.reaches o.msk o.addr (List.range ((o.n1.val + 1) * st) |>.map fun j => o.d.val + j) = true → o.d.val + (o.n1.val + 1) * st ≤ 1024 →
    s.linesGone ((s.tm.slotsOf (s.tm.exec o.msk)).flatMap fun i =>
      (List.range (o.n1.val + 1)).map fun j => s.tm.addrOf o.addr i + BitVec.ofNat 64 (n * j)) →
    (∀ i ∈ s.tm.slotsOf (s.tm.exec o.msk), ∀ j, j ≤ o.n1.val →
      s.gotRead (coreOf s.cur) (s.tm.lti i) n n false (s.tm.addrOf o.addr i + BitVec.ofNat 64 (n * j)) = .val (x j i)) →
    ∃ (t : State) (u : Team), exec (.ldt o) s = .next t ∧ s.hasRead t u ∧
      u = { s.tm with pc := s.tm.pc + 16, tag := u.tag, pend := u.pend, raised := [] } ∧
      (∀ r, o.d.val ≤ r → r < o.d.val + (o.n1.val + 1) * st → u.tagOf r = o.fa) ∧
      u.pend = s.tm.pend ++ (List.range (o.n1.val + 1)).flatMap fun j => (dstsOf (o.d.val + st * j) o.fa.pair).map fun dst =>
        Pend.make (s.pendId j) dst .timed ((s.tm.lanes (s.tm.exec o.msk)).map fun i => (s.tm.lti i, x j i)) []) ∧
  (∀ (o : Ldu) (s : State) (x : DWord),
    let n := match o.wid with | 0 => 8 | 1 => 1 | 2 => 2 | 3 => 4
    let a := s.tm.baseOf o.base + o.off.signExtend 64
    s.tm.active o.msk = true → s.tm.nonePending [] o.base.toList = true → s.linesGone [a] →
    s.gotRead (coreOf s.cur) (s.tm.lti ((s.tm.lanes (s.tm.exec o.msk)).headD 0)) n n o.sx a = .val x →
    ∃ (t : State) (u : Team), exec (.ldu o) s = .next t ∧ s.hasRead t u ∧
      u = { s.tm with pc := s.tm.pc + 16, pend := u.pend } ∧
      u.pend = (s.tm.pend.map fun p => if p.dst = .uni o.d then { p with kept := false } else p) ++
        [Pend.make (s.pendId 0) (.uni o.d) .timed [(0, x)] []]) ∧
  (∀ (o : Ld) (s : State) (r : Nat → Nat),
    let n := accessBytes o.fa o.sub
    s.reaches o.msk o.addr (span o.fa.pair o.d.val) = true → destFits 1024 o.fa o.d = true →
    s.linesGone ((s.tm.slotsOf (s.tm.exec o.msk)).map (s.tm.addrOf o.addr)) →
    (∀ i ∈ s.tm.slotsOf (s.tm.exec o.msk),
      s.gotRead (coreOf s.cur) (s.tm.lti i) n n (o.sub != .full && o.fa == .i32) (s.tm.addrOf o.addr i) = .fails (r i)) →
    let l := s.tm.lanes (s.tm.exec o.msk)
    ∃ u : Team, exec (.ld o) s = .next (((s.putTm u).deliver s.cur).touchAll (coreOf s.cur)
        (s.translated (coreOf s.cur) n n .read (l.map (s.tm.addrOf o.addr)))) ∧ u.pend = s.tm.pend ∧
      u.raised.map (fun q => (q.slot, q.eff, q.payload)) = l.map (fun i =>
        (i, 7, BitVec.ofNat 64 ((s.tm.addrOf o.addr i).toNat / 256 * 256 + r i))))) ∧
  ((∀ (o : Pf) (s : State), s.reaches o.msk o.addr [] = true →
    ∃ t : State, exec (.pf o) s = .next t ∧ s.hasRead t { s.tm with pc := s.tm.pc + 16 }) ∧
  ∀ p ∈ ([(Instr.nop, 8), (Instr.nop96, 12), (Instr.nop128, 16)] : List (Instr × Nat)), ∀ s : State,
    exec p.1 s = .next (s.putTm { s.tm with pc := s.tm.pc + BitVec.ofNat 64 p.2 }))

/-- R77, R91, R161, R426: when a pending result arrives, each thread's value is written to the slot that then holds it, or in which
it has exited (R81), the owed exceptions and status bits are recorded, and the register is pending no more; a read of host memory is answered with the bytes of the
translated page, as the host may just have changed them. -/
def Obligations.ValuesArrive : Prop :=
  (∀ (k j : Nat) (s : State) (p : Pend) (l : DWord) (e : BitVec 6),
    (s.team k).pend[j]? = some p → (s.team k).pend.filter (fun q => q.id == p.id && q.due) = [p] → p.due = true → p.out = [] →
    p.gone = [] → p.kept = true → s.asked (coreOf k) p.id = false → p.owed = (if e = 0 then [] else [(l, e)]) →
    fpxTraps p.fen e = false →
    ∃ u : Team, exec (.valueArrival k j) s = .next (s.setTeam k u) ∧
      u = { p.vals.foldl (fun (t : Team) v => t.landVal p.dst v) (s.team k) with
        fflags := (s.team k).fflags ||| e.setWidth 5, vstat := (s.team k).vstat ||| p.vst, pend := (s.team k).pend.filter (· != p) }) ∧
  (∀ (k j w : Nat) (sx : Bool) (s : State) (p : Pend) (h : Nat → Nat) (changed : List (Nat × DWord)),
    (s.team k).pend[j]? = some p → (s.team k).pend.filter (fun q => q.id == p.id) = [p] → p.await = .hostIn w sx → p.vals ≠ [] →
    p.out = [] → p.gone = [] → p.kept = true → p.owed = [] → p.vst = 0 →
    (∀ v ∈ p.vals, s.hostPage (v.2.toNat / 2 ^ 16) = some (h (v.2.toNat / 2 ^ 16))) →
    let host := changed.foldl (fun m c => write64 m (8 * c.1) c.2) s.host
    let x (bus : DWord) : DWord := loadVal w sx (readBytes host (h (bus.toNat / 2 ^ 16) * 2 ^ 16 + bus.toNat % 2 ^ 16) w)
    exec (.hostInReadCompletion k { k := j, changed := changed }) s = .next (State.setTeam { s with host := host } k
      { p.vals.foldl (fun (t : Team) v => t.landVal p.dst (v.1, x v.2)) (s.team k) with pend := (s.team k).pend.filter (· != p) })) ∧
  (∀ (t : Team) (r : VReg) (hi : Bool) (l x : DWord) (i q j : Nat), t.place? l = some i → i < 1024 → j < 1024 →
    (t.landVal (.vec r hi) (l, x)).rd q j =
      if q = r.val ∧ j = i then (if hi then (x >>> 32).setWidth 32 else x.setWidth 32) else t.rd q j) ∧
  (∀ (t : Team) (r : UReg) (x : DWord), t.landVal (.uni r) (0, x) = { t with s := t.s.set r.val x })

/-- R161, R162, R175, R177: `st` and `claim` queue one write for each active slot, with its thread, its place in program order, its
rule and its landing point; `claim` leaves its result pending until the step point of its scope: the core's for the local window, the
cluster's for an exchange window. -/
def Obligations.StoresAreQueued : Prop :=
  (∀ (o : St) (s : State) (f : Tag) (p : Nat → Spot),
    let n := accessBytes f o.sub
    s.reaches o.msk o.addr (span f.pair o.src.val) = true →
    (if o.rule = .sum ∨ o.rule = .sumin then
        s.tm.typed o.fa f [o.src] = true ∧ f ∈ [Tag.i32, .n32, .i64, .n64, .f32, .f64, .bf16x2]
      else s.tm.tagOf o.src ≠ .tok ∧ f = (if o.fa = .none then s.tm.tagOf o.src else o.fa) ∧
        (o.fa = .none → f.pair = true → o.src.val % 2 = 0)) →
    (s.strict = true → o.rule ≠ .any) → s.linesGone ((s.tm.slotsOf (s.tm.exec o.msk)).map (s.tm.addrOf o.addr)) →
    (∀ i ∈ s.tm.slotsOf (s.tm.exec o.msk),
      s.find (coreOf s.cur) false n (s.tm.addrOf o.addr i) n (.write o.rule o.land.val) = .here (p i)) →
    exec (.st o) s = .next
      (((s.tm.lanes (s.tm.exec o.msk)).foldl (fun (t : State) i => t.queue (coreOf s.cur) (p i)
          { lti := s.tm.lti i, seq := s.seq, row := 0, addr := 0, va := s.tm.addrOf o.addr i
            bytes := leBytes n (s.tm.rdTag f o.src i).toNat, rule := o.rule, fmt := f, left := o.land.val, claim := none }) s).putTm
        { s.tm with pc := s.tm.pc + 16, raised := [] })) ∧
  (∀ (o : Claim) (s : State) (f : Tag) (spot : Nat → Spot) (wait : Await),
    let n := accessBytes f .full
    s.reaches o.msk o.addr (span f.pair o.src.val ++ span f.pair o.res.val) = true → s.tm.typed o.fa f [o.src] = true →
    f ∈ [Tag.i32, .n32, .i64, .n64, .f32, .f64, .bf16x2] → destFits s.vregs f o.res = true →
    (∀ i ∈ s.tm.slotsOf (s.tm.exec o.msk),
      s.find (coreOf s.cur) false n (s.tm.addrOf o.addr i) n .claim = .here (spot i) ∧
      ((wait = .core ∧ ∃ off, spot i = .loc off) ∨ (wait = .clu ∧ ∃ k off, spot i = .exch k off))) →
    ∃ u : Team, exec (.claim o) s = .next
      (((s.tm.lanes (s.tm.exec o.msk)).foldl (fun (t : State) i => t.queue (coreOf s.cur) (spot i)
          { lti := s.tm.lti i, seq := s.seq, row := 0, addr := 0, va := s.tm.addrOf o.addr i
            bytes := leBytes n (s.tm.rdTag f o.src i).toNat, rule := .sumin, fmt := f, left := 1, claim := some (s.pendId 0) }) s).putTm u) ∧
      u = { s.tm with pc := s.tm.pc + 16, tag := u.tag, pend := u.pend, raised := [] } ∧ s.tm.retagged u o.res f ∧
      u.pend = s.tm.pend ++ (dstsOf o.res f.pair).map fun dst =>
        Pend.make (s.pendId 0) dst wait [] ((s.tm.lanes (s.tm.exec o.msk)).map s.tm.lti))

/-- R161, R162, R164: where a write goes. PRIVATE memory changes at once, in the bytes of the write and in no other; a write to the
local window, to a core group's exchange window or to a page of device memory changes no byte before its landing point; a write to
a HOST-OUT page changes the bytes of the translated page, or waits for the translation, or for an older access of its thread that has
not gone out yet.

R166, R167, R177: at a landing, a byte that no due write covers keeps its value; a write that meets no other lands; under FAULT the
writers of a byte collide and the byte keeps its value; under LOW the thread of lowest LTI wins. Where writes of several threads meet in
one element: SUM leaves the exact sum of their values, rounded once, SUMIN that of the old value and theirs, each with its status bits;
a claim's result is the old value and the contributions of lower LTI; under ANY one of the threads writes the whole element. -/
def Obligations.WritesLandByTheirScopeAndRule : Prop :=
  (∀ (s : State) (core : Nat) (w : Write),
    (∀ off, w.rule ≠ .sumin → ∃ m, s.queue core (.priv off) w = s.setCore core { s.core core with priv := m } ∧
      wroteBytes (s.core core).priv m (w.lti.toNat % 2 ^ 14 * 2 ^ 16 + off) w.bytes) ∧
    (∀ off, s.sameBytes (s.queue core (.loc off) w) ∧
      ((s.queue core (.loc off) w).core core).writes = (s.core core).writes ++ [{ w with addr := off, far := decide (1 < w.left) }]) ∧
    (∀ k off, s.sameBytes (s.queue core (.exch k off) w) ∧
      ((s.queue core (.exch k off) w).core (coreIn (clusterOf core) k)).exWrites =
        (s.core (coreIn (clusterOf core) k)).exWrites ++
          [{ w with addr := off, far := decide (1 < w.left) }]) ∧
    (∀ pte pa, pteScope pte ≠ 5 → s.sameBytes (s.queue core (.page pte pa) w)) ∧
    (∀ pte pa, pteScope pte = 5 → s.posts = [] →
      let post : Post := { seq := w.seq, ctx := (s.core core).ctx, phase := (s.core core).phase, lti := w.lti, page := pa / 2 ^ 16
                           off := pa % 2 ^ 16, va := w.va, bytes := w.bytes }
      (∀ h, s.hostPage (pa / 2 ^ 16) = some h → s.holdsPost post = false →
        let t := s.queue core (.page pte pa) w
        t.posts = [] ∧ t.mem = s.mem ∧ wroteBytes s.host t.host (h * 2 ^ 16 + pa % 2 ^ 16) w.bytes) ∧
      (s.hostPage (pa / 2 ^ 16) = none ∨ s.holdsPost post = true →
        s.sameBytes (s.queue core (.page pte pa) w) ∧ (s.queue core (.page pte pa) w).posts.length = 1))) ∧
  (∀ (m : SMap Byte) (wins : Wins) (l : List Write),
    (∀ a, (∀ w ∈ l, w.covers a = false) → (landAll m wins l).mem.get unwritten a = m.get unwritten a) ∧
    (∀ w ∈ l, w.rule ≠ .sumin → (l.filter fun x => w.overlaps x) = [w] → ∀ a, w.covers a = true →
      (landAll m wins l).mem.get unwritten a = w.byteAt a) ∧
    ((∀ w ∈ l, w.claim = none) → ∀ w ∈ l, ∀ x ∈ l, ∀ a, (∀ y ∈ l, y.covers a = true → y = w ∨ y = x) → w.covers a = true →
      x.covers a = true → w.lti ≠ x.lti →
      (w.rule = .fault → x.rule = .fault → (landAll m wins l).mem.get unwritten a = m.get unwritten a ∧
        (w.lti, false, w.vaAt a) ∈ (landAll m wins l).faults ∧ (x.lti, false, x.vaAt a) ∈ (landAll m wins l).faults) ∧
      (w.rule = .low → x.rule = .low → w.lti.toNat < x.lti.toNat → (landAll m wins l).mem.get unwritten a = w.byteAt a) ∧
      (w.rule ≠ x.rule → (landAll m wins l).mem.get unwritten a = m.get unwritten a ∧
        (w.lti, true, w.vaAt a) ∈ (landAll m wins l).faults)) ∧
    ∀ w ∈ l, w.bytes ≠ [] → ∀ ws : List Write, ws.Perm (l.filter fun x => w.overlaps x) → ws.Pairwise (fun x y => x.lti.toNat < y.lti.toNat) →
      (∀ x ∈ ws, x.rule = w.rule ∧ x.fmt = w.fmt ∧ x.addr = w.addr ∧ x.bytes.length = w.bytes.length) →
      let old := BitVec.ofNat 64 (leNat (readBytes m w.addr w.bytes.length))
      let holds (r : Landing) (b : Nat → Byte) : Prop := ∀ k, k < w.bytes.length → r.mem.get unwritten (w.addr + k) = b k
      let sums (v : DWord × BitVec 6 × Bool) : Prop :=
        holds (landAll m wins l) (fun k => BitVec.ofNat 8 (v.1.toNat / 2 ^ (8 * k))) ∧
          (landAll m wins l).fl ||| sumStatus v = (landAll m wins l).fl
      (w.rule = .sum → 1 < ws.length → sums (sumTag w.fmt (ws.map Write.value))) ∧
      (w.rule = .sumin → sums (sumTag w.fmt (old :: ws.map Write.value)) ∧
        ∀ x ∈ ws, ∀ id, x.claim = some id → (id, x.lti, (sumTag w.fmt (old :: (ws.filter fun y => y.lti.toNat < x.lti.toNat).map
          Write.value)).1) ∈ (landAll m wins l).claims) ∧
      (w.rule = .any → 1 < ws.length → ∀ (s : State) (d : Lander) (what : DWord), ∃ x ∈ ws,
        holds (landAll m (s.pickAll d what (anySets l)).2 l) fun k => x.bytes.getD k 0))

/-! ## G6: the cross-lane group (09) -/

/-- R196 to R200, R204 to R206: `vget`, `vbcast`, `vlti` and `vslot`. A slot that is named is read when it is below the capacity and
live, active or not.

R201 to R203: `vpost` writes, in each valid target slot that some slot posts to, the value of its only poster (FAULT), of the
poster of lowest LTI (LO), or the exact sum of all posted values, rounded once (ADD, ADDIN); DM tells which posters named no valid
slot. Nothing else changes. -/
def Obligations.CrossLaneMoves : Prop :=
  ((∀ (o : VGet) (s : State) (f : Tag),
    let src (i : Nat) : Int := match o.mode with
      | .idx b => (s.tm.rd b i).toNat | .dn k => (i : Int) - k.toNat | .up k => (i : Int) + k.toNat
      | .xor k => (BitVec.ofNat 10 i ^^^ k).toNat
    let valid (i : Nat) : Bool := decide (0 ≤ src i ∧ src i < s.tm.cap) && s.tm.live.getLsbD (src i).toNat
    let y (i : Nat) : DWord := if valid i then s.tm.rdTag f o.a (src i).toNat else 0
    s.tm.active o.msk = true → destFits 1024 f o.d = true →
    (if o.add then f ∈ integerFormats ∧ s.tm.typed o.fa f [o.a] = true ∧ destFits s.vregs f o.d = true
      else s.rawTag o.fa f o.a o.d = true) →
    s.tm.nonePending (span f.pair o.a.val ++ (match o.mode with | .idx b => [b.val] | _ => []) ++ span f.pair o.d.val) [] = true →
    ∃ s', exec (.vget o) s = .next s' ∧
      s.vectorRan s' 8 (s.tm.exec o.msk) o.d f
        (fun i => if o.add then s.tm.rdTag f o.a i + y i else if valid i || o.z then y i else s.tm.rdTag f o.d i) o.vm valid) ∧
  (∀ (o : VBcast) (s : State) (f : Tag),
    let src : Int := match o.sel with | .uni r => s.tm.s[r].toNat | .slot k => k.toNat | .first => (s.P o.msk).headD 0
    s.tm.active o.msk = true → destFits 1024 f o.d = true → s.rawTag o.fa f o.a o.d = true →
    s.tm.nonePending (span f.pair o.a.val ++ span f.pair o.d.val) (match o.sel with | .uni r => [r] | _ => []) = true →
    (∀ j, s.tm.names src j → ∃ u : Team, exec (.vbcast o) s = .next (s.putTm (u.withQ o.q true)) ∧
      s.vectorRan (s.putTm u) 8 (s.tm.exec o.msk) o.d f (fun _ => s.tm.rdTag f o.a j) 0 fun _ => false) ∧
    ((∀ j, ¬ s.tm.names src j) → exec (.vbcast o) s =
      .next (s.putTm { s.tm.withQ o.q false with pc := s.tm.pc + 8, raised := [] }))) ∧
  (∀ (o : VLti) (s : State),
    let f : Tag := if o.part = 0 then .n64 else .n32
    s.tm.active o.msk = true → destFits 1024 f o.d = true → s.tm.nonePending (span f.pair o.d.val) [] = true →
    ∃ s', exec (.vlti o) s = .next s' ∧
      s.vectorRan s' 8 (s.tm.exec o.msk) o.d f (fun i => match o.part with
        | 0 => s.tm.lti i
        | 1 => (s.tm.lti i).setWidth 14 |>.setWidth 64
        | 2 => (s.tm.lti i).setWidth 24 |>.setWidth 64) 0 fun _ => false) ∧
  (∀ (o : VSlot) (s : State), s.tm.active o.msk = true → s.tm.nonePending [o.d.val] [] = true →
    ((s.tm.slotsOf (s.tm.exec o.msk)).map s.tm.lti).Nodup →
    ∃ s', exec (.vslot o) s = .next s' ∧
      s.vectorRan s' 8 (s.tm.exec o.msk) o.d .n32 (fun i => BitVec.ofNat 64 (if o.rank
        then ((s.tm.slotsOf (s.tm.exec o.msk)).filter fun j => (s.tm.lti j).toNat < (s.tm.lti i).toNat).length else i)) 0 fun _ => false)) ∧
  (∀ (o : VPost) (s : State) (f : Tag),
    let dst (i : Nat) : Int := match o.mode with
      | .idx b => (s.tm.rd b i).toNat | .rel k => (i : Int) + k.toInt | .xor k => (BitVec.ofNat 10 i ^^^ k).toNat
    let valid (i : Nat) : Bool := decide (0 ≤ dst i ∧ dst i < s.tm.cap) && s.tm.live.getLsbD (dst i).toNat
    let posters (j : Nat) : List Nat := (s.P o.msk).filter fun i => valid i && dst i == (j : Int)
    let sums : Bool := o.cr == .add || o.cr == .addin
    let sum (j : Nat) : DWord × BitVec 6 × Bool :=
      sumTag f ((if o.cr = .addin then [s.tm.rdTag f o.d j] else []) ++ (posters j).map fun i => s.tm.rdTag f o.a i)
    s.tm.active o.msk = true → destFits 1024 f o.d = true →
    (if sums then f ∈ summedFormats ∧ s.tm.typed o.fa f (o.a :: if o.cr = .addin then [o.d] else []) = true ∧
        destFits s.vregs f o.d = true
      else s.rawTag o.fa f o.a o.d = true) →
    s.tm.nonePending (span f.pair o.a.val ++ (match o.mode with | .idx b => [b.val] | _ => []) ++ span f.pair o.d.val) [] = true →
    (o.cr = .fault → ∀ j, (posters j).length ≤ 1) →
    (sums = true → ∀ j, posters j ≠ [] → fpxTraps s.tm.fen (sum j).2.1 = false) →
    ∃ u : Team, exec (.vpost o) s = .next (s.putTm u) ∧
      u = { s.tm with pc := s.tm.pc + 12, v := u.v, tag := u.tag, m := u.m, fflags := u.fflags, raised := [] } ∧
      (sums = false → u.fflags = s.tm.fflags) ∧
      (sums = true → u.fflags = (s.P o.msk).foldl
        (fun a i => if valid i then a ||| (sum (dst i).toNat).2.1.setWidth 5 else a) s.tm.fflags) ∧
      (∀ j, j < s.tm.cap → j < 1024 → posters j ≠ [] →
        u.rdTag f o.d j = takes f (if sums then (sum j).1 else s.tm.rdTag f o.a ((posters j).headD 0))) ∧
      (∀ r j, j < 1024 → (r ∉ span f.pair o.d.val ∨ posters j = []) → u.rd r j = s.tm.rd r j) ∧
      s.tm.retagged u o.d f ∧ s.tm.maskWrote u (s.tm.exec o.msk) o.dm fun i => !valid i)

/-! ## G7: collectives (10) -/

/-- R211 to R216: `vred` and `vscan` combine the values of the active slots in LTI order; `vargmin` and `vargmax` give the number of
the winning slot. A vector destination is written in every active slot; a uniform one becomes pending. QE's bit becomes 0.

R212, R215 on integers: a reduction gives the sum modulo 2^w, an element that no other exceeds or falls below, or the bitwise
combination; the winner of `vargmin` and `vargmax` is the first in LTI order of the extreme elements.

R216, Tables 10-4 and 10-5: with no active slot, the collectives go on, set QE's bit (`vballot` clears it) and EMPTY in `%vstat`
where they report it, write the identity or all ones to a uniform destination, and write nothing else. -/
def Obligations.Reductions : Prop :=
  ((∀ (o : VRed) (s : State), ∀ f ∈ [Tag.i32, .n32, .i64, .n64, .f32, .f64, .bf16x2, .f16x2], RedOp.accepts o.op f = true →
    let c := RedOp.combine o.op f ((s.P o.msk).map fun i => s.tm.rdTag f o.a i)
    (∀ d, o.d = .v d → s.goes o.msk o.fa f [o.a] [] d f = true → s.noTrap o.msk (fun _ => c.fl) →
      ∃ u : Team, exec (.vred o) s = .next (s.putTm { u.withQ o.q false with vstat := s.tm.vstat ||| c.vst }) ∧
        s.floatRan (s.putTm u) 12 (s.tm.exec o.msk) d f (fun _ => c.val) fun _ => c.fl) ∧
    (∀ d, o.d = .u d → s.tm.active o.msk = true → s.tm.typed o.fa f [o.a] = true →
      s.tm.nonePending (span f.pair o.a.val) [] = true →
      ∃ s', exec (.vred o) s = .next s' ∧ s.uniformRan s' o.msk o.q d
        (if f = .i32 then (c.val.setWidth 32).signExtend 64 else takes f c.val) c)) ∧
  (∀ (o : VScan) (s : State), ∀ f ∈ [Tag.i32, .n32, .i64, .n64, .f32, .f64, .bf16x2, .f16x2], RedOp.accepts o.op f = true →
    let before (i : Nat) : List Nat := (s.P o.msk).filter fun j =>
      (s.tm.lti j).toNat < (s.tm.lti i).toNat || (!o.exc && j == i)
    let c (i : Nat) : Combined := RedOp.combine o.op f ((before i).map fun j => s.tm.rdTag f o.a j)
    let all : Combined := RedOp.combine o.op f ((s.P o.msk).map fun j => s.tm.rdTag f o.a j)
    ((s.P o.msk).map s.tm.lti).Nodup →
    s.goes o.msk o.fa f [o.a] [] o.d f = true → s.noTrap o.msk (fun i => (c i).fl) →
    ∃ u : Team, exec (.vscan o) s = .next (s.putTm
        { u.withQ o.q false with
          vstat := (s.P o.msk).foldl (fun a i => a ||| (c i).vst) s.tm.vstat
          pend := match o.tot with
            | none => s.tm.pend
            | some d => s.owing o.msk d (if f = .i32 then (all.val.setWidth 32).signExtend 64 else takes f all.val) all }) ∧
      s.floatRan (s.putTm u) 12 (s.tm.exec o.msk) o.d f (fun i => (c i).val) fun i => (c i).fl) ∧
  (∀ p ∈ ([(Instr.vargmin, false), (Instr.vargmax, true)] : List ((VArg → Instr) × Bool)), ∀ (o : VArg) (s : State),
    ∀ f ∈ [Tag.i32, .n32, .i64, .n64, .f32, .f64], s.tm.active o.msk = true → s.tm.typed o.fa f [o.a] = true →
    let c := argOf p.2 f ((s.P o.msk).map fun i => (i, s.tm.rdTag f o.a i))
    (∀ d, o.d = .v d → s.tm.nonePending (d.val :: span f.pair o.a.val) [] = true → s.noTrap o.msk (fun _ => c.fl) →
      ∃ u : Team, exec (p.1 o) s = .next (s.putTm { u.withQ o.q false with vstat := s.tm.vstat ||| c.vst }) ∧
        s.floatRan (s.putTm u) 12 (s.tm.exec o.msk) d .n32 (fun _ => c.val) fun _ => c.fl) ∧
    (∀ d, o.d = .u d → s.tm.nonePending (span f.pair o.a.val) [] = true →
      ∃ s', exec (p.1 o) s = .next s' ∧ s.uniformRan s' o.msk o.q d c.val c))) ∧
  (∀ f ∈ integerFormats, ∀ l : List DWord, l ≠ [] → (∀ x ∈ l, f.pair = false → x.toNat < 2 ^ 32) →
    ((f.ext (RedOp.combine .add f l).val - (l.map f.ext).sum) % 2 ^ f.width = 0) ∧
    (∃ x ∈ l, takes f (RedOp.combine .min f l).val = x ∧ ∀ y ∈ l, f.ext x ≤ f.ext y) ∧
    (∃ x ∈ l, takes f (RedOp.combine .max f l).val = x ∧ ∀ y ∈ l, f.ext y ≤ f.ext x) ∧
    (∀ k, k < f.width → (RedOp.combine .and f l).val.getLsbD k = l.all fun x => x.getLsbD k) ∧
    (∀ k, k < f.width → (RedOp.combine .or f l).val.getLsbD k = l.any fun x => x.getLsbD k) ∧
    (∀ k, k < f.width → (RedOp.combine .xor f l).val.getLsbD k = decide ((l.filter fun x => x.getLsbD k).length % 2 = 1)) ∧
    ∀ mx : Bool, ∃ i x, l[i]? = some x ∧ (argOf mx f (l.zipIdx.map fun p => (p.2, p.1))).val = BitVec.ofNat 64 i ∧
      ∀ j y, l[j]? = some y → (if mx then f.ext y ≤ f.ext x else f.ext x ≤ f.ext y) ∧ (f.ext y = f.ext x → i ≤ j)) ∧
  (∀ (s : State) (msk : MReg), s.tm.exec msk = 0 →
    let on (n : DWord) (q : Option QReg) (b : Bool) (v : BitVec 3) : Team :=
      { s.tm.withQ q b with pc := s.tm.pc + n, vstat := s.tm.vstat ||| v }
    (∀ d a op q fa, exec (.vred ⟨msk, .v d, a, op, q, fa⟩) s = .next (s.putTm (on 12 q true 1))) ∧
    (∀ d d' a op exc q fa, ∃ u w : Team, exec (.vred ⟨msk, .u d, a, op, q, fa⟩) s = .next (s.putTm u) ∧
      exec (.vscan ⟨msk, d', a, op, exc, some d, q, fa⟩) s = .next (s.putTm w) ∧ w = u ∧
      (on 12 q true 1).wroteS { u with pc := u.pc + 12 } 12 d (identityAs op (if fa = .none then s.tm.tagOf a else fa))) ∧
    (∀ d a q fa, exec (.vargmin ⟨msk, .v d, a, q, fa⟩) s = .next (s.putTm (on 12 q true 1)) ∧
      exec (.vargmax ⟨msk, .v d, a, q, fa⟩) s = .next (s.putTm (on 12 q true 1))) ∧
    (∀ d a q fa, ∃ u : Team, exec (.vargmin ⟨msk, .u d, a, q, fa⟩) s = .next (s.putTm u) ∧
      exec (.vargmax ⟨msk, .u d, a, q, fa⟩) s = .next (s.putTm u) ∧
      (on 12 q true 1).wroteS { u with pc := u.pc + 12 } 12 d (BitVec.allOnes 64)) ∧
    (∀ d a op exc q fa, exec (.vscan ⟨msk, d, a, op, exc, none, q, fa⟩) s = .next (s.putTm (on 12 q true 1))) ∧
    (∀ d a q eq z, exec (.vballot ⟨msk, d, a, q, eq, z⟩) s = .next (s.putTm (on 8 q false 0))) ∧
    (∀ d a q last, exec (.vfirst ⟨msk, d, a, q, last⟩) s = .next (s.putTm (on 8 q true 0))) ∧
    (∀ o : VPopc, o.msk = msk → exec (.vpopc o) s = .next (s.putTm (on 8 none false 0))) ∧
    (∀ o : VSort, o.msk = msk → exec (.vsort o) s = .next (s.putTm (on 12 none false 0))) ∧
    (∀ d a ms z fa, exec (.vcompact ⟨msk, d, a, ms, none, z, fa⟩) s = .next (s.putTm (on 12 none false 0))) ∧
    ∀ d a ms c z fa, ∃ u : Team, exec (.vcompact ⟨msk, d, a, ms, some c, z, fa⟩) s = .next (s.putTm u) ∧
      (on 12 none true 0).wroteS { u with pc := u.pc + 12 } 12 c 0)

/-- R217, R218: `vballot` writes one bit for each active slot and, under Z, clears the others; its condition bit tells whether all
are set. `vpopc` counts the slots set in the mask and active: those before a slot, those up to it, or all.

R220, R221: `vcompact` gives the live slots, in LTI order, the values of the selected active slots, and zero (under Z) or nothing to
the rest; `vsort` gives the active slots, in LTI order, their own pairs of key and value, no key before an earlier slot's and equal keys
in LTI order. Where the two destinations of `vsort` are one register the value stands (log 60, deduced), and their tags follow one
another, as partners of a pair too (log 61, deduced). -/
def Obligations.VotesCompactionAndSorting : Prop :=
  ((∀ (o : VBallot) (s : State), o.d ≠ 0 → s.tm.active o.msk = true → s.tm.nonePending [o.a.val] [] = true →
    let bit (i : Nat) : Bool := if o.eq then s.tm.rd o.a i == s.tm.rd o.a ((s.P o.msk).headD 0) else s.tm.rd o.a i != 0
    ∃ u : Team, exec (.vballot o) s = .next (s.putTm (u.withQ o.q ((s.P o.msk).all bit))) ∧
      u = { s.tm with pc := s.tm.pc + 8, m := u.m, raised := [] } ∧ (∀ q : MReg, q ≠ o.d → u.m[q] = s.tm.m[q]) ∧
      ∀ i, i < s.tm.cap → u.m[o.d].getLsbD i =
        if i ∈ s.tm.slotsOf (s.tm.exec o.msk) then bit i else !o.z && s.tm.m[o.d].getLsbD i) ∧
  (∀ (o : VPopc) (s : State), s.tm.active o.msk = true → s.tm.nonePending [o.d.val] [] = true → ((s.P o.msk).map s.tm.lti).Nodup →
    ∃ s', exec (.vpopc o) s = .next s' ∧
      s.vectorRan s' 8 (s.tm.exec o.msk) o.d .n32 (fun i => BitVec.ofNat 64 (((s.P o.msk).filter fun j =>
        s.tm.m[o.a].getLsbD j && (match o.mode with
          | 0 => decide ((s.tm.lti j).toNat < (s.tm.lti i).toNat)
          | 1 => decide ((s.tm.lti j).toNat ≤ (s.tm.lti i).toNat)
          | 2 => true)).length)) 0 fun _ => false)) ∧
  ((∀ (o : VCompact) (s : State) (f : Tag), s.tm.active o.msk = true → destFits 1024 f o.d = true → s.rawTag o.fa f o.a o.d = true →
    s.tm.nonePending (span f.pair o.a.val ++ span f.pair o.d.val) [] = true →
    let from' : List Nat := (s.P o.msk).filter fun i => s.tm.m[o.ms].getLsbD i
    let live : List Nat := s.tm.lanes s.tm.live
    ∃ u w : Team, exec (.vcompact o) s = .next (s.putTm w) ∧
      (match o.cnt with
        | some c => { u with pc := s.tm.pc }.wroteS w 12 c (BitVec.ofNat 64 from'.length)
        | none => w = u) ∧
      u = { s.tm with pc := s.tm.pc + 12, v := u.v, tag := u.tag, raised := [] } ∧ s.tm.retagged u o.d f ∧
      (∀ (k i : Nat), live[k]? = some i → (∀ j, from'[k]? = some j → u.rdTag f o.d i = takes f (s.tm.rdTag f o.a j)) ∧
        (from'[k]? = none → u.rdTag f o.d i = if o.z then 0 else s.tm.rdTag f o.d i)) ∧
      ∀ r i, i < 1024 → (r ∉ span f.pair o.d.val ∨ i ∉ live) → u.rd r i = s.tm.rd r i) ∧
  (∀ (o : VSort) (s : State), ∀ f ∈ [Tag.i32, .n32, .f32], s.tm.active o.msk = true →
    s.tm.typed o.fa f [o.ak] = true → (s.tm.tagOf o.av).pair = false →
    s.tm.nonePending [o.ak.val, o.av.val, o.dk.val, o.dv.val] [] = true →
    let act := s.P o.msk
    let before (i j : Nat) : Bool := keyBefore f o.desc ((s.tm.rd o.ak i).setWidth 64) ((s.tm.rd o.ak j).setWidth 64)
    ∃ (u : Team) (from' : List Nat), exec (.vsort o) s = .next (s.putTm u) ∧
      u = { s.tm with pc := s.tm.pc + 12, v := u.v, tag := u.tag, raised := [] } ∧ from'.Perm act ∧
      from'.Pairwise (fun i j => before j i = false ∧ (before i j = false → (s.tm.lti i).toNat ≤ (s.tm.lti j).toNat)) ∧
      act.map (u.rd o.dv) = from'.map (s.tm.rd o.av) ∧ (o.dk ≠ o.dv → act.map (u.rd o.dk) = from'.map (s.tm.rd o.ak)) ∧
      s.tm.keepsV u (s.tm.exec o.msk) [o.dk.val, o.dv.val] ∧ (o.dk ≠ o.dv → u.tagOf o.dk = f) ∧ u.tagOf o.dv = s.tm.tagOf o.av))

/-- R219: `vfirst` writes to each active slot, with tag N32, the slot number of the lowest-LTI slot that is set in both m[A] and exec;
with LAST = 1 the highest-LTI slot instead; when no such slot exists, 0xFFFF_FFFF. When QE = 1, q[Q] := 1 exactly when no such slot
exists. -/
def Obligations.FirstSlot : Prop :=
  ∀ (o : VFirst) (s : State), s.tm.active o.msk = true → s.tm.nonePending [o.d.val] [] = true →
    let both (i : Nat) : Prop := i ∈ s.tm.slotsOf (s.tm.m[o.a] &&& s.tm.exec o.msk)
    ∃ (u : Team) (x : DWord) (b : Bool), exec (.vfirst o) s = .next (s.putTm (u.withQ o.q b)) ∧
      s.vectorRan (s.putTm u) 8 (s.tm.exec o.msk) o.d .n32 (fun _ => x) 0 (fun _ => false) ∧ (b = true ↔ ∀ i, ¬ both i) ∧
      (b = true → x = 0xFFFFFFFF) ∧
      (b = false → ∃ i, both i ∧ x = BitVec.ofNat 64 i ∧ ∀ j, both j →
        if o.last then (s.tm.lti j).toNat ≤ (s.tm.lti i).toNat else (s.tm.lti i).toNat ≤ (s.tm.lti j).toNat)

/-! ## Control flow (08) -/

/-- R181 to R183: `br`, `bq`, `call`, `ret` and `jmpi` decide once for the team and move every slot of m0; `call` writes the address
of the next instruction; nothing else changes. -/
def Obligations.UniformBranches : Prop :=
  (∀ (o : Br) (s : State), s.tm.active o.msk = true → exec (.br o) s = .next (s.putTm { s.tm with pc := s.tm.there o.off })) ∧
  (∀ (o : Bq) (s : State), s.tm.active o.msk = true →
    let holds : Prop := match o.cond with
      | .q r => s.tm.q[r] = true
      | .any m => s.tm.exec o.msk &&& s.tm.m[m] ≠ 0
      | .all m => s.tm.exec o.msk &&& s.tm.m[m] = s.tm.exec o.msk
    ∃ pc, exec (.bq o) s = .next (s.putTm { s.tm with pc := pc }) ∧
      (holds → pc = if o.neg then s.tm.pc + 8 else s.tm.there o.off) ∧
      (¬ holds → pc = if o.neg then s.tm.there o.off else s.tm.pc + 8)) ∧
  (∀ (o : Call) (s : State), s.tm.active o.msk = true → ∃ u : Team, exec (.call o) s = .next (s.putTm { u with pc := s.tm.there o.off }) ∧
    s.tm.wroteS u 8 o.sl (s.tm.pc + 8)) ∧
  (∀ (o : Ret) (s : State), s.tm.active o.msk = true → s.tm.nonePending [] [o.sl] = true →
    exec (.ret o) s = .next (s.putTm { s.tm with pc := s.tm.s[o.sl] })) ∧
  (∀ (o : Jmpi) (s : State), s.tm.active o.msk = true → s.tm.nonePending [] [o.sa] = true →
    exec (.jmpi o) s = .next (s.putTm { s.tm with pc := s.tm.s[o.sa] + o.imm.signExtend 64 * 4 })) ∧
  (∀ i ∈ ([.br ⟨1, 0⟩, .call ⟨1, 0, 0⟩, .ret ⟨1, 0⟩] : List Instr), ∀ s : State, s.tm.exec 1 = 0 →
    exec i s = .next (s.putTm { s.tm with pc := s.tm.pc + 8 }))

/-- R184: `loop` counts down the unsigned 64-bit register s[SL]: with c = 0 it goes on at pc + 8 and leaves the register; else it
writes c − 1 and goes on at pc + 4 · sext(OFF24) if c − 1 ≠ 0 and not (QX = 1 and q[Q] = 1), else at pc + 8. QX is bit 54 of
the word, and without it the field Q is 0. -/
def Obligations.LoopCountsDown : Prop :=
  ∀ (o : Loop) (s : State), s.tm.active o.msk = true → s.tm.nonePending [] [o.sc] = true →
    (∀ w, encode (.loop o) = some w → w / 2 ^ 54 % 2 = o.q.isSome.toNat ∧ (o.q = none → w / 2 ^ 40 % 8 = 0)) ∧
    (s.tm.s[o.sc] = 0 → exec (.loop o) s = .next (s.putTm { s.tm with pc := s.tm.pc + 8 })) ∧
    (s.tm.s[o.sc] ≠ 0 → ∃ u : Team, s.tm.wroteS u 8 o.sc (s.tm.s[o.sc] - 1) ∧
      (s.tm.s[o.sc] ≠ 1 → (∀ q, o.q = some q → s.tm.q[q] = false) →
        exec (.loop o) s = .next (s.putTm { u with pc := s.tm.there o.off })) ∧
      ((s.tm.s[o.sc] = 1 ∨ ∃ q, o.q = some q ∧ s.tm.q[q] = true) → exec (.loop o) s = .next (s.putTm u)))

/-- R185, R186: `brd` splits the team: with one side empty the other goes on; the taken side goes on and the other waits in a
divergence entry, or the smaller side leaves as seeds; `join` at the entry's RPC resumes the waiting side, then both. -/
def Obligations.DivergentBranches : Prop :=
  (∀ (o : Brd) (s : State),
    let T := s.tm.exec o.msk &&& s.tm.m[o.mc]
    let N := s.tm.m[0] &&& ~~~T
    let small := if s.tm.count T ≤ s.tm.count N then T else N
    let spills : Prop := (s.tm.spill ≠ 0 ∧ s.tm.count small ≤ s.tm.spill.toNat * s.tm.count s.tm.m[0] / 32) ∨ 32 ≤ s.tm.div.length
    (T = 0 → exec (.brd o) s = .next (s.putTm { s.tm with pc := s.tm.pc + 16 })) ∧
    (T ≠ 0 → N = 0 → exec (.brd o) s = .next (s.putTm { s.tm with pc := s.tm.there o.target })) ∧
    (T ≠ 0 → N ≠ 0 → ¬ spills → ∃ (u : Team) (e : DEntry), exec (.brd o) s = .next (s.putTm u) ∧
      u = { s.tm with pc := s.tm.there o.target, m := u.m, div := e :: s.tm.div } ∧
      (∀ i, i < s.tm.cap → u.m[(0 : MReg)].getLsbD i = T.getLsbD i) ∧ (∀ q : MReg, q ≠ 0 → u.m[q] = s.tm.m[q]) ∧
      e.eff = false ∧ e.rpc = s.tm.there o.join ∧ e.alt = s.tm.pc + 16 ∧ e.wait = N ∧ e.done = 0 ∧ e.range = o.range) ∧
    (T ≠ 0 → N ≠ 0 → spills → s.canCapture o.range ((s.tm.lanes small).length * seedBytes (rangeLen o.range)) →
      ∃ (u : Team) (c : CoreSt), exec (.brd o) s = .next ((s.putCr c).putTm u) ∧
        u.pc = (if small = T then s.tm.pc + 16 else s.tm.there o.target) ∧
        (∀ i, i < s.tm.cap → u.m[(0 : MReg)].getLsbD i = (s.tm.m[(0 : MReg)].getLsbD i && !small.getLsbD i)) ∧
        u.v = s.tm.v ∧ u.tag = s.tm.tag ∧ u.s = s.tm.s ∧ u.q = s.tm.q ∧ u.h = s.tm.h ∧ u.div = s.tm.div ∧
        c = { s.cr with fsum := s.cr.fsum ||| s.tm.fflags, seeds := c.seeds } ∧
        c.seeds = s.cr.seeds ++ (s.tm.lanes small).map fun i =>
          s.tm.seedOf i (if small = T then s.tm.there o.target else s.tm.pc + 16) o.range s.tm.h s.tm.div)) ∧
  (∀ (o : Bare) (s : State) (e : DEntry) (below : List DEntry), s.tm.div = e :: below →
    (s.tm.exec o.msk ≠ 0 → e.eff = false → e.rpc = s.tm.pc →
      ∃ u : Team, exec (.join o) s = .next (s.putTm u) ∧ u = { s.tm with pc := u.pc, m := u.m, div := u.div, pend := u.pend } ∧
        (e.wait ≠ 0 → u.pc = e.alt ∧ u.div = { e with done := s.tm.m[(0 : MReg)], wait := 0 } :: below ∧
          ∀ i, i < s.tm.cap → u.m[(0 : MReg)].getLsbD i = e.wait.getLsbD i) ∧
        (e.wait = 0 → u.pc = s.tm.pc + 8 ∧ u.div = below ∧
          ∀ i, i < s.tm.cap → u.m[(0 : MReg)].getLsbD i = (s.tm.m[(0 : MReg)].getLsbD i || e.done.getLsbD i))) ∧
    ((s.tm.exec o.msk = 0 ∨ e.eff = true ∨ e.rpc ≠ s.tm.pc) →
      exec (.join o) s = .next (s.putTm { s.tm with pc := s.tm.pc + 8 })))

/-- R190, R192, R237: `rejoin` parks the active threads as seeds at a point of the core group; `exit` ends them, frees their records
and counts their tokens, where the supervisor holds no access of theirs (for which it waits: log 100, deduced). A team none of whose
threads remains releases its residency. -/
def Obligations.ThreadsLeaveTheirTeam : Prop :=
  (∀ (o : Rejoin) (s : State), s.tm.active o.msk = true → o.id.val < s.launch.rejoins → s.strict = false → s.forced (coreOf s.cur) = false →
    s.canCapture o.range ((s.P o.msk).length * seedBytes (rangeLen o.range)) → s.cr.round? o.id = none →
    (s.P o.msk).length ≤ o.count1.toNat →
    ∃ t : State, exec (.rejoin o) s = .next t ∧
      (t.core (coreOf s.cur)).round? o.id = some
        { id := o.id, number := s.cr.roundNo.get 0 o.id.val, count := o.count1.toNat + 1, start := s.clock, timeout := o.timeout.toNat,
          parked := (s.P o.msk).map fun i => s.tm.seedOf i (s.tm.pc + 16) o.range s.tm.h s.tm.div, held := [] } ∧
      ((s.tm.m[(0 : MReg)] &&& ~~~s.tm.exec o.msk) &&& s.tm.capMask ≠ 0 → (t.team s.cur).pc = s.tm.pc + 16 ∧
        (t.team s.cur).live = (s.tm.m[(0 : MReg)] &&& ~~~s.tm.exec o.msk) &&& s.tm.capMask) ∧
      ((s.tm.m[(0 : MReg)] &&& ~~~s.tm.exec o.msk) &&& s.tm.capMask = 0 → s.tm.div = [] → t.team s.cur = Team.vacant)) ∧
  (∀ (o : Bare) (s : State), s.tm.active o.msk = true →
    let gone := (s.P o.msk).map s.tm.lti
    s.tm.heldAccess gone = false → ∃ t : State, exec (.exit o) s = .next t ∧
      (t.core (coreOf s.cur)).fsum = s.cr.fsum ||| s.tm.fflags ∧
      (t.core (coreOf s.cur)).tokleak = s.cr.tokleak + BitVec.ofNat 64 (s.cr.recs.filter fun r => gone.contains r.lti && r.token).length ∧
      (∀ r ∈ (t.core (coreOf s.cur)).recs, r.lti ∉ gone) ∧
      ((s.tm.m[(0 : MReg)] &&& ~~~s.tm.exec o.msk) &&& s.tm.capMask ≠ 0 → (t.team s.cur).pc = s.tm.pc + 8 ∧
        (t.team s.cur).live = (s.tm.m[(0 : MReg)] &&& ~~~s.tm.exec o.msk) &&& s.tm.capMask) ∧
      ((s.tm.m[(0 : MReg)] &&& ~~~s.tm.exec o.msk) &&& s.tm.capMask = 0 → s.tm.div = [] → t.team s.cur = Team.vacant))

/-! ## Effects (11) -/

/-- R224: an effect is matched by searching the stack from the top entry downwards. The first entry whose EFF equals id, or equals
0xFFFF, is the match. `e.ecc` (0x16) and `e.land` (0x0A) are never searched. The search looks at the entries' EFF and at no other state. -/
def Obligations.EffectsMatchTheFirstEntry : Prop :=
  ∀ (h : List HEntry) (id : Nat), id < 0xFFFF →
    (id = 0x16 ∨ id = 0x0A → matchH h id = none) ∧
    (id ≠ 0x16 → id ≠ 0x0A →
      (∀ k e, h[k]? = some e → (e.eff.toNat = id ∨ e.eff = 0xFFFF) →
        (∀ j f, j < k → h[j]? = some f → f.eff.toNat ≠ id ∧ f.eff ≠ 0xFFFF) → matchH h id = some k) ∧
      ((∀ e ∈ h, e.eff.toNat ≠ id ∧ e.eff ≠ 0xFFFF) → matchH h id = none)) ∧
    ∀ h', h'.map HEntry.eff = h.map HEntry.eff → matchH h' id = matchH h id

/-- R226, R227: `hpush` puts an entry on top of the handler stack; `hpop` at the entry's END takes it off; at depth 16, at depth 0 and
at another address they raise `e.hstack` (0x0E) in every active slot and change nothing. The `hpop` of a RET entry sends every thread
out as the seed of its return record (R234). -/
def Obligations.HandlerStack : Prop :=
  (∀ (o : HPush) (s : State), s.tm.active o.msk = true → s.tm.h.length < 16 →
    exec (.hpush o) s = .next (s.putTm { s.tm with
      pc := s.tm.pc + 16
      h := { eff := o.eff, hpc := s.tm.there o.handler, stop := s.tm.pc + BitVec.ofNat 64 (4 * o.elen.toNat), tk := o.tk, hl := o.hl,
             ret := false, links := [] } :: s.tm.h })) ∧
  (∀ (o : HPush) (s : State), s.tm.active o.msk = true → 16 ≤ s.tm.h.length →
    ∃ s', exec (.hpush o) s = .next s' ∧ s.raisesAll s' (s.P o.msk) 0xE 1 (s.tm.pc + 16)) ∧
  (∀ (o : HPop) (s : State), s.tm.active o.msk = true →
    (∀ e below, s.tm.h = e :: below → e.stop = s.tm.pc → e.ret = false →
      exec (.hpop o) s = .next (s.putTm { s.tm with pc := s.tm.pc + 8, h := below })) ∧
    (s.tm.h = [] → ∃ s', exec (.hpop o) s = .next s' ∧ s.raisesAll s' (s.P o.msk) 0xE 2 (s.tm.pc + 8)) ∧
    (∀ e below, s.tm.h = e :: below → e.stop ≠ s.tm.pc →
      ∃ s', exec (.hpop o) s = .next s' ∧ s.raisesAll s' (s.P o.msk) 0xE 3 (s.tm.pc + 8))) ∧
  (∀ (o : HPop) (s : State) (e : HEntry) (below : List HEntry) (rec : Nat → Rec), s.tm.active o.msk = true → s.tm.h = e :: below →
    e.stop = s.tm.pc → e.ret = true → o.res = none → s.tm.div = [] → (∀ i ∈ s.tm.lanes s.tm.live, ∀ j ∈ s.tm.lanes s.tm.live,
      s.cr.retRec e s.tm i = some (rec i) ∧ ((rec i).loc = (rec j).loc → i = j)) →
    s.cr.lacks ((s.tm.lanes s.tm.live).map fun i => seedBytes (rangeLen (rec i).range)).sum = 0 →
    ∃ t : State, exec (.hpop o) s = .next t ∧ t.team s.cur = Team.vacant ∧
      (t.core (coreOf s.cur)).seeds.map (fun x => (x.lti, x.pc, x.range, x.vals)) =
        s.cr.seeds.map (fun x => (x.lti, x.pc, x.range, x.vals)) ++
          (s.tm.lanes s.tm.live).map fun i => (s.tm.lti i, (rec i).pc, (rec i).range, (rec i).vals))

/-- R230, R238: taking an effect. The slots that raised it write their records; the team becomes the handler team of the matched
entry: m0 holds those slots, the handler stack the entries below the match, the pair at TK the token and the pair at TK + 2 the payload
of each slot, over whatever is pending there (log 144, deduced); the slots that raised nothing wait in an EFF entry. The team's flags
join the core's summary (R71).

R230, R238, R240, R242: `perform` and `brk` raise their effect in every active slot, which is then taken; an effect that no entry
matches goes to the supervisor, and the team waits: one report for all the slots that raised it (log 25, deduced); an unmatched `e.brk`
(0x0F) under debug halts the core group (what becomes of its context: log 27, deduced). -/
def Obligations.EffectsAreRaisedAndTaken : Prop :=
  (∀ (s : State) (id j : Nat) (e : HEntry) (g : Range),
    let t := s.tm
    let P := t.raised.map Raised.slot
    let N := t.m[(0 : MReg)] &&& ~~~maskOf P
    t.raised ≠ [] → (∀ r ∈ t.raised, r.eff = id ∧ raisedRange s.vregs r = g ∧ r.slot ∈ t.lanes t.live) → P.Nodup →
    id ≠ 6 → matchH t.h id = some j → t.h[j]? = some e → e.tk.val % 2 = 0 → e.tk.val + 3 < 1024 →
    t.captureWaits g = false → t.div.length < 32 → s.cr.lacks (P.length * recBytes (rangeLen g)) = 0 →
    ∃ (u : Team) (c : CoreSt) (r : Nat → Rec), s.deliver s.cur = (s.putCr c).putTm u ∧
      u = { t with
        pc := e.hpc, wait := .run, raised := [], v := u.v, tag := u.tag, m := u.m, h := t.h.drop (j + 1), div := u.div, pend := u.pend
        stuck := false } ∧ t.dropped u (P.map t.lti) ((List.range 4).map fun k => e.tk.val + k) ∧
      (∀ i, i < t.cap → (u.m[(0 : MReg)].getLsbD i = true ↔ i ∈ P)) ∧ (∀ q : MReg, q ≠ 0 → u.m[q] = t.m[q]) ∧
      (N = 0 → u.div = t.div) ∧
      (N ≠ 0 → u.div = { eff := true, rpc := t.pc, alt := 0, wait := N, done := 0, h := t.h, tags := t.tag, range := g } :: t.div) ∧
      (∀ x ∈ t.raised, recordsSlot t (r x.slot) x g j ∧ r x.slot ∈ c.recs ∧
        u.rd64 e.tk x.slot = (r x.slot).tok s.cr.cg ∧ u.rd64 (e.tk.val + 2) x.slot = x.payload) ∧
      u.tagOf e.tk = .tok ∧ u.tagOf (e.tk.val + 2) = .n64 ∧
      (∀ q i, i < 1024 → (q < e.tk.val ∨ e.tk.val + 4 ≤ q ∨ i ∉ P) → u.rd q i = t.rd q i) ∧
      c = { s.cr with recs := c.recs, gens := c.gens, fsum := s.cr.fsum ||| t.fflags
                      moves := s.cr.moves.filter fun m => m != .deliver s.cur } ∧ (∀ x ∈ s.cr.recs, x ∈ c.recs) ∧
      c.recs.length = s.cr.recs.length + P.length) ∧
  ((∀ (o : Perform) (s : State), s.tm.active o.msk = true →
    s.tm.nonePending (match o.payload with | some c => [c.val, c.val + 1] | none => []) [] = true →
    exec (.perform o) s = .next ((s.putTm { s.tm with
      pc := s.tm.pc + 12
      raised := (s.P o.msk).map fun i =>
        { slot := i, eff := o.eff.toNat, payload := match o.payload with | some c => s.tm.rd64 c i | none => 0, site := s.tm.pc
          pc := s.tm.pc + 12, dst := .perf o.d, act := .nothing, perf := some (o.ms, o.range) } }).deliver s.cur)) ∧
  (∀ (o : Brk) (s : State), s.tm.active o.msk = true →
    ∃ s', exec (.brk o) s = .next s' ∧ s.raisesAll s' (s.P o.msk) 0xF (o.code.setWidth 64) (s.tm.pc + 8)) ∧
  (∀ (s : State) (r : Raised) (l : List Raised), s.tm.raised = r :: l → (∀ x ∈ l, x.eff = r.eff) → r.eff ≠ 6 → matchH s.tm.h r.eff = none →
    let rep := s.cr.effReport (coreOf s.cur) r.eff (s.tm.lti r.slot) r.site r.payload
    (¬ (r.eff = 0xF ∧ (s.ctx s.cr.ctx).debug = true) →
      s.deliver s.cur = (s.report (dieOf (coreOf s.cur)) (rep none)).putTm { s.tm with wait := .sup }) ∧
    (r.eff = 0xF → (s.ctx s.cr.ctx).debug = true →
      s.deliver s.cur = ((s.report (dieOf (coreOf s.cur)) (rep (some (Fin.ofNat 384 (coreOf s.cur))))).putCr
        { s.cr with halted := true }).putTm { s.tm with raised := [] })))

/-- R232, R233, R235, R237: `resume` of one-shot tokens of a `perform` by all slots of a team comes back in place: at the recorded
address, with the recorded registers and tags, the recorded entries on the handler stack, and the value with its tag in D; the slots
that waited in the EFF entry rejoin m0; the records are freed. Slots that cannot do so leave as seeds. `drop` frees the records and does nothing else. -/
def Obligations.ReturnFromAnEffect : Prop :=
  (∀ (o : Resume) (s : State) (r : Nat → Rec) (d : VReg),
    let t := s.tm
    let f := t.tagOf o.va
    let l := (s.P o.msk).map fun i => (i, r i)
    let r0 := r ((s.P o.msk).headD 0)
    t.active o.msk = true → t.typed .tok .tok [o.vt] = true → (f.pair = true → o.va.val % 2 = 0) →
    t.nonePending (span true o.vt.val ++ span f.pair o.va.val) [] = true →
    (∀ i ∈ s.P o.msk, s.cr.token (t.rd64 o.vt i) (t.lti i) = .ok (r i) ∧ (r i).dst = .perf d ∧ (r i).act = .nothing ∧
      (r i).marks = [] ∧ (r i).ms = false ∧ (∀ w ∈ (r i).vals, inRange (r i).range w.1 = true) ∧
      t.h.length + (r i).entries.length ≤ 16) →
    (f.pair = true → d.val % 2 = 0) → d.val + 1 < 1024 →
    (t.inPlace l = true → ∃ u : Team, exec (.resume o) s =
        .next ((s.putCr { s.cr with recs := s.cr.recs.filter fun x => (s.P o.msk).all fun i => x.loc != (r i).loc }).putTm u) ∧
      (∀ i ∈ s.P o.msk, u.pc = (r i).pc ∧ u.div = (r i).div ∧
        u.h.map HEntry.bare = (r i).entries.map HEntry.bare ++ t.h.map HEntry.bare ∧
        u.rdTag f d i = takes f (t.rdTag f o.va i) ∧
        ∀ q, q ∉ span f.pair d.val → u.rd q i =
          if inRange (r i).range q then (r i).vals.foldl (fun y w => if w.1 = q then w.2 else y) 0 else t.rd q i) ∧
      { t with tag := r0.tags }.retagged u d f ∧ u.wait = .run ∧ (∀ q : MReg, q ≠ 0 → u.m[q] = t.m[q]) ∧
      (t.div = r0.div → ∀ i, i < t.cap → u.m[(0 : MReg)].getLsbD i = t.m[(0 : MReg)].getLsbD i) ∧
      (∀ e below, t.div = e :: below → t.div ≠ r0.div → ∀ i, i < t.cap →
        u.m[(0 : MReg)].getLsbD i = (t.m[(0 : MReg)].getLsbD i || e.wait.getLsbD i))) ∧
    (t.inPlace l = false →
      s.cr.lacks ((s.P o.msk).map fun i => seedBytes (rangeLen (r i).range)).sum = 0 →
      ∃ t' : State, exec (.resume o) s = .next t' ∧
        (t'.core (coreOf s.cur)).seeds.map (fun x => (x.lti, x.pc, x.range, x.vals, x.land)) =
          s.cr.seeds.map (fun x => (x.lti, x.pc, x.range, x.vals, x.land)) ++
            (s.P o.msk).map fun i => ((r i).lti, (r i).pc, (r i).range, (r i).vals, some (.perf d, t.rdTag f o.va i, f)))) ∧
  (∀ (o : Drop) (s : State) (r : Nat → Rec), s.tm.active o.msk = true → s.tm.typed .tok .tok [o.vt] = true →
    s.tm.nonePending (span true o.vt.val) [] = true →
    (∀ i ∈ s.P o.msk, s.cr.token (s.tm.rd64 o.vt i) (s.tm.lti i) = .ok (r i) ∧ (r i).act = .nothing) →
    exec (.drop o) s = .next ((s.putCr { s.cr with recs := s.cr.recs.filter fun x => (s.P o.msk).all fun i => x.loc != (r i).loc }).putTm
      { s.tm with pc := s.tm.pc + 8, raised := [] }))

/-- R70, R71, R243 to R245: `srd` reads a special register by its index, or each slot's LTI; `swr` writes the writable fields, and raises
`e.ill` (0x01) for an illegal value of `%round` or `%spill`, of whose bits only the field is judged (log 104, deduced), in the active
slots (log 43, deduced); `tmrd` writes the clock, which advances by a value that the spec leaves open (log 10, the model's choice). -/
def Obligations.SpecialRegisters : Prop :=
  (∀ p ∈ ([(1, fun s => BitVec.ofNat 64 (s.tm.formed.toNat * 2 ^ 20 + s.tm.cap / 32 * 2 ^ 14 + s.tm.first)),
        (2, fun s => BitVec.ofNat 64 (s.tm.count s.tm.live)),
        (3, fun s => BitVec.ofNat 64 ((s.launch.nth - 1) * 2 ^ 6 + (s.launch.ncg - 1) * 2 ^ 3 + s.cr.cg)),
        (4, fun s => (s.cr.grp.map fun g => BitVec.ofNat 64 (g.br.toNat * 2 ^ 32 + g.clg.toNat)).getD 0), (5, fun s => s.tm.fflags.setWidth 64), (6, fun s => s.tm.fen.setWidth 64),
        (7, fun s => s.tm.round.setWidth 64), (8, fun s => s.tm.seed.setWidth 64), (9, fun s => s.tm.vstat.setWidth 64),
        (10, fun s => s.cr.lstat.setWidth 64), (11, fun s => s.cr.mstat.setWidth 64), (12, fun s => BitVec.ofNat 64 (s.cr.gn * 2 ^ 8 + s.cr.gm)), (13, fun s => BitVec.ofNat 64 s.tm.acb),
        (14, fun s => BitVec.ofNat 64 s.tm.acl), (15, fun s => s.cr.stepc), (16, fun s => s.cr.stepk), (17, fun s => s.cr.phase.setWidth 64),
        (18, fun s => BitVec.ofNat 64 s.launch.det.val), (19, fun s => s.tm.spill.setWidth 64), (20, fun s => s.cr.tokleak),
        (21, fun s => BitVec.ofNat 64 (s.tm.mcOutp.toNat * 2 ^ 32 + s.tm.mcLoop.toNat * 2 ^ 16 + s.tm.mcEmpty.toNat))] :
        List (Fin 22 × (State → DWord))),
    ∀ (msk : MReg) (d : UReg) (s : State), s.tm.active msk = true →
    (p.1 = 5 → s.tm.owesFlags = false) → (p.1 = 9 → s.tm.owesStatus = false) →
    ∃ u : Team, exec (.srd ⟨msk, .uni d p.1⟩) s = .next (s.putTm u) ∧ s.tm.wroteS u 8 d (p.2 s)) ∧
  (∀ (msk : MReg) (d : VReg) (s : State), s.tm.active msk = true → destFits 1024 .n64 d = true → s.tm.nonePending [d.val, d.val + 1] [] = true →
    ∃ s', exec (.srd ⟨msk, .lti d⟩) s = .next s' ∧
      s.vectorRan s' 8 (s.tm.exec msk) d .n64 (fun i => s.tm.lti i) 0 fun _ => false) ∧
  (∀ (o : Swr) (s : State), s.tm.active o.msk = true → s.tm.nonePending [] [o.a] = true → (o.idx = 5 → s.tm.owesFlags = false) →
    (o.idx = 9 → s.tm.owesStatus = false) →
    let x := s.tm.s[o.a]
    let t : Team := { s.tm with pc := s.tm.pc + 8 }
    let legal : Prop := (o.idx = 7 → x.toNat % 8 ≤ 5) ∧ (o.idx = 19 → x.toNat % 32 ≤ 16)
    (legal → ∃ u : Team, exec (.swr o) s = .next (s.putTm u) ∧
      (∀ p ∈ ([(5, { t with fflags := x.setWidth 5 }), (6, { t with fen := x.setWidth 6 }), (7, { t with round := x.setWidth 3 }),
          (8, { t with seed := x.setWidth 32 }), (9, { t with vstat := x.setWidth 3 }), (19, { t with spill := x.setWidth 5 }),
          (21, { t with mcEmpty := x.setWidth 16, mcLoop := (x >>> 16).setWidth 16, mcOutp := x.getLsbD 32 })] :
          List (Fin 22 × Team)), o.idx = p.1 → u = p.2) ∧
      (o.idx ∉ [(5 : Fin 22), 6, 7, 8, 9, 19, 21] → u = t)) ∧
    (¬ legal → ∃ s', exec (.swr o) s = .next s' ∧ s.raisesAll s' (s.P o.msk) 1 (s.tm.pc <<< 8 ||| 0xA) (s.tm.pc + 8))) ∧
  (∀ (o : Tmrd) (s : State), s.tm.active o.msk = true → s.launch.det = 0 → ∃ (t : State) (u : Team),
    exec (.tmrd o) s = .next t ∧ t.tm = u ∧ t.clock = s.clock + Config.clockAdvance s.free ∧
      s.tm.wroteS u 8 o.d (BitVec.ofNat 64 t.clock)) ∧
  (∀ (o : Tmrd) (s : State), s.tm.active o.msk = true → s.launch.det = 2 →
    ∃ s', exec (.tmrd o) s = .next s' ∧ s.raisesAll s' (s.P o.msk) 0x10 0x13 (s.tm.pc + 8))

/-! ## Copies, engines and step points (12, 13, 19) -/

/-- R271 to R277, R363 to R366: the copy instructions put one command into the queue of the core's copy engine, made from the
registers at issue, by the thread of lowest LTI; with a count or a length of 0 every one of them only goes on. `mcast` counts an empty mask and a
mask that names its own cluster.

R261, R277, R278: a command of the copy engine. The engine starts the first command of its queue, and when it has moved every row and
all lines that it asked for have come, the command's writes are queued, row by row, and the command leaves. A row of a copy within the
local window has the bytes of the snapshot; a row of a fill repeats its pattern. -/
def Obligations.CopiesAreQueuedAndRun : Prop :=
  (let mk (s : State) (msk : MReg) (rule : Rule) (fmt : Tag) (land : Fin 8) : CopyCmd :=
    { id := s.pendId 0, seq := s.seq, lti := s.tm.lti ((s.P msk).headD 0), n := 1, len := 0, src := none, srcStep := 0, dst := 0,
      dstStep := 0, fill := 0, list := none, mask := none, rule := rule, fmt := fmt, land := land.val }
  (∀ (o : Cpy) (s : State),
    let c : CopyCmd := { mk s o.msk o.rule o.fa o.land with
      len := s.tm.s[o.n].toNat, src := some (s.tm.baseOf o.src + o.off.signExtend 64), dst := s.tm.s[o.d] }
    s.copyGoes o.msk ([o.d, o.n] ++ o.src.toList) c [] → exec (.cpy o) s = .next (s.copyQueued c s.tm)) ∧
  (∀ (o : Cpy2d) (s : State),
    let x := s.tm.s[o.x]
    let c : CopyCmd := { mk s o.msk o.rule o.fa o.land with
      n := s.tm.s[o.n].toNat, len := o.len.toNat, src := some (s.tm.baseOf o.src + o.off.signExtend 64), dst := s.tm.s[o.d]
      srcStep := (x.setWidth 32).signExtend 64, dstStep := ((x >>> 32).setWidth 32).signExtend 64 }
    s.copyGoes o.msk ([o.d, o.n, o.x] ++ o.src.toList) c [c.srcStep, c.dstStep] → exec (.cpy2d o) s = .next (s.copyQueued c s.tm)) ∧
  (∀ p ∈ ([(Instr.cpyg, true), (Instr.cpys, false)] : List ((CpyIx → Instr) × Bool)), ∀ (o : CpyIx) (s : State),
    let T : DWord := BitVec.ofNat 64 (4 * o.stride4.toNat)
    let c : CopyCmd := { mk s o.msk o.rule o.fa o.land with
      n := s.tm.s[o.n].toNat, len := o.len.toNat, src := some (s.tm.baseOf o.src + o.off.signExtend 64), dst := s.tm.s[o.d]
      srcStep := BitVec.ofNat 64 o.len.toNat, dstStep := BitVec.ofNat 64 o.len.toNat, list := some (s.tm.s[o.ix], T, p.2) }
    s.copyGoes o.msk ([o.d, o.ix, o.n] ++ o.src.toList) c [T] → exec (p.1 o) s = .next (s.copyQueued c s.tm)) ∧
  (∀ (o : CpyF) (s : State),
    let c : CopyCmd := { mk s o.msk o.rule o.fa o.land with len := s.tm.s[o.n].toNat, dst := s.tm.s[o.d], fill := s.tm.baseOf o.pat }
    s.copyGoes o.msk ([o.d, o.n] ++ o.pat.toList) c [] → exec (.cpyf o) s = .next (s.copyQueued c s.tm)) ∧
  (∀ (s : State) (msk : MReg) (us : List UReg), s.tm.active msk = true → s.tm.nonePending [] us = true → s.cr.copyQ.length < 16 →
    let on := Host.Outcome.next (s.putTm { s.tm with pc := s.tm.pc + 16 })
    (∀ o : Cpy, o.msk = msk → us = [o.d, o.n] ++ o.src.toList → s.tm.s[o.n] = 0 → exec (.cpy o) s = on) ∧
    (∀ o : Cpy2d, o.msk = msk → us = [o.d, o.n, o.x] ++ o.src.toList → s.tm.s[o.n] = 0 ∨ o.len.toNat = 0 → exec (.cpy2d o) s = on) ∧
    (∀ o : CpyIx, o.msk = msk → us = [o.d, o.ix, o.n] ++ o.src.toList → s.tm.s[o.n] = 0 ∨ o.len.toNat = 0 →
      exec (.cpyg o) s = on ∧ exec (.cpys o) s = on) ∧
    (∀ o : CpyF, o.msk = msk → us = [o.d, o.n] ++ o.pat.toList → s.tm.s[o.n] = 0 → exec (.cpyf o) s = on) ∧
    ∀ o : MCast, o.msk = msk → us = [o.d, o.n, o.k, o.w] ++ o.src.toList → s.tm.s[o.k] ≠ 0 → s.tm.s[o.n] = 0 →
      exec (.mcast o) s = on) ∧
  (∀ (o : MCast) (s : State),
    let k := s.tm.s[o.k]
    let us := [o.d, o.n, o.k, o.w] ++ o.src.toList
    let c : CopyCmd := { mk s o.msk o.rule o.fa o.land with
      len := s.tm.s[o.n].toNat, src := some (s.tm.baseOf o.src + o.off.signExtend 64), dst := s.tm.s[o.d], dstStep := s.tm.s[o.w]
      mask := some k }
    let more (x : BitVec 16) : BitVec 16 := if x = 0xFFFF then x else x + 1
    let outside := k &&& ~~~(s.partBlk (s.ctx s.cr.ctx).part).mask
    (k = 0 → s.tm.active o.msk = true → s.tm.nonePending [] us = true →
      exec (.mcast o) s = .next (s.putTm { s.tm with pc := s.tm.pc + 16, mcEmpty := more s.tm.mcEmpty })) ∧
    (k ≠ 0 → outside = 0 → s.copyGoes o.msk us c [s.tm.s[o.w]] → exec (.mcast o) s = .next (s.copyQueued c
      { s.tm with mcLoop := if k.getLsbD (clusterOf (coreOf s.cur)) then more s.tm.mcLoop else s.tm.mcLoop })) ∧
    (k ≠ 0 → outside ≠ 0 → s.copyGoes o.msk us c [s.tm.s[o.w]] → ∃ s', exec (.mcast o) s = .next s' ∧
      (s.putTm { s.tm with mcOutp := true }).raisesAll s' [(s.P o.msk).headD 0] 0x15 outside (s.tm.pc + 16)))) ∧
  ((∀ (s : State) (k : CoreId) (c : CopyCmd) (r : List CopyCmd) (ws : List (Spot × Write)), (s.core k).copyQ = c :: r →
    s.copyRun k c = .ok ws →
    ((s.core k).copyRun = false → ∃ t : State, exec (.engineCommandStart k .copy) s = .next t ∧
      (t.core k).copyRun = true ∧ (t.core k).copyQ = c :: r ∧ (t.core k).copyGot = ws ∧ c.rows.length ≤ (t.core k).copyAt.1 ∧
      s.sameBytes t ∧ t.teams = s.teams) ∧
    ((s.core k).copyRun = true → c.mask = none → s.asked k c.id = false → s.copyLogged k c.id = false → c.rows.length ≤ (s.core k).copyAt.1 →
      exec (.engineCommandFinished k .copy) s = .next ((ws.foldl (fun s w => s.queue k w.1 w.2) s).popCopy k))) ∧
  (∀ (s : State) (k : Nat) (c : CopyCmd) (a b : Nat), c.n = 1 → c.mask = none → c.list = none → c.rule ≠ .sum → c.rule ≠ .sumin →
    (s.core k).copyAt = (0, 0) → (s.core k).copyGot = [] →
    c.dst = BitVec.ofNat 64 (0xFE00000000000000 + b) → b % 8 = 0 → b + c.len ≤ (s.core k).launch.loc → (s.core k).launch.loc ≤ 2 ^ 21 →
    0 < c.len →
    let w : Write := { lti := c.lti, seq := c.seq, row := 0, addr := 0, va := c.dst, bytes := [], rule := c.rule, fmt := c.fmt,
                       left := c.land, claim := none }
    (c.src = some (BitVec.ofNat 64 (0xFE00000000000000 + a)) → a % 8 = 0 → a + c.len ≤ (s.core k).launch.loc →
      s.copyRun k c = .ok [(.loc b, { w with bytes := readBytes (s.core k).loc a c.len })]) ∧
    (c.src = none → ∃ bs : List Byte, s.copyRun k c = .ok [(.loc b, { w with bytes := bs })] ∧ bs.length = c.len ∧
      ∀ j, j < c.len → bs.getD j 0 = (c.fill >>> (8 * (j % 8))).setWidth 8)))

/-- R267 to R269: `step` leaves the team waiting for its step point; threads parked by a `brd` leave it as seeds.

R262, R294, R298, R302, R360, R361: a step point that nothing collides at. The writes that are due land in the windows and the
accumulator, the others come one landing point nearer, the counters of steps go up, the requested shape and windows are granted, and
the teams that waited go on after their `step`. Device memory does not change. -/
def Obligations.StepPoints : Prop :=
  ((∀ (o : StepOp) (s : State), s.tm.div = [] →
    exec (.step o) s = .next (s.putTm { s.tm with wait := if o.clu then .clu else .core })) ∧
  (∀ (o : StepOp) (s : State) (e : DEntry), s.tm.div = [e] → e.eff = false → s.tm.captureWaits e.range = false →
    s.cr.lacks (((s.tm.lanes e.wait).length + (s.tm.lanes e.done).length) * seedBytes (rangeLen e.range)) = 0 →
    ∃ t : State, exec (.step o) s = .next t ∧ t.tm.wait = (if o.clu then .clu else .core) ∧ t.tm.pc = s.tm.pc ∧
      (t.tm.live = s.tm.live &&& ~~~maskOf (s.tm.slotsOf (e.wait ||| e.done)) &&& s.tm.capMask ∨ t.tm.live = s.tm.live) ∧
      (t.core (coreOf s.cur)).seeds.map (fun x => (x.lti, x.pc)) = s.cr.seeds.map (fun x => (x.lti, x.pc)) ++
        (s.tm.lanes e.wait).map (fun i => (s.tm.lti i, e.alt)) ++ (s.tm.lanes e.done).map (fun i => (s.tm.lti i, e.rpc)) ∧
      ∀ d ∈ t.tm.div, d.wait ||| d.done = 0 ∨ s.tm.lanes e.wait ++ s.tm.lanes e.done = [])) ∧
  ((∀ (s : State) (c : CoreId), s.coreStepReady c = true → s.landsClean c → ∃ t : State, exec (.coreStepPoint c) s = .next t ∧
    t.mem = s.mem ∧ t.host = s.host ∧
    (let x := s.core c
     let y := t.core c
     y.loc = (landAll x.loc [] x.due).mem ∧
     y.writes = ((x.writes.filter fun w => 1 < w.left).map fun w => { w with left := w.left - 1 }) ∧
     y.acc = (landAcc x.acc (x.accWrites.filter fun w => w.left ≤ 1)).1 ∧ y.exch = x.exch ∧ y.exWrites = x.exWrites ∧ y.priv = x.priv ∧
     y.stepc = x.stepc + 1 ∧ y.stepk = x.stepk ∧ (y.gm, y.gn) = x.grantReq.getD (x.gm, x.gn) ∧ y.grantReq = none ∧
     y.win = x.winReq.or x.win ∧ y.winReq = none) ∧
    ∀ k, s.hasTeam c k → (s.team k).wait = .core → (t.team k).wait = .run ∧ (t.team k).pc = (s.team k).pc + 8 ∧
      (t.team k).m = (s.team k).m ∧ (t.team k).h = (s.team k).h ∧ (t.team k).div = (s.team k).div) ∧
  (∀ (s : State) (cl : ClusterId), s.clusterStepReady cl = true → (∀ c ∈ s.groupCores cl, s.landsClean c ∧
      anySets (s.core c).exDue = [] ∧ (landAll (s.core c).exch [] (s.core c).exDue).faults = []) →
    ∃ t : State, exec (.clusterStepPoint cl) s = .next t ∧ t.mem = s.mem ∧ t.host = s.host ∧ ∀ c ∈ s.groupCores cl,
      (let x := s.core c
       let y := t.core c
       y.loc = (landAll x.loc [] x.due).mem ∧ y.exch = (landAll x.exch [] x.exDue).mem ∧
       y.exWrites = ((x.exWrites.filter fun w => 1 < w.left).map fun w => { w with left := w.left - 1 }) ∧
       y.stepc = x.stepc + 1 ∧ y.stepk = x.stepk + 1) ∧
      ∀ k, s.hasTeam c k → (t.team k).wait = .run ∧ (t.team k).pc = (s.team k).pc + 8))

/-! ## The matrix engine (15, 16) -/

/-- R293, R294, R301, R317 to R319: the leader team requests a shape and windows, which a step point grants; any other team raises `e.ill`
(0x01), reason 0x0B. `mzero` queues a zero for every element of the rows that it names.

R299, R302, R326 to R328: `mrd` reads and `mwr` queues consecutive elements of the accumulator, of rows in the team's window; an element
outside it raises `e.acc` (0x0B) in its slot. -/
def Obligations.MatrixSetupAndAccess : Prop :=
  ((∀ (o : MShape) (s : State), s.tm.active o.msk = true →
    (s.tm.formed = false → s.tm.first = 0 → exec (.mshape o) s = .next ((s.putTm { s.tm with pc := s.tm.pc + 8 }).putCr
      { s.cr with grantReq := some (16 * 2 ^ o.mc.val, 16 * 2 ^ o.nc.val) })) ∧
    ((s.tm.formed = true ∨ s.tm.first ≠ 0) → ∃ s', exec (.mshape o) s = .next s' ∧
      s.raisesAll s' (s.P o.msk) 1 (s.tm.pc <<< 8 ||| 0xB) (s.tm.pc + 8))) ∧
  (∀ (o : MWin) (s : State), s.tm.active o.msk = true → s.tm.formed = false → s.tm.first = 0 →
    (o.base.toNat + s.launch.teams * o.len.val ≤ 4096 → exec (.mwin o) s = .next ((s.putTm { s.tm with pc := s.tm.pc + 12 }).putCr
      { s.cr with winReq := some (o.base.toNat, o.len.val) })) ∧
    (4096 < o.base.toNat + s.launch.teams * o.len.val → ∃ s', exec (.mwin o) s = .next s' ∧
      s.raisesAll s' (s.P o.msk) 0xB 0x30000 s.tm.pc)) ∧
  (∀ (o : MZero) (s : State), s.tm.active o.msk = true → s.tm.nonePending [] [o.r, o.n] = true →
    let r := s.tm.s[o.r].toNat
    let n := s.tm.s[o.n].toNat
    (∀ k, k < n → s.tm.ownsRow ((r + k : Nat) : Int) = true) →
    exec (.mzero o) s = .next ((s.putTm { s.tm with pc := s.tm.pc + 8 }).putCr { s.cr with
      accWrites := s.cr.accWrites ++ (List.range (n * 128)).map fun e =>
        { lti := s.tm.lti ((s.P o.msk).headD 0), seq := s.seq, elem := r * 128 + e, val := 0, low := false, left := 1 } }))) ∧
  ((∀ (o : MRd) (s : State), o.fa.pair = false → o.d.val + o.n1.val < 1024 →
    s.reaches o.msk o.addr ((List.range (o.n1.val + 1)).map (o.d.val + ·)) = true →
    (∀ i ∈ s.P o.msk, ∀ j, j ≤ o.n1.val → (s.tm.addrOf o.addr i).toNat + j < 524288 ∧
      s.tm.ownsRow ((((s.tm.addrOf o.addr i).toNat + j) / 128 : Nat) : Int) = true) →
    ∃ u : Team, exec (.mrd o) s = .next (s.putTm u) ∧
      u = { s.tm with pc := s.tm.pc + 16, tag := u.tag, pend := u.pend, raised := [] } ∧
      (∀ r, o.d.val ≤ r → r ≤ o.d.val + o.n1.val → u.tagOf r = o.fa) ∧
      u.pend = s.tm.pend ++ (List.range (o.n1.val + 1)).map fun j =>
        Pend.make (s.pendId j) (.vec (Fin.ofNat 1024 (o.d.val + j)) false) .timed
          ((s.P o.msk).map fun i => (s.tm.lti i, (s.cr.acc.get 0 ((s.tm.addrOf o.addr i).toNat + j)).setWidth 64)) []) ∧
  (∀ (o : MWr) (s : State), (∀ j, j ≤ o.n1.val → (s.tm.tagOf (o.src.val + j)).pair = false) → o.src.val + o.n1.val < 1024 →
    s.reaches o.msk o.addr ((List.range (o.n1.val + 1)).map (o.src.val + ·)) = true →
    (∀ i ∈ s.P o.msk, ∀ j, j ≤ o.n1.val → (s.tm.addrOf o.addr i).toNat + j < 524288 ∧
      s.tm.ownsRow ((((s.tm.addrOf o.addr i).toNat + j) / 128 : Nat) : Int) = true) →
    exec (.mwr o) s = .next ((s.putCr { s.cr with
        accWrites := s.cr.accWrites ++ (s.P o.msk).flatMap fun i => (List.range (o.n1.val + 1)).map fun j =>
          { lti := s.tm.lti i, seq := s.seq, elem := (s.tm.addrOf o.addr i).toNat + j, val := s.tm.rd (o.src.val + j) i, low := o.low,
            left := o.land.val } }).putTm { s.tm with pc := s.tm.pc + 16, raised := [] })) ∧
  (∀ (o : MRd) (s : State), s.reaches o.msk o.addr ((List.range (o.n1.val + 1)).map (o.d.val + ·)) = true → o.d.val + o.n1.val < 1024 →
    (∀ i ∈ s.P o.msk, (s.tm.addrOf o.addr i).toNat < 524288 ∧
      s.tm.ownsRow (((s.tm.addrOf o.addr i).toNat / 128 : Nat) : Int) = false) →
    ∃ u : Team, exec (.mrd o) s = .next ((s.putTm u).deliver s.cur) ∧ u.pend = s.tm.pend ∧
      u.effects = (s.P o.msk).map fun i => (i, 0xB, BitVec.ofNat 64 (2 ^ 16 + (s.tm.addrOf o.addr i).toNat / 128), s.tm.pc)))

/-- R316, R320 to R325: `mmul` and `mloop` that pass their checks put one command into the queue of the matrix engine; with K = 0 or no
iteration they only go on. The engine takes up its first command, and when it has finished queues its writes.

R107, R110, R305: one dense I8 product. Each element (r, c) of the granted shape receives, modulo 2^32, its value in the accumulator (or
0 under Z) plus the sum over k of a(r, k) · b(c, k), where a and b are the signed bytes of the local window at AD + r · AST + k and
BD + c · BST + k. -/
def Obligations.MatrixProducts : Prop :=
  ((∀ p ∈ ([(Instr.mmul, false), (Instr.mloop, true)] : List ((MProd → Instr) × Bool)), ∀ (o : MProd) (s : State),
    let d := s.desc o p.2
    (s.productGoes o p.2 → exec (p.1 o) s = .next
      ((s.putTm { s.tm with pc := s.tm.pc + 16 }).putCr { s.cr with
        matQ := s.cr.matQ ++ [s.productCmd o
          (s.product (coreOf s.cur) o.cls o.z (s.rowMeta o d.k) d s.cr.gm s.cr.gn)] })) ∧
    (s.tm.active o.msk = true → s.tm.nonePending [] (descRegs o.desc 12) = true → s.cr.matQ.length < 16 →
      (p.2 = true → s.tm.leader = true) → s.cr.gm ≠ 0 → (d.k = 0 ∨ d.cnt = 0) →
      exec (p.1 o) s = .next (s.putTm { s.tm with pc := s.tm.pc + 16 }))) ∧
  (∀ (s : State) (k : CoreId) (m : MatCmd) (r : List MatCmd), (s.core k).matQ = m :: r →
    ((s.core k).matRun = false → exec (.engineCommandStart k .matrix) s = .next (s.setCore k { s.core k with matRun := true })) ∧
    ((s.core k).matRun = true → m.writes = [] → exec (.engineCommandFinished k .matrix) s = .next (s.setCore k { s.core k with
      matQ := r, matRun := false, accWrites := (s.core k).accWrites ++ m.acc
      mstatDue := (s.core k).mstatDue ++ m.stats.filter fun x => x.bits != 0 })) ∧
    ((s.core k).matRun = true → ∃ t : State, exec (.engineCommandFinished k .matrix) s = .next t ∧ s.sameBytes t ∧
      (t.core k).matQ = r ∧ (t.core k).writes = (s.core k).writes ++ m.writes.filterMap fun w =>
        if w.1 = none then some { w.2 with far := decide (1 < w.2.left) } else none))) ∧
  (∀ (s : State) (core : Nat) (z : Bool) (p : PDesc) (gm gn a b : Nat) (md : Nat → Nat → Option (List Nat)), p.cnt = 1 → p.k % 32 = 0 →
    gn ≤ 128 → (∀ it r, md it r = none) →
    p.ad = BitVec.ofNat 64 (0xFE00000000000000 + a) → p.bd = BitVec.ofNat 64 (0xFE00000000000000 + b) →
    (s.core core).launch.loc ≤ 2 ^ 21 →
    (∀ r, r < gm → a + r * p.ast + p.k ≤ (s.core core).launch.loc) → (∀ c, c < gn → b + c * p.bst + p.k ≤ (s.core core).launch.loc) →
    let x := s.core core
    let byte (n : Nat) : Int := (x.loc.get unwritten n).toInt
    ∀ r c, r < gm → c < gn →
      (s.product core .i8 z md p gm gn).1.lookup ((p.row + r) * 128 + c) = some (BitVec.ofInt 32
        ((if z then 0 else (x.acc.get 0 ((p.row + r) * 128 + c)).toInt) +
          ((List.range p.k).map fun k => byte (a + r * p.ast + k) * byte (b + c * p.bst + k)).sum)))

/-- R310, R329: `mcomp` keeps four of the eight elements of each group: none of those it drops has a greater magnitude, and of equal ones the
first are kept. Their codes stand in D in ascending place, their places in the half of C that HI names. -/
def Obligations.Compression : Prop :=
  ∀ (o : MComp) (s : State), ∀ f ∈ [Tag.k8tx4, .i8x4], s.tm.active o.msk = true → o.d ≠ o.c → o.a.val + 1 < 1024 →
    (∀ r ∈ [o.a.val, o.a.val + 1], if o.fa = .none then s.tm.tagOf r = f else o.fa = f ∧ (s.tm.tagOf r = .none ∨ s.tm.tagOf r = f)) →
    s.tm.nonePending [o.a.val, o.a.val + 1, o.c.val, o.d.val] [] = true →
    ∃ u : Team, exec (.mcomp o) s = .next (s.putTm u) ∧ u = { s.tm with pc := s.tm.pc + 12, v := u.v, tag := u.tag, raised := [] } ∧
      s.tm.keepsV u (s.tm.exec o.msk) [o.d.val, o.c.val] ∧ u.tagOf o.d = f ∧ u.tagOf o.c = .n32 ∧
      ∀ i ∈ s.tm.slotsOf (s.tm.exec o.msk),
        let code (e : Nat) : Nat := (s.tm.rd (o.a.val + e / 4) i).toNat / 2 ^ (8 * (e % 4)) % 256
        let x (e : Nat) : FVal := (elemOf f).val (code e)
        ∃ k : List Nat, k.length = 4 ∧ k.Pairwise (· < ·) ∧ (∀ e ∈ k, e < 8) ∧
          (∀ e ∈ k, ∀ g, g < 8 → g ∉ k → ranksAbove (x e) (x g) = true ∨ (ranksAbove (x g) (x e) = false ∧ e < g)) ∧
          (∀ j e, k[j]? = some e → (u.rd o.d i).toNat / 2 ^ (8 * j) % 256 = code e ∧
            (u.rd o.c i).toNat / 2 ^ ((if o.hi then 16 else 0) + 3 * j) % 8 = e) ∧
          (u.rd o.c i).toNat / 2 ^ ((if o.hi then 16 else 0) + 12) % 16 = 0 ∧
          (u.rd o.c i).toNat / 2 ^ (if o.hi then 0 else 16) % 2 ^ 16 = (s.tm.rd o.c i).toNat / 2 ^ (if o.hi then 0 else 16) % 2 ^ 16

/-- R311, R330: `msplit` queues the slices of each line and its exponent word. The exponent of a line is one above that of its greatest
element, 0 where all are zero; a line with an infinity or a NaN has none, and zero slices. The slices of an element of exponent e are
digits of one sign whose weighted sum is its value, truncated toward zero to a multiple of 2^(e − 7k). R331: `mrecomb` queues the
recombined rows, and the exceptions of their elements. With a count of 0 `msplit` only goes on. -/
def Obligations.SplittingAndRecombining : Prop :=
  (∀ xs : List FVal, ((∃ x ∈ xs, x.finite = false) → lineExp xs = none) ∧
    ((∀ x ∈ xs, x.finite = true) → ∃ e : Int, lineExp xs = some e ∧ (∀ x ∈ xs, ∀ y, prodLog x = some y → y < e) ∧
      ((∃ x ∈ xs, prodLog x = some (e - 1)) ∨ (e = 0 ∧ ∀ x ∈ xs, prodLog x = none)))) ∧
  (∀ (e : Int) (neg : Bool) (m : Nat) (g : Int) (k : Nat), prodLog (.fin neg m g) = none ∨ (∃ x, prodLog (.fin neg m g) = some x ∧ x < e) →
    let d := slices e (.fin neg m g) k
    d.length = k ∧ (∀ x ∈ d, -127 ≤ x ∧ x ≤ 127 ∧ (if neg then x ≤ 0 else 0 ≤ x)) ∧
    ∃ n : Nat, d.foldl (fun a x => a * 128 + x) 0 = (if neg then -(n : Int) else n) ∧
      (∀ j : Nat, (j : Int) = g - e + 7 * k → n = m * 2 ^ j) ∧ (∀ j : Nat, -(j : Int) = g - e + 7 * k → n = m / 2 ^ j)) ∧
  (∀ (o : MSplit) (s : State),
    let q := s.tm.desc o.desc
    let ln := bitsOf (q 4) 39 20
    let K := bitsOf (q 4) 19 0
    let line (l : Nat) : DWord := q 0 + BitVec.ofNat 64 (l * bitsOf (q 3) 31 0)
    let slc (l sl : Nat) : DWord := q 1 + BitVec.ofNat 64 (sl * (q 5).toNat) + BitVec.ofNat 64 (l * bitsOf (q 3) 63 32)
    let exp (l : Nat) : DWord := q 2 + BitVec.ofNat 64 (4 * l)
    s.matGoes o.msk o.desc 6 →
    ((K = 0 ∨ ln = 0) → exec (.msplit o) s = .next (s.putTm { s.tm with pc := s.tm.pc + 16 })) ∧
    (K ≠ 0 → ln ≠ 0 → bitsOf (q 4) 63 40 = 0 → bitsOf (q 3) 31 0 % 8 = 0 →
      matFails s.launch (((List.range ln).map fun l => (8, line l, 8 * K)) ++
        ((List.range ln).flatMap fun l => (List.range (o.k1.val + 1)).map fun sl => (1, slc l sl, K)) ++
        ((List.range ln).map fun l => (4, exp l, 4))) = none →
      ∃ cmd : MatCmd, exec (.msplit o) s = .next (s.matQueued cmd) ∧ cmd.acc = [] ∧ cmd.stats = [] ∧
        s.windowWrites o.msk o.low o.land cmd ∧ cmd.writes.length = ln * (o.k1.val + 2) ∧ ∀ l, l < ln →
          let xs := (List.range K).map fun k => fp64.val (leNat (((s.matBytes (coreOf s.cur) (line l) (8 * K)).drop (8 * k)).take 8))
          (∃ w ∈ cmd.writes, w.2.va = exp l ∧ w.2.bytes = leBytes 4 (match lineExp xs with
            | some e => (BitVec.ofInt 32 e).toNat | none => 0x80000000)) ∧
          ∀ sl, sl ≤ o.k1.val → ∃ w ∈ cmd.writes, w.2.va = slc l sl ∧ w.2.bytes = xs.map fun x => match lineExp xs with
            | some e => BitVec.ofInt 8 ((slices e x (o.k1.val + 1)).getD sl 0) | none => 0)) ∧
  (∀ (o : MRecomb) (s : State),
    let q := s.tm.desc o.desc
    let nc := bitsOf (q 4) 47 40
    let mr := bitsOf (q 4) 39 32
    let row (n r : Nat) : Nat := bitsOf (q 4) 11 0 + n * bitsOf (q 4) 27 16 + r
    let res (i : Nat) : DWord := q 0 + BitVec.ofNat 64 (i * bitsOf (q 1) 31 0)
    s.matGoes o.msk o.desc 5 → bitsOf (q 1) 63 32 = 0 → bitsOf (q 4) 63 48 = 0 → bitsOf (q 4) 31 28 = 0 → bitsOf (q 4) 15 12 = 0 →
    1 ≤ nc → nc ≤ 128 → 1 ≤ mr → mr ≤ 128 → bitsOf (q 1) 31 0 % 8 = 0 →
    matFails s.launch (((List.range mr).map fun r => (8, res r, 8 * nc)) ++ [(4, q 2, 4 * mr), (4, q 3, 4 * nc)]) = none →
    (∀ n r, n < (pairsOf (o.k1.val + 1) o.tri).length → r < mr → s.tm.ownsRow ((row n r : Nat) : Int) = true) →
    let word (a : DWord) (n j : Nat) : Word := BitVec.ofNat 32 (leNat (((s.matBytes (coreOf s.cur) a (4 * n)).drop (4 * j)).take 4))
    let elem (r c : Nat) : FRes := recombine (word (q 2) mr r) (word (q 3) nc c) ((pairsOf (o.k1.val + 1) o.tri).zipIdx.map fun p =>
      (p.1.1 + p.1.2, (s.cr.acc.get 0 (row p.2 r * 128 + c)).toInt))
    ∃ cmd : MatCmd, exec (.mrecomb o) s = .next (s.matQueued cmd) ∧ cmd.acc = [] ∧ s.windowWrites o.msk o.low o.land cmd ∧
      cmd.writes.map (fun w => (w.2.va, w.2.bytes)) =
        ((List.range mr).map fun r => (res r, (List.range nc).flatMap fun c => leBytes 8 (elem r c).1)) ∧
      (∀ m ∈ cmd.stats, m.left = o.land.val) ∧ cmd.stats.foldl (fun f m => f ||| m.bits) 0 =
        (List.range mr).foldl (fun f r => (List.range nc).foldl (fun f c => f ||| ((elem r c).2 &&& 0x1F)) f) 0)

/-! ## The expansion group (17, 18) -/

/-- R333, R334, R347, R349, R350: `xbind` fills a descriptor whose spans lie below `.vregs`, are even under F64 and do not overlap, and else
raises `e.xpn` (0x14) with the lowest reason; `xclr` empties one descriptor or all; `xmov` copies one.

R335 to R340, R347, R348, R351 to R353: with bound descriptors of the kinds that they want, `xform`, `xshift`, `xconv`, `xlshift` and
`xeval` write in each active slot the exact coefficients, or potential and gradient, rounded once; an input that is no finite number
makes every result the default NaN, and invalid. -/
def Obligations.ExpansionMaps : Prop :=
  ((∀ (o : XBind) (s : State), s.tm.active o.msk = true →
    let k := if o.f64 then 2 else 1
    let n := (o.p.val + 1) * (o.p.val + 1) * k
    let fits : Prop := o.base.val + n ≤ s.vregs ∧ o.cen.val + 3 * k ≤ s.vregs
    let even : Prop := o.f64 = true → o.base.val % 2 = 0 ∧ o.cen.val % 2 = 0
    let apart : Prop := o.base.val + n ≤ o.cen.val ∨ o.cen.val + 3 * k ≤ o.base.val
    (fits → even → apart → exec (.xbind o) s = .next (s.putTm { s.tm with
      pc := s.tm.pc + 12
      x := s.tm.x.set o.d.val { v := true, loc := o.loc, f64 := o.f64, p := o.p, base := o.base, cen := o.cen } })) ∧
    (∀ r : Nat, (r = 5 ∧ ¬ fits) ∨ (r = 6 ∧ fits ∧ ¬ even) ∨ (r = 7 ∧ fits ∧ even ∧ ¬ apart) → ∃ s', exec (.xbind o) s = .next s' ∧
      s.raisesAll s' (s.P o.msk) 0x14 (BitVec.ofNat 64 (r + o.d.val * 256)) (s.tm.pc + 12))) ∧
  (∀ (o : XClr) (s : State), s.tm.active o.msk = true →
    ∃ x : Vector XDesc 16, exec (.xclr o) s = .next (s.putTm { s.tm with pc := s.tm.pc + 8, x := x }) ∧
      ∀ d : XReg, x[d] = if o.d = some d ∨ o.d = none then XDesc.unbound else s.tm.x[d]) ∧
  (∀ (o : XMov) (s : State), s.tm.active o.msk = true →
    ∃ x : Vector XDesc 16, exec (.xmov o) s = .next (s.putTm { s.tm with pc := s.tm.pc + 8, x := x }) ∧
      ∀ d : XReg, x[d] = if d = o.d then s.tm.x[o.a] else s.tm.x[d])) ∧
  ((∀ (o : XForm) (s : State),
    let d := s.tm.x[o.d]
    let n := o.n1.val + 1
    let src := (List.range (4 * n)).map fun j => o.a.val + d.k * j
    let el (l : List Nat) (i : Nat) : List FVal := l.map fun r => (ieeeOf d.fmt).val (s.tm.rdTag d.fmt r i).toNat
    let out (i : Nat) : Out := xOut d.fmt d.span (el src i ++ el d.centre i ++ if o.add then el d.span i else []) false fun _ =>
      let terms := (List.range n).map fun j =>
        formOne d.p ((ptOf ((el src i).drop (4 * j))).sub (ptOf (el d.centre i))) ((el src i).getD (4 * j + 3) .knan).q
      (List.range d.size).map fun e =>
        algOf (oldAt (if o.add then el d.span i else []) e) (terms.foldl (fun (a : Fld2) l => a.add (l.getD e [])) [])
    d.v = true → d.loc = false → o.a.val + 4 * d.k * n ≤ s.vregs → (d.f64 = true → o.a.val % 2 = 0) →
    s.mapGoes o.msk d.fmt (src ++ d.centre ++ if o.add then d.span else []) d.span → s.noTrap o.msk (fun i => (out i).fl) →
    ∃ s', exec (.xform o) s = .next s' ∧ s.rowRan s' 12 (s.tm.exec o.msk) d.fmt d.span out) ∧
  (∀ p ∈ ([(Instr.xshift, false, false, fun _ _ => false, fun p old m ca cd =>
          (shiftM p m (ca.sub cd)).zipIdx.map fun e => algOf (old e.2) e.1),
        (Instr.xconv, true, false, fun ca cd => (cd.sub ca).sq.n == 0, fun p old m ca cd =>
          (convML p m (cd.sub ca)).zipIdx.map fun e => overRoot (old e.2) e.1 (cd.sub ca).sq),
        (Instr.xlshift, true, true, fun _ _ => false, fun p old m ca cd =>
          (shiftL p p m (cd.sub ca)).zipIdx.map fun e => algOf (old e.2) e.1)] :
        List ((XMap → Instr) × Bool × Bool × (Pt → Pt → Bool) × (Nat → (Nat → Q) → List Q → Pt → Pt → List Alg))),
    ∀ (o : XMap) (s : State),
    let x := s.tm.x[o.d]
    let y := s.tm.x[o.a]
    let el (l : List Nat) (i : Nat) : List FVal := l.map fun r => (ieeeOf x.fmt).val (s.tm.rdTag x.fmt r i).toNat
    let ins (i : Nat) : List FVal := el y.span i ++ el y.centre i ++ el x.centre i ++ if o.add then el x.span i else []
    let out (i : Nat) : Out :=
      xOut x.fmt x.span (ins i) ((ins i).all FVal.finite && p.2.2.2.1 (ptOf (el y.centre i)) (ptOf (el x.centre i))) fun _ =>
        p.2.2.2.2 x.p (oldAt (if o.add then el x.span i else [])) ((el y.span i).map FVal.q) (ptOf (el y.centre i)) (ptOf (el x.centre i))
    x.v = true → y.v = true → x.loc = p.2.1 → y.loc = p.2.2.1 → x.p = y.p → x.f64 = y.f64 →
    s.mapGoes o.msk x.fmt (XMap.srcs o x y) x.span → s.noTrap o.msk (fun i => (out i).fl) →
    ∃ s', exec (p.1 o) s = .next s' ∧ s.rowRan s' 8 (s.tm.exec o.msk) x.fmt x.span out) ∧
  (∀ (o : XEval) (s : State),
    let d := s.tm.x[o.a]
    let dst := (List.range 4).map fun j => o.d.val + d.k * j
    let pt := (List.range 3).map fun j => o.b.val + d.k * j
    let el (l : List Nat) (i : Nat) : List FVal := l.map fun r => (ieeeOf d.fmt).val (s.tm.rdTag d.fmt r i).toNat
    let out (i : Nat) : Out :=
      xOut d.fmt dst (el d.span i ++ el d.centre i ++ el pt i ++ if o.add then el dst i else []) false fun _ =>
        let r := shiftL d.p 1 ((el d.span i).map FVal.q) ((ptOf (el pt i)).sub (ptOf (el d.centre i)))
        [0, 3, 1, 2].zipIdx.map fun e => algOf (oldAt (if o.add then el dst i else []) e.2) (r.getD e.1 [])
    d.v = true → d.loc = true → o.d.val + 4 * d.k ≤ s.vregs → o.b.val + 3 * d.k ≤ s.vregs →
    (d.f64 = true → o.d.val % 2 = 0 ∧ o.b.val % 2 = 0) →
    s.mapGoes o.msk d.fmt (d.span ++ d.centre ++ pt ++ if o.add then dst else []) dst → s.noTrap o.msk (fun i => (out i).fl) →
    ∃ s', exec (.xeval o) s = .next s' ∧ s.rowRan s' 12 (s.tm.exec o.msk) d.fmt dst out) ∧
  (∀ f ∈ [Tag.f32, .f64], ∀ (dsts : List Nat) (ins : List FVal) (vals : Unit → List Alg), ins.any (fun x => !x.finite) = true →
    (xOut f dsts ins false vals).fl &&& 0x10 = 0x10 ∧
    ∀ r ∈ dsts, (r, (BitVec.ofNat 64 (ieeeOf f).qnan).setWidth 32) ∈ (xOut f dsts ins false vals).vals))

/-- R341, R342, R354 to R356: `xdirect` leaves four registers pending with the sums over each slot's list, entry by entry; `xadm` writes one
mask bit for each active slot, 0 where an operand is a NaN, a radius is negative or θ is 0. -/
def Obligations.NearField : Prop :=
  (∀ (o : XDirect) (s : State) (x : Nat → Nat → DWord),
    let f : Tag := if o.f64 then .f64 else .f32
    let k := if o.f64 then 2 else 1
    let size := if o.f64 then 8 else 4
    let dst := (List.range 4).map fun j => o.d.val + k * j
    let tgt := (List.range 3).map fun j => o.tgt.val + k * j
    let n (i : Nat) : Nat := (s.tm.rd o.cnt i).toNat
    let eps : DWord := match o.eps with | some r => if o.f64 then s.tm.s[r] else (s.tm.s[r].setWidth 32).setWidth 64 | none => 0
    let near (i : Nat) : Near :=
      { lti := s.tm.lti i, d := o.d, base := s.tm.addrOf o.addr i, n := n i, f64 := o.f64, x := tgt.map fun r => s.tm.rdTag f r i
        eps := eps, acc := dst.map fun r => if o.add then s.tm.rdTag f r i else 0 }
    let r (i : Nat) : List Nat × BitVec 6 := nearSums (near i) ((List.range (4 * n i)).map fun e => (x i e).toNat)
    s.mapGoes o.msk f (tgt ++ if o.add then dst else []) dst →
    s.linesGone ((s.P o.msk).map (s.tm.addrOf o.addr)) → s.reaches o.msk o.addr [o.cnt.val] = true → s.tm.nonePending [] (o.addr.base.toList ++ o.eps.toList) = true →
    (∀ i ∈ s.P o.msk, n i ≤ 4096 ∧ ∀ e, e < 4 * n i →
      s.gotRead (coreOf s.cur) (s.tm.lti i) size size false (s.tm.addrOf o.addr i + BitVec.ofNat 64 (e * size)) = .val (x i e)) →
    ∃ (t : State) (u : Team), exec (.xdirect o) s = .next t ∧ s.hasRead t u ∧
      u = { s.tm with pc := s.tm.pc + 16, tag := u.tag, pend := u.pend, raised := [] } ∧ (∀ q ∈ dst, u.tagOf q = f) ∧
      u.pend = s.tm.pend ++ (s.P o.msk).flatMap fun i => (List.range 4).flatMap fun j => (dstsOf (o.d.val + k * j) o.f64).map fun q =>
        { Pend.make (s.pendId 0) q .timed [(s.tm.lti i, BitVec.ofNat 64 ((r i).1.getD j 0))] [] with
          src := .near
          fen := s.tm.fen
          owed := if (r i).2 = 0 then [] else [(s.tm.lti i, (r i).2)] }) ∧
  (∀ (o : XAdm) (s : State),
    let x := s.tm.x[o.a]
    let y := s.tm.x[o.b]
    let rad := [o.c.val, o.c.val + x.k]
    let el (l : List Nat) (i : Nat) : List FVal := l.map fun r => (ieeeOf x.fmt).val (s.tm.rdTag x.fmt r i).toNat
    x.v = true → y.v = true → x.f64 = y.f64 → o.c.val + 2 * x.k ≤ s.vregs → (x.f64 = true → o.c.val % 2 = 0) → o.d ≠ 0 →
    s.mapGoes o.msk x.fmt (x.centre ++ y.centre ++ rad) [] →
    ∃ u : Team, exec (.xadm o) s = .next (s.putTm u) ∧ u = { s.tm with pc := s.tm.pc + 12, m := u.m, raised := [] } ∧
      (∀ q : MReg, q ≠ o.d → u.m[q] = s.tm.m[q]) ∧
      ∀ i, i < s.tm.cap → u.m[o.d].getLsbD i =
        if i ∈ s.tm.slotsOf (s.tm.exec o.msk) then
          admits (el x.centre i) (el y.centre i) ((el rad i).getD 0 .knan) ((el rad i).getD 1 .knan) (fp32.val (o.theta.toNat * 2 ^ 10))
        else !o.z && s.tm.m[o.d].getLsbD i) ∧
  (∀ (cs ct : List FVal) (rs rt th : FVal), (rs.isNan = true ∨ rt.isNan = true ∨ th.isNan = true ∨ th.isZero = true ∨
      (∃ x ∈ cs ++ ct, x.isNan = true) ∨ (rs.neg = true ∧ rs.isZero = false) ∨ (rt.neg = true ∧ rt.isZero = false)) →
    admits cs ct rs rt th = false)

/-! ## Work lists (21) -/

/-- R391, R392: `wapp` queues one item for each active slot, of four registers, for the commit of its phase; `wcnt` leaves pending the count
of a destination, or the overflow word; both read a header in a PACKAGE page, as other reads wait and ask for its line (R416), and name a
destination below NDST, and `wapp` a phase of more than a die. -/
def Obligations.WorkLists : Prop :=
  (∀ (o : WApp) (s : State) (h : Nat → Nat),
    let header := s.tm.baseOf o.base + o.off.signExtend 64
    let dst (i : Nat) : Nat := match o.dst with | .reg r => (s.tm.rd r i).toNat | .imm d => d.toNat
    s.tm.active o.msk = true → s.tm.nonePending ((List.range 4).map (o.item.val + ·) ++
      match o.dst with | .reg r => [r.val] | .imm _ => []) o.base.toList = true →
    s.linesGone [header] → (∀ i ∈ s.P o.msk, s.appSpot (coreOf s.cur) header (dst i) = .at (h i)) →
    ∃ t : State, exec (.wapp o) s = .next t ∧
      ((s.P o.msk).foldl (fun (t : State) i => t.queueItem (coreOf s.cur)
        { header := header, dst := dst i, lti := s.tm.lti i, seq := s.seq
          words := (List.range 4).map fun j => s.tm.rd (o.item.val + j) i }) s).hasRead t
        { s.tm with pc := s.tm.pc + 16, raised := [] }) ∧
  (∀ (o : WCnt) (s : State) (a : Nat → Nat),
    let header := s.tm.baseOf o.base + o.off.signExtend 64
    let dst (i : Nat) : Nat := match o.dst with | .reg r => (s.tm.rd r i).toNat | .imm d => d.toNat
    s.tm.active o.msk = true → s.tm.nonePending (o.d.val :: match o.dst with | .reg r => [r.val] | .imm _ => []) o.base.toList = true →
    s.linesGone [header] → (∀ i ∈ s.P o.msk, s.cntSpot (coreOf s.cur) header (dst i) o.ov = .at (a i)) →
    ∃ (t : State) (u : Team), exec (.wcnt o) s = .next t ∧ s.hasRead t u ∧
      u = { s.tm with pc := s.tm.pc + 16, tag := u.tag, pend := u.pend, raised := [] } ∧ s.tm.retagged u o.d .n32 ∧
      u.pend = s.tm.pend ++ [Pend.make (s.pendId 0) (.vec o.d false) .timed
        ((s.P o.msk).map fun i => (s.tm.lti i, BitVec.ofNat 64 (leNat (readBytes (s.baseOf (coreOf s.cur)) (a i) 4)))) []]) ∧
  (∀ (s : State) (core : Nat) (header : DWord) (dst h : Nat), s.listByte core 64 header = .at h →
    let ndst := leNat (readBytes (s.baseOf core) h 4)
    ((s.core core).level = .die → s.appSpot core header dst = .fails 8 header) ∧
    ((s.core core).level ≠ .die → s.appSpot core header dst = if dst < ndst then .at h else .fails 0x13 header) ∧
    s.cntSpot core header dst true = (if dst < ndst then .at (h + 0x18) else .fails 0x13 header))

/-! ## Events of teams and core groups (08, 11, 12) -/

/-- R249, R239: a team that has been passed over 64 times is promoted. R246, R247, R250: in a clock of a partition at most one team issues to
each pipe, one that comes first among those ready for it; the pass-over counts change by what issues (what precedes an instruction
takes either pipe: log 57, deduced); besides, the clock notes of teams that are not ready that they wait. Queued traps are delivered in the slots of their threads, or go to
the supervisor when no handler matches a translation fault.

R187 to R189, R191: the team former takes the seeds of one key, in ascending LTI, as many as a team holds: when a key is full, when no
team of the core group can run, or when a rejoin point's timeout passes: the threads parked there are then formed, one team where they
share a key and a residency is free, and are seeds where none is. Seeds whose continuations do nothing first are placed as they are.
Under replay, seeds of a full key at quiescence that no record forms make the replay diverge (R405; log 157, deduced).

R193, R194, R452: a deadlocked core group raises `e.dead` (0x11) in its waiting team (which teams wait at a step point on a pending
value, and the KIND of their effect: log 26, deduced); a move of threads that waits for spawn memory is
made once there is room, and is fatal when nothing can free any. -/
def Obligations.TeamEvents : Prop :=
  ((∀ (k : Nat) (s : State), (s.team k).resident = true → 64 ≤ (s.team k).pass → (s.team k).promo = none →
    exec (.teamPromotion k) s = .next (s.setTeam k { s.team k with promo := some s.clock })) ∧
  (∀ (k : Nat) (s : State),
    let t := s.team k
    let lost := t.dueTraps.filter fun x => x.eff == 6 && (matchH t.h 6).isNone
    t.resident = true → t.wait ≠ .sup → (s.core (coreOf k)).halted = false → t.raised = [] → t.dueTraps ≠ [] →
    (lost ≠ [] → exec (.asyncTrapDelivery k) s = .next (s.setTeam k { t with
      traps := t.traps.map fun x => if x ∈ lost then { x with sup := true } else x })) ∧
    (lost = [] → ∃ u : Team, exec (.asyncTrapDelivery k) s = .next ((s.setTeam k u).deliver k) ∧
      u = { t with traps := u.traps, raised := u.raised, serving := u.serving } ∧ u.raised ≠ [] ∧
      u.serving = u.raised.map (fun r => t.lti r.slot) ∧ (∀ x ∈ u.traps, x ∈ t.traps) ∧
      ∀ r ∈ u.raised, r.slot ∈ t.lanes t.live ∧ r.site = t.pc ∧ r.pc = t.pc ∧ ∃ x ∈ t.dueTraps, x ∉ u.traps ∧ x.lti = t.lti r.slot ∧
        x.eff = r.eff ∧ x.payload = r.payload ∧ ∀ y ∈ t.dueTraps, y.lti = x.lti → x.eff ≤ y.eff)) ∧
  (∀ (t : Team), ∀ x ∈ t.dueTraps, x ∈ t.traps ∧ x.lti ∈ t.ltis ∧ t.serving = [] ∧
    ∀ y ∈ t.traps, y.lti ∈ t.ltis → (t.log.length ≤ 16 ∨ y.entered t = true) → x.stamp ≤ y.stamp) ∧
  (∀ (core part : Nat) (s : State),
    let l := s.bidders core part
    let on := issuers l
    ∃ (t : State) (w : List Nat), act (.clock core part) s = .next t ∧ t.agenda = (on ++ w).map Act.issue ++ s.agenda ∧
      (∀ k ∈ w, s.canIssue k = false) ∧ on.length ≤ 2 ∧ on.Nodup ∧
      (∀ k ∈ on, ∃ b ∈ l, b.key = k) ∧
      (∀ p ∈ [Pipe.vector, .second], (∃ b ∈ l, b.pipe = some p) → ∃ k ∈ on, ∃ b ∈ l, b.key = k ∧ (b.pipe = some p ∨ b.pipe = none)) ∧
      t.teams = s.teams.map fun e => (e.1, if e.1 ∈ on then { e.2 with pass := 0, promo := none }
        else if e.1 ∈ l.map Bidder.key then { e.2 with pass := e.2.pass + 1 } else e.2)) ∧
  (∀ (p : Pipe) (l : List Bidder) (b : Bidder), chosen p l = some b → b ∈ l ∧ (b.pipe = none ∨ b.pipe = some p) ∧
    ∀ c ∈ l, c.pipe = none ∨ c.pipe = some p → issuesBefore c.team b.team = false)) ∧
  ((∀ (s : State) (c : CoreId) (xs : List Seed) (r : Option Score), s.forced c = false → s.fullKey c = some (xs, r) → r = none ∧
    xs.length = (s.core c).launch.team ∧ xs.Pairwise (fun x y => x.lti.toNat ≤ y.lti.toNat) ∧
    (∀ x ∈ xs, x ∈ (s.core c).seeds) ∧ ∀ x ∈ xs, ∀ y ∈ xs, x.key = y.key) ∧
  (∀ (s : State) (c : CoreId) (x : Seed) (xs : List Seed) (p : Fin 12), s.forced c = false → s.fullKey c = some (x :: xs, none) →
    s.partFor c = some p → (s.core c).launch.det ≠ 2 → (s.core c).halted = false → (∀ y ∈ x :: xs, y.act = .nothing) →
    let k := (s.core c).ages * 384 + c.val
    ∃ t : State, exec (.formFullKey c) s = .next t ∧
      t.team k = Team.windowed { (s.core c).launch.formed (x :: xs) with part := p, age := (s.core c).ages } (s.core c).win ∧
      (t.core c).seeds = without (s.core c).seeds (x :: xs) ∧ (t.core c).ages = (s.core c).ages + 1 ∧
      ∀ j, j ≠ k → t.team j = s.team j) ∧
  (∀ (s : State) (c : CoreId) (x : Seed) (r : List Seed) (p : Fin 12), sortSeeds (s.core c).seeds = x :: r → s.partFor c = some p →
    (∀ e ∈ s.teamsOf c, s.runs e.1 e.2 = false) → (s.core c).halted = false → ((s.core c).launch.det = 2 ∨ s.fullKey c = none) →
    let rep := divergence (s.core c).ctx (s.core c).phase (some (clusterOf c.val))
    (s.formMissing c (x :: r) = true → exec (.formAtQuiescence c) s = .next
      (if rep ∈ s.reports then s else s.report (dieOf c) rep)) ∧
    (s.formMissing c (x :: r) = false →
    let xs := ((x :: r).filter fun y => y.key == x.key).take (s.core c).launch.team
    let k := (s.core c).ages * 384 + c.val
    (∀ y ∈ xs, y.act = .nothing) →
    ∃ t : State, exec (.formAtQuiescence c) s = .next t ∧
      t.team k = Team.windowed { (s.core c).launch.formed xs with part := p, age := (s.core c).ages } (s.core c).win ∧
      (t.core c).seeds = without (s.core c).seeds xs ∧ ∀ j, j ≠ k → t.team j = s.team j)) ∧
  (∀ (s : State) (c : CoreId) (id : Fin 64) (r : Round), (s.core c).round? id = some r → r.id = id → r.timeout ≠ 0 → s.forced c = false →
    r.held = [] → (∀ y ∈ r.parked, y.act = .nothing) →
    (s.clock ≤ r.start + r.timeout → exec (.rejoinTimeout c id) s = .next s) ∧
    (r.start + r.timeout < s.clock → ∃ t : State, exec (.rejoinTimeout c id) s = .next t ∧ t.clock = s.clock ∧
      (t.core c).round? id = none ∧ (t.core c).roundNo.get 0 id = r.number + 1 ∧
      (s.partFor c = none → (r.parked.map Seed.lti).Nodup →
        ∃ l, l.Perm r.parked ∧ (t.core c).seeds = (s.core c).seeds ++ l ∧ t.teams = s.teams) ∧
      ∀ p, s.partFor c = some p → r.parked ≠ [] → r.parked.length ≤ (s.core c).launch.team →
        (∀ y ∈ r.parked, ∀ z ∈ r.parked, y.key = z.key) →
        let k := (s.core c).ages * 384 + c.val
        t.team k = Team.windowed { (s.core c).launch.formed (sortSeeds r.parked) with part := p, age := (s.core c).ages } (s.core c).win ∧
          (t.core c).seeds = (s.core c).seeds ∧ ∀ j, j ≠ k → t.team j = s.team j))) ∧
  ((∀ (s : State) (c : CoreId) (k : Nat), s.coreDead c = true → s.teamsOf c = [(k, s.team k)] → (s.core c).rounds = [] →
    let t := s.team k
    let kind := if t.wait = .clu ∨ (t.wait = .run ∧ ∃ p ∈ t.pend, p.await = .clu) then 2 else 1
    ∃ u : Team, exec (.groupDeadlock c) s = .next ((s.setTeam k u).deliver k) ∧ u = { t with wait := .run, stuck := false, raised := u.raised } ∧
      u.effects = (t.lanes t.live).map fun i => (i, 0x11, BitVec.ofNat 64 (kind * 2 ^ 10), t.pc)) ∧
  (∀ (s : State) (c : CoreId) (k : Nat) (r : List Move), (s.core c).moves = .deliver k :: r → s.moveLack c (.deliver k) = 0 →
    (s.team k).raised ≠ [] → exec (.spawnMoveWait c) s = .next
      ((s.setCore c { s.core c with moves := (s.core c).moves.filter (· != .deliver k) }).deliver k)) ∧
  (∀ (s : State) (c : CoreId) (m : Move) (r : List Move), (s.core c).moves = m :: r → (∀ n ∈ m :: r, s.moveLack c n ≠ 0) →
    (∀ e ∈ s.teamsOf c, s.runs e.1 e.2 = false ∧ e.2.pend = [] ∧ e.2.traps = []) → ((s.core c).seeds = [] ∨ s.partFor c = none) →
    (s.core c).copyQ = [] → (s.core c).matQ = [] → (s.cluster (clusterOf c)).acks = 0 → ∃ t : State, exec (.spawnMoveWait c) s = .next t ∧
      (t.core c).moves = (s.core c).moves.filter (· != m) ∧ (t.team m.team).wait = .sup ∧
      ((s.die (dieOf c)).fifo.length < 64 → (t.die (dieOf c)).fifo = (s.die (dieOf c)).fifo ++
        [(s.core c).effReport c 0x13 (BitVec.allOnes 64) 0 (BitVec.ofNat 64 (s.moveLack c m)) none])))

/-! ## Page walks, host pages and page faults (11, 20, 24) -/

/-- R171, R240, R376, R426: a miss in both caches asks for a walk, once for a page (misses to one page are one walk, whose leaf enters the
cluster's cache alone: log 59, deduced); a walk that has read its lines sends a valid leaf to its cluster, and changes nothing else; ATS
gives a host page its translation, or has it requested through PRI, after which it is translated again, or the accesses that wait for it
are lost to the supervisor; the supervisor resolves a page fault by a leaf, after which an access that waited for it is issued again and
leaves the operand log, or does not, and the access is lost. -/
def Obligations.PagesAreTranslated : Prop :=
  (∀ (s : State) (core : Nat) (a : DWord), a.toNat < 2 ^ 52 → cachedIn (s.core core).utlb (s.core core).ctx a.toNat = none →
    let cl : ClusterId := Fin.ofNat 64 (clusterOf core)
    let x := (s.core core).ctx
    let r : CtxId × Nat := (x, s.pageAt x a.toNat)
    cl.val = clusterOf core → cachedIn (s.cluster cl).tlb x a.toNat = none →
    (r ∈ (s.cluster cl).asked → s.touch core a = s) ∧
    (r ∉ (s.cluster cl).asked → s.touch core a = (s.setCluster cl { s.cluster cl with asked := (s.cluster cl).asked ++ [r] }).emitCtl
      (leafOfCluster cl) ctlNode x (((s.cluster cl).grp.map Group.phase).getD 0) (.walk x r.2 cl))) ∧
  (∀ (s : State) (q : WalkReq) (r : List WalkReq), s.ctl.walks = q :: r → s.ctl.heldWalks = [] → s.badSectors = [] → s.walked q = true →
    exec .pageWalk s = .next ({ s with ctl := { s.ctl with walks := r } }.emitCtl ctlNode (leafOfCluster q.cl) q.ctx q.phase
      (.walked q.ctx q.va q.cl (match walk s.mem q.va 3 (s.ctx q.ctx).rootFrame with
        | .leaf p => if s.paOk q.ctx p (ptePa p q.va) then some p else none
        | _ => none)))) ∧
  (∀ (s : State) (p : Packet) (x : CtxId) (va : Nat) (cl : ClusterId) (pte : DWord), p.body = .ctl (.walked x va cl (some pte)) →
    s.comesTo (leafOfCluster cl) p = s.setCluster cl { s.cluster cl with
      asked := (s.cluster cl).asked.filter (· != (x, va)), tlb := fillCache 4096 (s.cluster cl).tlb x va pte }) ∧
  (∀ (l : List (CtxId × Nat × DWord)) (x : CtxId) (va : Nat) (p : DWord), cachedIn l x va = none →
    cachedIn (fillCache 4096 l x va p) x va = some p ∧ (l.length ≤ 4096 → (fillCache 4096 l x va p).length ≤ 4096)) ∧
  (∀ (s : State) (page : Nat), page ∈ s.ctl.atsWait →
    (exec (.atsTranslationResponse page none) s = .next { s with ctl := { s.ctl with
      atsWait := s.ctl.atsWait.filter (· != page), priWait := s.ctl.priWait ++ [page] } }) ∧
    ∀ h, ∃ t : State, exec (.atsTranslationResponse page (some h)) s = .next t ∧ t.hostPage page = some h ∧ t.mem = s.mem ∧
      t.teams = s.teams ∧ (s.posts = [] → t.host = s.host) ∧
      ∀ q, s.posts = [q] → q.page = page → s.holdsPost q = false → t.posts = [] ∧ t.host = writeBytes s.host (h * 2 ^ 16 + q.off) q.bytes) ∧
  (∀ (s : State) (page : Nat), page ∈ s.ctl.priWait → exec (.priResponse page true) s = .next { s with ctl := { s.ctl with
    priWait := s.ctl.priWait.filter (· != page), atsWait := s.ctl.atsWait ++ [page] } }) ∧
  (∀ (s : State) (page : Nat), page ∈ s.ctl.priWait → (∀ x : CtxId, (s.ctx x).walk = .none) → (∀ c ∈ s.cores, c.2.copyRun = false) →
    let s1 : State := { s with ctl := { s.ctl with priWait := s.ctl.priWait.filter (· != page) } }
    (∀ k t w, s.teams = [(k, t)] → s.posts = [] → s1.needsHost k t page = some w →
      exec (.priResponse page false) s = .next ((s1.report (dieOf (coreOf k)) (hostFault (s.core (coreOf k)).ctx (s.core (coreOf k)).phase
        (locOfCore (coreOf k)) (some (clusterOf (coreOf k))) w)).stopTeam k)) ∧
    ∀ q, s.teams = [] → s.posts = [q] → q.page = page → exec (.priResponse page false) s = .next
      { s1.report 0 (hostFault q.ctx q.phase 0 none { lti := q.lti, pc := 0, va := q.va }) with posts := [] }) ∧
  (∀ (s : State) (k : Nat) (va p v : DWord) (m : SMap Byte) (x : Trap) (e : LogE) (id w : Nat) (sx : Bool), s.faultWaits k va = true →
    let core := coreOf k
    let root := (s.ctx (s.core core).ctx).rootFrame
    walk s.mem va.toNat 3 root = .miss → installLeaf s.mem va.toNat p 3 root = some m →
    (s.team k).heldFor va = [x] → x.act = .access [e.key] → (s.team k).log.find? (fun y => y.key == e.key) = some e →
    (∀ q ∈ s.teamsOf core, q.1 ≠ k → ∀ y ∈ q.2.log, y.key ≠ e.key) → s.hasTeam core k → e.op = .load id w sx →
    ({ s with mem := m }.touch core e.addr).gotRead core (e.ltis.headD 0) w w sx e.addr = .val v →
    ∃ t : State, exec (.supervisorPageResolve k va (some p)) s = .next t ∧ t.mem = m ∧
      (t.team k).log = (s.team k).log.filter (fun y => y.key != e.key) ∧ (t.team k).pend = answer id e.ltis v (s.team k).pend ∧
      (t.team k).traps = (s.team k).traps.filter (fun y => y != x)) ∧
  (∀ (s : State) (k : Nat) (va p : DWord) (m : SMap Byte), s.faultWaits k va = true →
    let root := (s.ctx (s.core (coreOf k)).ctx).rootFrame
    walk s.mem va.toNat 3 root = .miss → installLeaf s.mem va.toNat p 3 root = some m →
    (∀ x ∈ (s.team k).traps, x.sup = false) →
    exec (.supervisorPageResolve k va (some p)) s = .next ({ s with mem := m }.setTeam k { s.team k with
      raised := (s.team k).raised.filter fun r => !(r.eff == 6 && r.payload.toNat / 2 ^ 16 == va.toNat / 2 ^ 16) })) ∧
  (∀ (s : State) (k : Nat) (va : DWord) (x : Trap) (r : List Trap), (s.team k).heldFor va = x :: r →
    exec (.supervisorPageResolve k va none) s = .next ((s.report (dieOf (coreOf k))
      { (s.core (coreOf k)).effReport (coreOf k) 6 x.lti 0 x.payload none with addr := x.payload }).setTeam k { s.team k with
        traps := (s.team k).traps.filter fun y => !(x :: r).contains y
        raised := (s.team k).raised.filter fun q => !(q.eff == 6 && q.payload.toNat / 2 ^ 16 == va.toNat / 2 ^ 16)
        wait := .sup }))

/-! ## The package network (23) -/

/-- R407, R412, R414: with no link failed, the down tables lead from every switch that lists a leaf to that leaf, one level at a time, and
every other switch has a legal up-port (as log 90 reads R412, deduced); the control die is reached by going up to any spine.

R410 to R412, R414 to R421: the events of the network. A request enters while its reader has a free response slot; a packet that has
won its output and has a free buffer before it moves on; a slice answers the first request of its queue: a line read, or a landing write,
which it acknowledges when its bytes are among the pending lines of the phase; the acknowledgment frees the cluster. A flit that fails is
replayed; when it has failed after 8 replays, its link fails. -/
def Obligations.PacketsMove : Prop :=
  (∀ l : NetNode, ∀ sw : Fin 72,
    (∀ p, downPort [] sw l = some p → farEnd sw p = (if l = ctlNode then Far.ctl else .leaf l) ∨
      ∃ t q, farEnd sw p = .switch t q ∧ t < sw.val ∧ (downPort [] t l).isSome = true) ∧
    (downPort [] sw l = none → ∃ p ∈ legalUp [] sw [l], ∃ t q, farEnd sw p = .switch t q ∧ sw.val < t) ∧
    (l = ctlNode → ((downPort [] sw l).isSome = true ↔ 64 ≤ sw.val))) ∧
  ((∀ (s : State) (c : CoreId) (k : Fin 64) (r : LineReq), k.val ≤ 12 →
    let src := leafOfCluster (clusterOf c)
    let l := (s.core c).reqs.get [] k
    (l.find? fun r => !r.sent) = some r → (l.filter LineReq.sent).length < (if k.val = 12 then 256 else 8) →
    0 < s.net.free (leafEdge src) (leafPort src) .req →
    exec (.lineRequestInject (.core c) k) s = .next ((s.setCore c { s.core c with
        reqs := (s.core c).reqs.put k (l.map fun q => if q.rid == r.rid then { q with sent := true } else q) }).emit
      { chan := .req, ctx := r.ctx, phase := r.phase, src := src, dsts := [r.leaf], body := .read r.rid r.line none, since := 0
        forked := false, dead := false })) ∧
  (∀ (s : State) (w : Fin 64) (q : WalkReq) (line : Nat), s.ctl.walks[w.val]? = some q → q.asked = none →
    (s.walkLines q.ctx q.va)[q.done]? = some line →
    let p : Packet := { chan := .req, ctx := q.ctx, phase := q.phase, src := ctlNode, dsts := [keyLeaf (line * 128)]
                        body := .read s.net.rids line none, since := 0, forked := false, dead := false }
    s.net.room p = true → exec (.lineRequestInject .walkers w) s = .next ({ s with
      net := { s.net with rids := s.net.rids + 1 }
      ctl := { s.ctl with walks := s.ctl.walks.modify w fun q => { q with asked := some s.net.rids } } }.emit p)) ∧
  (∀ (s : State) (sw : Switch) (k port : Nat) (x : Nat × Packet),
    let n := switchNum sw
    (s.net.buf.get [] n)[k]? = some x → x.2.forked = false → s.net.forks n x.2 = false → s.net.wants n x.2 = [port] →
    (s.net.failed.contains (linkOf n port) = false → (∀ y ∈ s.net.buf.get [] n, port ∈ s.net.wants n y.2 → goesBefore y x = false) →
      s.net.credit n port x.2.chan ≠ 0 → exec (.packetRoute sw k) s = .next (((s.takeOut n k).pass n port x.2).retree)) ∧
    (s.net.failed.contains (linkOf n port) = true →
      exec (.packetRoute sw k) s = .next (((s.takeOut n k).packetLost n x.2).retree))) ∧
  (∀ (s : State) (sw : Switch) (k : Nat) (x : Nat × Packet), (s.net.buf.get [] (switchNum sw))[k]? = some x →
    (x.2.forked = false → 1 < x.2.dsts.length → below s.net.known (switchNum sw) x.2.dsts = true →
      exec (.multicastWrite sw k) s = .next (s.fork (switchNum sw) k x)) ∧
    (x.2.forked = true → exec (.multicastForkResume sw k) s = .next (s.fork (switchNum sw) k x))) ∧
  (∀ (s : State) (leaf : NetNode) (p : Packet) (q : List Packet), leaf ≠ ctlNode → s.net.arrived.get [] leaf = p :: q → p.dead = false →
    let s1 := { s with net := { s.net with arrived := s.net.arrived.set [] leaf q } }
    let reply (b : Body) : Packet := { chan := .rsp, ctx := p.ctx, phase := p.phase, src := leaf, dsts := [p.src], body := b, since := 0
                                       forked := false, dead := false }
    (∀ rid line, p.body = .read rid line none → exec (.lineRead { leaf := leaf, k := 0 }) s = .next (s1.emit (reply (.line rid [] none)))) ∧
    (∀ rid c r, p.body = .line rid [] none → s.requestOf (leafCluster leaf) rid = some (c, r) → exec (.lineResponse leaf) s =
      .next (s1.setCore c { s.core c with reqs := (s.core c).reqs.map fun e => (e.1, e.2.filter fun y => y.rid != rid) })) ∧
    (∀ ws via, p.body = .write ws via →
      let s2 := s1.addPhase p.ctx p.phase (leafDie leaf) fun ph => { ph with writes := ph.writes ++ ws }
      exec (.landingWrite leaf) s = .next ((if via.isSome then s2.revote p.ctx else s2).emit (reply (.ack 1 via)))) ∧
    (∀ cs, p.body = .multi cs → exec (.landingWrite leaf) s = .next
      ((s1.addPhase p.ctx p.phase (leafDie leaf) fun ph =>
        { ph with writes := ph.writes ++ (cs.filter fun x => x.1 == leaf).map (·.2) }).emit (reply (.ack 1 none)))) ∧
    (∀ n, p.body = .ack n none → exec (.writeAck leaf) s = .next (s1.setCluster (leafCluster leaf)
      { s.cluster (leafCluster leaf) with acks := (s.cluster (leafCluster leaf)).acks - n }))) ∧
  (∀ (s : State) (sw : Switch) (port : Fin 33),
    let l := linkOf (switchNum sw) port
    farEnd (switchNum sw) port ≠ .none → s.net.failed.contains l = false →
    let n := s.net.replays.get 0 (l.1 * 64 + l.2)
    let replayed (m : Nat) : State := { s with net := { s.net with replays := s.net.replays.put (l.1 * 64 + l.2) m } }
    exec (.flitCrcError (.inner sw) { port := port, again := false }) s = .next (replayed 1) ∧
    (n < 8 → exec (.flitCrcError (.inner sw) { port := port, again := true }) s = .next (replayed (n + 1))) ∧
    (8 ≤ n → exec (.flitCrcError (.inner sw) { port := port, again := true }) s = exec (.linkFailure sw port) s) ∧
    (s.net.onLink (switchNum sw) port = [] → s.net.idle = false → exec (.linkFailure sw port) s =
      .next { s with net := { s.net with failed := l :: s.net.failed, draining := true } })) ∧
  (∀ (s : State) (sw : Switch), ∃ t : State, exec (.eccUncorrectable (.switchBuffer sw)) s = .next t ∧
    ∀ port, port < 33 → farEnd (switchNum sw) port ≠ .none → linkOf (switchNum sw) port ∈ t.net.failed))

/-! ## Errors in the hardware (12, 19, 20) -/

/-- R264 to R266, R367, R377, Table 20-4: the scrubbers count a corrected error; an error that cannot be corrected in a core, at a port, in a
slice or in a pending line reports `e.ecc` (0x16, KIND 4) for a phase, of the core's or the port's group or of those that the die
serves (which of them a slice's error hits, and that an error of a committed line is corrected and counted: log 108, deduced; whether a
scrub finds an error: log 18, the model's choice); a sector of HBM4 is bad from then on. -/
def Obligations.HardwareErrors : Prop :=
  (∀ (s : State) (c : CoreId) (array word : Nat), exec (.patrolScrub c array word) s = .next
    (if Config.scrubFinds s.free then { s with free := s.free + 1 }.setCore c { s.core c with corrected := (s.core c).corrected + 1 }
      else { s with free := s.free + 1 })) ∧
  (∀ (s : State) (sector : Nat),
    let d := sector / 16 % 8
    let stack := sector / 8 % 2
    exec (.hbmPatrolScrub sector) s = .next (if Config.scrubFinds s.free then { s with free := s.free + 1 }.setDie d
        { s.die d with corrected := (s.die d).corrected.set 0 stack ((s.die d).corrected.get 0 stack + 1) }
      else { s with free := s.free + 1 })) ∧
  (let rep (g : CtxId × BitVec 32) (loc : DWord) (holder : Option Nat) : Report :=
    { ctx := g.1, phase := g.2, kind := 4, eff := 0x16, lti := BitVec.allOnes 64, pc := 0, payload := 0, loc := loc, addr := 0, halt := none
      holder := holder }
  (∀ (s : State) (c : CoreId) (g : Group) (array word : Nat), (s.core c).grp = some g →
    exec (.eccUncorrectable (.coreArray c array word)) s = .next (s.report (dieOf c)
      (rep (g.ctx, g.phase) (locOfCore c + BitVec.ofNat 64 (array * 2 ^ 32 + word)) (some (clusterOf c)))) ∧
    ∃ t : State, exec (.eccUncorrectable (.coreLogic c)) s = .next t ∧ t.mem = s.mem ∧
      ((t.core c).removed = true ↔ (s.core c).removed = true ∨ g.ctx ∈ (s.core c).parity) ∧ (t.core c).parity = g.ctx :: (s.core c).parity ∧
      ((s.die (dieOf c)).fifo.length < 64 → (t.die (dieOf c)).fifo = (s.die (dieOf c)).fifo ++ [rep (g.ctx, g.phase) (locOfCore c) (some (clusterOf c))])) ∧
  (∀ (s : State) (cl : ClusterId) (g : Group) (port : Nat), (s.cluster cl).grp = some g → ∃ t : State,
    exec (.eccUncorrectable (.clusterPort cl port)) s = .next t ∧
      ((t.cluster cl).removed = true ↔ (s.cluster cl).removed = true ∨ g.ctx ∈ (s.cluster cl).parity) ∧
      (t.cluster cl).parity = g.ctx :: (s.cluster cl).parity) ∧
  (∀ (s : State) (d : DieId) (slice : Fin 8) (g : CtxId × BitVec 32), s.hitAt d = some g →
    let loc := BitVec.ofNat 64 (d.val * 2 ^ 56 + slice.val * 2 ^ 32)
    exec (.eccUncorrectable (.pendingLine d slice)) s = .next ({ s with free := s.free + 1 }.report d (rep g loc none)) ∧
    exec (.eccUncorrectable (.sliceLogic d slice)) s = .next (({ s with free := s.free + 1 }.setDie d
      { s.die d with sliceFails := (slice, g.1) :: (s.die d).sliceFails }).report d (rep g loc none)))) ∧
  (∀ (s : State) (d : DieId) (slice : Fin 8), exec (.eccUncorrectable (.committedLine d slice)) s = .next (s.setDie d
    { s.die d with corrected := (s.die d).corrected.set 0 (slice / 4 % 2) ((s.die d).corrected.get 0 (slice / 4 % 2) + 1) })) ∧
  (∀ (s : State) (sector : Nat), sector ∉ s.badSectors →
    exec (.eccUncorrectable (.hbmSector sector)) s = .next { s with badSectors := sector :: s.badSectors }) ∧
  (∀ (s : State) (core n sector : Nat) (a p : DWord) (lti : DWord), 0 < n →
    s.find core false n a n .read = .here (.page p (ptePa p a.toNat)) → pteScope p = 2 → s.badSectors = [sector] →
    s.devKey p (ptePa p a.toNat) / 64 = sector →
    s.gotRead core lti n n false a = .bad sector (ptePa p a.toNat / 64 * 64))

/-! ## Groups and phases (20, 21) -/

/-- R63, Table 3-3: the j-th team of a core group at its start: its threads in ascending LTI from slot 0, the arguments in the first
uniform registers, the program counter at the code, and everything else at its initial value.

R30, R358, R390, R192, R388, R418: the head of a die's queue is placed on its free cluster of lowest number, a stolen group likewise,
by an order on CTL; when it comes, each core begins one core group, with its initial windows. A group whose threads have gone, whose
engines are done and whose writes are acknowledged is reported; then its cluster is free, and its exception flags are in the phase. -/
def Obligations.GroupsBegin : Prop :=
  (∀ (l : Launch) (g : Group) (cg j : Nat), l.team ≤ 1024 → j * l.team < l.nth →
    let t := l.teamAt g cg j
    let n := Nat.min l.team (l.nth - j * l.team)
    (∀ i, i < l.team → (t.m[(0 : MReg)].getLsbD i = true ↔ i < n)) ∧
    (∀ i, i < n → t.lti i = BitVec.ofNat 64 (g.br.toNat * 2 ^ 56 + g.clg.toNat * 2 ^ 24 + cg * 2 ^ 21 + (j * l.team + i))) ∧
    (∀ i, n ≤ i → t.lti i = BitVec.allOnes 64) ∧ (∀ r : UReg, t.s[r] = if r.val < 16 then l.args.getD r.val 0 else 0) ∧
    t = { Team.vacant with resident := true, cap := l.team, s := t.s, m := t.m, remap := t.remap, spill := l.spill, first := j * l.team,
                           pc := l.code } ∧
    ∀ q : MReg, q ≠ 0 → t.m[q] = 0) ∧
  ((∀ (s : State) (d : DieId) (x : CtxId) (num : BitVec 32) (br : BitVec 8) (clg cl : Nat) (p : Phase) (b : Branch),
    s.phaseOf x num = some p → (p.branches.find? fun b => b.br == br) = some b →
    let g : Group := { ctx := x, phase := num, level := p.level, br := br, clg := BitVec.ofNat 32 clg, l := b.l }
    let ordered (o : Host.Outcome State Fault Refusal) (u : State) : Prop :=
      o = .next ((u.emitCtl ctlNode (leafOfCluster cl) x num (.place cl g)).markWaits) ∧
      u.cluster cl = { s.cluster cl with grp := some g, coming := true, told := false } ∧ u.net = s.net ∧ u.mem = s.mem ∧ u.host = s.host ∧
      ∃ q, u.phaseOf x num = some q ∧ q.running = p.running + 1 ∧ q.branches = p.branches
    (s.served d = some x → (s.ctx x).head d = some (num, br, clg) → s.freeCluster x d = some cl →
      let turn := 4 * d.val + (s.ctx x).prio.val
      ∃ u : State, ordered (exec (.groupPlacement d) s) u ∧ u.ctl.turns.get 0 turn = (x.val + 1) % 64 ∧
        ∀ k, k ≠ turn → u.ctl.turns.get 0 k = s.ctl.turns.get 0 k) ∧
    (((List.finRange 64).find? fun (y : CtxId) => s.steals d y) = some x → s.freeCluster x d = some cl →
      (s.ctx x).tail ((d.val + 1 + Config.stealVictim s.free % 7) % 8) = some (num, br, clg) →
      ∃ u : State, ordered (exec (.stealRequest d) s) u ∧ u.free = s.free + 1)) ∧
  (∀ (s : State) (cl : Nat) (g : Group) (pk : Packet), pk.body = .ctl (.place cl g) → (s.cluster cl).coming = true →
    (s.cluster cl).grp = some g →
    let w := s.loaded g.ctx g.l.code
    let t := s.comesTo (leafOfCluster cl) pk
    t.cluster cl = { s.cluster cl with coming := false, told := false } ∧ t.mem = s.mem ∧ t.host = s.host ∧
    ∀ k, k < g.l.ncg →
      let c := t.core (coreIn cl k)
      c.grp = some g ∧ c.cg = Fin.ofNat 6 k ∧ c.loc = initial (2 ^ 21) w.loc ∧ c.exch = initial (2 ^ 24) w.exch ∧ c.seeds = [] ∧
      ∀ th o, th < g.l.nth → o < 2 ^ 16 → c.priv.get unwritten (th * 2 ^ 16 + o) = (initial (2 ^ 16) w.priv).get unwritten o) ∧
  (∀ (s : State) (x : CtxId) (code : DWord), (∀ w ∈ s.windows, w.1 ≠ x ∨ w.2.code ≠ code) →
    (s.loaded x code).loc = [] ∧ (s.loaded x code).exch = [] ∧ (s.loaded x code).priv = []) ∧
  (∀ (s : State) (cl : ClusterId) (g : Group), (s.cluster cl).grp = some g → s.groupEnded cl = true →
    exec (.groupEnd cl) s = .next ((s.setCluster cl { s.cluster cl with told := true }).emitCtl (leafOfCluster cl) ctlNode g.ctx g.phase
      (.ended cl g))) ∧
  (∀ (s : State) (cl : Nat) (g : Group) (p : Phase) (pk : Packet), pk.body = .ctl (.ended cl g) → (s.cluster cl).told = true →
    (s.cluster cl).grp = some g → s.phaseOf g.ctx g.phase = some p →
    let t := s.comesTo ctlNode pk
    (t.cluster cl).grp = none ∧ t.phaseOf g.ctx g.phase = some { p with
      running := p.running - 1
      psw := p.psw ||| (((s.groupCores cl).foldl (fun (f : BitVec 5) k => f ||| (s.core k).fsum) 0).setWidth 21 <<< 16) }))

/-- R41, R370, R371, R388, R389: a phase that has ended, and whose stores do not collide, commits: every byte that its stores cover becomes
what they resolve to over device memory as it stood at the start of the phase, no other byte changes outside the status block of its
context, and the phase is the last committed one. When stores collide, the phase is discarded: its status word gains DISC, and beside it
keeps its other bits and shows COLL (log 84, deduced), and no byte of device memory outside the status block has changed. -/
def Obligations.PhasesCommit : Prop :=
  ∀ (s : State) (x : CtxId) (num : BitVec 32) (p : Phase), s.phaseOf x num = some p → s.ended x p = true → s.alone x p = true →
    (s.ctx x).cstate ≠ .halted → s.leftOver x p = false → p.items = [] → anySets p.writes = [] → p.level ≠ .domain → s.badSectors = [] →
    let r := landAll p.base [] p.writes
    let csb := (s.ctx x).csb.toNat
    let word := csb + 0x108 + 16 * (num.toNat % 256)
    let rest := (s.ctx x).phases.filter fun q => q.num != num
    let outside (a : Nat) : Prop := a < csb ∨ csb + 0x2358 ≤ a
    (r.faults = [] → ∃ t : State, exec (.phaseCommit x num) s = .next t ∧
      (∀ a, outside a → t.mem.get unwritten a =
        if p.writes.any fun w => decide (w.addr ≤ a) && decide (a < w.addr + w.bytes.length) then r.mem.get unwritten a
        else s.mem.get unwritten a) ∧
      read64 t.mem word = (p.psw ||| r.fl.setWidth 21 ||| if rest = [] then 0x400 else 0).setWidth 64 ∧
      (t.ctx x).lastPhase = num ∧ (t.ctx x).phases = rest) ∧
    (r.faults ≠ [] → ∃ t : State, exec (.phaseCommit x num) s = .next t ∧
      (∀ a, outside a → t.mem.get unwritten a = s.mem.get unwritten a) ∧
      read64 t.mem word = (p.psw ||| 0x880).setWidth 64 ∧
      (t.ctx x).lastPhase = (s.ctx x).lastPhase ∧ (t.ctx x).phases = rest)

/-! ## The graph walker (21) -/

/-- R382 to R387, R415: visits of a running context's walker, once no phase in flight can write the node. A node that cannot be read is a
graph error, beside which a malformed table or a bad sector is recorded under the last committed phase (log 134, deduced); so is a node
whose list or branches cannot be read; a LAUNCH and a FORK start a phase with the next number, a package-level one with its groups spread over the eight dies, a
die-level one at the die of its argument; JOIN, COND, WHILE, SIGNAL and AWAIT go on as their words say, and END posts the completion event (type 1) and leaves the context idle.
The walker asks for the
lines that it reads, and nothing else changes. -/
def Obligations.NodesRun : Prop :=
  ∀ (s : State) (x : CtxId) (a : DWord), (s.ctx x).cstate = .running →
    let went (i : Instr) (u : State) : Prop := ∃ t : State, exec i s = .next t ∧
      t = { u with net := { u.net with rids := t.net.rids }, ctl := { u.ctl with reqs := t.ctl.reqs } }
    let goes (i : Instr) (c : Ctx) : Prop := went i (s.setCtx x c)
    ((s.ctx x).walk = .visit a → s.mayWrite x = false → s.nodeAt x a = none → ∀ i ∈ ([.launchNode x, .forkNode x, .joinNode x, .condNode x,
        .whileNode x, .signalNode x, .awaitNode x, .endNode x] : List Instr),
      (s.ctlTrouble x (s.ctx x).lastPhase a 64 = none → exec i s = .next (s.graphError x a)) ∧
      ∀ r, s.ctlTrouble x (s.ctx x).lastPhase a 64 = some r → exec i s = .next ((s.supervise { r with late := true }).graphError x a)) ∧
    ∀ n, s.nodeAt x a = some n →
    ((s.ctx x).walk = .visit a → n.kind = 1 → n.lv = .die → ∀ d g l, s.launchDie x n = some d → s.groupCount x n = some g →
      s.clearAt x d = true → s.launchAt x n.obj n.args = some l → (∃ k, k < 8 ∧ s.usable x (8 * d.val + k) = true) →
      ∃ (t : State) (p : Phase), exec (.launchNode x) s = .next t ∧ (t.ctx x).walk = .visit n.next ∧
        (t.ctx x).nextPhase = (s.ctx x).nextPhase + 1 ∧ (t.ctx x).phases = (s.ctx x).phases ++ [p] ∧ p.num = (s.ctx x).nextPhase ∧
        p.level = .die ∧ p.die = some d ∧ p.base = s.mem ∧ p.branches = [{ br := 0, l := l, ng := g }] ∧
        p.queues = [{ die := d, br := 0, off := 0, stride := 1, lo := 0, hi := g }]) ∧
    ((s.ctx x).walk = .poll a → n.kind = 7 → s.awaitable x n.obj = true → ∀ v, s.ctlWord x n.obj = .val v → exec (.awaitPoll x) s =
      .next (s.setCtx x { s.ctx x with walk := if n.cnt.toNat ≤ v.toNat then .visit n.next else .poll a })) ∧
    (s.clear x = true →
    ((s.ctx x).walk = .visit a →
      (n.kind = 1 → n.lv = .package → ∀ g l, s.groupCount x n = some g → s.launchAt x n.obj n.args = some l →
        ∃ (t : State) (p : Phase), exec (.launchNode x) s = .next t ∧ (t.ctx x).walk = .visit n.next ∧
          (t.ctx x).nextPhase = (s.ctx x).nextPhase + 1 ∧ (t.ctx x).phases = [p] ∧ p.num = (s.ctx x).nextPhase ∧ p.level = .package ∧
          p.base = s.mem ∧ p.branches = [{ br := 0, l := l, ng := g }] ∧
          ∀ k, k < g → ∃ q ∈ p.queues, ∃ j, q.lo ≤ j ∧ j < q.hi ∧ q.off + q.stride * j = k ∧ q.die.val = k % 8) ∧
      (n.kind = 1 → n.lv = .domain →
        let b := s.beginDomain x a [n]
        (b.ctx x).walk ≠ .visit a → exec (.launchNode x) s = .next (b.ctlAsk x (s.nodeReads x a n))) ∧
      (n.kind = 2 → ∀ l j, s.forkNodes x n = some (l, j) → (∀ e ∈ l, e.1.level ≠ 2) →
        ∀ bs, (l.zipIdx.mapM fun e => s.branchOf x e.1.1 e.2 e.1.2) = some bs →
        ∃ (t : State) (p : Phase), exec (.forkNode x) s = .next t ∧ (t.ctx x).walk = .join j ∧ (t.ctx x).phases = [p] ∧
          p.num = (s.ctx x).nextPhase ∧ p.level = .package ∧ p.branches = bs.map Start.b ∧
          p.branches.map Branch.br = (List.range l.length).map (BitVec.ofNat 8)) ∧
      (n.kind = 4 → ∀ v, s.ctlWord x n.obj = .val v →
        goes (.condNode x) { s.ctx x with walk := .visit (if v ≠ 0 then n.next else n.alt) }) ∧
      (n.kind = 5 → ∀ c : Bool, (if n.ust then c = !(s.ctx x).stale else ∃ v, s.ctlWord x n.obj = .val v ∧ c = decide (v ≠ 0)) →
        let k := (s.ctx x).iter a
        let rest := (s.ctx x).iters.filter fun e => e.1 != a
        goes (.whileNode x) (if c = true ∧ (n.cnt = 0 ∨ k.toNat < n.cnt.toNat)
          then { s.ctx x with walk := .visit n.alt, iters := (a, k + 1) :: rest }
          else { s.ctx x with walk := .visit n.next, iters := rest })) ∧
      (n.kind = 6 → went (.signalNode x) ((s.setCtx x { s.ctx x with walk := .visit n.next }).postEvent x 2
        ((s.ctx x).lastPhase.setWidth 64) (some n.obj) none)) ∧
      (n.kind = 7 → (s.awaitable x n.obj = true →
          (∀ v, s.ctlWord x n.obj = .val v →
            goes (.awaitNode x) { s.ctx x with walk := if n.cnt.toNat ≤ v.toNat then .visit n.next else .poll a }) ∧
          ∀ page, s.ctlWord x n.obj = .waits page → exec (.awaitNode x) s = .next (s.askAts page)) ∧
        (s.awaitable x n.obj = false → s.ctlTrouble x (s.ctx x).lastPhase n.obj 8 = none → went (.awaitNode x) (s.graphError x a))) ∧
      (n.kind = 1 → n.lv = .package → s.groupCount x n = none → went (.launchNode x) (s.nodeError x a (s.countReads x n))) ∧
      (n.kind = 2 → s.forkNodes x n = none → went (.forkNode x) (s.nodeError x a (s.forkReads x n))) ∧
      (n.kind = 8 → (∀ p ∈ s.posts, p.ctx ≠ x) →
        let u := ((s.setCtx x { s.ctx x with walk := .none }).postEvent x 1 ((s.ctx x).lastPhase.setWidth 64) none none).restCtx x
        went (.endNode x) u ∧ (u.ctx x).walk = .none ∧ (u.ctx x).cstate = .idle)) ∧
    ((s.ctx x).walk = .join a → n.kind = 3 → exec (.joinNode x) s = .next (s.setCtx x { s.ctx x with walk := .visit n.next })))

/-! ## The supervisor (21, 22) -/

/-- R397, R429: an event for which the queue has room is the record at the tail: type and context with the phase bit, phase number and
two arguments; the tail goes on by one, round the queue. Without room it is counted, and announced by an overflow event later.

R380, R389, R395 to R397: a die sends its fault reports on in order; one that has come is counted and recorded, and
discards its phase, if it is in flight: no group of it runs on, and the graph stops; a context that keeps a higher
priority from its clusters too long begins to drain; when the drain's deadline has passed and some group of it has not ended, its phases
are discarded and it is idle (log 52, the model's choice). -/
def Obligations.EventsFaultsAndPreemption : Prop :=
  ((∀ (s : State) (x : CtxId) (type : Nat) (phase a0 a1 : DWord), s.ctl.eqRoom = true → type < 256 →
    let t := s.postEvent x type phase (some a0) (some a1)
    let base := s.ctl.eqBase.toNat + 32 * s.ctl.eqTail.toNat
    (read64 t.host base).toNat = (if s.ctl.eqPhase then 0 else 2 ^ 63) + x.val * 256 + type ∧ read64 t.host (base + 8) = phase ∧
      read64 t.host (base + 16) = a0 ∧ read64 t.host (base + 24) = a1 ∧
      (∀ a, a < base ∨ base + 32 ≤ a → t.host.get unwritten a = s.host.get unwritten a) ∧ t.mem = s.mem ∧
      t.ctl.eqTail.toNat = (s.ctl.eqTail.toNat + 1) % s.ctl.eqSize.toNat ∧
      (t.ctl.eqPhase = s.ctl.eqPhase ↔ (s.ctl.eqTail.toNat + 1) % s.ctl.eqSize.toNat ≠ 0)) ∧
  (∀ (s : State) (x : CtxId) (type : Nat) (phase a0 a1 : DWord), s.ctl.eqRoom = false → (s.ctx x).evovf.toNat < 2 ^ 64 - 1 →
    let t := s.postEvent x type phase (some a0) (some a1)
    t.host = s.host ∧ (t.ctx x).evovf = (s.ctx x).evovf + 1) ∧
  (∀ (s : State) (x n : Nat), s.ctl.lost.getLast? = some (x, n) → s.ctl.eqRoom = true → ∃ t : State, exec .eventOverflow s = .next t ∧
    t.ctl.lost = s.ctl.lost.dropLast ∧ t.mem = s.mem ∧ t.ctl.eqTail.toNat = (s.ctl.eqTail.toNat + 1) % s.ctl.eqSize.toNat)) ∧
  ((∀ (s : State) (d : DieId) (l : NetNode) (r : Report) (rest : List Report), (s.die d).fifo = r :: rest → s.net.dieNode d = some l →
    ((s.die d).heldReports = [] → exec (.faultReport d) s =
      .next ((s.setDie d { s.die d with fifo := rest }).emitCtl l ctlNode r.ctx r.phase (.report r))) ∧
    ∀ h hs, (s.die d).heldReports = h :: hs → exec (.faultReport d) s =
      .next ((s.setDie d { s.die d with fifo := rest ++ [h], heldReports := hs }).emitCtl l ctlNode r.ctx r.phase (.report r))) ∧
  (∀ (s : State) (r : Report) (pk : Packet), pk.body = .ctl (.report r) → r.halt = none → r.kind ≠ divergenceKind →
    let t := s.comesTo ctlNode pk
    (t.ctx r.ctx).fcnt = (s.ctx r.ctx).fcnt + 1 ∧
    (∀ p, s.phaseOf r.ctx r.phase = some p → p.level ≠ .domain → r.late = false → (t.ctx r.ctx).walk = .none ∧
      (t.ctx r.ctx).phases = ((s.ctx r.ctx).phases.filter fun q => q.num != r.phase) ∧
      ∀ cl g, (t.cluster cl).grp = some g → ¬ (g.ctx = r.ctx ∧ g.phase = r.phase)) ∧
    ((r.late = true ∨ s.phaseOf r.ctx r.phase = none) → (t.ctx r.ctx).walk = (s.ctx r.ctx).walk ∧
      (t.ctx r.ctx).phases = (s.ctx r.ctx).phases ∧ t.clusters = s.clusters ∧ t.cores = s.cores ∧ t.teams = s.teams)) ∧
  (∀ (s : State) (x v : CtxId) (k : Nat), (s.ctx x).readySince = some k → s.victim x = some v → (s.ctx x).preempt ≠ 0 →
    s.starved x = true → (s.ctx x).preempt.toNat < s.clock - k →
    exec (.preemptThreshold x) s = .next (s.setCtx v { s.ctx v with cstate := .draining, drainStart := s.clock, drainRun := 0 })) ∧
  (∀ (s : State) (x : CtxId), (s.ctx x).cstate = .draining → (∃ cl ∈ s.clustersOf x none, (s.cluster cl).told = false) →
    (s.ctx x).drain.toNat ≤ (s.ctx x).drainRun + (s.clock - (s.ctx x).drainStart) → ∃ t : State, exec (.flagFall x) s = .next t ∧
      (t.ctx x).cstate = .idle ∧ (t.ctx x).phases = [] ∧ (t.ctx x).walk = .none))

/-! ## The host interface (24) -/

/-- R424, R425: a host access through BAR2 reads or writes the committed copy at WINBASE plus the offset, where the function reaches it:
the PF all of device memory, a VF the frames of its partition. Bytes that it does not reach read as zero and take no write (the model's
choice, log 56); where the scoresheets stand, the host reads and writes their records (log 155, deduced). A sector that is written whole
is good again (R377). Reading GSTAT clears CMDERR (Table 24-3).

R427, R428, Tables 24-2 to 24-4: a write that is no aligned word of 8 bytes is refused; one to a register that the function does not
show does nothing. START, KICK and CMD do what the events of their names do; the other registers of a context block take their value
while the context is idle, and refuse what their fields do not allow. -/
def Obligations.HostAccesses : Prop :=
  (∀ (s : State) (f : FnId) (off : Nat),
    let pa (k : Nat) : Nat := (s.ctl.winbase.get 0 f).toNat + off + k
    let reached (k : Nat) : Prop := off + k < s.barOf f ∧ pa k < 1536 * 2 ^ 30 ∧
      (f = 0 ∨ ∃ r ∈ (s.partBlk (f.val - 1)).ranges, r.1 ≤ pa k / 2 ^ 16 ∧ pa k / 2 ^ 16 < r.1 + r.2)
    (∀ len, ∃ t : State, exec (.bar2Read f off len) s = .next t ∧ t = { s with hostData := t.hostData } ∧ t.hostData.length = len ∧
      ∀ k, k < len → (reached k → t.hostData.getD k 0 = s.deviceByte (pa k)) ∧ (¬ reached k → t.hostData.getD k 0 = 0)) ∧
    (∀ bytes : List Byte, ∃ t : State, exec (.bar2Write f off bytes) s = .next t ∧ t = { s with mem := t.mem, ctxs := t.ctxs, badSectors := t.badSectors } ∧
      (∀ x : CtxId, t.ctx x = { s.ctx x with sheet := (t.ctx x).sheet, score := (t.ctx x).score }) ∧
      (∀ k, k < bytes.length → reached k → t.deviceByte (pa k) = bytes.getD k 0) ∧
      (∀ a, (∀ k, k < bytes.length → reached k → pa k ≠ a) → t.deviceByte a = s.deviceByte a) ∧
      (∀ a, s.sheetAt a ≠ none → t.mem.get unwritten a = s.mem.get unwritten a) ∧
      ∀ q, q ∈ t.badSectors ↔ q ∈ s.badSectors ∧ ∃ j, j < 64 ∧ ∀ k, k < bytes.length → reached k → pa k ≠ 64 * q + j) ∧
    (∀ a, (s.sheetAt a = none → s.deviceByte a = s.mem.get unwritten a) ∧
      ∀ x o, s.sheetAt a = some (x, o) → s.deviceByte a = (s.ctx x).sheet.get unwritten o) ∧
    exec (.gstatRead f) s = .next (if f = 0
      then { s with
        hostData := leBytes 8 ((if s.ctl.cmdErr then 2 ^ 16 else 0) + s.ctl.failed.toNat * 2 ^ 8 + s.ctl.state.toNat)
        ctl := { s.ctl with cmdErr := false } }
      else { s with hostData := leBytes 8 0 })) ∧
  (∀ (s : State) (f : FnId) (v : DWord),
    let no : Host.Outcome State Fault Refusal := .next { s with ctl := { s.ctl with cmdErr := true } }
    (∀ off size, (size ≠ 8 ∨ off % 8 ≠ 0) → exec (.registerWrite f off size v) s = no) ∧
    (∀ off, off % 8 = 0 → s.shows f (hostReg off) = false → exec (.registerWrite f off 8 v) s = .next s) ∧
    (exec (.registerWrite f 0x10 8 v) s = if v.toNat % s.barOf f = 0
      then .next { s with ctl := { s.ctl with winbase := s.ctl.winbase.set 0 f v } } else no) ∧
    (f = 0 → exec (.registerWrite f 0x200010 8 v) s = if v.toNat < s.ctl.eqSize.toNat
      then .next { s with ctl := { s.ctl with eqHead := v } } else no) ∧
    (∀ k : Fin 8, f = 0 → ∃ t : State, exec (.registerWrite f (0x100000 + 0x100 * k.val) 8 v) s = .next t ∧
      t.partBlk k = { s.partBlk k with mask := v } ∧ t.mem = s.mem) ∧
    ∀ x : CtxId, (f = 0 ∨ (s.ctx x).part.val + 1 = f.val) →
      let c := s.ctx x
      let put (d : Ctx) : Host.Outcome State Fault Refusal := .next (s.setCtx x d)
      let write (r : Nat) : Host.Outcome State Fault Refusal := exec (.registerWrite f (0x10000 + 0x400 * x.val + r) 8 v) s
      write 0x28 = exec (.start x { node := v, kernels := [] }) s ∧ write 0x30 = exec (.kick x) s ∧
      (∀ e ∈ ([(1, .cmdHalt x), (2, .cmdResume x), (3, .cmdAbort x), (4, .cmdPreempt x), (5, .cmdInvalidate x), (6, .cmdReplayOn x),
          (7, .cmdReplayOff x)] : List (Nat × Instr)), v = BitVec.ofNat 64 e.1 → write 0x38 = exec e.2 s) ∧
      ((v = 0 ∨ 7 < v.toNat) → write 0x38 = no) ∧
      (c.cstate ≠ .idle → ∀ r ∈ [0x00, 0x08, 0x10, 0x18, 0x20], write r = no) ∧
      (c.cstate = .idle →
        (write 0x00 = if v.toNat < 256 ∧ v.toNat % 16 < 4
          then put { c with debug := v.getLsbD 7, part := Fin.ofNat 8 (v.toNat / 16), prio := Fin.ofNat 4 v.toNat } else no) ∧
        write 0x08 = put { c with rootpt := v } ∧
        (write 0x10 = if v.setWidth 32 = (0 : BitVec 32) then no
          else put { c with preempt := (v >>> 32).setWidth 32, drain := v.setWidth 32 }) ∧
        write 0x18 = put { c with scoreUnits := (v >>> 32).setWidth 32, spillUnits := v.setWidth 32 } ∧
        (write 0x20 = if v.toNat % 2 ^ 16 = 0 then put { c with csb := v } else no)))

/-- R428, R30, Tables 24-4 and 24-9, R395, R404: START, KICK and the commands in each state of a context. A command that the state of the
context does not take is refused, with CMDERR. The device takes a START once it has come up, at STATE 4 too (log 88, deduced). What the
windows of the kernels hold at first comes with the START, and stays even where the START is refused: that is the model's hand-over of
what system software has loaded (log 116, the model's choice). -/
def Obligations.ContextCommands : Prop :=
  ∀ (s : State) (x : CtxId),
    let c := s.ctx x
    let no : Host.Outcome State Fault Refusal := .next { s with ctl := { s.ctl with cmdErr := true } }
    let rest : Bool := c.cstate == .idle || c.cstate == .preempted
    (∀ g : GraphStart,
      let kept := s.windows.filter fun w => !(w.1 == x && g.kernels.any fun k => k.code == w.2.code)
      let u : State := { s with windows := kept ++ g.kernels.map fun k => (x, k) }
      (exec (.start x g) s = if s.ctl.state ≠ 0 ∧ s.ctl.state ≠ 0xF ∧ s.ctl.bring = none ∧ c.cstate = .idle
        then .next (u.setCtx x { c with cstate := .running, walk := .visit g.node, iters := [], stale := false })
        else .next { u with ctl := { s.ctl with cmdErr := true } }) ∧
      (∀ k, g.kernels = [k] → u.loaded x k.code = k) ∧
      ∀ y code, (y ≠ x ∨ ∀ k ∈ g.kernels, k.code ≠ code) → u.loaded y code = s.loaded y code) ∧
    exec (.kick x) s = .next { s with agenda := .event (.awaitPoll x) :: s.agenda } ∧
    ((c.cstate = .running ∨ c.cstate = .draining) → ∃ t : State, exec (.cmdHalt x) s = .next t ∧ (t.ctx x).cstate = .halted ∧
      (t.ctx x).before = c.cstate ∧ t = { s with ctxs := t.ctxs, cores := t.cores } ∧
      ∀ cl ∈ s.clustersOf x none, ∀ k ∈ s.groupCores cl, (t.core k).halted = true) ∧
    (c.cstate = .halted → exec (.cmdHalt x) s = .next s) ∧
    (c.cstate = .halted → c.walk ≠ .none → (c.before = .running ∨ c.before = .draining ∧ s.clustersOf x none ≠ []) →
      ∃ t : State, exec (.cmdResume x) s = .next t ∧ (t.ctx x).cstate = c.before ∧ (t.ctx x).walk = c.walk ∧
        ∀ cl ∈ s.clustersOf x none, ∀ k ∈ s.groupCores cl, (t.core k).halted = false) ∧
    (c.cstate = .preempted → ∃ t : State, exec (.cmdResume x) s = .next t ∧ (t.ctx x).cstate = .running ∧ t = { s with ctxs := t.ctxs }) ∧
    (c.cstate ≠ .idle → ∃ t : State, exec (.cmdAbort x) s = .next t ∧ (t.ctx x).cstate = .idle ∧ (t.ctx x).phases = [] ∧
      (t.ctx x).walk = .none ∧ t.ctl = { s.ctl with reqs := t.ctl.reqs, walks := t.ctl.walks } ∧ t.host = s.host ∧
      ∀ cl g, (t.cluster cl).grp = some g → g.ctx = x → s.phaseOf x g.phase = none) ∧
    (c.cstate = .running → s.clustersOf x none ≠ [] →
      exec (.cmdPreempt x) s = .next (s.setCtx x { c with cstate := .draining, drainStart := s.clock, drainRun := 0 })) ∧
    (c.cstate = .running → s.clustersOf x none = [] → ∃ t : State, exec (.cmdPreempt x) s = .next t ∧
      (t.ctx x).cstate = .preempted ∧ (t.ctx x).phases = c.phases ∧ (t.ctx x).walk = c.walk) ∧
    (c.cstate = .draining → exec (.cmdPreempt x) s = .next s) ∧
    (rest = true → ∃ t : State, exec (.cmdInvalidate x) s = .next t ∧ t = { s with clusters := t.clusters, cores := t.cores } ∧
      (∀ cl, (t.cluster cl).tlb = (s.cluster cl).tlb.filter fun e => e.1 != x) ∧
      ∀ k, (t.core k).utlb = (s.core k).utlb.filter fun e => e.1 != x) ∧
    (rest = true → ∀ b ∈ [(Instr.cmdReplayOn x, true), (Instr.cmdReplayOff x, false)], ∃ t : State, exec b.1 s = .next t ∧
      t = s.setCtx x { c with replay := b.2, nextPhase := (t.ctx x).nextPhase, score := c.score.map fun r => { r with used := false } } ∧
      (b.2 = c.replay → (t.ctx x).nextPhase = c.nextPhase) ∧ (b.2 = true → c.replay = false → c.phases = [] → (t.ctx x).nextPhase = 0)) ∧
    (c.cstate = .idle → ∀ i ∈ [Instr.cmdHalt x, .cmdResume x, .cmdAbort x, .cmdPreempt x], exec i s = no) ∧
    (c.cstate = .preempted → ∀ i ∈ [Instr.cmdHalt x, .cmdPreempt x], exec i s = no) ∧
    (c.cstate = .halted → exec (.cmdPreempt x) s = no) ∧
    ((c.cstate = .running ∨ c.cstate = .draining) → exec (.cmdResume x) s = no) ∧
    (rest = false → ∀ i ∈ [Instr.cmdInvalidate x, .cmdReplayOn x, .cmdReplayOff x], exec i s = no)

/-- R432, R434, Tables 24-7 and 24-8: a nonce from the host or from a peer becomes a request, unless the mailbox is busy or the leaf indices are
used up; a request of the host comes before a peer's of the same clock. The first request is answered by a report of its nonce, MEAS0 to MEAS7, the serial, the firmware version and the leaf index,
which has advanced by then; when the counter cannot be committed, no report leaves. The answer to a peer goes out on the flow to it in
parts that a packet carries (log 160, deduced). -/
def Obligations.Attestation : Prop :=
  ∀ s : State,
    let c := s.ctl
    let put (d : Ctl) : Host.Outcome State Fault Refusal := .next { s with ctl := d }
    (exec .attestSubmit s = if c.mboxState = 1 then put { c with mboxCode := 1 }
      else if c.leaf < 2 ^ 20 then put { c with mboxState := 1, requests := c.requests ++ [(.host, c.nonce)] }
      else put { c with mboxCode := 2, mboxState := 2 }) ∧
    (∀ pkg : Fin 1024, ((s.fab.asks.find? fun e => e.1 == pkg) = none →
        exec (.peerAttestRequest pkg { withHost := false }) s = .next s) ∧
      (∀ e, (s.fab.asks.find? fun e => e.1 == pkg) = some e →
        let u : State := { s with fab := { s.fab with asks := s.fab.asks.erase e } }
        exec (.peerAttestRequest pkg { withHost := false }) s = .next (if c.leaf < 2 ^ 20
          then { u with ctl := { c with requests := c.requests ++ [(.peer pkg, e.2)] } } else u.answerPeer pkg 2 [])) ∧
      ∀ t, exec .attestSubmit s = .next t → exec (.peerAttestRequest pkg { withHost := true }) s =
        exec (.peerAttestRequest pkg { withHost := false }) t) ∧
    (∀ (code : BitVec 8) (report : List Byte), answerParts code report ≠ [] ∧
      (answerParts code report).flatMap (fun b => match b with | .attested _ _ l => l | _ => []) = report ∧
      ∀ b ∈ answerParts code report, ∃ off l, b = .attested code off l ∧ l.length ≤ 128 ∧ (report.drop off).take 128 = l) ∧
    ∀ r nonce rest, c.requests = (r, nonce) :: rest → c.leaf < 2 ^ 20 →
      (∃ sig report : List Byte, sig.length = 2816 ∧
        report = (nonce ++ List.replicate 32 0).take 32 ++ c.meas.flatten ++ leBytes 16 Config.serial.toNat ++
          leBytes 8 Config.firmwareVersion.toNat ++ leBytes 4 c.leaf ++ leBytes 4 2820 ++ leBytes 4 c.leaf ++ sig ∧
        exec (.attestReportDone true) s = match r with
          | .host => put { c with requests := rest, leaf := c.leaf + 1, mboxLeaf := BitVec.ofNat 32 c.leaf, mboxCode := 0, mboxState := 2
                                  report := report }
          | .peer p => .next ({ s with ctl := { c with requests := rest, leaf := c.leaf + 1 } }.answerPeer p 0 report)) ∧
      exec (.attestReportDone false) s = match r with
        | .host => put { c with requests := rest, mboxCode := 3, mboxState := 2 }
        | .peer p => .next ({ s with ctl := { c with requests := rest } }.answerPeer p 3 [])

/-- R430, R431, R432, Tables 24-5 and 24-6: reset runs the boot ROM, which measures each verified image into its register in order and
stops at the first that does not verify: STATE is then 1, or 0xF. The bring-up goes on by itself, a stage at a time, each of which may
fail; the network tree must stand (what that takes: log 159, deduced). The clock counts from the reset (R245), and the monotonic counter
outlives reset and the loss of power. Device memory is empty after reset (log 6), a context as log 7 has it, and the BAR2 of each
function has a size of the host's choice (log 140): the model's choices; a failed core stays failed through the loss of power (R266;
log 109, deduced).

R435, R436: an interval moves the clock of each cluster of a partition by one step, down above the cap or on a hot die, up below 95% of
the cap, between the slowest and the fastest; clusters of a hot die that no partition owns step down too (with partition 0: the model's
choice, log 132). A die above 95 °C posts one event; one at 105 °C ends every group and phase, but for those whose commit falls into the
same clock, and the device waits at STATE 4 until every die has cooled. -/
def Obligations.BootPowerAndHeat : Prop :=
  (∀ s : State,
    let zeros : List Byte := List.replicate 64 0
    (∃ t : State, exec .reset s = .next t ∧ t.mem = [] ∧ t.host = s.host ∧ t.teams = [] ∧ (∀ x : CtxId, t.ctx x = Ctx.unset) ∧
      t.ctl.leaf = s.ctl.leaf ∧ t.clock = 0 ∧ (∀ f : FnId, ∃ n, n < 12 ∧ t.barOf f = 2 ^ (30 + n)) ∧
      ((∀ k, k < 5 → Config.imageVerifies k (Config.image k) = true) → t.ctl.state = 1 ∧ t.ctl.bring ≠ none ∧ ∀ k, k < 8 →
        t.ctl.meas[k]? = some (if k < 5 then shake512 (zeros ++ shake512 (Config.image k)) else zeros)) ∧
      ∀ j, j < 5 → (∀ k, k < j → Config.imageVerifies k (Config.image k) = true) → Config.imageVerifies j (Config.image j) = false →
        t.ctl.state = 0xF ∧ t.ctl.failed = 0 ∧ t.ctl.bring = none ∧ ∀ k, k < 8 →
          t.ctl.meas[k]? = some (if k < j then shake512 (zeros ++ shake512 (Config.image k)) else zeros)) ∧
    (s.ctl.state = 0 → s.pick = some (.event .reset)) ∧ (s.ctl.state ≠ 0 → s.ctl.bring ≠ none → s.pick = some .bringUp) ∧
    (∀ b k, s.ctl.bring = some b → k < 5 → s.ctl.state = BitVec.ofNat 4 k →
      let stands : Bool := k != 4 || (s.bootTree b).net.stands
      ∃ t : State, act .bringUp s = .next t ∧ t.mem = s.mem ∧ t.teams = s.teams ∧ t.ctxs = s.ctxs ∧ t.ctl.meas = s.ctl.meas ∧
        (Config.stagePasses b k = true → stands = true → t.ctl.state = BitVec.ofNat 4 (k + 1) ∧ t.ctl.failed = s.ctl.failed ∧
          (k < 4 → t.ctl.bring = some b) ∧ (k = 4 → t.ctl.bring = none ∧ t.partBlk 0 = { PartBlk.all with mask := t.available })) ∧
        ((Config.stagePasses b k = false ∨ stands = false) → t.ctl.state = 0xF ∧ t.ctl.failed = BitVec.ofNat 8 k ∧ t.ctl.bring = none)) ∧
    ∃ t : State, exec .powerLoss s = .next t ∧ t.ctl = { Ctl.atReset with leaf := s.ctl.leaf, barSize := s.ctl.barSize } ∧ t.mem = [] ∧
      t.teams = [] ∧ t.clusters = [] ∧ t.ctxs = [] ∧ t.clock = 0 ∧
      (∀ k, t.core k = { CoreSt.idle with removed := (t.core k).removed }) ∧
      (∀ k, (s.core k).removed = true → (t.core k).removed = true) ∧ ((∀ e ∈ s.cores, e.2.removed = false) → t.cores = []) ∧
      ∀ d, t.die d = { DieSt.idle with dead := (t.die d).dead, removed := (t.die d).removed }) ∧
  ((∀ (s : State) (part : Fin 8) (r : PowerReading), ∃ t : State, exec (.powerInterval part r) s = .next t ∧
    t = { s with clusters := t.clusters, dies := t.dies } ∧
    (∀ d, t.die d = match (r.dies.take 8)[d]? with
      | some m => { s.die d with watts := m.1, celsius := m.2 }
      | none => s.die d) ∧
    ∀ cl : ClusterId,
      let b := s.partBlk part
      let x := s.cluster cl
      let hot := (s.die (cl.val / 8)).hot
      let down : Fin 16 := Fin.ofNat 16 (x.step.val - 1)
      let k : Fin 16 := if b.mask.getLsbD cl = false then
          (if part = 0 ∧ hot = true ∧ ∀ j : Fin 8, (s.partBlk j).mask.getLsbD cl = false then down else x.step)
        else if b.cap.toNat < r.watts ∨ hot = true then down
        else if r.watts * 100 < b.cap.toNat * 95 then Fin.ofNat 16 (Nat.min 15 (x.step.val + 1)) else x.step
      t.cluster cl = { x with step := k }) ∧
  ∀ (s : State) (d : DieId),
    let x := s.die d
    (x.hot = true → exec (.thermalThrottle d true) s = .next s) ∧
    (x.hot = false → ∃ t : State, exec (.thermalThrottle d true) s = .next t ∧ (t.die d).hot = true ∧ t.teams = s.teams ∧
      (s.ctl.eqRoom = true → t.mem = s.mem ∧ t.ctl.eqTail.toNat = (s.ctl.eqTail.toNat + 1) % s.ctl.eqSize.toNat)) ∧
    exec (.thermalThrottle d false) s = .next (s.setDie d { x with hot := false }) ∧
    ((s.ctl.state = 5 ∨ s.ctl.state = 4) → ∃ t : State, exec (.thermalCritical { die := d, commits := [] }) s = .next t ∧ t.ctl.state = 4 ∧
      (t.die d).hot = true ∧ (∀ y : CtxId, (t.ctx y).phases = []) ∧
      ∀ cl g, (t.cluster cl).grp = some g → s.phaseOf g.ctx g.phase = none) ∧
    (s.ctl.state ≠ 5 → s.ctl.state ≠ 4 → exec (.thermalCritical { die := d, commits := [] }) s = .next s) ∧
    (∀ (y : CtxId) (num : BitVec 32) (l : List (CtxId × BitVec 32)) (t : State), exec (.phaseCommit y num) s = .next t →
      exec (.thermalCritical { die := d, commits := (y, num) :: l }) s = exec (.thermalCritical { die := d, commits := l }) t) ∧
    (exec .thermalRecovery s = if s.ctl.state = 4 ∧ s.ctl.bring = none ∧ (s.dies.all fun e => !e.2.hot) = true
      then .next { s with ctl := { s.ctl with state := 5 } } else .next s))

/-! ## The fabric (25) -/

/-- R437, R440 to R443, R445, Table 25-1: a packet that arrives at a port that is up takes the place that the port's buffer of its class has,
and goes on with one hop less, over a port of the forwarding table that is up and has credit, or waits; with no hop left before its
destination the port fails (that it is the port it came by: log 136). Packets for this package: those of REQ and RSP flows are delivered as
they arrive, once, and their source hears on CTL below which number all have come (log 137); a packet of a CTL flow is delivered only
after all before it. A packet, of this package or forwarded, gives its context a flow over its ports, which a decision against the
phase or its release ends (logs 143, 162). A read or a write of another package's line leaves through the control die, with the next
number of its flow and 8 hops, and is served there as its own slices serve theirs, a write when its stamp is that of the phase here (log 158).

R437, R438, R447, R448: a flit that fails is replayed up to 8 times; then its port goes down, once, with an event, and no flow uses
it any more. A domain-level phase that had a flow over it, or lost a member, and is not decided is aborted: the coordinator discards
it and says so, unless every vote has arrived; a member votes against it (log 143); votes and decisions name the phase by its stamp
(log 158). One that is decided, or has no flow there, stands. The packages of a flow that was forwarded over the port are told, and take
that as a failure of theirs (log 162). What was handed to the port and is not known to have come is sent again by another (log 143). -/
def Obligations.FabricPackets : Prop :=
  ((∀ (f : Fabric) (port : Fin 18) (p : FabPkt),
    (pktCtx p = none → f.mark port p = f) ∧
    ∀ x, pktCtx p = some x → ∃ g : Fabric, f.mark port p = g ∧ g = { f with flows := g.flows } ∧
      (endsFlow p = false → ∀ e : FlowMark, e ∈ g.flows ↔ e ∈ f.flows ∨ e = { port := port, ctx := x, src := p.spkg, dst := p.dpkg }) ∧
      (endsFlow p = true → ∀ e : FlowMark, e ∈ g.flows ↔ e ∈ f.flows ∧
        ¬ (e.ctx = x ∧ ((e.src = p.spkg ∧ e.dst = p.dpkg) ∨ (e.src = p.dpkg ∧ e.dst = p.spkg))))) ∧
  (∀ (p : FabPkt), endsFlow p = true ↔ ∃ x n, p.body = .msg x (.decision n false) ∨ p.body = .msg x (.release n)) ∧
  (∀ (s : State) (port : Fin 18),
    let f := s.fab
    let held := f.held.get [] port
    (port ∈ f.down → (∀ p, exec (.fabricForward port (.packet p)) s = .next s) ∧
      ∀ cls n, exec (.fabricForward port (.credit cls n)) s = .next s) ∧
    (∀ p, held = [] → f.waits = [p] → ∃ t : State, exec (.fabricForward port .next) s = .next t ∧
        ((∃ q ∈ s.portsFor p, t.fab.sent = f.sent ++ [(q, p)] ∧ t.fab.waits = []) ∨
          (s.portsFor p = [] ∧ t.fab.sent = f.sent ∧ t.fab.waits = [p]))) ∧
    (∀ p, held = [p] → f.waits = [] → p.dpkg ≠ s.ctl.pkg → ∃ t : State, exec (.fabricForward port .next) s = .next t ∧
        ((∃ q ∈ s.portsFor p, t.fab.sent = f.sent ++ [(q, p)] ∧ t.fab.held.get [] port = []) ∨
          (s.portsFor p = [] ∧ t.fab.sent = f.sent ∧ t.fab.held.get [] port = [p]))) ∧
    (port ∉ f.down →
      (∀ cls n, exec (.fabricForward port (.credit cls n)) s =
        .next { s with fab := { f with spent := f.spent.set 0 (3 * port.val + cls.val) (f.inUse port cls - n) } }) ∧
      ∀ a : FabPkt,
        let p : FabPkt := { a with hops := a.hops - 1 }
        let arrive := exec (.fabricForward port (.packet a)) s
        let b : State := { s with fab := f.mark port a }
        (64 < f.heldFlits port a.cls + pktFlits a → arrive = .next s) ∧
        (f.heldFlits port a.cls + pktFlits a ≤ 64 → a.dpkg ≠ s.ctl.pkg →
          (p.hops = 0 → arrive = exec (.fabricLinkFailure port) b) ∧
          (p.hops ≠ 0 → ∃ t : State, arrive = .next t ∧
            ((s.portsFor p = [] ∧ t = { b with fab := { b.fab with held := f.held.put port (held ++ [p]) } }) ∨
              ∃ q ∈ s.portsFor p, t = { b with
                free := s.free + 1
                fab := ({ b.fab with sent := f.sent ++ [(q, p)]
                                     spent := f.spent.set 0 (3 * q.val + p.cls.val) (f.inUse q p.cls + pktFlits p) } : Fabric).mark q a }))) ∧
        (f.heldFlits port a.cls + pktFlits a ≤ 64 → a.dpkg = s.ctl.pkg →
          let key := flowKey a.cls a.spkg
          let low := f.low.get 0 key
          let seen := f.seen.get [] key
          let early := f.early.get [] key
          (a.cls ≠ 0 → (2 ^ 31 ≤ (a.seq - low).toNat ∨ a.seq ∈ seen) → arrive = .next b) ∧
          (a.cls ≠ 0 → (a.seq - low).toNat < 2 ^ 31 → seen = [] → ∃ d : State,
            d = { b with fab := { b.fab with low := d.fab.low, seen := d.fab.seen } } ∧
            (a.seq = low → d.fab.low.get 0 key = low + 1 ∧ d.fab.seen.get [] key = [] ∧
              arrive = .next ((d.deliverPkt p).toPackage 0 a.spkg (.complete a.cls (low + 1)))) ∧
            (a.seq ≠ low → d.fab.low.get 0 key = low ∧ d.fab.seen.get [] key = [a.seq] ∧ arrive = .next (d.deliverPkt p))) ∧
          (a.cls = 0 → (2 ^ 31 ≤ (a.seq - low).toNat ∨ ((a.seq - low).toNat < 512 ∧ ∃ q ∈ early, q.seq = a.seq)) → arrive = .next b) ∧
          (a.cls = 0 → 512 ≤ (a.seq - low).toNat → (a.seq - low).toNat < 2 ^ 31 →
            arrive = .next { b with fab := { b.fab with held := f.held.put port (held ++ [p]) } }) ∧
          (a.cls = 0 → (a.seq - low).toNat < 512 → a.seq ≠ low → (∀ q ∈ early, q.seq ≠ a.seq ∧ q.seq ≠ low) → ∃ t : State,
            arrive = .next t ∧ t = { b with fab := { b.fab with early := t.fab.early } } ∧ t.fab.early.get [] key = early ++ [p]) ∧
          (a.cls = 0 → a.seq = low → early = [] → ∃ d : State, d = { b with fab := { b.fab with early := d.fab.early, low := d.fab.low } } ∧
            d.fab.low.get 0 key = low + 1 ∧ d.fab.early.get [] key = [] ∧
            (∀ x m, m ≠ .linkFailed → a.body = .msg x m →
              arrive = .next { d with fab := { d.fab with inbox := f.inbox ++ [(a.spkg, x, m)] } }) ∧
            ∀ n, a.body = .attest n → arrive = .next { d with fab := { d.fab with asks := f.asks ++ [(a.spkg, n)] } })))) ∧
  (∀ (s : State) (p : FabPkt) (x : CtxId) (src : NetNode),
    let packet (dst : NetNode) (num : BitVec 32) (chan : Chan) (b : Body) : Packet :=
      { chan := chan, ctx := x, phase := num, src := ctlNode, dsts := [dst], body := b, since := 0, forked := false, dead := false }
    let num := (s.ctx x).domainNum
    (∀ w l ph d stamp, p.body = .writes x stamp src (w :: l) → (s.ctx x).domainPhase = some ph → (s.ctx x).domain = some d → p.spkg ∈ d.set →
      (stamp = d.stamp → s.deliverPkt p =
        s.emit (packet (keyLeaf w.addr) ph.num .req (.write ((w :: l).map ofRemote) (some (p.spkg, src))))) ∧
      (stamp ≠ d.stamp → s.deliverPkt p = s.toPackage 2 p.spkg (.ack x src 1))) ∧
    (∀ rid line, p.body = .read x rid line →
      s.deliverPkt p = s.emit (packet (keyLeaf (line * 128)) num .req (.read rid line (some p.spkg)))) ∧
    (∀ n, p.body = .ack x src n → s.deliverPkt p = s.emit (packet src num .rsp (.ack n none)))) ∧
  (∀ (s : State) (cls : Fin 3) (pkg : Fin 1024) (b : FabBody), ∃ t : State, t = s.toPackage cls pkg b ∧
    let n := s.fab.next.get 0 (flowKey cls pkg)
    let p : FabPkt := { hops := 8, cls := cls, spkg := s.ctl.pkg, dpkg := pkg, seq := n, body := b }
    t.fab.next.get 0 (flowKey cls pkg) = n + 1 ∧
    ((∃ q ∈ s.portsFor p, t.fab.sent = s.fab.sent ++ [(q, p)] ∧ t.fab.waits = s.fab.waits ∧
        t.fab.flows = (s.fab.mark q p).flows) ∨
      (s.portsFor p = [] ∧ t.fab.sent = s.fab.sent ∧ t.fab.waits = s.fab.waits ++ [p]))) ∧
  ∀ (s : State) (leaf : NetNode) (p : Packet) (r : List Packet), s.net.arrived.get [] leaf = p :: r →
    let b : State := { s with net := { s.net with arrived := s.net.arrived.set [] leaf r } }
    let reply (y : Body) : Packet := { chan := .rsp, ctx := p.ctx, phase := p.phase, src := leaf, dsts := [p.src], body := y, since := 0
                                       forked := false, dead := p.dead }
    (leaf = ctlNode → ∀ rid line, p.body = .read rid line none → exec (.lineRead { leaf := leaf, k := 0 }) s =
      .next (b.toPackage 1 (keyPkg (line * 128)) (.read p.ctx rid (keyThere (line * 128) / 128)))) ∧
    (leaf ≠ ctlNode → s.badSectors = [] → ∀ rid line pkg, p.body = .read rid line (some pkg) → exec (.lineRead { leaf := leaf, k := 0 }) s =
      .next (b.emit (reply (.line rid (readBytes (s.domainBase p.ctx) (line * 128) 128) (some pkg))))) ∧
    (leaf = ctlNode → ∀ rid bytes pkg, p.body = .line rid bytes (some pkg) →
      exec (.lineResponse leaf) s = .next (b.toPackage 2 pkg (.line p.ctx rid bytes))) ∧
    (leaf = ctlNode → p.dead = false → ∀ w ws, p.body = .write (w :: ws) none → exec (.landingWrite leaf) s =
      .next (b.toPackage 1 (keyPkg w.addr) (.writes p.ctx (((s.ctx p.ctx).domain.map Domain.stamp).getD 0) p.src ((w :: ws).map toRemote)))) ∧
    (∀ n pkg src, p.body = .ack n (some (pkg, src)) → exec (.writeAck leaf) s = .next (b.toPackage 2 pkg (.ack p.ctx src n)))) ∧
  ((∀ (s : State) (p : Fin 33), p.val < 18 →
    let port : Fin 18 := Fin.ofNat 18 p.val
    let n := s.fab.replays.get 0 port
    let replayed (m : Nat) : State := { s with fab := { s.fab with replays := s.fab.replays.put port m } }
    port ∉ s.fab.down →
    exec (.flitCrcError .fabric { port := p, again := false }) s = .next (replayed 1) ∧
    (n < 8 → exec (.flitCrcError .fabric { port := p, again := true }) s = .next (replayed (n + 1))) ∧
    (8 ≤ n → exec (.flitCrcError .fabric { port := p, again := true }) s = exec (.fabricLinkFailure port) s)) ∧
  ∀ (s : State) (port : Fin 18),
    let own := s.ctl.pkg
    let down := port :: s.fab.down
    let told (t : State) (k : Fin 1024) (x : CtxId) (m : Msg) : Prop :=
      ∃ e ∈ t.fab.sent.map (·.2) ++ t.fab.waits, e.spkg = own ∧ e.dpkg = k ∧ e.body = .msg x m
    let stands (t : State) (x : CtxId) (d : Domain) : Prop := (t.ctx x).domain = some d ∧ (t.ctx x).phases = (s.ctx x).phases
    let aborts (t : State) (x : CtxId) (d : Domain) (p : Phase) : Prop :=
      (d.coordinator = own → s.allVoted x d = false →
        (∀ q ∈ (t.ctx x).phases, q.num ≠ p.num) ∧ ∀ k ∈ d.set, k ≠ own → told t k x (.decision d.stamp false)) ∧
      (d.coordinator = own → s.allVoted x d = true → stands t x d) ∧
      (d.coordinator ≠ own → told t d.coordinator x (.vote d.stamp false) ∧
        ∃ e, (t.ctx x).domain = some e ∧ (own, false) ∈ e.votes)
    let lost (e : Fin 18 × FabPkt) : Prop :=
      let n := (s.fab.acked.get 0 (flowKey e.2.cls e.2.dpkg) - e.2.seq).toNat
      e.1 = port ∧ ¬ (e.2.spkg = own ∧ e.2.cls ≠ 0 ∧ 0 < n ∧ n < 2 ^ 31)
    (port ∈ s.fab.down → exec (.fabricLinkFailure port) s = .next s) ∧
    (port ∉ s.fab.down → (∀ x : CtxId, (s.ctx x).domain = none) → (∀ e ∈ s.fab.flows, e.port = port → e.src = own ∨ e.dst = own) →
      (∀ e ∈ s.fab.sent, ¬ lost e) → exec (.fabricLinkFailure port) s =
      .next ({ s with free := s.free + 1
                      fab := { s.fab with down := down, flows := s.fab.flows.filter fun e => e.port != port
                                          sent := s.fab.sent.filter fun e => e.1 != port } }.postEvent (Config.eventCtx s.free) 3 0 none none)) ∧
    (port ∉ s.fab.down → ∃ t : State, exec (.fabricLinkFailure port) s = .next t ∧ t.fab.down = down ∧
      (∀ e ∈ t.fab.flows, e.port ≠ port) ∧ (∀ e ∈ t.fab.sent, e.1 ≠ port) ∧
      (∀ e ∈ s.fab.flows, e.port = port → e.src ≠ own → e.dst ≠ own → told t e.src e.ctx .linkFailed ∧ told t e.dst e.ctx .linkFailed) ∧
      (∀ e ∈ s.fab.sent, lost e → e.2 ∈ t.fab.sent.map (·.2) ++ t.fab.waits) ∧
      ∀ (x : CtxId) d p, (s.ctx x).domain = some d → (s.ctx x).domainPhase = some p →
        let hit : Prop := (∃ e ∈ s.fab.flows, e.port = port ∧ e.ctx = x ∧ e.src ∈ d.set ∧ e.dst ∈ d.set) ∨
          (d.coordinator = own ∧ ∃ k ∈ d.set, k ≠ own ∧ ∀ q ∈ Config.route down k, q ∈ down)
        (d.decided ≠ none ∨ ¬ hit → stands t x d) ∧ (d.decided = none → d.set ≠ [own] → hit → aborts t x d p)) ∧
    ∀ (a : FabPkt) (x : CtxId) d p, port ∉ s.fab.down → s.fab.heldFlits port 0 + pktFlits a ≤ 64 → a.cls = 0 → a.dpkg = own →
      a.seq = s.fab.low.get 0 (flowKey 0 a.spkg) → s.fab.early.get [] (flowKey 0 a.spkg) = [] → a.body = .msg x .linkFailed →
      (s.ctx x).domain = some d → (s.ctx x).domainPhase = some p → ∃ t : State, exec (.fabricForward port (.packet a)) s = .next t ∧
        (d.decided ≠ none → stands t x d) ∧ (d.decided = none → d.set ≠ [own] → aborts t x d p))

/-- R444, R445, R386: what the packages of a domain-level LAUNCH must agree on. The coordinator waits for every package of the set, takes
those that had come before it, and takes a package that brings other words as a graph error on all that have come; when the last
agrees, its node runs, as a member's does when the coordinator says so. The groups of a domain-level LAUNCH are spread over the
packages of its set first, then over the dies. After 2^32 clocks a missing member is a graph error. The coordinator stamps the phase
with its clock, and its answer carries the stamp (log 158).

R446 to R448: each package votes once its part has ended, yes exactly when its resolution finds no fault; the coordinator counts the votes.
When all have said yes, every package commits, and otherwise none, and a decision is final; a member that can no longer be heard makes
it ABORT; members reply DONE to a commit, and the coordinator releases the phase when all have. What the packages say names the phase by
its stamp, and a vote or a decision of another changes nothing (log 158); a package that has said yes, and whose resolution a later write
of another package makes fail, says no (log 161). -/
def Obligations.PackagesMeetAndAgree : Prop :=
  ((∀ (s : State) (x : CtxId) (a : DWord) (n : Node) (r k : List Byte), n.ld = false → n.per = 0 → s.ctlRead x n.list 128 = some r →
    s.ctlRead x n.obj 64 = some k → s.ctl.pkg ∈ setOf r →
    let own := s.ctl.pkg
    let d : Domain := { set := setOf r, parts := [{ record := r, tag := BitVec.ofNat 32 n.dst, cnt := n.cnt, kernel := k }]
                        since := s.clock, stamp := 0, met := [own], votes := [], done := [], decided := none }
    let old := s.fab.arrivals.filter fun e => e.1 == x
    let more : Domain := { d with stamp := s.clock, since := old.foldl (fun b e => Nat.min b e.2.2) s.clock, met := own :: old.map fun e => e.2.1.pkg }
    let s1 : State := { s with fab := { s.fab with arrivals := s.fab.arrivals.filter fun e => e.1 != x } }
    let meets (u : State) (e : Domain) : State := u.setCtx x { s.ctx x with walk := .meet a, domain := some e }
    s.domainOf x [n] = some d ∧
    (d.coordinator ≠ own → s.beginDomain x a [n] = (meets s d).tell x d.coordinator (.meet { pkg := own, parts := d.parts, stamp := 0 })) ∧
    (d.coordinator = own → (∀ e ∈ old, e.2.1.parts = d.parts ∧ e.2.1.pkg ∈ d.set) → (∃ k ∈ d.set, k ∉ more.met) →
      s.beginDomain x a [n] = meets s1 more) ∧
    (d.coordinator = own → (∃ e ∈ old, e.2.1.parts ≠ d.parts ∨ e.2.1.pkg ∉ d.set) → ∃ t : State, s.beginDomain x a [n] = t ∧
      (t.ctx x).walk = .none ∧ ∀ k ∈ more.met, k ≠ own →
        ∃ e ∈ t.fab.sent.map (·.2) ++ t.fab.waits, e.spkg = own ∧ e.dpkg = k ∧ e.body = .msg x .graphError)) ∧
  (∀ (s : State) (x : CtxId) (r : List (Fin 1024 × CtxId × Msg)),
    let c := s.ctx x
    let s1 : State := { s with fab := { s.fab with inbox := r } }
    let told (t : State) (k : Fin 1024) : Prop :=
      ∃ e ∈ t.fab.sent.map (·.2) ++ t.fab.waits, e.spkg = s.ctl.pkg ∧ e.dpkg = k ∧ e.body = .msg x .graphError
    (∀ pkg m, s.fab.inbox = (pkg, x, .meet m) :: r →
      ((∀ a, c.walk ≠ .meet a) → exec (.domainRendezvous x pkg) s =
        .next { s1 with fab := { s1.fab with arrivals := s.fab.arrivals ++ [(x, m, s.clock)] } }) ∧
      ∀ a d, c.walk = .meet a → c.domain = some d →
        let more : Domain := { d with met := d.met ++ [m.pkg] }
        let agrees : Prop := m.parts = d.parts ∧ m.pkg ∈ d.set
        (d.coordinator = s.ctl.pkg → m.pkg ∈ d.met → exec (.domainRendezvous x pkg) s = .next s1) ∧
        (d.coordinator = s.ctl.pkg → m.pkg ∉ d.met → agrees →
          ((∃ k, k ∈ d.set ∧ k ∉ more.met) → exec (.domainRendezvous x pkg) s = .next (s1.setCtx x { c with domain := some more })) ∧
          ((∀ k ∈ d.set, k ∈ more.met) → exec (.domainRendezvous x pkg) s = .next
            (((d.set.filter fun k => k != s.ctl.pkg).foldl (fun t k => t.tell x k (.meet { pkg := s.ctl.pkg, parts := d.parts, stamp := d.stamp }))
              (s1.setCtx x { c with domain := some more })).runNode x a))) ∧
        (d.coordinator = s.ctl.pkg → m.pkg ∉ d.met → ¬ agrees → ∃ t : State,
          exec (.domainRendezvous x pkg) s = .next t ∧ (t.ctx x).walk = .none ∧ ∀ k ∈ more.met, k ≠ s.ctl.pkg → told t k) ∧
        (d.coordinator ≠ s.ctl.pkg → pkg = d.coordinator → agrees → exec (.domainRendezvous x pkg) s =
          .next ((s1.setCtx x { c with domain := some { d with stamp := m.stamp } }).runNode x a)) ∧
        (d.coordinator ≠ s.ctl.pkg → pkg = d.coordinator → ¬ agrees → exec (.domainRendezvous x pkg) s = .next (s1.graphError x a))) ∧
    (∀ pkg a d, s.fab.inbox = (pkg, x, .graphError) :: r → c.walk = .meet a → c.domain = some d → pkg = d.coordinator →
      exec (.domainRendezvous x pkg) s = .next (s1.graphError x a)) ∧
    (∀ a, (∀ b, c.walk ≠ .meet b) → a ∈ s.fab.arrivals → a.1 = x → 2 ^ 32 ≤ s.clock - a.2.2 → ∃ t : State,
      exec (.domainRendezvousTimeout x) s = .next t ∧ told t a.2.1.pkg ∧ t.fab.arrivals = s.fab.arrivals.filter fun e => e.1 != x) ∧
    ∀ a d, c.walk = .meet a → c.domain = some d → d.coordinator = s.ctl.pkg → 2 ^ 32 ≤ s.clock - d.since → ∃ t : State,
      exec (.domainRendezvousTimeout x) s = .next t ∧ (t.ctx x).walk = .none ∧ ∀ k ∈ d.met, k ≠ s.ctl.pkg → told t k) ∧
  ∀ (s : State) (x : CtxId) (a : DWord) (n : Node) (g : Nat) (l : Launch) (r : List Byte), s.nodeAt x a = some n → n.kind = 1 →
    n.lv = .domain → s.groupCount x n = some g → s.launchAt x n.obj n.args = some l → s.ctlRead x n.list 128 = some r →
    (∀ d, d < 8 → ∃ c, c < 8 ∧ s.usable x (8 * d + c) = true) → s.ctl.pkg ∈ setOf r →
    let set := setOf r
    let place := (set.filter fun k => k.val < s.ctl.pkg.val).length
    ∃ p : Phase, ((s.runNode x a).ctx x).phases = (s.ctx x).phases ++ [p] ∧ p.level = .domain ∧ p.num = (s.ctx x).nextPhase ∧
      p.base = s.mem ∧ ((s.runNode x a).ctx x).walk = .visit n.next ∧
      ∀ k, k < g → (k % set.length = place ↔ ∃ q ∈ p.queues, ∃ j, q.lo ≤ j ∧ j < q.hi ∧ q.off + q.stride * j = k ∧
        q.die.val = k / set.length % 8)) ∧
  (∀ (s : State) (x : CtxId) (d : Domain) (inbox : List (Fin 1024 × CtxId × Msg)), (s.ctx x).domain = some d →
    let c := s.ctx x
    let own := s.ctl.pkg
    let s1 : State := { s with fab := { s.fab with inbox := inbox } }
    let sent (t : State) (k : Fin 1024) (m : Msg) : Prop :=
      ∃ e ∈ t.fab.sent.map (·.2) ++ t.fab.waits, e.spkg = own ∧ e.dpkg = k ∧ e.body = .msg x m
    (∀ p, c.domainPhase = some p →
      let simple : Prop := s.leftOver x p = false ∧ p.items = [] ∧ anySets p.writes = [] ∧ s.badSectors = []
      let r := landAll p.base [] p.writes
      let outside (a : Nat) : Prop := a < c.csb.toNat ∨ c.csb.toNat + 0x2358 ≤ a
      let gone (t : State) : Prop := (t.ctx x).phases = c.phases.filter fun q => q.num != p.num
      let commits (t : State) : Prop :=
        (∀ a, outside a → t.mem.get unwritten a =
          if p.writes.any fun w => decide (w.addr ≤ a) && decide (a < w.addr + w.bytes.length) then r.mem.get unwritten a
          else s.mem.get unwritten a) ∧
        (t.ctx x).lastPhase = p.num ∧ gone t ∧ ∃ e, (t.ctx x).domain = some e ∧ e.decided = some true ∧ e.set = d.set
      let discards (t : State) : Prop := (∀ a, outside a → t.mem.get unwritten a = s.mem.get unwritten a) ∧ gone t
      let yes : Prop := ∀ v ∈ d.votes, v.2 = true
      (d.decided = none → d.set ≠ [own] → (∀ v ∈ d.votes, v.1 ≠ own) → s.ended x p = true → c.cstate ≠ .halted →
        ∃ (t : State) (v : Bool), exec (.domainVote x own false) s = .next t ∧ (t.ctx x).domain = some { d with votes := (own, v) :: d.votes } ∧
        (simple → (v = true ↔ r.faults = [])) ∧ (d.coordinator ≠ own → sent t d.coordinator (.vote d.stamp v))) ∧
      (d.decided = none → d.votes = [(own, true)] → d.set ≠ [own] → simple → s.ended x p = true →
        (r.faults = [] → exec (.domainVote x own false) s = .next s) ∧
        (r.faults ≠ [] → ∃ t : State, exec (.domainVote x own false) s = .next t ∧ (t.ctx x).domain = some { d with votes := [(own, false)] } ∧
          (d.coordinator ≠ own → sent t d.coordinator (.vote d.stamp false)))) ∧
      (∀ k, k ≠ own → k ∈ d.set → d.coordinator = own →
        (d.decided ≠ none → exec (.domainVote x k true) s = .next s) ∧
        (d.decided = none → s.allVoted x d = false → ∃ t : State, exec (.domainVote x k true) s = .next t ∧ discards t ∧
          ∀ j ∈ d.set, j ≠ own → sent t j (.decision d.stamp false))) ∧
      (d.coordinator = own → d.decided = none → d.set ≠ [own] → d.voted = true →
        (yes → simple → ∃ t : State, exec (.domainDecision x) s = .next t ∧ commits t ∧ ∀ k ∈ d.set, k ≠ own → sent t k (.decision d.stamp true)) ∧
        (¬ yes → ∃ t : State, exec (.domainDecision x) s = .next t ∧ discards t ∧ ∀ k ∈ d.set, k ≠ own → sent t k (.decision d.stamp false))) ∧
      (d.coordinator ≠ own → d.decided = none →
        (s.fab.inbox = (d.coordinator, x, .decision d.stamp true) :: inbox → simple → ∃ t : State,
          exec (.domainDecisionReceipt x true) s = .next t ∧ commits t ∧ sent t d.coordinator (.done d.stamp)) ∧
        (s.fab.inbox = (d.coordinator, x, .decision d.stamp false) :: inbox → ∃ t : State,
          exec (.domainDecisionReceipt x false) s = .next t ∧ discards t))) ∧
    (d.coordinator = own → (d.decided ≠ none ∨ d.voted = false) → exec (.domainDecision x) s = .next s) ∧
    (∀ n commit, s.fab.inbox = (d.coordinator, x, .decision n commit) :: inbox → n ≠ d.stamp →
      exec (.domainDecisionReceipt x commit) s = .next s1) ∧
    (∀ k n ok, k ≠ own → s.fab.inbox = (k, x, .vote n ok) :: inbox → d.coordinator = own → d.decided = none → k ∈ d.set →
      exec (.domainVote x k false) s = if d.voted ∨ n ≠ d.stamp then .next s1
        else .next (s1.setCtx x { c with domain := some { d with votes := (k, ok) :: d.votes.filter fun v => v.1 != k } })) ∧
    (d.coordinator = own →
      let said (k : Fin 1024) : Prop := k ∈ d.done ∨ ∃ e ∈ s.fab.inbox, e.1 = k ∧ e.2.1 = x ∧ e.2.2 = .done d.stamp
      (d.decided = some true → (∀ k ∈ d.set, said k) → ∃ t : State, exec (.domainRelease x) s = .next t ∧
        (t.ctx x).domain = none ∧ (t.ctx x).phases = c.phases ∧ ∀ k ∈ d.set, k ≠ own → sent t k (.release d.stamp)) ∧
      ((d.decided ≠ some true ∨ ∃ k ∈ d.set, ¬ said k) → ∃ (t : State) (e : Domain), exec (.domainRelease x) s = .next t ∧
        (t.ctx x).domain = some e ∧ e = { d with done := e.done } ∧ ∀ k, k ∈ e.done ↔ said k)) ∧
    (d.coordinator ≠ own → d.decided = some true → ∀ k, s.fab.inbox = (k, x, .release d.stamp) :: inbox → ∃ t : State,
      exec (.domainRelease x) s = .next t ∧ (t.ctx x).domain = none ∧ (t.ctx x).phases = c.phases))

/-! ## Decoding (02) -/

/-- Words that the manual's chapters write out, by their bits 63 to 0, 95 to 64 and 127 to 96, each with its instruction. -/
def Obligations.DecodesTheSpecsWords : Prop :=
  ∀ e ∈ ([
    (0x0000402004032880, 0, 0, .add { msk := 5, d := 3, a := 1, b := 2, fa := .i32, sat := false, om := 0 }),
    (0x0280402004032880, 0, 0, .add { msk := 5, d := 3, a := 1, b := 2, fa := .i32, sat := true, om := 4 }),
    (0x00058020_10061A86, 0x40, 0,
      .st { msk := 3, src := 6, addr := { base := some 2, ix := .v32 4, off := 0x40 }, fa := .none, sub := .full, rule := .sum, land := 1 }),
    (0xFC000200000401BC, 0, 0, .sli { msk := 0, d := 4, pos := 2, imm := 0x1F8000 }),
    (0x0724000010050260, 0, 0, .fcvt { msk := 0, d := 5, a := 4, tgt := .k8tx4, pos := 3, rnd := .rne }),
    (0x4200001004010300, 0, 0, .vget { msk := 0, d := 1, a := 1, mode := .dn 1, z := false, add := true, vm := 0, fa := .none }),
    (0x4900000024152B1D, 0, 0, .vargmin { msk := 5, d := .u 21, a := 9, q := some 1, fa := .none }),
    (0x000000005C14002E, 0x34, 0x2C0004, .hpush { msk := 0, eff := 4, handler := 0x34, elen := 0x2C, tk := 20, hl := 23 }),
    (0x81880000_2C0A038A, 0xC0, 0x20008,
      .cpyg { msk := 0, d := 10, ix := 11, src := some 0, off := 0xC0, fa := .none, rule := .fault, land := 2, n := 12, len := 8, stride4 := 2 }),
    (0x8064510000090412, 0, 0,
      .mloop { msk := 0, cls := .i8, sp := some 9, z := true, desc := 16, low := false, land := 1 }),
    (0x000000100801_04A5, 0x3F000070, 0, .xadm { msk := 0, d := 1, a := 2, b := 1, c := 112, theta := 0x0FC000, z := false }),
    (0x0004004008080502, 0x40, 0, .wapp { msk := 0, item := 8, base := some 4, off := 0x40, dst := .reg 2 })] :
      List (Nat × Nat × Nat × Instr)),
    (decode 1024 (e.1 + e.2.1 * 2 ^ 64 + e.2.2.1 * 2 ^ 96)).toOption = some e.2.2.2

/-- R39 to R57: every well-formed instruction has a word of at most 128 bits, and it decodes to that instruction; every word that
decodes at all is the word of a well-formed instruction, by the bits that its length names. -/
def Obligations.DecodeAndEncodeAgree : Prop :=
  ∀ v : Nat, v ≤ 1024 →
    (∀ i : Instr, wf v i = true → i.isWord = true → ∃ w, encode i = some w ∧ w < 2 ^ 128 ∧ decode v w = .ok i) ∧
    ∀ (w : Nat) (i : Instr), decode v w = .ok i → wf v i = true ∧ i.isWord = true ∧ encode i = some (w % 2 ^ (8 * wordLen w))

/-- R53, R55: the order of the first checks. A misaligned program counter and a word across a fetch boundary come before anything in the word;
four bytes before a boundary, where every length crosses it, before the page is looked at; then LEN, the opcode, the length, and bit 15. The effect is raised in every live slot, whatever the mask; after `e.ill` the
continuation is the word that follows, after `e.fetch` the word itself. That a program counter from 2^52 on has no executable page is log 12,
and that a page is fetched by its X alone, and the word of a HOST-IN page from host memory as it stands, is log 29. -/
def Obligations.IllegalWords : Prop :=
  (∀ v w : Nat,
    let opc := w / 4 % 512
    let size := if w % 4 = 1 then 12 else if w % 4 = 2 then 16 else 8
    let used := w % 2 ^ (8 * size)
    let defined : Prop := opc % 32 < [20, 32, 10, 20, 29, 6, 14, 7, 10, 10, 2].getD (opc / 32) 0
    decode v w = decode v used ∧
    (w % 4 = 3 → decode v w = .error .len) ∧ (w % 4 ≠ 3 → ¬ defined → decode v w = .error .unassigned) ∧
    (w % 4 ≠ 3 → defined →
      (opc = 0 → used / 4 = 0 → decode v w = .ok (if size = 8 then .nop else if size = 12 then .nop96 else .nop128)) ∧
      (opc = 0 → used / 4 ≠ 0 → decode v w = .error .unused) ∧ (opc ≠ 0 → size ≠ opLen opc → decode v w = .error .badLen) ∧
      (opc ≠ 0 → size = opLen opc → w.testBit 15 = true → decode v w = .error .unused))) ∧
  ∀ (s : State) (k : Nat), s.runnable k = true → s.busy k = false →
    let t := s.team k
    let b : State := { s with cur := k, seq := s.seq + 1 }
    let from_ : State := b.touch (coreOf k) t.pc
    let raisesIn (b : State) (e : Nat) (payload pc : DWord) : Prop := ∃ u : Team, issue s k = .next ((b.setTeam k u).deliver k) ∧
      u = { t with pc := u.pc, raised := u.raised } ∧ u.effects = (t.lanes t.live).map fun i => (i, e, payload, pc)
    let raises := raisesIn from_
    (t.pc.toNat % 4 ≠ 0 → raisesIn b 2 (t.pc <<< 8 ||| 1) t.pc) ∧
    (t.pc.toNat % 32 = 28 → raisesIn b 2 (t.pc <<< 8 ||| 2) t.pc) ∧
    (t.pc.toNat % 4 = 0 → t.pc.toNat % 32 ≠ 28 → 2 ^ 52 ≤ t.pc.toNat → raisesIn b 2 (t.pc <<< 8 ||| 3) t.pc) ∧
    (t.pc.toNat % 4 = 0 → t.pc.toNat % 32 ≠ 28 → t.pc.toNat < 2 ^ 52 → s.translate (coreOf k) t.pc.toNat = .miss → raises 6 t.pc t.pc) ∧
    ∀ p, t.pc.toNat % 4 = 0 → t.pc.toNat % 32 ≠ 28 → t.pc.toNat < 2 ^ 52 → s.translate (coreOf k) t.pc.toNat = .leaf p →
      let pa := ptePa p t.pc.toNat
      s.paOk (s.core (coreOf k)).ctx p pa = true → (pteScope p = 4 → (s.hostPage (pa / 2 ^ 16)).isSome = true) →
      s.farKnown (coreOf k) p pa 1 = true → s.badRead (.page p pa) 1 = none →
      let bytes (n : Nat) : List Byte := if pteScope p = 4
        then readBytes s.host ((s.hostPage (pa / 2 ^ 16)).getD 0 * 2 ^ 16 + pa % 2 ^ 16) n
        else readBytes (s.baseOf (coreOf k)) (s.devKey p pa) n
      let len := wordLen (leNat (bytes 1))
      (32 < t.pc.toNat % 32 + len → raises 2 (t.pc <<< 8 ||| 2) t.pc) ∧
      (t.pc.toNat % 32 + len ≤ 32 → pteX p = false → raises 2 (t.pc <<< 8 ||| 3) t.pc) ∧
      ∀ e, t.pc.toNat % 32 + len ≤ 32 → pteX p = true →
        decode (s.core (coreOf k)).launch.vregs (leNat (bytes len)) = .error e →
        raises 1 (t.pc <<< 8 ||| BitVec.ofNat 64 e.code) (t.pc + BitVec.ofNat 64 len)

/-! ## The step, reset, and the whole machine -/

/-- R41, R42: when a team that may issue is next, and the bytes at its program counter, as they stood in an executable page at the start of
its phase, within a fetch block, decode to an instruction, the step is what that instruction does to the team; a memory instruction waits while the
16 entries of the team's operand log are in use (R248). A clock has passed, and
the core counts the errors that its reads have met (R264; when it counts them is log 18). The bytes of a HOST-IN page are those that host memory
holds (log 29). The step of an event on the agenda is what the event does; a clock of a
partition puts what issues in it next. -/
def Obligations.StepRunsTheDecodedInstruction : Prop :=
  (∀ (s : State) (k : Nat) (r : List Act) (p : DWord) (i : Instr), s.agenda = .issue k :: r → s.runnable k = true → s.busy k = false →
    let c := s.core (coreOf k)
    let now : State := { s with clock := s.clock + 1, agenda := r }.setCore (coreOf k)
      { c with corrected := c.corrected + Config.readErrors (s.clock + 1) (coreOf k) }
    let b : State := { now with cur := k, seq := s.seq + 1 }
    let pc := (s.team k).pc
    let pa := ptePa p pc.toNat
    let bytes (n : Nat) : List Byte := if pteScope p = 4
      then readBytes s.host ((s.hostPage (pa / 2 ^ 16)).getD 0 * 2 ^ 16 + pa % 2 ^ 16) n
      else readBytes (s.baseOf (coreOf k)) (s.devKey p pa) n
    let len := wordLen (leNat (bytes 1))
    pc.toNat % 4 = 0 → pc.toNat < 2 ^ 52 → s.translate (coreOf k) pc.toNat = .leaf p → s.paOk c.ctx p pa = true →
    (pteScope p = 4 → (s.hostPage (pa / 2 ^ 16)).isSome = true) → s.farKnown (coreOf k) p pa 1 = true → s.badRead (.page p pa) 1 = none →
    pteX p = true → pc.toNat % 32 + len ≤ 32 → decode c.launch.vregs (leNat (bytes len)) = .ok i →
    let from_ : State := b.touch (coreOf k) pc
    let bars : Prop := isMemory i = true ∧ 16 ≤ (s.team k).log.length
    (¬ bars → step s = exec i (from_.putTm { from_.tm with stuck := false })) ∧ (bars → step s = .next b)) ∧
  (∀ (s : State) (i : Instr) (r : List Act), s.agenda = .event i :: r → i.isWord = false →
    step s = exec i { s with clock := s.clock + 1, agenda := r }) ∧
  ∀ (s : State) (core part : Nat) (r : List Act), s.agenda = .clock core part :: r →
    step s = act (.clock core part) { s with clock := s.clock + 1, agenda := r }

/-- R430, R381, Tables 3-3, 24-3 and 24-4: right after reset the control die is in STATE 0, every context is idle with no phase, no team
is resident and nothing is queued; partition 0 owns the device and the others nothing (their power caps are log 7, and device memory is empty by log 6). What happens next is the boot ROM's bring-up. A
vacant team has the initial values of Table 3-3.

Both memories have their canonical form at reset (that device memory is empty then is the model's choice, log 6). -/
def Obligations.ResetState : Prop :=
  (let s := State.reset
  s.ctl.state = 0 ∧ s.ctl.failed = 0 ∧ s.ctl.cmdErr = false ∧ (∀ x : CtxId, (s.ctx x).cstate = .idle ∧ (s.ctx x).phases = [] ∧
    (s.ctx x).walk = .none) ∧ s.teams = [] ∧ s.posts = [] ∧ (∀ k, (s.core k).grp = none) ∧ (∀ cl, (s.cluster cl).grp = none) ∧
  s.windows = [] ∧ s.partBlk 0 = PartBlk.all ∧ (∀ k, k ≠ 0 → s.partBlk k = PartBlk.none) ∧
  step s = exec .reset { s with clock := 1 } ∧
  (let t := Team.vacant
   (∀ r i, t.rd r i = 0) ∧ (∀ r, t.tagOf r = .none) ∧ (∀ r : MReg, t.m[r] = 0) ∧ (∀ q : QReg, t.q[q] = false) ∧
   t.h = [] ∧ t.div = [] ∧ t.fflags = 0 ∧ t.fen = 0x20 ∧ t.round = 1 ∧ t.seed = 0 ∧ t.vstat = 0 ∧ t.pend = [])) ∧
  (State.reset.canonical)

/-- Device memory and host memory keep their canonical form, whatever happens next. -/
def Obligations.MemoryStaysCanonical : Prop :=
  ∀ s t : State, step s = .next t → s.canonical → t.canonical

/-- R431, R432: nothing but reset and the loss of power changes a measurement register, and the monotonic counter moves only when a report is
made, by one. -/
def Obligations.MeasurementsStand : Prop :=
  ∀ (i : Instr) (s t : State), exec i s = .next t →
    (i ≠ .reset → i ≠ .powerLoss → t.ctl.meas = s.ctl.meas) ∧
    (t.ctl.leaf = s.ctl.leaf ∨ i = .attestReportDone true ∧ t.ctl.leaf = s.ctl.leaf + 1)
end

