-- ==== Sys2Proof/Laws/Fabric.lean ====
section
/-! SUPPORT. What putting packets into the fabric does: it changes the fabric's state and the counter of the free values, and nothing
else. -/
namespace Sys2Proof.Machine

theorem State.sendOrWait_frame (s : State) (p : FabPkt) : ∃ f n, s.sendOrWait p = { s with fab := f, free := n } := by
  unfold State.sendOrWait State.sendBy
  split
  case h_1 t h =>
    obtain ⟨q, -, rfl⟩ := Option.map_eq_some_iff.mp h
    exact ⟨_, _, rfl⟩
  case h_2 => exact ⟨_, _, rfl⟩

theorem State.toPackage_frame (s : State) (cls : Fin 3) (pkg : Fin 1024) (b : FabBody) :
    ∃ f n, s.toPackage cls pkg b = { s with fab := f, free := n } := by
  obtain ⟨f, n, h⟩ := State.sendOrWait_frame
    { s with fab := { s.fab with next := s.fab.next.put (flowKey cls pkg) (s.fab.next.get 0 (flowKey cls pkg) + 1) } }
    { hops := 8, cls := cls, spkg := s.ctl.pkg, dpkg := pkg, seq := s.fab.next.get 0 (flowKey cls pkg), body := b }
  exact ⟨f, n, h⟩

theorem State.tell_frame (s : State) (x : CtxId) (pkg : Fin 1024) (m : Msg) : ∃ f n, s.tell x pkg m = { s with fab := f, free := n } :=
  State.toPackage_frame s 0 pkg (.msg x m)

/-- The same message to each of some packages. -/
theorem State.tells_frame (l : List (Fin 1024)) (s : State) (x : CtxId) (m : Msg) :
    ∃ f n, l.foldl (fun s k => s.tell x k m) s = { s with fab := f, free := n } := by
  induction l generalizing s with
  | nil => exact ⟨_, _, rfl⟩
  | cons k r ih =>
    obtain ⟨f, n, h⟩ := s.tell_frame x k m
    obtain ⟨g, j, hr⟩ := ih (s.tell x k m)
    exact ⟨g, j, by rw [List.foldl_cons, hr, h]⟩

end Sys2Proof.Machine
end

