-- ==== Sys2Proof/Laws/Sparse.lean ====
section
/-! SUPPORT. The laws of sparse total maps: a read after a write, and that writes keep the canonical form. -/
namespace Sys2Proof

variable {α : Type}

theorem SMap.get_del_same (d : α) (m : SMap α) (k : Nat) : (m.del k).get d k = d := by
  induction m with
  | nil => rfl
  | cons p r ih =>
    obtain ⟨j, v⟩ := p
    by_cases h : j = k <;> simp [SMap.del, SMap.get, h, ih]

theorem SMap.get_del_other (d : α) (m : SMap α) (k j : Nat) (h : j ≠ k) : (m.del k).get d j = m.get d j := by
  induction m with
  | nil => rfl
  | cons p r ih =>
    obtain ⟨i, v⟩ := p
    by_cases hi : i = k
    · simp [SMap.del, SMap.get, hi, Ne.symm h, ih]
    · simp [SMap.del, SMap.get, hi, ih]

/-- Reading after an insertion at a key the map does not list. -/
theorem SMap.get_ins_other (d : α) (m : SMap α) (k j : Nat) (v : α) (h : j ≠ k) :
    (m.ins k v).get d j = m.get d j := by
  induction m with
  | nil => simp [SMap.ins, SMap.get, Ne.symm h]
  | cons p r ih =>
    obtain ⟨i, w⟩ := p
    by_cases hk : k < i
    · simp [SMap.ins, hk, SMap.get, Ne.symm h]
    · simp [SMap.ins, hk, SMap.get, ih]

/-- No entry of the map is at the key. -/
def SMap.lacks (m : SMap α) (k : Nat) : Prop := ∀ p ∈ m, p.1 ≠ k

theorem SMap.lacks_del (m : SMap α) (k : Nat) : (m.del k).lacks k := by
  induction m with
  | nil => simp [SMap.del, SMap.lacks]
  | cons p r ih =>
    obtain ⟨i, w⟩ := p
    by_cases hk : i = k
    · simpa [SMap.del, hk] using ih
    · intro q hq
      simp [SMap.del, hk] at hq
      rcases hq with rfl | hq
      · exact hk
      · exact ih q hq

theorem SMap.get_ins_same (d : α) (m : SMap α) (k : Nat) (v : α) (h : m.lacks k) : (m.ins k v).get d k = v := by
  induction m with
  | nil => simp [SMap.ins, SMap.get]
  | cons p r ih =>
    obtain ⟨i, w⟩ := p
    have hi : i ≠ k := h (i, w) (by simp)
    have hr : SMap.lacks r k := fun q hq => h q (by simp [hq])
    by_cases hk : k < i
    · simp [SMap.ins, hk, SMap.get]
    · simp [SMap.ins, hk, SMap.get, hi, ih hr]

@[simp] theorem SMap.get_put_same (d : α) (m : SMap α) (k : Nat) (v : α) : (m.put k v).get d k = v :=
  SMap.get_ins_same d _ k v (SMap.lacks_del m k)

theorem SMap.get_put_other (d : α) (m : SMap α) (k j : Nat) (v : α) (h : j ≠ k) :
    (m.put k v).get d j = m.get d j := by
  rw [SMap.put, SMap.get_ins_other d _ k j v h, SMap.get_del_other d m k j h]

variable [DecidableEq α]

/-- A read after a write to the same key gives the value written. -/
@[simp] theorem SMap.get_set_same (d : α) (m : SMap α) (k : Nat) (v : α) : (m.set d k v).get d k = v := by
  by_cases h : v = d
  · simp [SMap.set, h, SMap.get_del_same]
  · simp [SMap.set, h, SMap.get_ins_same d _ k v (SMap.lacks_del m k)]

/-- A write leaves every other key alone. -/
theorem SMap.get_set_other (d : α) (m : SMap α) (k j : Nat) (v : α) (h : j ≠ k) :
    (m.set d k v).get d j = m.get d j := by
  by_cases hv : v = d
  · simp [SMap.set, hv, SMap.get_del_other d m k j h]
  · simp [SMap.set, hv, SMap.get_ins_other d _ k j v h, SMap.get_del_other d m k j h]

theorem SMap.wfFrom_mono (d : α) (m : SMap α) (a b : Nat) (hab : a ≤ b) (h : SMap.wfFrom d b m = true) :
    SMap.wfFrom d a m = true := by
  cases m with
  | nil => rfl
  | cons p r =>
    obtain ⟨k, v⟩ := p
    simp [SMap.wfFrom] at h ⊢
    exact ⟨⟨Nat.le_trans hab h.1.1, h.1.2⟩, h.2⟩

theorem SMap.wfFrom_del (d : α) (m : SMap α) (lo k : Nat) (h : SMap.wfFrom d lo m = true) :
    SMap.wfFrom d lo (m.del k) = true := by
  induction m generalizing lo with
  | nil => rfl
  | cons p r ih =>
    obtain ⟨j, v⟩ := p
    simp [SMap.wfFrom] at h
    by_cases hj : j = k
    · simp [SMap.del, hj]
      exact SMap.wfFrom_mono d _ lo (j + 1) (by omega) (ih (j + 1) h.2)
    · simp [SMap.del, hj, SMap.wfFrom]
      exact ⟨h.1, ih (j + 1) h.2⟩

theorem SMap.wfFrom_ins (d : α) (m : SMap α) (lo k : Nat) (v : α) (hv : v ≠ d) (hlo : lo ≤ k) (hl : m.lacks k)
    (h : SMap.wfFrom d lo m = true) : SMap.wfFrom d lo (m.ins k v) = true := by
  induction m generalizing lo with
  | nil => simp [SMap.ins, SMap.wfFrom, hv, hlo]
  | cons p r ih =>
    obtain ⟨j, w⟩ := p
    have hj : j ≠ k := hl (j, w) (by simp)
    have hr : SMap.lacks r k := fun q hq => hl q (by simp [hq])
    simp [SMap.wfFrom] at h
    by_cases hk : k < j
    · have hs : k + 1 ≤ j := hk
      simp [SMap.ins, hk, SMap.wfFrom, hv, hlo, h, hs]
    · simp [SMap.ins, hk, SMap.wfFrom, h]
      exact ih (j + 1) (by omega) hr h.2

/-- A write keeps the canonical form. -/
theorem SMap.wf_set (d : α) (m : SMap α) (k : Nat) (v : α) (h : m.wf d = true) : (m.set d k v).wf d = true := by
  have hd := SMap.wfFrom_del d m 0 k h
  by_cases hv : v = d
  · simpa [SMap.set, hv, SMap.wf] using hd
  · simpa [SMap.set, hv, SMap.wf] using SMap.wfFrom_ins d _ 0 k v hv (by omega) (SMap.lacks_del m k) hd

end Sys2Proof
end

