-- ==== Sys2Proof/Laws/State.lean ====
section
/-! SUPPORT. One lemma for each field of the state, and of a team, under each update: what the update leaves alone, and what
a part reads as after it is replaced. -/
namespace Sys2Proof.Machine

/-! ## setTeam -/

section
variable (s : State) (k : Nat) (x : Team)
@[simp] theorem State.setTeam_hostData : (s.setTeam k x).hostData = s.hostData := rfl
@[simp] theorem State.setTeam_cur : (s.setTeam k x).cur = s.cur := rfl
@[simp] theorem State.setTeam_agenda : (s.setTeam k x).agenda = s.agenda := rfl
@[simp] theorem State.setTeam_free : (s.setTeam k x).free = s.free := rfl
@[simp] theorem State.setTeam_seq : (s.setTeam k x).seq = s.seq := rfl
@[simp] theorem State.setTeam_clock : (s.setTeam k x).clock = s.clock := rfl
@[simp] theorem State.setTeam_mem : (s.setTeam k x).mem = s.mem := rfl
@[simp] theorem State.setTeam_host : (s.setTeam k x).host = s.host := rfl
@[simp] theorem State.setTeam_posts : (s.setTeam k x).posts = s.posts := rfl
@[simp] theorem State.setTeam_badSectors : (s.setTeam k x).badSectors = s.badSectors := rfl
@[simp] theorem State.setTeam_cores : (s.setTeam k x).cores = s.cores := rfl
@[simp] theorem State.setTeam_clusters : (s.setTeam k x).clusters = s.clusters := rfl
@[simp] theorem State.setTeam_dies : (s.setTeam k x).dies = s.dies := rfl
@[simp] theorem State.setTeam_ctxs : (s.setTeam k x).ctxs = s.ctxs := rfl
@[simp] theorem State.setTeam_parts : (s.setTeam k x).parts = s.parts := rfl
@[simp] theorem State.setTeam_windows : (s.setTeam k x).windows = s.windows := rfl
@[simp] theorem State.setTeam_net : (s.setTeam k x).net = s.net := rfl
@[simp] theorem State.setTeam_fab : (s.setTeam k x).fab = s.fab := rfl
@[simp] theorem State.setTeam_ctl : (s.setTeam k x).ctl = s.ctl := rfl
end

/-! ## setCore -/

section
variable (s : State) (k : Nat) (x : CoreSt)
@[simp] theorem State.setCore_hostData : (s.setCore k x).hostData = s.hostData := rfl
@[simp] theorem State.setCore_cur : (s.setCore k x).cur = s.cur := rfl
@[simp] theorem State.setCore_agenda : (s.setCore k x).agenda = s.agenda := rfl
@[simp] theorem State.setCore_free : (s.setCore k x).free = s.free := rfl
@[simp] theorem State.setCore_seq : (s.setCore k x).seq = s.seq := rfl
@[simp] theorem State.setCore_clock : (s.setCore k x).clock = s.clock := rfl
@[simp] theorem State.setCore_mem : (s.setCore k x).mem = s.mem := rfl
@[simp] theorem State.setCore_host : (s.setCore k x).host = s.host := rfl
@[simp] theorem State.setCore_posts : (s.setCore k x).posts = s.posts := rfl
@[simp] theorem State.setCore_badSectors : (s.setCore k x).badSectors = s.badSectors := rfl
@[simp] theorem State.setCore_teams : (s.setCore k x).teams = s.teams := rfl
@[simp] theorem State.setCore_clusters : (s.setCore k x).clusters = s.clusters := rfl
@[simp] theorem State.setCore_dies : (s.setCore k x).dies = s.dies := rfl
@[simp] theorem State.setCore_ctxs : (s.setCore k x).ctxs = s.ctxs := rfl
@[simp] theorem State.setCore_parts : (s.setCore k x).parts = s.parts := rfl
@[simp] theorem State.setCore_windows : (s.setCore k x).windows = s.windows := rfl
@[simp] theorem State.setCore_net : (s.setCore k x).net = s.net := rfl
@[simp] theorem State.setCore_fab : (s.setCore k x).fab = s.fab := rfl
@[simp] theorem State.setCore_ctl : (s.setCore k x).ctl = s.ctl := rfl
end

/-! ## setCluster -/

section
variable (s : State) (k : Nat) (x : ClusterSt)
@[simp] theorem State.setCluster_hostData : (s.setCluster k x).hostData = s.hostData := rfl
@[simp] theorem State.setCluster_cur : (s.setCluster k x).cur = s.cur := rfl
@[simp] theorem State.setCluster_agenda : (s.setCluster k x).agenda = s.agenda := rfl
@[simp] theorem State.setCluster_free : (s.setCluster k x).free = s.free := rfl
@[simp] theorem State.setCluster_seq : (s.setCluster k x).seq = s.seq := rfl
@[simp] theorem State.setCluster_clock : (s.setCluster k x).clock = s.clock := rfl
@[simp] theorem State.setCluster_mem : (s.setCluster k x).mem = s.mem := rfl
@[simp] theorem State.setCluster_host : (s.setCluster k x).host = s.host := rfl
@[simp] theorem State.setCluster_posts : (s.setCluster k x).posts = s.posts := rfl
@[simp] theorem State.setCluster_badSectors : (s.setCluster k x).badSectors = s.badSectors := rfl
@[simp] theorem State.setCluster_teams : (s.setCluster k x).teams = s.teams := rfl
@[simp] theorem State.setCluster_cores : (s.setCluster k x).cores = s.cores := rfl
@[simp] theorem State.setCluster_dies : (s.setCluster k x).dies = s.dies := rfl
@[simp] theorem State.setCluster_ctxs : (s.setCluster k x).ctxs = s.ctxs := rfl
@[simp] theorem State.setCluster_parts : (s.setCluster k x).parts = s.parts := rfl
@[simp] theorem State.setCluster_windows : (s.setCluster k x).windows = s.windows := rfl
@[simp] theorem State.setCluster_net : (s.setCluster k x).net = s.net := rfl
@[simp] theorem State.setCluster_fab : (s.setCluster k x).fab = s.fab := rfl
@[simp] theorem State.setCluster_ctl : (s.setCluster k x).ctl = s.ctl := rfl
end

/-! ## setDie -/

section
variable (s : State) (k : Nat) (x : DieSt)
@[simp] theorem State.setDie_hostData : (s.setDie k x).hostData = s.hostData := rfl
@[simp] theorem State.setDie_cur : (s.setDie k x).cur = s.cur := rfl
@[simp] theorem State.setDie_agenda : (s.setDie k x).agenda = s.agenda := rfl
@[simp] theorem State.setDie_free : (s.setDie k x).free = s.free := rfl
@[simp] theorem State.setDie_seq : (s.setDie k x).seq = s.seq := rfl
@[simp] theorem State.setDie_clock : (s.setDie k x).clock = s.clock := rfl
@[simp] theorem State.setDie_mem : (s.setDie k x).mem = s.mem := rfl
@[simp] theorem State.setDie_host : (s.setDie k x).host = s.host := rfl
@[simp] theorem State.setDie_posts : (s.setDie k x).posts = s.posts := rfl
@[simp] theorem State.setDie_badSectors : (s.setDie k x).badSectors = s.badSectors := rfl
@[simp] theorem State.setDie_teams : (s.setDie k x).teams = s.teams := rfl
@[simp] theorem State.setDie_cores : (s.setDie k x).cores = s.cores := rfl
@[simp] theorem State.setDie_clusters : (s.setDie k x).clusters = s.clusters := rfl
@[simp] theorem State.setDie_ctxs : (s.setDie k x).ctxs = s.ctxs := rfl
@[simp] theorem State.setDie_parts : (s.setDie k x).parts = s.parts := rfl
@[simp] theorem State.setDie_windows : (s.setDie k x).windows = s.windows := rfl
@[simp] theorem State.setDie_net : (s.setDie k x).net = s.net := rfl
@[simp] theorem State.setDie_fab : (s.setDie k x).fab = s.fab := rfl
@[simp] theorem State.setDie_ctl : (s.setDie k x).ctl = s.ctl := rfl
end

/-! ## setCtx -/

section
variable (s : State) (k : Nat) (x : Ctx)
@[simp] theorem State.setCtx_hostData : (s.setCtx k x).hostData = s.hostData := rfl
@[simp] theorem State.setCtx_cur : (s.setCtx k x).cur = s.cur := rfl
@[simp] theorem State.setCtx_agenda : (s.setCtx k x).agenda = s.agenda := rfl
@[simp] theorem State.setCtx_free : (s.setCtx k x).free = s.free := rfl
@[simp] theorem State.setCtx_seq : (s.setCtx k x).seq = s.seq := rfl
@[simp] theorem State.setCtx_clock : (s.setCtx k x).clock = s.clock := rfl
@[simp] theorem State.setCtx_mem : (s.setCtx k x).mem = s.mem := rfl
@[simp] theorem State.setCtx_host : (s.setCtx k x).host = s.host := rfl
@[simp] theorem State.setCtx_posts : (s.setCtx k x).posts = s.posts := rfl
@[simp] theorem State.setCtx_badSectors : (s.setCtx k x).badSectors = s.badSectors := rfl
@[simp] theorem State.setCtx_teams : (s.setCtx k x).teams = s.teams := rfl
@[simp] theorem State.setCtx_cores : (s.setCtx k x).cores = s.cores := rfl
@[simp] theorem State.setCtx_clusters : (s.setCtx k x).clusters = s.clusters := rfl
@[simp] theorem State.setCtx_dies : (s.setCtx k x).dies = s.dies := rfl
@[simp] theorem State.setCtx_parts : (s.setCtx k x).parts = s.parts := rfl
@[simp] theorem State.setCtx_windows : (s.setCtx k x).windows = s.windows := rfl
@[simp] theorem State.setCtx_net : (s.setCtx k x).net = s.net := rfl
@[simp] theorem State.setCtx_fab : (s.setCtx k x).fab = s.fab := rfl
@[simp] theorem State.setCtx_ctl : (s.setCtx k x).ctl = s.ctl := rfl
end

/-! ## setPart -/

section
variable (s : State) (k : Nat) (x : PartBlk)
@[simp] theorem State.setPart_hostData : (s.setPart k x).hostData = s.hostData := rfl
@[simp] theorem State.setPart_cur : (s.setPart k x).cur = s.cur := rfl
@[simp] theorem State.setPart_agenda : (s.setPart k x).agenda = s.agenda := rfl
@[simp] theorem State.setPart_free : (s.setPart k x).free = s.free := rfl
@[simp] theorem State.setPart_seq : (s.setPart k x).seq = s.seq := rfl
@[simp] theorem State.setPart_clock : (s.setPart k x).clock = s.clock := rfl
@[simp] theorem State.setPart_mem : (s.setPart k x).mem = s.mem := rfl
@[simp] theorem State.setPart_host : (s.setPart k x).host = s.host := rfl
@[simp] theorem State.setPart_posts : (s.setPart k x).posts = s.posts := rfl
@[simp] theorem State.setPart_badSectors : (s.setPart k x).badSectors = s.badSectors := rfl
@[simp] theorem State.setPart_teams : (s.setPart k x).teams = s.teams := rfl
@[simp] theorem State.setPart_cores : (s.setPart k x).cores = s.cores := rfl
@[simp] theorem State.setPart_clusters : (s.setPart k x).clusters = s.clusters := rfl
@[simp] theorem State.setPart_dies : (s.setPart k x).dies = s.dies := rfl
@[simp] theorem State.setPart_ctxs : (s.setPart k x).ctxs = s.ctxs := rfl
@[simp] theorem State.setPart_windows : (s.setPart k x).windows = s.windows := rfl
@[simp] theorem State.setPart_net : (s.setPart k x).net = s.net := rfl
@[simp] theorem State.setPart_fab : (s.setPart k x).fab = s.fab := rfl
@[simp] theorem State.setPart_ctl : (s.setPart k x).ctl = s.ctl := rfl
end

/-! ## putTm -/

section
variable (s : State) (x : Team)
@[simp] theorem State.putTm_hostData : (s.putTm x).hostData = s.hostData := rfl
@[simp] theorem State.putTm_cur : (s.putTm x).cur = s.cur := rfl
@[simp] theorem State.putTm_agenda : (s.putTm x).agenda = s.agenda := rfl
@[simp] theorem State.putTm_free : (s.putTm x).free = s.free := rfl
@[simp] theorem State.putTm_seq : (s.putTm x).seq = s.seq := rfl
@[simp] theorem State.putTm_clock : (s.putTm x).clock = s.clock := rfl
@[simp] theorem State.putTm_mem : (s.putTm x).mem = s.mem := rfl
@[simp] theorem State.putTm_host : (s.putTm x).host = s.host := rfl
@[simp] theorem State.putTm_posts : (s.putTm x).posts = s.posts := rfl
@[simp] theorem State.putTm_badSectors : (s.putTm x).badSectors = s.badSectors := rfl
@[simp] theorem State.putTm_cores : (s.putTm x).cores = s.cores := rfl
@[simp] theorem State.putTm_clusters : (s.putTm x).clusters = s.clusters := rfl
@[simp] theorem State.putTm_dies : (s.putTm x).dies = s.dies := rfl
@[simp] theorem State.putTm_ctxs : (s.putTm x).ctxs = s.ctxs := rfl
@[simp] theorem State.putTm_parts : (s.putTm x).parts = s.parts := rfl
@[simp] theorem State.putTm_windows : (s.putTm x).windows = s.windows := rfl
@[simp] theorem State.putTm_net : (s.putTm x).net = s.net := rfl
@[simp] theorem State.putTm_fab : (s.putTm x).fab = s.fab := rfl
@[simp] theorem State.putTm_ctl : (s.putTm x).ctl = s.ctl := rfl
end

/-! ## putCr -/

section
variable (s : State) (x : CoreSt)
@[simp] theorem State.putCr_hostData : (s.putCr x).hostData = s.hostData := rfl
@[simp] theorem State.putCr_cur : (s.putCr x).cur = s.cur := rfl
@[simp] theorem State.putCr_agenda : (s.putCr x).agenda = s.agenda := rfl
@[simp] theorem State.putCr_free : (s.putCr x).free = s.free := rfl
@[simp] theorem State.putCr_seq : (s.putCr x).seq = s.seq := rfl
@[simp] theorem State.putCr_clock : (s.putCr x).clock = s.clock := rfl
@[simp] theorem State.putCr_mem : (s.putCr x).mem = s.mem := rfl
@[simp] theorem State.putCr_host : (s.putCr x).host = s.host := rfl
@[simp] theorem State.putCr_posts : (s.putCr x).posts = s.posts := rfl
@[simp] theorem State.putCr_badSectors : (s.putCr x).badSectors = s.badSectors := rfl
@[simp] theorem State.putCr_teams : (s.putCr x).teams = s.teams := rfl
@[simp] theorem State.putCr_clusters : (s.putCr x).clusters = s.clusters := rfl
@[simp] theorem State.putCr_dies : (s.putCr x).dies = s.dies := rfl
@[simp] theorem State.putCr_ctxs : (s.putCr x).ctxs = s.ctxs := rfl
@[simp] theorem State.putCr_parts : (s.putCr x).parts = s.parts := rfl
@[simp] theorem State.putCr_windows : (s.putCr x).windows = s.windows := rfl
@[simp] theorem State.putCr_net : (s.putCr x).net = s.net := rfl
@[simp] theorem State.putCr_fab : (s.putCr x).fab = s.fab := rfl
@[simp] theorem State.putCr_ctl : (s.putCr x).ctl = s.ctl := rfl
end

/-! ## A part after it is replaced -/

@[simp] theorem State.team_setTeam_same (s : State) (k : Nat) (x : Team) : (s.setTeam k x).team k = x :=
  SMap.get_put_same _ _ _ _
theorem State.team_setTeam_other (s : State) (k j : Nat) (x : Team) (h : j ≠ k) : (s.setTeam k x).team j = s.team j :=
  SMap.get_put_other _ _ _ _ _ h
@[simp] theorem State.core_setTeam (s : State) (k j : Nat) (x : Team) : (s.setTeam k x).core j = s.core j := rfl
@[simp] theorem State.cluster_setTeam (s : State) (k j : Nat) (x : Team) : (s.setTeam k x).cluster j = s.cluster j := rfl
@[simp] theorem State.die_setTeam (s : State) (k j : Nat) (x : Team) : (s.setTeam k x).die j = s.die j := rfl
@[simp] theorem State.ctx_setTeam (s : State) (k j : Nat) (x : Team) : (s.setTeam k x).ctx j = s.ctx j := rfl
@[simp] theorem State.partBlk_setTeam (s : State) (k j : Nat) (x : Team) : (s.setTeam k x).partBlk j = s.partBlk j := rfl
@[simp] theorem State.core_setCore_same (s : State) (k : Nat) (x : CoreSt) : (s.setCore k x).core k = x :=
  SMap.get_put_same _ _ _ _
theorem State.core_setCore_other (s : State) (k j : Nat) (x : CoreSt) (h : j ≠ k) : (s.setCore k x).core j = s.core j :=
  SMap.get_put_other _ _ _ _ _ h
@[simp] theorem State.team_setCore (s : State) (k j : Nat) (x : CoreSt) : (s.setCore k x).team j = s.team j := rfl
@[simp] theorem State.cluster_setCore (s : State) (k j : Nat) (x : CoreSt) : (s.setCore k x).cluster j = s.cluster j := rfl
@[simp] theorem State.die_setCore (s : State) (k j : Nat) (x : CoreSt) : (s.setCore k x).die j = s.die j := rfl
@[simp] theorem State.ctx_setCore (s : State) (k j : Nat) (x : CoreSt) : (s.setCore k x).ctx j = s.ctx j := rfl
@[simp] theorem State.partBlk_setCore (s : State) (k j : Nat) (x : CoreSt) : (s.setCore k x).partBlk j = s.partBlk j := rfl
@[simp] theorem State.cluster_setCluster_same (s : State) (k : Nat) (x : ClusterSt) : (s.setCluster k x).cluster k = x :=
  SMap.get_put_same _ _ _ _
theorem State.cluster_setCluster_other (s : State) (k j : Nat) (x : ClusterSt) (h : j ≠ k) : (s.setCluster k x).cluster j = s.cluster j :=
  SMap.get_put_other _ _ _ _ _ h
@[simp] theorem State.team_setCluster (s : State) (k j : Nat) (x : ClusterSt) : (s.setCluster k x).team j = s.team j := rfl
@[simp] theorem State.core_setCluster (s : State) (k j : Nat) (x : ClusterSt) : (s.setCluster k x).core j = s.core j := rfl
@[simp] theorem State.die_setCluster (s : State) (k j : Nat) (x : ClusterSt) : (s.setCluster k x).die j = s.die j := rfl
@[simp] theorem State.ctx_setCluster (s : State) (k j : Nat) (x : ClusterSt) : (s.setCluster k x).ctx j = s.ctx j := rfl
@[simp] theorem State.partBlk_setCluster (s : State) (k j : Nat) (x : ClusterSt) : (s.setCluster k x).partBlk j = s.partBlk j := rfl
@[simp] theorem State.die_setDie_same (s : State) (k : Nat) (x : DieSt) : (s.setDie k x).die k = x :=
  SMap.get_put_same _ _ _ _
theorem State.die_setDie_other (s : State) (k j : Nat) (x : DieSt) (h : j ≠ k) : (s.setDie k x).die j = s.die j :=
  SMap.get_put_other _ _ _ _ _ h
@[simp] theorem State.team_setDie (s : State) (k j : Nat) (x : DieSt) : (s.setDie k x).team j = s.team j := rfl
@[simp] theorem State.core_setDie (s : State) (k j : Nat) (x : DieSt) : (s.setDie k x).core j = s.core j := rfl
@[simp] theorem State.cluster_setDie (s : State) (k j : Nat) (x : DieSt) : (s.setDie k x).cluster j = s.cluster j := rfl
@[simp] theorem State.ctx_setDie (s : State) (k j : Nat) (x : DieSt) : (s.setDie k x).ctx j = s.ctx j := rfl
@[simp] theorem State.partBlk_setDie (s : State) (k j : Nat) (x : DieSt) : (s.setDie k x).partBlk j = s.partBlk j := rfl
@[simp] theorem State.ctx_setCtx_same (s : State) (k : Nat) (x : Ctx) : (s.setCtx k x).ctx k = x :=
  SMap.get_put_same _ _ _ _
theorem State.ctx_setCtx_other (s : State) (k j : Nat) (x : Ctx) (h : j ≠ k) : (s.setCtx k x).ctx j = s.ctx j :=
  SMap.get_put_other _ _ _ _ _ h
@[simp] theorem State.team_setCtx (s : State) (k j : Nat) (x : Ctx) : (s.setCtx k x).team j = s.team j := rfl
@[simp] theorem State.core_setCtx (s : State) (k j : Nat) (x : Ctx) : (s.setCtx k x).core j = s.core j := rfl
@[simp] theorem State.cluster_setCtx (s : State) (k j : Nat) (x : Ctx) : (s.setCtx k x).cluster j = s.cluster j := rfl
@[simp] theorem State.die_setCtx (s : State) (k j : Nat) (x : Ctx) : (s.setCtx k x).die j = s.die j := rfl
@[simp] theorem State.partBlk_setCtx (s : State) (k j : Nat) (x : Ctx) : (s.setCtx k x).partBlk j = s.partBlk j := rfl
@[simp] theorem State.partBlk_setPart_same (s : State) (k : Nat) (x : PartBlk) : (s.setPart k x).partBlk k = x :=
  SMap.get_put_same _ _ _ _
theorem State.partBlk_setPart_other (s : State) (k j : Nat) (x : PartBlk) (h : j ≠ k) : (s.setPart k x).partBlk j = s.partBlk j :=
  SMap.get_put_other _ _ _ _ _ h
@[simp] theorem State.team_setPart (s : State) (k j : Nat) (x : PartBlk) : (s.setPart k x).team j = s.team j := rfl
@[simp] theorem State.core_setPart (s : State) (k j : Nat) (x : PartBlk) : (s.setPart k x).core j = s.core j := rfl
@[simp] theorem State.cluster_setPart (s : State) (k j : Nat) (x : PartBlk) : (s.setPart k x).cluster j = s.cluster j := rfl
@[simp] theorem State.die_setPart (s : State) (k j : Nat) (x : PartBlk) : (s.setPart k x).die j = s.die j := rfl
@[simp] theorem State.ctx_setPart (s : State) (k j : Nat) (x : PartBlk) : (s.setPart k x).ctx j = s.ctx j := rfl

@[simp] theorem State.tm_putTm (s : State) (t : Team) : (s.putTm t).tm = t := SMap.get_put_same _ _ _ _
@[simp] theorem State.cr_putCr (s : State) (c : CoreSt) : (s.putCr c).cr = c := SMap.get_put_same _ _ _ _
@[simp] theorem State.cr_putTm (s : State) (t : Team) : (s.putTm t).cr = s.cr := rfl
@[simp] theorem State.tm_putCr (s : State) (c : CoreSt) : (s.putCr c).tm = s.tm := rfl
@[simp] theorem State.core_putTm (s : State) (t : Team) (k : Nat) : (s.putTm t).core k = s.core k := rfl
@[simp] theorem State.launch_putTm (s : State) (t : Team) : (s.putTm t).launch = s.launch := rfl
@[simp] theorem State.vregs_putTm (s : State) (t : Team) : (s.putTm t).vregs = s.vregs := rfl

/-! ## Team.setM -/

section
variable (t : Team) (r : MReg) (x : MaskBits)
@[simp] theorem Team.setM_resident : (t.setM r x).resident = t.resident := rfl
@[simp] theorem Team.setM_part : (t.setM r x).part = t.part := rfl
@[simp] theorem Team.setM_age : (t.setM r x).age = t.age := rfl
@[simp] theorem Team.setM_pass : (t.setM r x).pass = t.pass := rfl
@[simp] theorem Team.setM_promo : (t.setM r x).promo = t.promo := rfl
@[simp] theorem Team.setM_cap : (t.setM r x).cap = t.cap := rfl
@[simp] theorem Team.setM_formed : (t.setM r x).formed = t.formed := rfl
@[simp] theorem Team.setM_first : (t.setM r x).first = t.first := rfl
@[simp] theorem Team.setM_pc : (t.setM r x).pc = t.pc := rfl
@[simp] theorem Team.setM_wait : (t.setM r x).wait = t.wait := rfl
@[simp] theorem Team.setM_v : (t.setM r x).v = t.v := rfl
@[simp] theorem Team.setM_tag : (t.setM r x).tag = t.tag := rfl
@[simp] theorem Team.setM_s : (t.setM r x).s = t.s := rfl
@[simp] theorem Team.setM_q : (t.setM r x).q = t.q := rfl
@[simp] theorem Team.setM_x : (t.setM r x).x = t.x := rfl
@[simp] theorem Team.setM_h : (t.setM r x).h = t.h := rfl
@[simp] theorem Team.setM_div : (t.setM r x).div = t.div := rfl
@[simp] theorem Team.setM_remap : (t.setM r x).remap = t.remap := rfl
@[simp] theorem Team.setM_ctr : (t.setM r x).ctr = t.ctr := rfl
@[simp] theorem Team.setM_fflags : (t.setM r x).fflags = t.fflags := rfl
@[simp] theorem Team.setM_fen : (t.setM r x).fen = t.fen := rfl
@[simp] theorem Team.setM_round : (t.setM r x).round = t.round := rfl
@[simp] theorem Team.setM_seed : (t.setM r x).seed = t.seed := rfl
@[simp] theorem Team.setM_vstat : (t.setM r x).vstat = t.vstat := rfl
@[simp] theorem Team.setM_spill : (t.setM r x).spill = t.spill := rfl
@[simp] theorem Team.setM_mcEmpty : (t.setM r x).mcEmpty = t.mcEmpty := rfl
@[simp] theorem Team.setM_mcLoop : (t.setM r x).mcLoop = t.mcLoop := rfl
@[simp] theorem Team.setM_mcOutp : (t.setM r x).mcOutp = t.mcOutp := rfl
@[simp] theorem Team.setM_acb : (t.setM r x).acb = t.acb := rfl
@[simp] theorem Team.setM_acl : (t.setM r x).acl = t.acl := rfl
@[simp] theorem Team.setM_pend : (t.setM r x).pend = t.pend := rfl
@[simp] theorem Team.setM_log : (t.setM r x).log = t.log := rfl
@[simp] theorem Team.setM_traps : (t.setM r x).traps = t.traps := rfl
@[simp] theorem Team.setM_serving : (t.setM r x).serving = t.serving := rfl
@[simp] theorem Team.setM_raised : (t.setM r x).raised = t.raised := rfl
@[simp] theorem Team.setM_exited : (t.setM r x).exited = t.exited := rfl
@[simp] theorem Team.setM_stuck : (t.setM r x).stuck = t.stuck := rfl
end

/-! ## Team.setS -/

section
variable (t : Team) (r : UReg) (x : DWord)
@[simp] theorem Team.setS_resident : (t.setS r x).resident = t.resident := rfl
@[simp] theorem Team.setS_part : (t.setS r x).part = t.part := rfl
@[simp] theorem Team.setS_age : (t.setS r x).age = t.age := rfl
@[simp] theorem Team.setS_pass : (t.setS r x).pass = t.pass := rfl
@[simp] theorem Team.setS_promo : (t.setS r x).promo = t.promo := rfl
@[simp] theorem Team.setS_cap : (t.setS r x).cap = t.cap := rfl
@[simp] theorem Team.setS_formed : (t.setS r x).formed = t.formed := rfl
@[simp] theorem Team.setS_first : (t.setS r x).first = t.first := rfl
@[simp] theorem Team.setS_pc : (t.setS r x).pc = t.pc := rfl
@[simp] theorem Team.setS_wait : (t.setS r x).wait = t.wait := rfl
@[simp] theorem Team.setS_v : (t.setS r x).v = t.v := rfl
@[simp] theorem Team.setS_tag : (t.setS r x).tag = t.tag := rfl
@[simp] theorem Team.setS_m : (t.setS r x).m = t.m := rfl
@[simp] theorem Team.setS_q : (t.setS r x).q = t.q := rfl
@[simp] theorem Team.setS_x : (t.setS r x).x = t.x := rfl
@[simp] theorem Team.setS_h : (t.setS r x).h = t.h := rfl
@[simp] theorem Team.setS_div : (t.setS r x).div = t.div := rfl
@[simp] theorem Team.setS_remap : (t.setS r x).remap = t.remap := rfl
@[simp] theorem Team.setS_ctr : (t.setS r x).ctr = t.ctr := rfl
@[simp] theorem Team.setS_fflags : (t.setS r x).fflags = t.fflags := rfl
@[simp] theorem Team.setS_fen : (t.setS r x).fen = t.fen := rfl
@[simp] theorem Team.setS_round : (t.setS r x).round = t.round := rfl
@[simp] theorem Team.setS_seed : (t.setS r x).seed = t.seed := rfl
@[simp] theorem Team.setS_vstat : (t.setS r x).vstat = t.vstat := rfl
@[simp] theorem Team.setS_spill : (t.setS r x).spill = t.spill := rfl
@[simp] theorem Team.setS_mcEmpty : (t.setS r x).mcEmpty = t.mcEmpty := rfl
@[simp] theorem Team.setS_mcLoop : (t.setS r x).mcLoop = t.mcLoop := rfl
@[simp] theorem Team.setS_mcOutp : (t.setS r x).mcOutp = t.mcOutp := rfl
@[simp] theorem Team.setS_acb : (t.setS r x).acb = t.acb := rfl
@[simp] theorem Team.setS_acl : (t.setS r x).acl = t.acl := rfl
@[simp] theorem Team.setS_pend : (t.setS r x).pend = t.pend := rfl
@[simp] theorem Team.setS_log : (t.setS r x).log = t.log := rfl
@[simp] theorem Team.setS_traps : (t.setS r x).traps = t.traps := rfl
@[simp] theorem Team.setS_serving : (t.setS r x).serving = t.serving := rfl
@[simp] theorem Team.setS_raised : (t.setS r x).raised = t.raised := rfl
@[simp] theorem Team.setS_exited : (t.setS r x).exited = t.exited := rfl
@[simp] theorem Team.setS_stuck : (t.setS r x).stuck = t.stuck := rfl
end

/-! ## Team.setQ -/

section
variable (t : Team) (r : QReg) (x : Bool)
@[simp] theorem Team.setQ_resident : (t.setQ r x).resident = t.resident := rfl
@[simp] theorem Team.setQ_part : (t.setQ r x).part = t.part := rfl
@[simp] theorem Team.setQ_age : (t.setQ r x).age = t.age := rfl
@[simp] theorem Team.setQ_pass : (t.setQ r x).pass = t.pass := rfl
@[simp] theorem Team.setQ_promo : (t.setQ r x).promo = t.promo := rfl
@[simp] theorem Team.setQ_cap : (t.setQ r x).cap = t.cap := rfl
@[simp] theorem Team.setQ_formed : (t.setQ r x).formed = t.formed := rfl
@[simp] theorem Team.setQ_first : (t.setQ r x).first = t.first := rfl
@[simp] theorem Team.setQ_pc : (t.setQ r x).pc = t.pc := rfl
@[simp] theorem Team.setQ_wait : (t.setQ r x).wait = t.wait := rfl
@[simp] theorem Team.setQ_v : (t.setQ r x).v = t.v := rfl
@[simp] theorem Team.setQ_tag : (t.setQ r x).tag = t.tag := rfl
@[simp] theorem Team.setQ_s : (t.setQ r x).s = t.s := rfl
@[simp] theorem Team.setQ_m : (t.setQ r x).m = t.m := rfl
@[simp] theorem Team.setQ_x : (t.setQ r x).x = t.x := rfl
@[simp] theorem Team.setQ_h : (t.setQ r x).h = t.h := rfl
@[simp] theorem Team.setQ_div : (t.setQ r x).div = t.div := rfl
@[simp] theorem Team.setQ_remap : (t.setQ r x).remap = t.remap := rfl
@[simp] theorem Team.setQ_ctr : (t.setQ r x).ctr = t.ctr := rfl
@[simp] theorem Team.setQ_fflags : (t.setQ r x).fflags = t.fflags := rfl
@[simp] theorem Team.setQ_fen : (t.setQ r x).fen = t.fen := rfl
@[simp] theorem Team.setQ_round : (t.setQ r x).round = t.round := rfl
@[simp] theorem Team.setQ_seed : (t.setQ r x).seed = t.seed := rfl
@[simp] theorem Team.setQ_vstat : (t.setQ r x).vstat = t.vstat := rfl
@[simp] theorem Team.setQ_spill : (t.setQ r x).spill = t.spill := rfl
@[simp] theorem Team.setQ_mcEmpty : (t.setQ r x).mcEmpty = t.mcEmpty := rfl
@[simp] theorem Team.setQ_mcLoop : (t.setQ r x).mcLoop = t.mcLoop := rfl
@[simp] theorem Team.setQ_mcOutp : (t.setQ r x).mcOutp = t.mcOutp := rfl
@[simp] theorem Team.setQ_acb : (t.setQ r x).acb = t.acb := rfl
@[simp] theorem Team.setQ_acl : (t.setQ r x).acl = t.acl := rfl
@[simp] theorem Team.setQ_pend : (t.setQ r x).pend = t.pend := rfl
@[simp] theorem Team.setQ_log : (t.setQ r x).log = t.log := rfl
@[simp] theorem Team.setQ_traps : (t.setQ r x).traps = t.traps := rfl
@[simp] theorem Team.setQ_serving : (t.setQ r x).serving = t.serving := rfl
@[simp] theorem Team.setQ_raised : (t.setQ r x).raised = t.raised := rfl
@[simp] theorem Team.setQ_exited : (t.setQ r x).exited = t.exited := rfl
@[simp] theorem Team.setQ_stuck : (t.setQ r x).stuck = t.stuck := rfl
end

/-! ## Team.wr -/

section
variable (t : Team) (r i : Nat) (x : Word)
@[simp] theorem Team.wr_resident : (t.wr r i x).resident = t.resident := rfl
@[simp] theorem Team.wr_part : (t.wr r i x).part = t.part := rfl
@[simp] theorem Team.wr_age : (t.wr r i x).age = t.age := rfl
@[simp] theorem Team.wr_pass : (t.wr r i x).pass = t.pass := rfl
@[simp] theorem Team.wr_promo : (t.wr r i x).promo = t.promo := rfl
@[simp] theorem Team.wr_cap : (t.wr r i x).cap = t.cap := rfl
@[simp] theorem Team.wr_formed : (t.wr r i x).formed = t.formed := rfl
@[simp] theorem Team.wr_first : (t.wr r i x).first = t.first := rfl
@[simp] theorem Team.wr_pc : (t.wr r i x).pc = t.pc := rfl
@[simp] theorem Team.wr_wait : (t.wr r i x).wait = t.wait := rfl
@[simp] theorem Team.wr_tag : (t.wr r i x).tag = t.tag := rfl
@[simp] theorem Team.wr_s : (t.wr r i x).s = t.s := rfl
@[simp] theorem Team.wr_m : (t.wr r i x).m = t.m := rfl
@[simp] theorem Team.wr_q : (t.wr r i x).q = t.q := rfl
@[simp] theorem Team.wr_x : (t.wr r i x).x = t.x := rfl
@[simp] theorem Team.wr_h : (t.wr r i x).h = t.h := rfl
@[simp] theorem Team.wr_div : (t.wr r i x).div = t.div := rfl
@[simp] theorem Team.wr_remap : (t.wr r i x).remap = t.remap := rfl
@[simp] theorem Team.wr_ctr : (t.wr r i x).ctr = t.ctr := rfl
@[simp] theorem Team.wr_fflags : (t.wr r i x).fflags = t.fflags := rfl
@[simp] theorem Team.wr_fen : (t.wr r i x).fen = t.fen := rfl
@[simp] theorem Team.wr_round : (t.wr r i x).round = t.round := rfl
@[simp] theorem Team.wr_seed : (t.wr r i x).seed = t.seed := rfl
@[simp] theorem Team.wr_vstat : (t.wr r i x).vstat = t.vstat := rfl
@[simp] theorem Team.wr_spill : (t.wr r i x).spill = t.spill := rfl
@[simp] theorem Team.wr_mcEmpty : (t.wr r i x).mcEmpty = t.mcEmpty := rfl
@[simp] theorem Team.wr_mcLoop : (t.wr r i x).mcLoop = t.mcLoop := rfl
@[simp] theorem Team.wr_mcOutp : (t.wr r i x).mcOutp = t.mcOutp := rfl
@[simp] theorem Team.wr_acb : (t.wr r i x).acb = t.acb := rfl
@[simp] theorem Team.wr_acl : (t.wr r i x).acl = t.acl := rfl
@[simp] theorem Team.wr_pend : (t.wr r i x).pend = t.pend := rfl
@[simp] theorem Team.wr_log : (t.wr r i x).log = t.log := rfl
@[simp] theorem Team.wr_traps : (t.wr r i x).traps = t.traps := rfl
@[simp] theorem Team.wr_serving : (t.wr r i x).serving = t.serving := rfl
@[simp] theorem Team.wr_raised : (t.wr r i x).raised = t.raised := rfl
@[simp] theorem Team.wr_exited : (t.wr r i x).exited = t.exited := rfl
@[simp] theorem Team.wr_stuck : (t.wr r i x).stuck = t.stuck := rfl
end

/-! ## Team.setTag1 -/

section
variable (t : Team) (r : Nat) (f : Tag)
@[simp] theorem Team.setTag1_resident : (t.setTag1 r f).resident = t.resident := rfl
@[simp] theorem Team.setTag1_part : (t.setTag1 r f).part = t.part := rfl
@[simp] theorem Team.setTag1_age : (t.setTag1 r f).age = t.age := rfl
@[simp] theorem Team.setTag1_pass : (t.setTag1 r f).pass = t.pass := rfl
@[simp] theorem Team.setTag1_promo : (t.setTag1 r f).promo = t.promo := rfl
@[simp] theorem Team.setTag1_cap : (t.setTag1 r f).cap = t.cap := rfl
@[simp] theorem Team.setTag1_formed : (t.setTag1 r f).formed = t.formed := rfl
@[simp] theorem Team.setTag1_first : (t.setTag1 r f).first = t.first := rfl
@[simp] theorem Team.setTag1_pc : (t.setTag1 r f).pc = t.pc := rfl
@[simp] theorem Team.setTag1_wait : (t.setTag1 r f).wait = t.wait := rfl
@[simp] theorem Team.setTag1_v : (t.setTag1 r f).v = t.v := rfl
@[simp] theorem Team.setTag1_s : (t.setTag1 r f).s = t.s := rfl
@[simp] theorem Team.setTag1_m : (t.setTag1 r f).m = t.m := rfl
@[simp] theorem Team.setTag1_q : (t.setTag1 r f).q = t.q := rfl
@[simp] theorem Team.setTag1_x : (t.setTag1 r f).x = t.x := rfl
@[simp] theorem Team.setTag1_h : (t.setTag1 r f).h = t.h := rfl
@[simp] theorem Team.setTag1_div : (t.setTag1 r f).div = t.div := rfl
@[simp] theorem Team.setTag1_remap : (t.setTag1 r f).remap = t.remap := rfl
@[simp] theorem Team.setTag1_ctr : (t.setTag1 r f).ctr = t.ctr := rfl
@[simp] theorem Team.setTag1_fflags : (t.setTag1 r f).fflags = t.fflags := rfl
@[simp] theorem Team.setTag1_fen : (t.setTag1 r f).fen = t.fen := rfl
@[simp] theorem Team.setTag1_round : (t.setTag1 r f).round = t.round := rfl
@[simp] theorem Team.setTag1_seed : (t.setTag1 r f).seed = t.seed := rfl
@[simp] theorem Team.setTag1_vstat : (t.setTag1 r f).vstat = t.vstat := rfl
@[simp] theorem Team.setTag1_spill : (t.setTag1 r f).spill = t.spill := rfl
@[simp] theorem Team.setTag1_mcEmpty : (t.setTag1 r f).mcEmpty = t.mcEmpty := rfl
@[simp] theorem Team.setTag1_mcLoop : (t.setTag1 r f).mcLoop = t.mcLoop := rfl
@[simp] theorem Team.setTag1_mcOutp : (t.setTag1 r f).mcOutp = t.mcOutp := rfl
@[simp] theorem Team.setTag1_acb : (t.setTag1 r f).acb = t.acb := rfl
@[simp] theorem Team.setTag1_acl : (t.setTag1 r f).acl = t.acl := rfl
@[simp] theorem Team.setTag1_pend : (t.setTag1 r f).pend = t.pend := rfl
@[simp] theorem Team.setTag1_log : (t.setTag1 r f).log = t.log := rfl
@[simp] theorem Team.setTag1_traps : (t.setTag1 r f).traps = t.traps := rfl
@[simp] theorem Team.setTag1_serving : (t.setTag1 r f).serving = t.serving := rfl
@[simp] theorem Team.setTag1_raised : (t.setTag1 r f).raised = t.raised := rfl
@[simp] theorem Team.setTag1_exited : (t.setTag1 r f).exited = t.exited := rfl
@[simp] theorem Team.setTag1_stuck : (t.setTag1 r f).stuck = t.stuck := rfl
end

end Sys2Proof.Machine
end

