-- ==== Sys2Proof/Laws/Operands.lean ====
section
/-! SUPPORT. Laws of operands: slots and lanes, elements and tags after a write, the tag check and the interlock of an
instruction that meets nothing that holds it up. -/
namespace Sys2Proof.Machine

/-! ## Slots and lanes -/

theorem Team.mem_insLti (t : Team) (i j : Nat) (l : List Nat) : j ∈ t.insLti i l ↔ j = i ∨ j ∈ l := by
  induction l with
  | nil => simp [Team.insLti]
  | cons k r ih =>
    by_cases h : (t.lti i).toNat < (t.lti k).toNat
    · simp [Team.insLti, h]
    · simp only [Team.insLti, h, if_false, List.mem_cons, ih]
      constructor
      · rintro (h | h | h) <;> simp [h]
      · rintro (h | h | h) <;> simp [h]

theorem Team.mem_sortLti (t : Team) (j : Nat) (l : List Nat) : j ∈ t.sortLti l ↔ j ∈ l := by
  induction l with
  | nil => simp [Team.sortLti]
  | cons k r ih => simp [Team.sortLti, Team.mem_insLti, ih]

/-- The lanes of a mask are its slots, in another order. -/
@[simp] theorem Team.mem_lanes (t : Team) (x : MaskBits) (j : Nat) : j ∈ t.lanes x ↔ j ∈ t.slotsOf x :=
  Team.mem_sortLti t j _

theorem Team.lanes_isEmpty (t : Team) (x : MaskBits) : (t.lanes x).isEmpty = (t.slotsOf x).isEmpty := by
  cases h : t.lanes x with
  | nil =>
    cases h2 : t.slotsOf x with
    | nil => rfl
    | cons a r => have := (Team.mem_lanes t x a).2 (by simp [h2]); simp [h] at this
  | cons a r =>
    cases h2 : t.slotsOf x with
    | nil => have := (Team.mem_lanes t x a).1 (by simp [h]); simp [h2] at this
    | cons b q => rfl

theorem Team.slotsOf_lt (t : Team) (x : MaskBits) (i : Nat) (h : i ∈ t.slotsOf x) : i < 1024 := by
  simp only [Team.slotsOf, List.mem_filter] at h
  have := h.2
  cases Nat.lt_or_ge i 1024 with
  | inl h => exact h
  | inr h' => simp [BitVec.getLsbD_of_ge x i h'] at this

/-! ## Elements -/

theorem vkey_inj (r i q j : Nat) (hi : i < 1024) (hj : j < 1024) : vkey r i = vkey q j ↔ r = q ∧ i = j := by
  simp only [vkey]
  omega

/-- An element after a write of an element. -/
theorem Team.rd_wr (t : Team) (r i q j : Nat) (x : Word) (hi : i < 1024) (hj : j < 1024) :
    (t.wr r i x).rd q j = if q = r ∧ j = i then x else t.rd q j := by
  by_cases h : q = r ∧ j = i
  · obtain ⟨rfl, rfl⟩ := h
    simp [Team.rd, Team.wr]
  · have : vkey q j ≠ vkey r i := by
      intro e
      exact h ((vkey_inj q j r i hj hi).1 e)
    simp [Team.rd, Team.wr, SMap.get_set_other _ _ _ _ _ this, h]

/-! ## Tags -/

@[simp] theorem Team.tagOf_setTag1_same (t : Team) (r : Nat) (f : Tag) : (t.setTag1 r f).tagOf r = f := by
  simp [Team.tagOf, Team.setTag1]

theorem Team.tagOf_setTag1_other (t : Team) (r q : Nat) (f : Tag) (h : q ≠ r) : (t.setTag1 r f).tagOf q = t.tagOf q := by
  simp [Team.tagOf, Team.setTag1, SMap.get_set_other _ _ _ _ _ h]

theorem partnerOf_ne (r : Nat) : partnerOf r ≠ r := by
  unfold partnerOf
  split <;> omega

/-- R73, as `setTag` does it: a pair's destination is even. -/
theorem Team.setTag_retagged (t : Team) (d : Nat) (f : Tag) (h : f.pair = true → d % 2 = 0) :
    t.retagged (t.setTag d f) d f := by
  have hp : partnerOf d ≠ d := partnerOf_ne d
  unfold Team.setTag Team.retagged Team.unpair Team.putTag
  by_cases hf : f.pair = true
  · have hd := h hf
    have e : partnerOf d = d + 1 := by simp [partnerOf, hd]
    simp only [hf, if_true, Bool.not_true, Bool.false_and, Bool.false_eq_true, if_false]
    refine ⟨?_, ?_, ?_⟩
    · rw [Team.tagOf_setTag1_other _ _ _ _ (by omega)]; simp
    · rw [e]; simp
    · intro r h1 h2
      rw [Team.tagOf_setTag1_other _ _ _ _ (by omega), Team.tagOf_setTag1_other _ _ _ _ h1]
  · have e : (if d % 2 = 0 then d + 1 else d - 1) = partnerOf d := rfl
    simp only [hf, e, Bool.false_eq_true, if_false, Bool.not_false, Bool.true_and]
    by_cases hq : (t.tagOf d).pair = true
    · simp only [hq, if_true]
      refine ⟨by simp, ?_, ?_⟩
      · rw [Team.tagOf_setTag1_other _ _ _ _ hp]; simp
      · intro r h1 h2
        rw [Team.tagOf_setTag1_other _ _ _ _ h1, Team.tagOf_setTag1_other _ _ _ _ h2]
    · simp only [hq, Bool.false_eq_true, if_false]
      refine ⟨by simp, ?_, ?_⟩
      · simp [Team.tagOf_setTag1_other _ _ _ _ hp]
      · intro r h1 h2
        simp [Team.tagOf_setTag1_other _ _ _ _ h1]

/-! ## Checks that pass -/

theorem Team.typed_badWidth (t : Team) (fa f : Tag) (hf : f ≠ .none) (srcs : List VReg) (h : t.typed fa f srcs = true) :
    (srcs.map (·.val)).find? (fun r => badWidth fa false r (t.tagOf r)) = none := by
  simp only [List.find?_eq_none, List.mem_map]
  rintro _ ⟨r, hr, rfl⟩
  have := (List.all_eq_true.1 h) r hr
  simp only [Bool.and_eq_true] at this
  obtain ⟨h1, h2⟩ := this
  unfold badWidth
  by_cases ha : fa = .none
  · subst ha
    simp only [if_true, beq_iff_eq] at h1
    rw [h1]
    cases hp : f.pair <;> simp_all
  · simp only [ha, if_false, Bool.and_eq_true, beq_iff_eq] at h1 ⊢
    obtain ⟨rfl, h3⟩ := h1
    simp only [Bool.or_eq_true, beq_iff_eq] at h3
    cases hp : fa.pair <;> rcases h3 with h3 | h3 <;> simp_all

/-- R74: sources that hold the operation format pass, and it is the format found. -/
theorem Team.tagCheck_typed (t : Team) (fa f : Tag) (acc : Tag → Bool) (srcs : List VReg) (hs : srcs ≠ [])
    (hf : f ≠ .none) (ha : acc f = true) (h : t.typed fa f srcs = true) :
    t.tagCheck fa false acc (srcs.map (·.val)) = .ok f := by
  have hw := Team.typed_badWidth t fa f hf srcs h
  have hall := List.all_eq_true.1 h
  cases srcs with
  | nil => exact absurd rfl hs
  | cons r0 rest =>
    have h0 := hall r0 (by simp)
    simp only [List.map_cons] at hw ⊢
    unfold Team.tagCheck
    simp only [hw]
    by_cases hn : fa = .none
    · subst hn
      simp only [if_true, Bool.and_eq_true, beq_iff_eq] at h0 hall ⊢
      have e0 : t.tagOf r0 = f := h0.1
      have n1 : (↑r0 :: rest.map (·.val)).find? (fun r => t.tagOf r == .none) = none := by
        simp only [List.find?_eq_none]
        intro r hr
        have : ∃ q ∈ r0 :: rest, r = q.val := by
          simp only [List.mem_cons, List.mem_map] at hr ⊢
          rcases hr with rfl | ⟨q, hq, rfl⟩
          · exact ⟨r0, .inl rfl, rfl⟩
          · exact ⟨q, .inr hq, rfl⟩
        obtain ⟨q, hq, rfl⟩ := this
        simp [(hall q hq).1, hf]
      have n2 : (↑r0 :: rest.map (·.val)).find? (fun r => t.tagOf r != t.tagOf r0) = none := by
        simp only [List.find?_eq_none]
        intro r hr
        have : ∃ q ∈ r0 :: rest, r = q.val := by
          simp only [List.mem_cons, List.mem_map] at hr ⊢
          rcases hr with rfl | ⟨q, hq, rfl⟩
          · exact ⟨r0, .inl rfl, rfl⟩
          · exact ⟨q, .inr hq, rfl⟩
        obtain ⟨q, hq, rfl⟩ := this
        simp [(hall q hq).1, e0]
      rw [e0] at n2
      simp only [n1, n2, e0, ha, if_true]
    · simp only [hn, if_false, Bool.and_eq_true, beq_iff_eq] at h0 hall ⊢
      have n1 : (↑r0 :: rest.map (·.val)).find? (fun r => t.tagOf r != .none && t.tagOf r != fa) = none := by
        simp only [List.find?_eq_none]
        intro r hr
        have : ∃ q ∈ r0 :: rest, r = q.val := by
          simp only [List.mem_cons, List.mem_map] at hr ⊢
          rcases hr with rfl | ⟨q, hq, rfl⟩
          · exact ⟨r0, .inl rfl, rfl⟩
          · exact ⟨q, .inr hq, rfl⟩
        obtain ⟨q, hq, rfl⟩ := this
        have := (hall q hq).1
        obtain ⟨rfl, h2⟩ := this
        simp only [Bool.or_eq_true, beq_iff_eq] at h2
        rcases h2 with h2 | h2 <;> simp [h2]
      have e : fa = f := h0.1.1
      subst e
      simp only [n1, ha, if_true]

theorem pairDest_fits (vregs : Nat) (f : Tag) (d : VReg) (h : destFits vregs f d = true) : pairDest vregs f d = .ok f := by
  unfold destFits at h
  unfold pairDest
  cases hp : f.pair
  · simp
  · simp only [hp, Bool.not_true, Bool.false_or, Bool.and_eq_true, beq_iff_eq, decide_eq_true_eq] at h
    rw [if_neg (by omega)]

/-! ## The interlock -/

theorem Team.onV_nonePending (t : Team) (vs : List Nat) (us : List UReg) (h : t.nonePending vs us = true) (r : Nat)
    (hr : r ∈ vs) : ∀ p ∈ t.pend, p.onV r = false := by
  intro p hp
  have := (List.all_eq_true.1 h) p hp
  unfold Pend.onV
  cases hk : p.kept
  · simp
  · simp only [hk, Bool.not_true, Bool.false_or] at this
    cases hd : p.dst with
    | vec q hi =>
      simp only [hd, Bool.not_eq_true', List.contains_eq_mem, decide_eq_false_iff_not] at this
      simp only [Bool.true_and, beq_eq_false_iff_ne, ne_eq]
      rintro rfl
      exact this hr
    | uni q => simp

theorem Team.onU_nonePending (t : Team) (vs : List Nat) (us : List UReg) (h : t.nonePending vs us = true) (r : UReg)
    (hr : r ∈ us) : ∀ p ∈ t.pend, p.onU r = false := by
  intro p hp
  have := (List.all_eq_true.1 h) p hp
  unfold Pend.onU
  cases hk : p.kept
  · simp
  · simp only [hk, Bool.not_true, Bool.false_or] at this
    cases hd : p.dst with
    | vec q hi => simp
    | uni q =>
      simp only [hd, Bool.not_eq_true', List.contains_eq_mem, decide_eq_false_iff_not] at this
      simp only [Bool.true_and, beq_eq_false_iff_ne, ne_eq]
      rintro rfl
      exact this hr

/-- R78, R80: an instruction none of whose registers is pending goes. -/
theorem Team.interlock_go (t : Team) (x : MaskBits) (reads writes : VRefs) (us : List UReg) (vs : List Nat) (us' : List UReg)
    (h : t.nonePending vs us' = true) (hr : ∀ r ∈ reads.regs, r ∈ vs) (hw : ∀ r ∈ writes.regs, r ∈ vs)
    (hu : ∀ r ∈ us, r ∈ us') : t.interlock x reads us writes = .go := by
  have none (l : VRefs) (hl : ∀ r ∈ l.regs, r ∈ vs) (q : Pend → Bool) :
      ∀ r ∈ l.regs, (t.pend.any fun p => p.onV r && q p) = false := by
    intro r hr
    simp only [List.any_eq_false]
    intro p hp
    simp [Team.onV_nonePending t vs us' h r (hl r hr) p hp]
  have none' (l : VRefs) (hl : ∀ r ∈ l.regs, r ∈ vs) : (l.regs.any fun r => t.pend.any fun p => p.onV r) = false := by
    simp only [List.any_eq_false]
    intro r hr
    have := none l hl (fun _ => true) r hr
    simp only [Bool.and_true] at this
    simp [this]
  unfold Team.interlock
  have h1 : reads.regs.find? (fun r => t.pend.any fun p => p.onV r && p.atStep) = Option.none := by
    simp only [List.find?_eq_none]
    intro r hr'
    simp [none reads hr Pend.atStep r hr']
  have h2 : (us.any fun r => t.pend.any fun p => p.onU r) = false := by
    simp only [List.any_eq_false]
    intro r hr'
    simp only [Bool.not_eq_true, List.any_eq_false]
    intro p hp
    simp [Team.onU_nonePending t vs us' h r (hu r hr') p hp]
  have h3 : (writes.regs.any fun r => t.pend.any fun p => p.onV r && !p.atStep) = false := by
    simp only [List.any_eq_false]
    intro r hr'
    simp [none writes hw (fun p => !p.atStep) r hr']
  simp only [h1, none' reads hr, h2, h3, none' writes hw, Bool.or_false]
  simp

/-- A register that is not pending supersedes nothing (R78). -/
theorem Team.supersedeV_none (t : Team) (r : Nat) (h : ∀ p ∈ t.pend, p.onV r = false) : t.supersedeV r = t := by
  have : (t.pend.any fun p => p.onV r) = false := by
    simp only [List.any_eq_false]
    intro p hp
    simp [h p hp]
  simp [Team.supersedeV, this]

end Sys2Proof.Machine
end

