-- ==== Sys2Proof/Laws/Finish.lean ====
section
/-! SUPPORT. Laws of the end of a per-slot instruction: what `finish` does when no slot raises an effect, and what a guarded
instruction does when nothing holds it up. -/
namespace Sys2Proof.Machine

/-! ## Bits of masks -/

theorem getLsbD_oneBit (i j : Nat) : (oneBit i).getLsbD j = (decide (j < 1024) && decide (i = j)) := by
  rw [oneBit, BitVec.getLsbD_ofNat, Nat.testBit_two_pow]

theorem getLsbD_setBit (m : MaskBits) (i j : Nat) (b : Bool) (hi : i < 1024) :
    (setBit m i b).getLsbD j = if j = i then b else m.getLsbD j := by
  by_cases hj : j < 1024
  · have e : decide (i = j) = decide (j = i) := by simp [eq_comm]
    cases b <;> by_cases h : j = i <;>
      simp only [setBit, BitVec.getLsbD_or, BitVec.getLsbD_and, BitVec.getLsbD_not, getLsbD_oneBit, hi, hj, e, h, if_true, if_false,
        decide_true, decide_false, Bool.and_true, Bool.and_false, Bool.not_true, Bool.not_false, Bool.or_true, Bool.or_false,
        Bool.false_eq_true]
  · have : j ≠ i := by omega
    rw [if_neg this, BitVec.getLsbD_of_ge _ _ (by omega), BitVec.getLsbD_of_ge _ _ (by omega)]

theorem Team.getLsbD_capMask (t : Team) (j : Nat) : t.capMask.getLsbD j = (decide (j < 1024) && decide (j < t.cap)) := by
  simp [Team.capMask, BitVec.getLsbD_ofNat, Nat.testBit_two_pow_sub_one]

/-- A mask register after a write of a mask register: bits at and above the capacity read as zero (R65). -/
theorem Team.getLsbD_setM (t : Team) (r q : MReg) (x : MaskBits) (j : Nat) :
    (t.setM r x).m[q].getLsbD j = if q = r then (x.getLsbD j && decide (j < t.cap)) else t.m[q].getLsbD j := by
  by_cases h : q = r
  · subst h
    by_cases hj : j < 1024
    · have : (t.setM q x).m[q] = x &&& t.capMask := by simp [Team.setM]
      rw [this, BitVec.getLsbD_and, Team.getLsbD_capMask]
      simp only [hj, decide_true, Bool.true_and, if_true]
    · simp [BitVec.getLsbD_of_ge _ j (Nat.le_of_not_lt hj)]
  · have : r.val ≠ q.val := fun e => h (Fin.ext e.symm)
    simp [Team.setM, h, this]

/-! ## One slot's writes -/

/-- The last value that a list of writes gives a register. -/
def lastWrite (ws : List (Nat × Word)) (q : Nat) (x : Word) : Word := ws.foldl (fun y w => if w.1 = q then w.2 else y) x

theorem lastWrite_twice (ws : List (Nat × Word)) (q : Nat) (x : Word) : lastWrite ws q (lastWrite ws q x) = lastWrite ws q x := by
  have key : ∀ (ws : List (Nat × Word)), (∀ x y, lastWrite ws q x = lastWrite ws q y) ∨ ∀ x, lastWrite ws q x = x := by
    intro ws
    induction ws with
    | nil => exact .inr fun x => rfl
    | cons w r ih =>
      rcases ih with h | h
      · exact .inl fun x y => h _ _
      · by_cases hw : w.1 = q
        · exact .inl fun x y => by simp only [lastWrite, List.foldl_cons, hw, if_true]
        · exact .inr fun x => by simpa [lastWrite, hw] using h x
  rcases key ws with h | h
  · exact h _ _
  · rw [h]

theorem Team.rd_vals (ws : List (Nat × Word)) (t : Team) (i q j : Nat) (hi : i < 1024) (hj : j < 1024) :
    (ws.foldl (fun t w => t.wr w.1 i w.2) t).rd q j = if j = i then lastWrite ws q (t.rd q j) else t.rd q j := by
  induction ws generalizing t with
  | nil => simp [lastWrite]
  | cons w r ih =>
    rw [List.foldl_cons, ih]
    by_cases h : j = i
    · simp only [h, if_true, lastWrite, List.foldl_cons]
      congr 1
      rw [Team.rd_wr _ _ _ _ _ _ hi hi]
      by_cases hq : w.1 = q
      · simp [hq]
      · simp [hq, Ne.symm hq]
    · simp [h, Team.rd_wr _ _ _ _ _ _ hi hj]

theorem Team.rd_bits (bs : List (MReg × Bool)) (t : Team) (i q j : Nat) :
    (bs.foldl (fun t b => t.setM b.1 (setBit t.m[b.1] i b.2)) t).rd q j = t.rd q j := by
  induction bs generalizing t with
  | nil => rfl
  | cons b r ih => rw [List.foldl_cons, ih]; rfl

/-- An element after one slot's writes. -/
theorem Team.rd_write (t : Team) (i q j : Nat) (o : Out) (hi : i < 1024) (hj : j < 1024) :
    (t.write i o).rd q j = if j = i then lastWrite o.vals q (t.rd q j) else t.rd q j := by
  rw [Team.write, Team.rd_bits, Team.rd_vals _ _ _ _ _ hi hj]

/-- An element after the writes of several slots. -/
theorem Team.rd_writes (l : List Nat) (g : Nat → Out) (hl : ∀ i ∈ l, i < 1024) (t : Team) (q j : Nat) (hj : j < 1024) :
    ((l.map fun i => (i, g i)).foldl (fun u o => u.write o.1 o.2) t).rd q j
      = if j ∈ l then lastWrite (g j).vals q (t.rd q j) else t.rd q j := by
  induction l generalizing t with
  | nil => simp
  | cons i r ih =>
    rw [List.map_cons, List.foldl_cons, ih (fun k hk => hl k (by simp [hk])), Team.rd_write _ _ _ _ _ (hl i (by simp)) hj]
    by_cases h : j = i
    · subst h
      by_cases hr : j ∈ r <;> simp [hr, lastWrite_twice]
    · by_cases hr : j ∈ r <;> simp [h, hr]

theorem Team.vals_frame (ws : List (Nat × Word)) (t : Team) (i : Nat) :
    ws.foldl (fun t w => t.wr w.1 i w.2) t = { t with v := (ws.foldl (fun t w => t.wr w.1 i w.2) t).v } := by
  induction ws generalizing t with
  | nil => rfl
  | cons w r ih => rw [List.foldl_cons, ih]; rfl

theorem Team.bits_frame (bs : List (MReg × Bool)) (t : Team) (i : Nat) :
    bs.foldl (fun t b => t.setM b.1 (setBit t.m[b.1] i b.2)) t
      = { t with m := (bs.foldl (fun t b => t.setM b.1 (setBit t.m[b.1] i b.2)) t).m } := by
  induction bs generalizing t with
  | nil => rfl
  | cons b r ih => rw [List.foldl_cons, ih]; rfl

theorem Team.write_frame (t : Team) (i : Nat) (o : Out) :
    t.write i o = { t with v := (t.write i o).v, m := (t.write i o).m } := by
  unfold Team.write
  rw [Team.bits_frame, Team.vals_frame]

/-- Writes of slots touch elements and masks, and nothing else of the team. -/
theorem Team.writes_frame (l : List (Nat × Out)) (t : Team) :
    l.foldl (fun u o => u.write o.1 o.2) t
      = { t with v := (l.foldl (fun u o => u.write o.1 o.2) t).v, m := (l.foldl (fun u o => u.write o.1 o.2) t).m } := by
  induction l generalizing t with
  | nil => rfl
  | cons o r ih =>
    rw [List.foldl_cons, ih]
    rw [Team.write_frame t o.1 o.2]

/-! ## Masks after the writes of slots that give one bit of one mask register -/

theorem Team.m_write (t : Team) (i : Nat) (o : Out) (om : MReg) (b : Bool) (h : o.bits = maskBit om b) (hi : i < 1024) (q : MReg)
    (j : Nat) (hj : j < t.cap) :
    (t.write i o).m[q].getLsbD j = if q = om ∧ om ≠ 0 ∧ j = i then b else t.m[q].getLsbD j := by
  unfold Team.write
  have hv : ∀ (r : MReg), (o.vals.foldl (fun t w => t.wr w.1 i w.2) t).m[r] = t.m[r] := fun r => by rw [Team.vals_frame]
  have hc : (o.vals.foldl (fun t w => t.wr w.1 i w.2) t).cap = t.cap := by rw [Team.vals_frame]
  rw [h]
  unfold maskBit
  by_cases h0 : om.val = 0
  · have h0' : om = 0 := Fin.ext h0
    simp [h0']
    rw [Team.vals_frame]
  · have h0' : om ≠ 0 := fun e => h0 (by simp [e])
    simp only [h0, if_false, List.foldl_cons, List.foldl_nil]
    rw [Team.getLsbD_setM, hv, hv, hc, getLsbD_setBit _ _ _ _ hi]
    by_cases hq : q = om
    · subst hq
      simp [h0', hj]
    · simp [hq]

theorem Team.cap_write (t : Team) (i : Nat) (o : Out) : (t.write i o).cap = t.cap := by rw [Team.write_frame]

/-- The mask registers after the writes of several slots that give one bit each of register `om`. -/
theorem Team.m_writes (l : List Nat) (g : Nat → Out) (om : MReg) (b : Nat → Bool) (h : ∀ i, (g i).bits = maskBit om (b i))
    (hl : ∀ i ∈ l, i < 1024) (t : Team) (q : MReg) (j : Nat) (hj : j < t.cap) :
    ((l.map fun i => (i, g i)).foldl (fun u o => u.write o.1 o.2) t).m[q].getLsbD j
      = if q = om ∧ om ≠ 0 ∧ j ∈ l then b j else t.m[q].getLsbD j := by
  induction l generalizing t with
  | nil => simp
  | cons i r ih =>
    rw [List.map_cons, List.foldl_cons, ih (fun k hk => hl k (by simp [hk])) _ (by rw [Team.cap_write]; exact hj),
      Team.m_write t i (g i) om (b i) (h i) (hl i (by simp)) q j hj]
    by_cases hq : q = om
    · by_cases h0 : om = 0
      · simp [h0]
      · by_cases hi : j = i
        · subst hi; by_cases hr : j ∈ r <;> simp [hq, h0, hr]
        · by_cases hr : j ∈ r <;> simp [hq, h0, hi, hr]
    · simp [hq]

theorem Team.m_write_other (t : Team) (i : Nat) (o : Out) (om : MReg) (b : Bool) (h : o.bits = maskBit om b) (q : MReg)
    (hq : q ≠ om ∨ om = 0) : (t.write i o).m[q] = t.m[q] := by
  unfold Team.write
  have hv : ∀ (r : MReg), (o.vals.foldl (fun t w => t.wr w.1 i w.2) t).m[r] = t.m[r] := fun r => by rw [Team.vals_frame]
  rw [h]
  unfold maskBit
  by_cases h0 : om.val = 0
  · simp [h0]
    rw [Team.vals_frame]
  · have h0' : om ≠ 0 := fun e => h0 (by simp [e])
    have hq' : q ≠ om := hq.resolve_right h0'
    have : om.val ≠ q.val := fun e => hq' (Fin.ext e.symm)
    simp only [h0, if_false, List.foldl_cons, List.foldl_nil]
    rw [← hv q]
    simp [Team.setM, this]

theorem Team.m_writes_other (l : List Nat) (g : Nat → Out) (om : MReg) (b : Nat → Bool) (h : ∀ i, (g i).bits = maskBit om (b i))
    (t : Team) (q : MReg) (hq : q ≠ om ∨ om = 0) :
    ((l.map fun i => (i, g i)).foldl (fun u o => u.write o.1 o.2) t).m[q] = t.m[q] := by
  induction l generalizing t with
  | nil => rfl
  | cons i r ih =>
    rw [List.map_cons, List.foldl_cons, ih, Team.m_write_other t i (g i) om (b i) (h i) q hq]

/-! ## The end of an instruction -/

/-- A team that has raised nothing takes no effect. -/
theorem State.deliver_quiet (s : State) (k : Nat) (h : (s.team k).raised = []) : s.deliver k = s := by
  simp [State.deliver, State.deliverN, h]

/-- The end of an instruction no slot of which raises an effect. -/
theorem Team.finish_quiet (t : Team) (p : Plan) (hne : p.outs ≠ []) (h : ∀ o ∈ p.outs, o.2.effect t.fen = none) :
    t.finish p =
      { p.post (p.outs.foldl (fun u o => u.write o.1 o.2)
          (p.always ({ t with fflags := t.fflags ||| orFlags p.outs }.tagged p.tags))) with
        pc := t.pc + BitVec.ofNat 64 p.len, raised := [] } := by
  have h1 : (p.outs.filterMap fun o => (o.2.effect t.fen).map (t.raises p.len p.dst o.1)) = [] := by
    simp only [List.filterMap_eq_nil_iff]
    intro o ho
    simp [h o ho]
  have h2 : (p.outs.filter fun o => (o.2.effect t.fen).isNone) = p.outs := by
    simp only [List.filter_eq_self]
    intro o ho
    simp [h o ho]
  unfold Team.finish
  simp only [h1, h2, List.isEmpty_iff, hne, if_false]

/-- The same, of the selected team. -/
theorem State.finish_quiet (s : State) (p : Plan) (hne : p.outs ≠ []) (h : ∀ o ∈ p.outs, o.2.effect s.tm.fen = none) :
    s.finish p = s.putTm (s.tm.finish p) := by
  unfold State.finish
  apply State.deliver_quiet
  have : ((s.putTm (s.tm.finish p)).team s.cur) = s.tm.finish p := State.tm_putTm s _
  rw [this, Team.finish_quiet _ _ hne h]

/-- The same where no slot has an exception. -/
theorem Team.finish_clean (t : Team) (p : Plan) (hne : p.outs ≠ []) (h : ∀ o ∈ p.outs, o.2.effect t.fen = none)
    (h0 : orFlags p.outs = 0) :
    t.finish p =
      { p.post (p.outs.foldl (fun u o => u.write o.1 o.2) (p.always (t.tagged p.tags))) with
        pc := t.pc + BitVec.ofNat 64 p.len, raised := [] } := by
  have e : ({ t with fflags := t.fflags ||| orFlags p.outs } : Team) = t := by
    rw [h0]
    simp
  rw [Team.finish_quiet t p hne h, e]

/-- Exceptions that no slot has leave the flags. -/
theorem orFlags_none (l : List (Nat × Out)) (h : ∀ o ∈ l, o.2.fl = 0) : orFlags l = 0 := by
  unfold orFlags
  induction l with
  | nil => rfl
  | cons o r ih =>
    rw [List.foldl_cons, h o (by simp)]
    simpa using ih fun q hq => h q (by simp [hq])

theorem Out.effect_clean (o : Out) (fen : BitVec 6) (h : o.fl = 0) (he : o.eff = none) : o.effect fen = none := by
  simp [Out.effect, fpxTraps, h, he]

/-! ## Guarded instructions -/

/-- A guarded instruction that passes its checks and meets no pending register does its own work. -/
theorem State.guarded_go (s : State) (len : Nat) (msk : MReg) (chk : Except DWord Tag) (reads : Tag → VRefs)
    (ureads : List UReg) (writes : Tag → VRefs) (go : Tag → List Nat → State) (f : Tag) (vs : List Nat) (us : List UReg)
    (ha : s.tm.active msk = true) (hc : chk = .ok f) (hp : s.tm.nonePending vs us = true)
    (hr : ∀ r ∈ (reads f).regs, r ∈ vs) (hw : ∀ r ∈ (writes f).regs, r ∈ vs) (hu : ∀ r ∈ ureads, r ∈ us) :
    s.guarded len msk chk reads ureads writes go = go f (s.tm.lanes (s.tm.exec msk)) := by
  have he : (s.tm.lanes (s.tm.exec msk)).isEmpty = false := by
    rw [Team.lanes_isEmpty]
    simpa [Team.active] using ha
  unfold State.guarded
  simp only [he, hc, Team.interlock_go _ _ _ _ _ vs us hp hr hw hu]
  simp

/-! ## The team after the writes of its lanes -/

/-- The team with the tag of a destination set and the results of lanes written. -/
def Team.landed (t : Team) (l : List Nat) (g : Nat → Out) (d : VReg) (df : Tag) : Team :=
  (l.map fun i => (i, g i)).foldl (fun u o => u.write o.1 o.2) (t.setTag d df)

theorem Team.setTag_frame (t : Team) (r : Nat) (f : Tag) : t.setTag r f = { t with tag := (t.setTag r f).tag } := by
  unfold Team.setTag Team.putTag Team.unpair
  cases f.pair <;> cases (t.tagOf r).pair <;> rfl

theorem Team.landed_frame (t : Team) (l : List Nat) (g : Nat → Out) (d : VReg) (df : Tag) :
    t.landed l g d df = { t with v := (t.landed l g d df).v, tag := (t.landed l g d df).tag, m := (t.landed l g d df).m } := by
  have h : t.landed l g d df = { t.setTag d df with v := (t.landed l g d df).v, m := (t.landed l g d df).m } :=
    Team.writes_frame _ _
  have h2 : (t.landed l g d df).tag = (t.setTag d df).tag := by rw [h]
  rw [Team.setTag_frame] at h
  rw [h2]
  exact h

theorem Team.landed_tagOf (t : Team) (l : List Nat) (g : Nat → Out) (d : VReg) (df : Tag) (r : Nat) :
    (t.landed l g d df).tagOf r = (t.setTag d df).tagOf r := by
  unfold Team.landed Team.tagOf
  rw [Team.writes_frame]

theorem Team.landed_rd (t : Team) (l : List Nat) (g : Nat → Out) (hl : ∀ i ∈ l, i < 1024) (d : VReg) (df : Tag) (q j : Nat)
    (hj : j < 1024) :
    (t.landed l g d df).rd q j = if j ∈ l then lastWrite (g j).vals q (t.rd q j) else t.rd q j := by
  have h : (t.setTag d df).rd q j = t.rd q j := by rw [Team.setTag_frame]; rfl
  unfold Team.landed
  rw [Team.rd_writes l g hl _ q j hj, h]

/-- A lane holds the bits of its result that the destination takes. -/
theorem Team.landed_value (t : Team) (l : List Nat) (g : Nat → Out) (hl : ∀ i ∈ l, i < 1024) (d : VReg) (df : Tag) (i : Nat)
    (hi : i ∈ l) (x : DWord) (hv : (g i).vals = words d df.pair x) : (t.landed l g d df).rdTag df d i = takes df x := by
  have h1 := Team.landed_rd t l g hl d df d.val i (hl i hi)
  have h2 := Team.landed_rd t l g hl d df (d.val + 1) i (hl i hi)
  simp only [hi, if_true, hv] at h1 h2
  cases hh : df.pair
  · simp only [hh, words, lastWrite, Bool.false_eq_true, if_false, List.foldl_cons, List.foldl_nil, if_true] at h1
    simp only [Team.rdTag, takes, hh, Bool.false_eq_true, if_false, h1]
  · simp only [hh, words, lastWrite, if_true, List.foldl_cons, List.foldl_nil] at h1 h2
    have n1 : ¬ (d.val + 1 = d.val) := by omega
    simp only [n1, if_false] at h1
    simp only [Team.rdTag, takes, hh, Team.rd64, if_true, h1, h2]
    apply BitVec.eq_of_getLsbD_eq
    intro k hk
    simp only [BitVec.getLsbD_append, BitVec.getLsbD_setWidth, BitVec.getLsbD_ushiftRight]
    by_cases hk2 : k < 32
    · simp [hk2]
    · simp only [hk2, decide_false, Bool.false_and]
      have : k - 32 < 32 := by omega
      have e : 32 + (k - 32) = k := by omega
      simp [this, e]

/-- Other elements are unchanged. -/
theorem Team.landed_keeps (t : Team) (l : List Nat) (g : Nat → Out) (hl : ∀ i ∈ l, i < 1024) (d : VReg) (df : Tag)
    (val : Nat → DWord) (hv : ∀ i, (g i).vals = words d df.pair (val i)) (q j : Nat) (hj : j < 1024)
    (h : q ∉ span df.pair d.val ∨ j ∉ l) : (t.landed l g d df).rd q j = t.rd q j := by
  rw [Team.landed_rd t l g hl d df q j hj]
  by_cases hm : j ∈ l
  · have hr : q ∉ span df.pair d.val := h.resolve_right fun e => e hm
    simp only [hm, if_true, hv]
    cases hh : df.pair
    · simp only [span, hh, Bool.false_eq_true, if_false, List.mem_singleton] at hr
      simp [words, lastWrite, Ne.symm hr]
    · simp only [span, hh, if_true, List.mem_cons, List.not_mem_nil, or_false, not_or] at hr
      simp [words, lastWrite, Ne.symm hr.1, Ne.symm hr.2]
  · simp [hm]

/-- A destination none of whose registers is pending takes its tag and supersedes nothing. -/
theorem Team.tagged_one (t : Team) (d : VReg) (df : Tag) (hp : ∀ r ∈ span df.pair d.val, ∀ p ∈ t.pend, p.onV r = false) :
    t.tagged [(d, df)] = t.setTag d df := by
  simp only [Team.tagged, Team.supersedeD, List.foldl_cons, List.foldl_nil]
  have e1 : t.supersedeV d.val = t := Team.supersedeV_none _ _ (hp d.val (by cases hh : df.pair <;> simp [span]))
  rw [e1]
  cases hh : df.pair
  · simp [Team.setTag]
  · have e2 : t.supersedeV (d.val + 1) = t := Team.supersedeV_none _ _ (hp (d.val + 1) (by simp [span, hh]))
    simp only [if_true, e2, Team.setTag]

theorem destFits_even {vregs : Nat} {f : Tag} {d : VReg} (h : destFits vregs f d = true) : f.pair = true → d.val % 2 = 0 := by
  intro hp
  simp only [destFits, hp, Bool.not_true, Bool.false_or, Bool.and_eq_true, beq_iff_eq] at h
  exact h.1

theorem Team.lanes_ne_nil (t : Team) (msk : MReg) (h : t.active msk = true) : t.lanes (t.exec msk) ≠ [] := by
  intro e
  have h2 := t.lanes_isEmpty (t.exec msk)
  simp only [e, List.isEmpty_nil] at h2
  simp [Team.active, ← h2] at h

theorem foldl_orFlags (l : List (Nat × Out)) (a : BitVec 5) :
    a ||| orFlags l = l.foldl (fun b o => b ||| o.2.fl.setWidth 5) a := by
  unfold orFlags
  have key : ∀ (l : List (Nat × Out)) (b c : BitVec 5),
      b ||| l.foldl (fun f p => f ||| p.2.fl.setWidth 5) c = l.foldl (fun f p => f ||| p.2.fl.setWidth 5) (b ||| c) := by
    intro l
    induction l with
    | nil => intro b c; rfl
    | cons o r ih => intro b c; rw [List.foldl_cons, List.foldl_cons, ih, BitVec.or_assoc]
  have := key l a 0
  simpa using this

/-- The end of a vector instruction no lane of which raises an effect. -/
theorem State.finish_landed (s : State) (len : Nat) (msk : MReg) (d : VReg) (df : Tag) (dst : Dst) (g : Nat → Out)
    (ha : s.tm.active msk = true) (hp : ∀ r ∈ span df.pair d.val, ∀ p ∈ s.tm.pend, p.onV r = false)
    (he : ∀ i ∈ s.tm.lanes (s.tm.exec msk), (g i).effect s.tm.fen = none) :
    s.finish { len := len, outs := (s.tm.lanes (s.tm.exec msk)).map fun i => (i, g i), tags := [(d, df)], dst := dst } =
      s.putTm { ({ s.tm with fflags := (s.tm.lanes (s.tm.exec msk)).foldl (fun a i => a ||| (g i).fl.setWidth 5) s.tm.fflags } : Team).landed
          (s.tm.lanes (s.tm.exec msk)) g d df with pc := s.tm.pc + BitVec.ofNat 64 len, raised := [] } := by
  have hne : (s.tm.lanes (s.tm.exec msk)).map (fun i => (i, g i)) ≠ [] := by
    intro e
    exact s.tm.lanes_ne_nil msk ha (List.map_eq_nil_iff.1 e)
  have hq : ∀ o ∈ (s.tm.lanes (s.tm.exec msk)).map (fun i => (i, g i)), o.2.effect s.tm.fen = none := by
    intro o ho
    obtain ⟨i, hi, rfl⟩ := List.mem_map.1 ho
    exact he i hi
  have hF : s.tm.fflags ||| orFlags ((s.tm.lanes (s.tm.exec msk)).map fun i => (i, g i))
      = (s.tm.lanes (s.tm.exec msk)).foldl (fun a i => a ||| (g i).fl.setWidth 5) s.tm.fflags := by
    rw [foldl_orFlags, List.foldl_map]
  rw [State.finish_quiet s _ hne hq, Team.finish_quiet _ _ hne hq]
  simp only [hF]
  generalize (s.tm.lanes (s.tm.exec msk)).foldl (fun a i => a ||| (g i).fl.setWidth 5) s.tm.fflags = F
  have hT : ({ s.tm with fflags := F } : Team).tagged [(d, df)] = ({ s.tm with fflags := F } : Team).setTag d df :=
    Team.tagged_one _ _ _ hp
  rw [hT]
  rfl

/-- A vector instruction that meets nothing that holds it up, and whose slots all complete with a result under format df,
has run. -/
theorem State.finish_vectorRan (s : State) (len : Nat) (msk : MReg) (d : VReg) (df : Tag) (dst : Dst) (g : Nat → Out)
    (val : Nat → DWord) (om : MReg) (bit : Nat → Bool)
    (ha : s.tm.active msk = true) (hf : destFits s.vregs df d = true)
    (hp : ∀ r ∈ span df.pair d.val, ∀ p ∈ s.tm.pend, p.onV r = false)
    (hfl : ∀ i, (g i).fl = 0) (heff : ∀ i ∈ s.tm.lanes (s.tm.exec msk), (g i).eff = none)
    (hv : ∀ i, (g i).vals = words d df.pair (val i)) (hb : ∀ i, (g i).bits = maskBit om (bit i)) :
    s.vectorRan (s.finish { len := len, outs := (s.tm.lanes (s.tm.exec msk)).map fun i => (i, g i), tags := [(d, df)], dst := dst })
      len (s.tm.exec msk) d df val om bit := by
  have hlt : ∀ i ∈ s.tm.lanes (s.tm.exec msk), i < 1024 := fun i hi => Team.slotsOf_lt _ _ i ((Team.mem_lanes _ _ _).1 hi)
  have h0 : (s.tm.lanes (s.tm.exec msk)).foldl (fun a i => a ||| (g i).fl.setWidth 5) s.tm.fflags = s.tm.fflags := by
    have : ∀ (l : List Nat) (a : BitVec 5), l.foldl (fun a i => a ||| (g i).fl.setWidth 5) a = a := by
      intro l
      induction l with
      | nil => intro a; rfl
      | cons i r ih => intro a; rw [List.foldl_cons, hfl i]; simpa using ih a
    exact this _ _
  rw [State.finish_landed s len msk d df dst g ha hp fun i hi => Out.effect_clean _ _ (hfl i) (heff i hi), h0]
  refine ⟨_, rfl, ?_, ?_, ?_, ?_, ?_, ?_⟩
  · rw [Team.landed_frame]
  · intro i hi
    exact Team.landed_value s.tm _ g hlt d df i ((Team.mem_lanes _ _ _).2 hi) (val i) (hv i)
  · intro r i hi h
    exact Team.landed_keeps s.tm _ g hlt d df val hv r i hi (h.imp id fun h e => h ((Team.mem_lanes _ _ _).1 e))
  · obtain ⟨a, b, c⟩ := Team.setTag_retagged s.tm d df (destFits_even hf)
    have hk : ∀ r, (({ s.tm.landed (s.tm.lanes (s.tm.exec msk)) g d df with pc := s.tm.pc + BitVec.ofNat 64 len, raised := [] } : Team).tagOf r)
        = (s.tm.setTag d df).tagOf r := fun r => Team.landed_tagOf s.tm _ g d df r
    exact ⟨(hk _).trans a, (hk _).trans b, fun r h1 h2 => (hk _).trans (c r h1 h2)⟩
  · intro q hq
    have := Team.m_writes_other (s.tm.lanes (s.tm.exec msk)) g om bit hb (s.tm.setTag d df) q hq
    rw [Team.setTag_frame] at this
    rw [← this, ← Team.setTag_frame]
    rfl
  · intro h0' i hi
    have := Team.m_writes (s.tm.lanes (s.tm.exec msk)) g om bit hb hlt (s.tm.setTag d df) om i (by rw [Team.setTag_frame]; exact hi)
    simp only [h0', ne_eq, not_false_eq_true, true_and, Team.mem_lanes] at this
    rw [show (s.tm.setTag d df).m = s.tm.m by rw [Team.setTag_frame]] at this
    exact this

/-- The same of an instruction whose slots have floating-point exceptions, none of them enabled to trap. -/
theorem State.finish_floatRan (s : State) (len : Nat) (msk : MReg) (d : VReg) (df : Tag) (dst : Dst) (g : Nat → Out)
    (val : Nat → DWord) (fl : Nat → BitVec 6)
    (ha : s.tm.active msk = true) (hf : destFits s.vregs df d = true)
    (hp : ∀ r ∈ span df.pair d.val, ∀ p ∈ s.tm.pend, p.onV r = false)
    (ht : s.noTrap msk fl) (hg : ∀ i, g i = { fl := fl i, vals := words d df.pair (val i) }) :
    s.floatRan (s.finish { len := len, outs := (s.tm.lanes (s.tm.exec msk)).map fun i => (i, g i), tags := [(d, df)], dst := dst })
      len (s.tm.exec msk) d df val fl := by
  have hlt : ∀ i ∈ s.tm.lanes (s.tm.exec msk), i < 1024 := fun i hi => Team.slotsOf_lt _ _ i ((Team.mem_lanes _ _ _).1 hi)
  have he : ∀ i ∈ s.tm.lanes (s.tm.exec msk), (g i).effect s.tm.fen = none := by
    intro i hi
    have := ht i ((Team.mem_lanes _ _ _).1 hi)
    simp [hg, Out.effect, this]
  have hv : ∀ i, (g i).vals = words d df.pair (val i) := fun i => by rw [hg]
  rw [State.finish_landed s len msk d df dst g ha hp he]
  have hfl : (fun (a : BitVec 5) i => a ||| (g i).fl.setWidth 5) = fun a i => a ||| (fl i).setWidth 5 := by
    funext a i
    rw [hg]
  rw [hfl]
  generalize hF : (s.tm.lanes (s.tm.exec msk)).foldl (fun a i => a ||| (fl i).setWidth 5) s.tm.fflags = F
  have hm : ∀ q : MReg, ((({ s.tm with fflags := F } : Team).landed (s.tm.lanes (s.tm.exec msk)) g d df).m) = s.tm.m := by
    intro q
    unfold Team.landed
    have : ∀ (l : List Nat) (t : Team), ((l.map fun i => (i, g i)).foldl (fun u o => u.write o.1 o.2) t).m = t.m := by
      intro l
      induction l with
      | nil => intro t; rfl
      | cons i r ih =>
        intro t
        rw [List.map_cons, List.foldl_cons, ih]
        simp only [hg, Team.write, List.foldl_nil]
        rw [Team.vals_frame]
    rw [this, Team.setTag_frame]
  refine ⟨_, rfl, ?_, ?_, ?_, ?_, ?_⟩
  · rw [Team.landed_frame, hm 0]
  · rw [Team.landed_frame, hF]
  · intro i hi
    exact Team.landed_value _ _ g hlt d df i ((Team.mem_lanes _ _ _).2 hi) (val i) (hv i)
  · intro r i hi h
    exact Team.landed_keeps _ _ g hlt d df val hv r i hi (h.imp id fun h e => h ((Team.mem_lanes _ _ _).1 e))
  · obtain ⟨a, b, c⟩ := Team.setTag_retagged ({ s.tm with fflags := F } : Team) d df (destFits_even hf)
    have hk : ∀ r, (({ ({ s.tm with fflags := F } : Team).landed (s.tm.lanes (s.tm.exec msk)) g d df with
        pc := s.tm.pc + BitVec.ofNat 64 len, raised := [] } : Team).tagOf r)
        = (({ s.tm with fflags := F } : Team).setTag d df).tagOf r := fun r => Team.landed_tagOf _ _ g d df r
    exact ⟨(hk _).trans a, (hk _).trans b, fun r h1 h2 => (hk _).trans (c r h1 h2)⟩

end Sys2Proof.Machine
end

