-- ==== Sys2Proof/Laws/Integer.lean ====
section
/-! SUPPORT. What the shared operation of the integer group does when nothing holds the instruction up. -/
namespace Sys2Proof.Machine

theorem span_regs (p : Nat × Bool) : (if p.2 then [p.1, p.1 + 1] else [p.1]) = span p.2 p.1 := rfl

theorem regs_refs (wide : Bool) (l : List VReg) : VRefs.regs (l.map fun r => (r.val, wide)) = l.flatMap fun r => span wide r.val := by
  simp [VRefs.regs, List.flatMap_map, span]

theorem regs_raw (l : List VReg) : VRefs.regs (l.map fun r => (r.val, false)) = l.map (·.val) := by
  induction l with
  | nil => rfl
  | cons a r ih =>
    simp only [VRefs.regs, List.map_cons, List.flatMap_cons, Bool.false_eq_true, if_false] at ih ⊢
    rw [ih]
    rfl

theorem regs_append (a b : VRefs) : VRefs.regs (a ++ b) = VRefs.regs a ++ VRefs.regs b := by
  simp [VRefs.regs]

/-- The hypotheses that `goes` gathers. -/
theorem State.goes_parts {s : State} {msk : MReg} {fa f : Tag} {srcs raw : List VReg} {d : VReg} {df : Tag}
    (h : s.goes msk fa f srcs raw d df = true) :
    s.tm.active msk = true ∧ f ≠ .none ∧ s.tm.typed fa f srcs = true ∧ destFits s.vregs df d = true ∧
      s.tm.nonePending (srcs.flatMap (fun r => span f.pair r.val) ++ raw.map (·.val) ++ span df.pair d.val) [] = true := by
  simp only [State.goes, Bool.and_eq_true, bne_iff_ne, ne_eq] at h
  obtain ⟨⟨⟨⟨a, b⟩, c⟩, e⟩, g⟩ := h
  exact ⟨a, b, c, e, g⟩

/-- The registers of a destination that `goes` speaks of are not pending. -/
theorem State.goes_dest {s : State} {msk : MReg} {fa f : Tag} {srcs raw : List VReg} {d : VReg} {df : Tag}
    (h : s.goes msk fa f srcs raw d df = true) : ∀ r ∈ span df.pair d.val, ∀ p ∈ s.tm.pend, p.onV r = false := by
  obtain ⟨-, -, -, -, hp⟩ := State.goes_parts h
  intro r hr
  exact Team.onV_nonePending _ _ _ hp r (by simp only [List.mem_append]; exact .inr hr)

/-- R119: an instruction of the group's mould whose operands hold it up nowhere has run, when every slot completes with the
result `val` and the overflow bit `bit`. -/
theorem State.vop_ran (s : State) (len : Nat) (msk : MReg) (fa f : Tag) (acc : Tag → Bool) (d : VReg) (srcs raw : List VReg)
    (res : Tag → Tag) (g : Tag → Team → Nat → Out) (val : Nat → DWord) (om : MReg) (bit : Nat → Bool) (hs : srcs ≠ [])
    (hacc : acc f = true) (h : s.goes msk fa f srcs raw d (res f) = true)
    (hg : ∀ i ∈ s.tm.lanes (s.tm.exec msk), g f s.tm i = { vals := words d (res f).pair (val i), bits := maskBit om (bit i) }) :
    s.vectorRan (s.vop len msk fa acc d srcs raw res g) len (s.tm.exec msk) d (res f) val om bit := by
  obtain ⟨ha, hn, ht, hd, hp⟩ := State.goes_parts h
  have hchk : ((s.tm.tagCheck fa false acc (srcs.map (·.val))).bind fun f => (pairDest s.vregs (res f) d).map fun _ => f) = .ok f := by
    rw [Team.tagCheck_typed _ _ _ _ _ hs hn hacc ht]
    show ((pairDest s.vregs (res f) d).map fun _ => f) = .ok f
    rw [pairDest_fits _ _ _ hd]
    rfl
  unfold State.vop State.perSlot
  rw [State.guarded_go s len msk _ _ _ _ _ f _ [] ha hchk hp]
  · have e : (s.tm.lanes (s.tm.exec msk)).map (fun i => (i, g f s.tm i)) =
        (s.tm.lanes (s.tm.exec msk)).map fun i => (i, ({ vals := words d (res f).pair (val i), bits := maskBit om (bit i) } : Out)) := by
      apply List.map_congr_left
      intro i hi
      rw [hg i hi]
    dsimp only
    rw [e]
    exact State.finish_vectorRan s len msk d (res f) (.vec d (res f).pair)
      (fun i => { vals := words d (res f).pair (val i), bits := maskBit om (bit i) }) val om bit ha hd (State.goes_dest h)
      (fun _ => rfl) (fun _ _ => rfl) (fun _ => rfl) (fun _ => rfl)
  · intro r hr
    rw [regs_append, regs_refs, regs_raw] at hr
    simp only [List.mem_append] at hr ⊢
    exact .inl hr
  · intro r hr
    simp only [VRefs.regs, List.flatMap_cons, List.flatMap_nil, List.append_nil] at hr
    simp only [List.mem_append]
    exact .inr hr
  · simp

/-! ## Values that agree in the bits of the format -/

theorem takes_eq (f : Tag) (x y : DWord) (h : x.toNat % 2 ^ f.width = y.toNat % 2 ^ f.width) : takes f x = takes f y := by
  cases hp : f.pair <;> simp only [takes, hp, Tag.width, if_true, if_false, Bool.false_eq_true] at *
  · apply BitVec.eq_of_toNat_eq
    simp only [BitVec.toNat_setWidth]
    omega
  · apply BitVec.eq_of_toNat_eq
    omega

/-- A result may be written otherwise, as long as it agrees in the bits that the destination takes. -/
theorem State.vectorRan_congr {s s' : State} {len : Nat} {x : MaskBits} {d : VReg} {f : Tag} {val val' : Nat → DWord} {om : MReg}
    {bit bit' : Nat → Bool} (h : s.vectorRan s' len x d f val om bit)
    (hv : ∀ i ∈ s.tm.slotsOf x, takes f (val i) = takes f (val' i)) (hb : om ≠ 0 → ∀ i ∈ s.tm.slotsOf x, bit i = bit' i) :
    s.vectorRan s' len x d f val' om bit' := by
  obtain ⟨u, h1, h2, h3, h4, h5, h6, h7⟩ := h
  refine ⟨u, h1, h2, fun i hi => (h3 i hi).trans (hv i hi), h4, h5, h6, fun h0 i hi => ?_⟩
  rw [h7 h0 i hi]
  by_cases hm : i ∈ s.tm.slotsOf x
  · rw [if_pos hm, if_pos hm, hb h0 i hm]
  · rw [if_neg hm, if_neg hm]

/-- A pattern as an element. -/
theorem toNat_ofPat (f : Tag) (n : Nat) : (ofPat f n).toNat = n % 2 ^ f.width := by
  cases hp : f.pair <;> simp only [ofPat, Tag.width, hp, if_true, if_false, Bool.false_eq_true, BitVec.toNat_ofNat] <;> omega

/-- The elements of a 32-bit register are below 2^32. -/
theorem Team.rdTag_lt (t : Team) (f : Tag) (r i : Nat) : (t.rdTag f r i).toNat < 2 ^ f.width := by
  cases hp : f.pair <;> simp only [Team.rdTag, Tag.width, hp, if_true, if_false, Bool.false_eq_true, BitVec.toNat_setWidth]
  · have := (t.rd r i).isLt
    omega
  · exact (t.rd64 r i).isLt

theorem Team.pat_rdTag (t : Team) (f : Tag) (r i : Nat) : pat f (t.rdTag f r i) = (t.rdTag f r i).toNat :=
  Nat.mod_eq_of_lt (t.rdTag_lt f r i)

end Sys2Proof.Machine
end

