-- ==== Sys2Proof/Laws/Memory.lean ====
section
/-! SUPPORT. The laws of memory: a read after a write, and that every operation on memory keeps its canonical form. -/
namespace Sys2Proof.Machine

/-! ## Bytes and words -/

theorem writeBytes_wf (m : SMap Byte) (a : Nat) (b : List Byte) (h : Memory.wf m = true) : Memory.wf (writeBytes m a b) = true := by
  induction b generalizing m a with
  | nil => exact h
  | cons x r ih => exact ih _ _ (SMap.wf_set _ _ _ _ h)

theorem write64_wf (m : SMap Byte) (a : Nat) (x : DWord) (h : Memory.wf m = true) : Memory.wf (write64 m a x) = true :=
  writeBytes_wf m a _ h

/-- A write of bytes leaves every byte outside them as it was. -/
theorem get_writeBytes_outside (m : SMap Byte) (a : Nat) (b : List Byte) (x : Nat) (h : x < a ∨ a + b.length ≤ x) :
    (writeBytes m a b).get unwritten x = m.get unwritten x := by
  induction b generalizing m a with
  | nil => rfl
  | cons y r ih =>
    have hx : x ≠ a := by have : (y :: r).length = r.length + 1 := rfl; omega
    rw [writeBytes, ih _ _ (by have : (y :: r).length = r.length + 1 := rfl; omega), SMap.get_set_other _ _ _ _ _ hx]

/-- Each byte written reads as it was written. -/
theorem get_writeBytes_inside (m : SMap Byte) (a : Nat) (b : List Byte) (k : Nat) (h : k < b.length) :
    (writeBytes m a b).get unwritten (a + k) = b.getD k 0 := by
  induction b generalizing m a k with
  | nil => simp at h
  | cons y r ih =>
    cases k with
    | zero => rw [writeBytes, get_writeBytes_outside _ _ _ _ (by omega)]; simp
    | succ n =>
      have : a + (n + 1) = a + 1 + n := by omega
      rw [writeBytes, this, ih _ _ _ (by simpa using h)]
      simp

theorem leBytes_length (n x : Nat) : (leBytes n x).length = n := by
  induction n generalizing x with
  | zero => rfl
  | succ n ih => simp [leBytes, ih]

/-- The bytes of a number, read back, give it modulo 2^(8n). -/
theorem leNat_leBytes (n x : Nat) : leNat (leBytes n x) = x % 2 ^ (8 * n) := by
  induction n generalizing x with
  | zero => simp [leBytes, leNat, Nat.mod_one]
  | succ n ih =>
    have h : 2 ^ (8 * (n + 1)) = 256 * 2 ^ (8 * n) := by rw [Nat.mul_add, Nat.pow_add]; omega
    rw [leBytes, leNat, ih, h, Nat.mod_mul]
    simp

theorem readBytes_writeBytes (m : SMap Byte) (a : Nat) (b : List Byte) : readBytes (writeBytes m a b) a b.length = b := by
  apply List.ext_getElem
  · simp [readBytes]
  · intro k h _
    have hk : k < b.length := by simpa [readBytes] using h
    simp [readBytes, get_writeBytes_inside m a b k hk, hk]

/-- A word reads as it was written. -/
@[simp] theorem read64_write64 (m : SMap Byte) (a : Nat) (x : DWord) : read64 (write64 m a x) a = x := by
  have h := readBytes_writeBytes m a (leBytes 8 x.toNat)
  rw [leBytes_length] at h
  rw [read64, write64, h, leNat_leBytes]
  exact BitVec.eq_of_toNat_eq (by simp [Nat.mod_eq_of_lt x.isLt])

/-- A word leaves every byte outside its eight as it was. -/
theorem get_write64_outside (m : SMap Byte) (a : Nat) (x : DWord) (y : Nat) (h : y < a ∨ a + 8 ≤ y) :
    (write64 m a x).get unwritten y = m.get unwritten y :=
  get_writeBytes_outside m a _ y (by simpa [leBytes_length] using h)

/-! ## Landings -/

theorem Landing.byte_wf (m : SMap Byte) (wins : Wins) (l : List Write) (bad : List Write) (r : Landing) (a : Nat)
    (h : Memory.wf r.mem = true) : Memory.wf (Landing.byte m wins l bad r a).mem = true := by
  simp only [Landing.byte]
  split
  · exact h
  · exact h
  · split
    · exact h
    · exact SMap.wf_set _ _ _ _ h

/-- A landing keeps the canonical form of the memory that it writes. -/
theorem landAll_wf (m : SMap Byte) (wins : Wins) (l : List Write) (h : Memory.wf m = true) :
    Memory.wf (landAll m wins l).mem = true := by
  have alone (ws : List Write) (m : SMap Byte) (h : Memory.wf m = true) :
      Memory.wf (ws.foldl (fun m w => writeBytes m w.addr w.bytes) m) = true := by
    induction ws generalizing m with
    | nil => exact h
    | cons w r ih => exact ih _ (writeBytes_wf _ _ _ h)
  have bytes (rest bad : List Write) (as : List Nat) (r : Landing) (h : Memory.wf r.mem = true) :
      Memory.wf (as.foldl (Landing.byte m wins rest bad) r).mem = true := by
    induction as generalizing r with
    | nil => exact h
    | cons a q ih => exact ih _ (Landing.byte_wf m wins rest bad r a h)
  have claims (rest ws : List Write) (r : Landing) (h : Memory.wf r.mem = true) :
      Memory.wf (ws.foldl (fun r w => match w.claim with
        | some id =>
          let v := claimResult m rest w
          { r with claims := r.claims ++ [(id, w.lti, v.1)], fl := r.fl ||| v.2 }
        | none => r) r).mem = true := by
    induction ws generalizing r with
    | nil => exact h
    | cons w q ih =>
      simp only [List.foldl_cons]
      apply ih
      split <;> exact h
  exact claims _ _ _ (bytes _ _ _ _ (alone _ _ h))

/-! ## The status block and the event queue -/

theorem State.csbWord_mem_wf (s : State) (x : CtxId) (off : Nat) (v : DWord) (h : Memory.wf s.mem = true) :
    Memory.wf (s.csbWord x off v).mem = true := write64_wf _ _ _ h

/-- A word of the status block changes device memory and nothing else. -/
theorem State.csbWord_frame (s : State) (x : CtxId) (off : Nat) (v : DWord) :
    s.csbWord x off v = { s with mem := (s.csbWord x off v).mem } := rfl

theorem State.putEvent_host_wf (s : State) (x : CtxId) (type : Nat) (p a b : DWord) (h : Memory.wf s.host = true) :
    Memory.wf (s.putEvent x type p a b).host = true :=
  write64_wf _ _ _ (write64_wf _ _ _ (write64_wf _ _ _ (write64_wf _ _ _ h)))

/-- An event keeps both memories in canonical form. -/
theorem State.postEvent_wf (s : State) (x : CtxId) (type : Nat) (p : DWord) (a b : Option DWord)
    (h : Memory.wf s.mem = true) (g : Memory.wf s.host = true) :
    Memory.wf (s.postEvent x type p a b).mem = true ∧ Memory.wf (s.postEvent x type p a b).host = true := by
  unfold State.postEvent
  split
  · exact ⟨h, State.putEvent_host_wf _ _ _ _ _ _ g⟩
  · exact ⟨write64_wf _ _ _ h, g⟩

theorem State.askAts_host (s : State) (p : Nat) : (s.askAts p).host = s.host := by
  unfold State.askAts
  split <;> rfl

theorem State.drain_host_wf (s : State) (l kept : List Post) (h : Memory.wf s.host = true) : Memory.wf (s.drain l kept).host = true := by
  induction l generalizing s kept with
  | nil => exact h
  | cons p r ih =>
    unfold State.drain
    split
    · split
      · exact ih _ _ h
      · exact ih _ _ (writeBytes_wf _ _ _ h)
    · exact ih _ _ (by rwa [State.askAts_host])

/-- The memories of the machine right after reset are in canonical form. -/
theorem reset_mem_wf : Memory.wf State.reset.mem = true ∧ Memory.wf State.reset.host = true := by decide

end Sys2Proof.Machine
end

