-- ==== Sys2Proof/Tests/Slice0.lean ====
section
/-! SUPPORT. The model's own tests: decoding against words that the spec writes out, ill-formed terms, results of single
instructions worked out from the rules, and, for the hypotheses of each statement, a state that meets them. -/
namespace Sys2Proof.Tests
open Sys2Proof Sys2Proof.Machine
set_option Elab.async false

/-! ## Decoding: words that the spec writes out -/

/-- The instruction of a word given by its bits 63 to 0, 95 to 64 and 127 to 96. -/
def read (lo mid hi : Nat) : Option Instr := (decode 1024 (lo + mid * 2 ^ 64 + hi * 2 ^ 96)).toOption

/-- The reason code of a word that does not decode. -/
def readFails (lo mid hi : Nat) : Option Nat :=
  match decode 1024 (lo + mid * 2 ^ 64 + hi * 2 ^ 96) with
  | .error e => some e.code
  | .ok _ => none

/-- 02, Table 2-10. -/
theorem test_decode_add : read 0x0000402004032880 0 0 =
    some (.add { msk := 5, d := 3, a := 1, b := 2, fa := .i32, sat := false, om := 0 }) := by decide

/-- 05, worked example. -/
theorem test_decode_add_sat : read 0x0280402004032880 0 0 =
    some (.add { msk := 5, d := 3, a := 1, b := 2, fa := .i32, sat := true, om := 4 }) := by decide

/-- 02: bit 15 set in the word of `add`. -/
theorem test_decode_bit15 : readFails 0x000040200403A880 0 0 = some 0x04 := by decide

/-- 02, Table 2-11. -/
theorem test_decode_st_sum : read 0x0005802010061A86 0x40 0 =
    some (.st { msk := 3, src := 6, addr := ⟨some 2, .v32 4, 0x40⟩, fa := .none, sub := .full, rule := .sum, land := 1 }) := by decide

/-- 02: RULE 101 in the word of the store. -/
theorem test_decode_rule : readFails 0x0006802010061A86 0x40 0 = some 0x07 := by decide

/-- R52. -/
theorem test_decode_nop : (read 0 0 0, read 1 0 0, read 2 0 0) = (some .nop, some .nop96, some .nop128) := by decide

/-- 08, worked example. -/
theorem test_decode_brd : read 0x004000001C04000E 0x10 0x20 =
    some (.brd { msk := 0, mc := 2, target := 0x10, join := 0x20, range := some (4, 7) }) := by decide

/-- 07, worked program. -/
theorem test_decode_loop : read 0x000100FFFFDA0020 0 0 =
    some (.loop { msk := 0, sc := 2, q := none, off := 0xFFFFDA }) := by decide

/-- 05, worked example. -/
theorem test_decode_sli : read 0xFC000200000401BC 0 0 = some (.sli { msk := 0, d := 4, pos := 2, imm := 0x1F8000 }) := by decide

/-- 11, Table 11-4. -/
theorem test_decode_hpush : read 0x000000005C14002E 0x34 0x002C0004 =
    some (.hpush { msk := 0, eff := 4, handler := 0x34, elen := 0x2C, tk := 20, hl := 23 }) := by decide

/-- 11, Table 11-4. -/
theorem test_decode_perform : read 0x00000170501E0035 0x00040016 0 = some (.perform
    { msk := 0, d := 30, eff := 0x100, payload := some 22, ms := false, range := some (20, 23) }) := by decide

/-- 11, Table 11-4. -/
theorem test_decode_resume : read 0x000000C050000038 0 0 =
    some (.resume { msk := 0, d := none, vt := 20, va := 12 }) := by decide

/-- 11, Table 11-4. -/
theorem test_decode_swr : read 0x00C0000014000048 0 0 = some (.swr { msk := 0, a := 5, idx := 6 }) := by decide

/-- 11, Table 11-4. -/
theorem test_decode_hpop : read 0x30 0 0 = some (.hpop { msk := 0, res := none }) := by decide

/-- 06, worked example. -/
theorem test_decode_fcvt : read 0x0724000010050260 0 0 =
    some (.fcvt { msk := 0, d := 5, a := 4, tgt := .k8tx4, pos := 3, rnd := .rne }) := by decide

/-- 07, worked program. -/
theorem test_decode_ldt : read 0x0000080050010296 0 0xF = some (.ldt
    { msk := 0, d := 1, addr := ⟨some 0, .v32 20, 0⟩, fa := .i32, n1 := 15 }) := by decide

/-- 07, worked example. -/
theorem test_decode_st_without_index : read 0x8005800000010286 0x10 0 =
    some (.st { msk := 0, src := 1, addr := ⟨some 0, .absent, 0x10⟩, fa := .none, sub := .full, rule := .sum, land := 1 }) := by decide

/-- 09, Table 9-4. -/
theorem test_decode_vget : read 0x4200001004010300 0 0 = some (.vget
    { msk := 0, d := 1, a := 1, mode := .dn 1, z := false, add := true, vm := 0, fa := .none }) := by decide

/-- 09, Table 9-4. -/
theorem test_decode_vlti : read 0x002000000002030C 0 0 = some (.vlti { msk := 0, d := 2, part := 1 }) := by decide

/-- 10, Table 10-7. -/
theorem test_decode_vargmin : read 0x4900000024152B1D 0 0 = some (.vargmin
    { msk := 5, d := .u 21, a := 9, q := some 1, fa := .none }) := by decide

/-- 10, Table 10-7. -/
theorem test_decode_vcompact : read 0x0000008004010331 0 0 = some (.vcompact
    { msk := 0, d := 1, a := 1, ms := 8, cnt := none, z := false, fa := .none }) := by decide

/-- 13, R267. -/
theorem test_decode_step : (read 0x380 0 0, read 0x0000800000000380 0 0) =
    (some (.step { clu := false }), some (.step { clu := true })) := by decide

/-- 13, worked program. -/
theorem test_decode_cpyg : read 0x818800002C0A038A 0xC0 0x00020008 =
    some (.cpyg { msk := 0, d := 10, ix := 11, src := some 0, off := 0xC0, fa := .none, rule := .fault, land := 2, n := 12, len := 8, stride4 := 2 }) := by decide

/-- 13, worked program. -/
theorem test_decode_claim : read 0x80060000000F4A8E 0x40 0x10 =
    some (.claim { msk := 9, src := 15, addr := ⟨some 0, .absent, 0x40⟩, fa := .none, res := 16 }) := by decide

/-- 16, worked word. -/
theorem test_decode_mloop : read 0x8064510000090412 0 0 = some (.mloop
    { msk := 0, cls := .i8, sp := some 9, z := true, desc := 16, low := false, land := 1 }) := by decide

/-- 16, worked word. -/
theorem test_decode_mcomp : read 0x002000000C06041D 9 0 = some (.mcomp
    { msk := 0, d := 6, c := 9, a := 3, hi := true, fa := .none }) := by decide

/-- 17, worked program. -/
theorem test_decode_xbind : read 0x00218140E0000481 0 0 = some (.xbind
    { msk := 0, d := 0, base := 56, cen := 20, loc := false, p := 1, f64 := true }) := by decide

/-- 17, worked program. -/
theorem test_decode_xconv : read 0x0000000008030C94 0 0 = some (.xconv { msk := 1, d := 3, a := 2, add := false }) := by decide

/-- 18, worked program. -/
theorem test_decode_xdirect : read 0x00003000106804A2 0 0xA008 =
    some (.xdirect { msk := 0, d := 104, addr := ⟨some 0, .v32 4, 0⟩, f64 := true, add := false, eps := none, cnt := 8, tgt := 40 }) := by decide

/-- 21, worked words. -/
theorem test_decode_wapp : read 0x0004004008080502 0x40 0 = some (.wapp
    { msk := 0, item := 8, base := some 4, off := 0x40, dst := .reg 2 }) := by decide

/-- 21, worked words. -/
theorem test_decode_wcnt : read 0x0000004008050506 0x40 0 = some (.wcnt
    { msk := 0, d := 5, base := some 4, off := 0x40, dst := .reg 2, ov := false }) := by decide

/-- R53: LEN 11, an opcode that Table 2-8 leaves free, and a length that is not the opcode's. -/
theorem test_decode_refuses : (readFails 3 0 0, readFails 0x7FC 0 0, readFails 0x0000402004032881 0 0) =
    (some 0x01, some 0x03, some 0x02) := by decide

/-! ## Well-formedness: a term that each check refuses -/

/-- R50: the odd register of a pair. -/
theorem test_wf_pair : wf 1024 (.add { msk := 0, d := 3, a := 2, b := 4, fa := .i64, sat := false, om := 0 }) = false := by decide

/-- R50: a register at or above `.vregs`. -/
theorem test_wf_vregs : wf 32 (.not { msk := 0, d := 32, a := 0, fa := .none }) = false := by decide

/-- R113: a float format in the integer group. -/
theorem test_wf_format : wf 1024 (.add { msk := 0, d := 3, a := 2, b := 4, fa := .f32, sat := false, om := 0 }) = false := by decide

/-- R50: `m0` as a mask destination. -/
theorem test_wf_mask_destination : wf 1024 (.mand { msk := 0, d := 0, a := 1, b := 2 }) = false := by decide

/-- R47: the stochastic mode outside the conversions. -/
theorem test_wf_rounding : wf 1024 (.fadd { msk := 0, d := 1, a := 2, b := 3, fa := .f32, rnd := .sr }) = false := by decide

/-- R173: a sub-size of a format that has none. -/
theorem test_wf_subsize : wf 1024 (.ld { msk := 0, d := 0, addr := ⟨none, .absent, 0⟩, fa := .f64, sub := .b8 }) =
    false := by decide

/-- R173: SUM with a sub-size. -/
theorem test_wf_sum :
    wf 1024 (.st { msk := 0, src := 0, addr := ⟨none, .absent, 0⟩, fa := .i32, sub := .b8, rule := .sum, land := 1 }) = false := by decide

/-- R48: landing class 0 of a store. -/
theorem test_wf_land :
    wf 1024 (.st { msk := 0, src := 0, addr := ⟨none, .absent, 0⟩, fa := .none, sub := .full, rule := .fault, land := 0 }) = false := by decide

/-- Table 2-7: a range whose first register is above its last. -/
theorem test_wf_range : wf 1024 (.brd { msk := 0, mc := 1, target := 0, join := 0, range := some (5, 4) }) = false := by decide

/-- R44: the odd register of a 64-bit index. -/
theorem test_wf_index : wf 1024 (.pf { msk := 0, addr := ⟨none, .v64 3, 0⟩, tr := false, lines1 := 0 }) =
    false := by decide

/-- R273: a row length of a copy with an index list that is no multiple of 4. -/
theorem test_wf_copy :
    wf 1024 (.cpyg { msk := 0, d := 0, ix := 1, src := none, off := 0, fa := .none, rule := .fault, land := 1, n := 2, len := 6, stride4 := 1 }) = false := by decide

/-- R221: a key of 64 bits. -/
theorem test_wf_sort : wf 1024 (.vsort { msk := 0, dk := 1, dv := 2, ak := 2, av := 3, desc := false, fa := .i64 }) = false := by decide

/-- What the words above stand for is well-formed. -/
theorem test_wf_accepts : (wf 1024 (.add { msk := 5, d := 3, a := 1, b := 2, fa := .i32, sat := false, om := 0 }) &&
    wf 1024 (.brd { msk := 0, mc := 2, target := 0x10, join := 0x20, range := some (4, 7) }) &&
    wf 1024 (.xdirect { msk := 0, d := 104, addr := ⟨some 0, .v32 4, 0⟩, f64 := true, add := false, eps := none, cnt := 8, tgt := 40 })) = true := by decide
/-! ## Decoding: words made by hand from the encoding tables, so that every instruction has one -/

/-- Whether every listed word, by its bits 63 to 0, 95 to 64 and 127 to 96, reads as the instruction beside it, and the encoder writes that word. -/
def readsAs (l : List ((Nat × Nat × Nat) × Instr)) : Bool := l.all fun e => read e.1.1 e.1.2.1 e.1.2.2 == some e.2 &&
  encode e.2 == some (e.1.1 + e.1.2.1 * 2 ^ 64 + e.1.2.2 * 2 ^ 96)

/-- 08, Table 8-1. -/
theorem test_words_control : readsAs [
    ((0x0000000000101804, 0x0, 0x0), .br { msk := 3, off := 0x10 }),
    ((0x000000FFFFF40004, 0x0, 0x0), .br { msk := 0, off := 0xFFFFF4 }),
    ((0x0000850000080808, 0x0, 0x0), .bq { msk := 1, cond := .q 5, neg := true, off := 8 }),
    ((0x0001480000080008, 0x0, 0x0), .bq { msk := 0, cond := .any 9, neg := false, off := 8 }),
    ((0x0002C80000080008, 0x0, 0x0), .bq { msk := 0, cond := .all 9, neg := true, off := 8 }),
    ((0x20E000000000000E, 0x20, 0x40), .brd { msk := 0, mc := 7, target := 0x20, join := 0x40, range := none }),
    ((0x0000000000001010, 0x0, 0x0), .join { msk := 2 }),
    ((0x002D000001230014, 0x0, 0x0), .call { msk := 0, sl := 90, off := 0x123 }),
    ((0x002D000000000018, 0x0, 0x0), .ret { msk := 0, sl := 90 }),
    ((0xFFFFE0001080001C, 0x0, 0x0), .jmpi { msk := 0, sa := 33, imm := 0x1FFFFC }),
    ((0x004486FFFF000020, 0x0, 0x0), .loop { msk := 0, sc := 9, q := some 6, off := 0xFFFF00 }),
    ((0x0000000024040026, 0x1000, 0x94063), .rejoin { msk := 0, id := 37, count1 := 99, timeout := 0x1000, range := some (4, 9) }),
    ((0x2000000000000026, 0x0, 0x4000), .rejoin { msk := 0, id := 1, count1 := 0, timeout := 0, range := none }),
    ((0x0000000000002028, 0x0, 0x0), .exit { msk := 4 })] = true := by decide

/-- 11, Table 11-2. -/
theorem test_words_effects : readsAs [
    ((0x020A800000000030, 0x0, 0x0), .hpop { msk := 0, res := some 21 }),
    ((0x00A0009010020035, 0x48C00, 0x0), .perform { msk := 0, d := 2, eff := 0x123, payload := none, ms := true, range := some (4, 9) }),
    ((0x0040000000020035, 0x3FFF808, 0x0), .perform { msk := 0, d := 2, eff := 0xFFFE, payload := some 8, ms := false, range := none }),
    ((0x002000C050030038, 0x0, 0x0), .resume { msk := 0, d := some 3, vt := 20, va := 12 }),
    ((0x000000005000103C, 0x0, 0x0), .drop { msk := 2, vt := 20 }),
    ((0x5F77800000000040, 0x0, 0x0), .brk { msk := 0, code := 0xBEEF }),
    ((0x01A0000000050044, 0x0, 0x0), .srd { msk := 0, form := .uni 5 13 }),
    ((0x0400000000060044, 0x0, 0x0), .srd { msk := 0, form := .lti 6 }),
    ((0x000000000046084C, 0x0, 0x0), .tmrd { msk := 1, d := 70 })] = true := by decide

/-- 05, Tables 5-1 and 5-2. -/
theorem test_words_integer : readsAs [
    ((0x0320808018040884, 0x0, 0x0), .sub { msk := 1, d := 4, a := 6, b := 8, fa := .n32, sat := true, om := 9 }),
    ((0x0320C08018040888, 0x0, 0x0), .mul { msk := 1, d := 4, a := 6, b := 8, fa := .i64, sat := true, om := 9 }),
    ((0x0321008018040894, 0x0, 0x0), .div { msk := 1, d := 4, a := 6, b := 8, fa := .n64, sat := true, om := 9 }),
    ((0x000040901C05108C, 0x0, 0x0), .mulh { msk := 2, d := 5, a := 7, b := 9, fa := .i32 }),
    ((0x000040901C051098, 0x0, 0x0), .rem { msk := 2, d := 5, a := 7, b := 9, fa := .i32 }),
    ((0x000040901C0510A4, 0x0, 0x0), .min { msk := 2, d := 5, a := 7, b := 9, fa := .i32 }),
    ((0x000040901C0510A8, 0x0, 0x0), .max { msk := 2, d := 5, a := 7, b := 9, fa := .i32 }),
    ((0x000040901C0510AC, 0x0, 0x0), .and { msk := 2, d := 5, a := 7, b := 9, fa := .i32 }),
    ((0x000040901C0510B0, 0x0, 0x0), .or { msk := 2, d := 5, a := 7, b := 9, fa := .i32 }),
    ((0x000040901C0510B4, 0x0, 0x0), .xor { msk := 2, d := 5, a := 7, b := 9, fa := .i32 }),
    ((0x000040901C0510BC, 0x0, 0x0), .andn { msk := 2, d := 5, a := 7, b := 9, fa := .i32 }),
    ((0x006000001C05009C, 0x0, 0x0), .neg { msk := 0, d := 5, a := 7, fa := .none, sat := false, om := 3 }),
    ((0x006000001C0500A0, 0x0, 0x0), .abs { msk := 0, d := 5, a := 7, fa := .none, sat := false, om := 3 }),
    ((0x00008000200578B8, 0x0, 0x0), .not { msk := 15, d := 5, a := 8, fa := .n32 }),
    ((0x00008000200578D0, 0x0, 0x0), .clz { msk := 15, d := 5, a := 8, fa := .n32 }),
    ((0x00008000200578D4, 0x0, 0x0), .ctz { msk := 15, d := 5, a := 8, fa := .n32 }),
    ((0x00008000200578D8, 0x0, 0x0), .popc { msk := 15, d := 5, a := 8, fa := .n32 }),
    ((0x00008000200578DC, 0x0, 0x0), .brev { msk := 15, d := 5, a := 8, fa := .n32 }),
    ((0x0002400803FF00F0, 0x0, 0x0), .mov { msk := 0, d := 1023, a := 512, fa := .k8tx4 }),
    ((0x0240403008010091, 0x2BC, 0x0), .mad { msk := 0, d := 1, a := 2, b := 3, c := .reg 700, fa := .i32, sat := true, om := 2 }),
    ((0x8000403008010091, 0xDEADBEEF, 0x0), .mad { msk := 0, d := 1, a := 2, b := 3, c := .imm 0xDEADBEEF, fa := .i32, sat := false, om := 0 })] = true := by decide

/-- 05, Tables 5-1 and 5-2: shifts, fields, compares, moves, carries, conversions. -/
theorem test_words_integer_bits : readsAs [
    ((0x8000C3F0100200C0, 0x0, 0x0), .shl { msk := 0, d := 2, a := 4, amt := .imm 63, fa := .i64 }),
    ((0x0000EBC0100200C4, 0x0, 0x0), .shr { msk := 0, d := 2, a := 4, amt := .reg 700, fa := .i64 }),
    ((0x8000C1F0100200C8, 0x0, 0x0), .sar { msk := 0, d := 2, a := 4, amt := .imm 31, fa := .i64 }),
    ((0x0000C030100200CC, 0x0, 0x0), .rot { msk := 0, d := 2, a := 4, amt := .reg 3, fa := .i64 }),
    ((0x00004000080100E1, 0xC1400, 0x0), .bfe { msk := 0, d := 1, a := 2, fld := .imm 5 12, fa := .i32 }),
    ((0x00208000080100E1, 0x9, 0x0), .bfe { msk := 0, d := 1, a := 2, fld := .reg 9, fa := .n32 }),
    ((0x00010060100200E5, 0x400000, 0x0), .bfi { msk := 0, d := 2, a := 4, b := 6, fld := .imm 0 64, fa := .n64 }),
    ((0x00204060100200E5, 0x9, 0x0), .bfi { msk := 0, d := 2, a := 4, b := 6, fld := .reg 9, fa := .i32 }),
    ((0x00304060100700E8, 0x0, 0x0), .cmp { msk := 0, d := 7, a := 4, b := 6, fa := .i32, cc := .gt, z := true }),
    ((0x01814060100300EC, 0x0, 0x0), .sel { msk := 0, d := 3, a := 4, b := 6, fa := .f32, sm := 12 }),
    ((0x80030000000300F5, 0x89ABCDEF, 0x0), .movi { msk := 0, d := 3, fa := .i4x8, imm := 0x89ABCDEF }),
    ((0x2A608060100300F9, 0x0, 0x0), .addc { msk := 0, d := 3, a := 4, b := 6, fa := .n32, bor := true, co := 5, ci := 3 }),
    ((0x064000001C0400FC, 0x0, 0x0), .cvti { msk := 0, d := 4, a := 7, tgt := .i64, om := 2 })] = true := by decide

/-- 05, Table 5-4. -/
theorem test_words_masks : readsAs [
    ((0x000000F00C020900, 0x0, 0x0), .mand { msk := 1, d := 2, a := 3, b := 15 }),
    ((0x000000F00C020904, 0x0, 0x0), .mor { msk := 1, d := 2, a := 3, b := 15 }),
    ((0x000000F00C020908, 0x0, 0x0), .mxor { msk := 1, d := 2, a := 3, b := 15 }),
    ((0x000000F00C020910, 0x0, 0x0), .mandn { msk := 1, d := 2, a := 3, b := 15 }),
    ((0x000000000C02010C, 0x0, 0x0), .mnot { msk := 0, d := 2, a := 3 }),
    ((0x0020000000020114, 0x0, 0x0), .mset { msk := 0, d := 2, val := true }),
    ((0x0000000E10020118, 0x0, 0x0), .mfrom { msk := 0, d := 2, a := 900 }),
    ((0x002000000B84011C, 0x0, 0x0), .mto { msk := 0, d := 900, a := 2, ones := true }),
    ((0x00000000085F0120, 0x0, 0x0), .mcnt { msk := 0, d := 95, a := 2 }),
    ((0x00000000085F0124, 0x0, 0x0), .mfirst { msk := 0, d := 95, a := 2 })] = true := by decide

/-- 05, Tables 5-5 and 5-6. -/
theorem test_words_uniform : readsAs [
    ((0x00000017C1011980, 0x0, 0x0), .sadd { msk := 3, d := 1, a := 2, b := .reg 95 }),
    ((0xFFFFF81FC1010184, 0x0, 0x0), .ssub { msk := 0, d := 1, a := 2, b := .imm 0x1FFFFF }),
    ((0x00000017C1011988, 0x0, 0x0), .smul { msk := 3, d := 1, a := 2, b := .reg 95 }),
    ((0x00000017C1011990, 0x0, 0x0), .sand { msk := 3, d := 1, a := 2, b := .reg 95 }),
    ((0xFFFFF81FC1010194, 0x0, 0x0), .sor { msk := 0, d := 1, a := 2, b := .imm 0x1FFFFF }),
    ((0x00000017C1011998, 0x0, 0x0), .sxor { msk := 3, d := 1, a := 2, b := .reg 95 }),
    ((0xFFFFF81FC101019C, 0x0, 0x0), .sshl { msk := 0, d := 1, a := 2, b := .imm 0x1FFFFF }),
    ((0x00000017C10119A0, 0x0, 0x0), .sshr { msk := 3, d := 1, a := 2, b := .reg 95 }),
    ((0xFFFFF81FC10101A4, 0x0, 0x0), .ssar { msk := 0, d := 1, a := 2, b := .imm 0x1FFFFF }),
    ((0x00000380C101018C, 0x0, 0x0), .sdiv { msk := 0, d := 1, q := 4, a := 2, b := .reg 3, u := true, rem := true }),
    ((0x00000100C10101A8, 0x0, 0x0), .smin { msk := 0, d := 1, a := 2, b := .reg 3, u := true }),
    ((0x00000000C10101AC, 0x0, 0x0), .smax { msk := 0, d := 1, a := 2, b := .reg 3, u := false }),
    ((0x00000280C10101B0, 0x0, 0x0), .scmp { msk := 0, q := 4, a := 2, b := .reg 3, u := true, cc := .lt }),
    ((0x0000389FC10101B4, 0x0, 0x0), .ssel { msk := 0, d := 1, q := 4, a := 2, b := .imm 7 }),
    ((0x000000002F0101B8, 0x0, 0x0), .smov { msk := 0, d := 1, a := 94 }),
    ((0x01221800010101C0, 0x0, 0x0), .sbfe { msk := 0, d := 1, a := 2, p := 3, l := 17, sx := true }),
    ((0x00000000010101C4, 0x0, 0x0), .sclz { msk := 0, d := 1, a := 2 }),
    ((0x00000000010101C8, 0x0, 0x0), .spopc { msk := 0, d := 1, a := 2 }),
    ((0x000000C0C10001CC, 0x0, 0x0), .qop { msk := 0, d := 6, op := .and 2 3 }),
    ((0x000001C0C10001CC, 0x0, 0x0), .qop { msk := 0, d := 6, op := .or 2 3 }),
    ((0x000002C0C10001CC, 0x0, 0x0), .qop { msk := 0, d := 6, op := .xor 2 3 }),
    ((0x000003C0C10001CC, 0x0, 0x0), .qop { msk := 0, d := 6, op := .andn 2 3 }),
    ((0x000004C0010001CC, 0x0, 0x0), .qop { msk := 0, d := 6, op := .not 2 }),
    ((0x00000DC0000001CC, 0x0, 0x0), .qop { msk := 0, d := 6, op := .set true }),
    ((0x000006C0268001CC, 0x0, 0x0), .qop { msk := 0, d := 6, op := .test 77 }),
    ((0x000007C0010001CC, 0x0, 0x0), .qop { msk := 0, d := 6, op := .mov 2 })] = true := by decide

/-- 06, Tables 6-1 and 6-2. -/
theorem test_words_float : readsAs [
    ((0x0009406010020A00, 0x0, 0x0), .fadd { msk := 1, d := 2, a := 4, b := 6, fa := .f32, rnd := .rtz }),
    ((0x000D806010020A04, 0x0, 0x0), .fsub { msk := 1, d := 2, a := 4, b := 6, fa := .f64, rnd := .rup }),
    ((0x0011C06010020A08, 0x0, 0x0), .fmul { msk := 1, d := 2, a := 4, b := 6, fa := .bf16x2, rnd := .rdn }),
    ((0x0015406010020A14, 0x0, 0x0), .fdiv { msk := 1, d := 2, a := 4, b := 6, fa := .f32, rnd := .rna }),
    ((0x0005406010020A48, 0x0, 0x0), .fscale { msk := 1, d := 2, a := 4, b := 6, fa := .f32, rnd := .rne }),
    ((0x000580601002020D, 0x8, 0x0), .fma { msk := 0, d := 2, a := 4, b := 6, c := .reg 8, fa := .f64, rnd := .rne }),
    ((0x8001406010020211, 0x3F800000, 0x0), .fnma { msk := 0, d := 2, a := 4, b := 6, c := .imm 0x3F800000, fa := .f32, rnd := .dyn }),
    ((0x000D800010020218, 0x0, 0x0), .fsqrt { msk := 0, d := 2, a := 4, fa := .f64, rnd := .rup }),
    ((0x000D800010020240, 0x0, 0x0), .frnd { msk := 0, d := 2, a := 4, fa := .f64, rnd := .rup }),
    ((0x000140001C032A1C, 0x0, 0x0), .frcp { msk := 5, d := 3, a := 7, fa := .f32 }),
    ((0x000140001C032A20, 0x0, 0x0), .frsq { msk := 5, d := 3, a := 7, fa := .f32 }),
    ((0x000140001C032A2C, 0x0, 0x0), .fabs { msk := 5, d := 3, a := 7, fa := .f32 }),
    ((0x000140001C032A30, 0x0, 0x0), .fneg { msk := 5, d := 3, a := 7, fa := .f32 }),
    ((0x000140001C032A3C, 0x0, 0x0), .fclass { msk := 5, d := 3, a := 7, fa := .f32 }),
    ((0x000140001C032A44, 0x0, 0x0), .fexpo { msk := 5, d := 3, a := 7, fa := .f32 }),
    ((0x000140001C032A4C, 0x0, 0x0), .fexp2 { msk := 5, d := 3, a := 7, fa := .f32 }),
    ((0x000140001C032A50, 0x0, 0x0), .flog2 { msk := 5, d := 3, a := 7, fa := .f32 }),
    ((0x000140001C032A54, 0x0, 0x0), .fsin { msk := 5, d := 3, a := 7, fa := .f32 }),
    ((0x000140001C032A58, 0x0, 0x0), .fcos { msk := 5, d := 3, a := 7, fa := .f32 }),
    ((0x000140001C032A5C, 0x0, 0x0), .ftanh { msk := 5, d := 3, a := 7, fa := .f32 }),
    ((0x000200B01C030224, 0x0, 0x0), .fmin { msk := 0, d := 3, a := 7, b := 11, fa := .f16x2 }),
    ((0x000200B01C030228, 0x0, 0x0), .fmax { msk := 0, d := 3, a := 7, b := 11, fa := .f16x2 }),
    ((0x000200B01C030234, 0x0, 0x0), .fcpsgn { msk := 0, d := 3, a := 7, b := 11, fa := .f16x2 }),
    ((0x0079C0B01C030238, 0x0, 0x0), .fcmp { msk := 0, d := 3, a := 7, b := 11, fa := .bf16x2, cc := .un, el := true, z := true }),
    ((0x002800001C040264, 0x0, 0x0), .fcvti { msk := 0, d := 4, a := 7, tgt := .i32, pos := 0, rnd := .rtz }),
    ((0x002540901C040268, 0x0, 0x0), .fpack { msk := 0, d := 4, a := 7, b := 9, fa := .f32, rnd := .rne, f16 := true }),
    ((0x002000801804026D, 0x3C00, 0x0), .smxi { msk := 0, d := 4, a := 6, b := 8, n1 := 15, b2 := true }),
    ((0x0000008018040271, 0x7C00, 0x0), .smxf { msk := 0, d := 4, a := 6, b := 8, n1 := 31, b2 := false })] = true := by decide

/-- 07, Table 7-6. -/
theorem test_words_memory : readsAs [
    ((0x4040105030090A82, 0xFFFFFFF0, 0x0), .ld { msk := 1, d := 9, addr := ⟨some 5, .v64 12, 0xFFFFFFF0⟩, fa := .n32, sub := .b16 }),
    ((0x000C8FF034090286, 0x4, 0x0), .st { msk := 0, src := 9, addr := ⟨none, .v32 13, 4⟩, fa := .i32, sub := .full, rule := .low, land := 3 }),
    ((0x80E00060002C028A, 0x18, 0x0), .ldu { msk := 0, d := 44, base := some 6, off := 0x18, wid := 3, sx := true }),
    ((0x002000700C000292, 0x80, 0xFE), .pf { msk := 0, addr := ⟨some 7, .v32 3, 0x80⟩, tr := true, lines1 := 0xFE })] = true := by decide

/-- 09, Tables 9-2 and 9-3; 10, Table 10-2. -/
theorem test_words_cross_lane : readsAs [
    ((0x20C0403008010300, 0x0, 0x0), .vget { msk := 0, d := 1, a := 2, mode := .idx 3, z := true, add := false, vm := 6, fa := .i32 }),
    ((0x80003FF008010300, 0x0, 0x0), .vget { msk := 0, d := 1, a := 2, mode := .up 1023, z := false, add := false, vm := 0, fa := .none }),
    ((0xC000010008010300, 0x0, 0x0), .vget { msk := 0, d := 1, a := 2, mode := .xor 16, z := false, add := false, vm := 0, fa := .none }),
    ((0x0480003008010305, 0x0, 0x0), .vpost { msk := 0, d := 1, a := 2, mode := .idx 3, cr := .lo, dm := 4, fa := .none }),
    ((0x2C00400008010305, 0xFFFFFC00, 0x0), .vpost { msk := 0, d := 1, a := 2, mode := .rel 0x3FFFFF, cr := .add, dm := 0, fa := .i32 }),
    ((0x5000800008010305, 0xFFC00, 0x0), .vpost { msk := 0, d := 1, a := 2, mode := .xor 0x3FF, cr := .addin, dm := 0, fa := .n32 }),
    ((0x0000421008010308, 0x0, 0x0), .vbcast { msk := 0, d := 1, a := 2, sel := .uni 33, q := none, fa := .i32 }),
    ((0x41C01F4008010308, 0x0, 0x0), .vbcast { msk := 0, d := 1, a := 2, sel := .slot 500, q := some 6, fa := .none }),
    ((0x8000000008010308, 0x0, 0x0), .vbcast { msk := 0, d := 1, a := 2, sel := .first, q := none, fa := .none }),
    ((0x0020000000010310, 0x0, 0x0), .vslot { msk := 0, d := 1, rank := true }),
    ((0x0D20C000080A0315, 0x0, 0x0), .vred { msk := 0, d := .v 10, a := 2, op := .min, q := some 5, fa := .i64 }),
    ((0x40A040000C5F0315, 0x0, 0x0), .vred { msk := 0, d := .u 95, a := 3, op := .xor, q := none, fa := .i32 }),
    ((0x600140000C010319, 0xC, 0x0), .vscan { msk := 0, d := 1, a := 3, op := .add, exc := true, tot := some 12, q := none, fa := .f32 }),
    ((0x000140000C010321, 0x0, 0x0), .vargmax { msk := 0, d := .v 1, a := 3, q := none, fa := .f32 }),
    ((0x0A60000010030324, 0x0, 0x0), .vballot { msk := 0, d := 3, a := 4, q := some 2, eq := true, z := true }),
    ((0x00400000112C0328, 0x0, 0x0), .vpopc { msk := 0, d := 300, a := 4, mode := 2 }),
    ((0x0F200000112C032C, 0x0, 0x0), .vfirst { msk := 0, d := 300, a := 4, q := some 7, last := true }),
    ((0x2000403008010335, 0x4, 0x0), .vsort { msk := 0, dk := 1, dv := 4, ak := 2, av := 3, desc := true, fa := .i32 })] = true := by decide

/-- 13, Table 13-3. -/
theorem test_words_copies : readsAs [
    ((0x8004803008010B86, 0x100, 0x0), .cpy { msk := 1, d := 1, n := 2, src := some 3, off := 0x100, fa := .none, rule := .low, land := 1 }),
    ((0x813400300801038E, 0x100, 0x400020), .cpys { msk := 0, d := 1, ix := 2, src := some 3, off := 0x100, fa := .none, rule := .fault, land := 5, n := 9, len := 0x20, stride4 := 0x40 }),
    ((0x814507F008010392, 0x8, 0x80000000), .cpy2d { msk := 0, d := 1, n := 2, src := none, off := 8, fa := .none, rule := .any, land := 1, x := 10, len := 0x80000000 }),
    ((0x8005888008010396, 0x0, 0x0), .cpyf { msk := 0, d := 1, n := 2, pat := some 8, fa := .i32, rule := .sum, land := 1 }),
    ((0x817C00800801039A, 0x4, 0xC), .mcast { msk := 0, d := 1, n := 2, src := some 8, off := 4, fa := .none, rule := .fault, land := 7, k := 11, w := 12 })] = true := by decide

/-- 16, Table 16-3. -/
theorem test_words_matrix : readsAs [
    ((0x0120000000000400, 0x0, 0x0), .mshape { msk := 0, mc := 2, nc := 1 }),
    ((0x8000000000000405, 0x400080, 0x0), .mwin { msk := 0, base := 0x40, len := 0x80 }),
    ((0x0000006014000408, 0x0, 0x0), .mzero { msk := 0, r := 5, n := 6 }),
    ((0x8004B9000000040E, 0x0, 0x0), .mmul { msk := 0, cls := .bf16, sp := none, z := false, desc := 16, low := true, land := 1 }),
    ((0x0000082004100416, 0x40, 0x7), .mrd { msk := 0, d := 16, addr := ⟨some 2, .v32 1, 0x40⟩, fa := .i32, n1 := 7 }),
    ((0x4004A8200810041A, 0x40, 0xF), .mwr { msk := 0, src := 16, addr := ⟨some 2, .v64 2, 0x40⟩, fa := .f32, n1 := 15, low := true, land := 1 }),
    ((0x8064010000000422, 0x0, 0x0), .msplit { msk := 0, k1 := 3, desc := 16, low := false, land := 1 }),
    ((0x82E4010000000426, 0x0, 0x0), .mrecomb { msk := 0, k1 := 7, tri := true, desc := 16, low := false, land := 1 })] = true := by decide

/-- 18, Table 18-2. -/
theorem test_words_expansion : readsAs [
    ((0x0000000000070484, 0x0, 0x0), .xclr { msk := 0, d := some 7 }),
    ((0x0020000000000484, 0x0, 0x0), .xclr { msk := 0, d := none }),
    ((0x0000000020070488, 0x0, 0x0), .xmov { msk := 0, d := 7, a := 8 }),
    ((0x002000014007048D, 0x2400, 0x0), .xform { msk := 0, d := 7, a := 80, n1 := 9, add := true }),
    ((0x0020000020070490, 0x0, 0x0), .xshift { msk := 0, d := 7, a := 8, add := true }),
    ((0x0000000020070498, 0x0, 0x0), .xlshift { msk := 0, d := 7, a := 8, add := false }),
    ((0x002005A02064049D, 0x0, 0x0), .xeval { msk := 0, d := 100, a := 8, b := 90, add := true }),
    ((0x00200090200404A5, 0x8000004D, 0x0), .xadm { msk := 0, d := 4, a := 8, b := 9, c := 77, theta := 0x200000, z := true })] = true := by decide

/-- 21, Table 21-2. -/
theorem test_words_work_lists : readsAs [
    ((0x8004004000080502, 0x40, 0x3), .wapp { msk := 0, item := 8, base := some 4, off := 0x40, dst := .imm 3 }),
    ((0x8020004000050506, 0x40, 0xFFFF), .wcnt { msk := 0, d := 5, base := some 4, off := 0x40, dst := .imm 0xFFFF, ov := true })] = true := by decide


/-! ## States -/

/-- The machine with a program placed: one thread in slot 0 of team 0, which the next step fetches for. -/
def base : State := State.reset.placed []

/-- The placed machine with its team replaced. -/
def teamIs (f : Team → Team) : State := base.putTm (f base.tm)

/-- A team of four threads, LTI 0 to 3 in slots 0 to 3. -/
def four (t : Team) : Team := { t with remap := [(0, 0), (1, 1), (2, 2), (3, 3)] }.setM 0 0xF

/-- Registers of slot i, each with its tag. -/
def holding (i : Nat) (l : List (Nat × Tag × DWord)) (t : Team) : Team :=
  l.foldl (fun (t : Team) x => ({ t with tag := t.tag.set .none x.1 x.2.1 }).wrW x.2.1.pair x.1 i x.2.2) t

/-- Uniform registers. -/
def uniform (l : List (UReg × DWord)) (t : Team) : Team := l.foldl (fun t x => t.setS x.1 x.2) t

/-- The team after an instruction. -/
def after (i : Instr) (s : State) : Option Team :=
  match exec i s with
  | .next t => some t.tm
  | _ => none

/-- What slot 0 of v8 holds after an instruction that reads a in v2 and b in v4, both of tag f, and its tag. -/
def gives (f : Tag) (a b : DWord) (i : Instr) : Option (DWord × Tag) :=
  (after i (teamIs (holding 0 [(2, f, a), (4, f, b)]))).map fun u => (if (u.tagOf 8).pair then u.rd64 8 0 else (u.rd 8 0).setWidth 64, u.tagOf 8)

/-- The bit of slot 0 in m3 after such an instruction. -/
def marks (f : Tag) (a b : DWord) (i : Instr) : Option Bool :=
  (after i (teamIs (holding 0 [(2, f, a), (4, f, b)]))).map fun u => u.m[(3 : MReg)].getLsbD 0

def arith (sat : Bool) : VArith := { msk := 0, d := 8, a := 2, b := 4, fa := .none, sat := sat, om := 3 }
def bin : VBin := { msk := 0, d := 8, a := 2, b := 4, fa := .none }
def un : VUn := { msk := 0, d := 8, a := 2, fa := .none }
def shift (n : Fin 64) : VShift := { msk := 0, d := 8, a := 2, amt := .imm n, fa := .none }
def fbin (r : Rnd) : FBin := { msk := 0, d := 8, a := 2, b := 4, fa := .none, rnd := r }

/-! ## Results: the integer group, worked out by hand from R116 to R130 -/

theorem test_add_wraps : gives .i32 0x7FFFFFFF 1 (.add (arith false)) = some (0x80000000, .i32) := by decide +kernel
theorem test_add_saturates : gives .i32 0x7FFFFFFF 1 (.add (arith true)) = some (0x7FFFFFFF, .i32) := by decide +kernel
theorem test_add_overflow_bit : marks .i32 0x7FFFFFFF 1 (.add (arith false)) = some true := by decide +kernel
theorem test_sub_unsigned_saturates : gives .n32 3 5 (.sub (arith true)) = some (0, .n32) := by decide +kernel
theorem test_mul_wide : gives .i64 (-3) 5 (.mul (arith false)) = some (-15, .i64) := by decide +kernel
theorem test_mulh_signed : gives .i32 0xFFFFFFFF 1 (.mulh bin) = some (0xFFFFFFFF, .i32) := by decide +kernel
theorem test_mad_immediate : gives .i32 7 6 (.mad ⟨0, 8, 2, 4, .imm 0xFFFFFFFF, .none, false, 0⟩) = some (41, .i32) := by decide +kernel
theorem test_div_truncates : gives .i32 0xFFFFFFF9 2 (.div (arith false)) = some (0xFFFFFFFD, .i32) := by decide +kernel
theorem test_rem_sign : gives .i32 0xFFFFFFF9 2 (.rem bin) = some (0xFFFFFFFF, .i32) := by decide +kernel
theorem test_neg_saturates : gives .i32 0x80000000 0 (.neg { msk := 0, d := 8, a := 2, fa := .none, sat := true, om := 3 }) =
    some (0x7FFFFFFF, .i32) := by decide +kernel
theorem test_abs_wraps : gives .i32 0x80000000 0 (.abs { msk := 0, d := 8, a := 2, fa := .none, sat := false, om := 3 }) =
    some (0x80000000, .i32) := by decide +kernel
theorem test_min_signed : gives .i32 0xFFFFFFFF 1 (.min bin) = some (0xFFFFFFFF, .i32) := by decide +kernel
theorem test_max_unsigned : gives .n32 0xFFFFFFFF 1 (.max bin) = some (0xFFFFFFFF, .n32) := by decide +kernel
theorem test_bitwise : (gives .n32 12 10 (.and bin), gives .n32 12 10 (.or bin), gives .n32 12 10 (.xor bin), gives .n32 12 10 (.andn bin)) =
    (some (8, .n32), some (14, .n32), some (6, .n32), some (4, .n32)) := by decide +kernel
theorem test_not : gives .n32 0x0F 0 (.not un) = some (0xFFFFFFF0, .n32) := by decide +kernel
theorem test_shl_full_width : gives .n32 1 0 (.shl (shift 32)) = some (0, .n32) := by decide +kernel
theorem test_shr : gives .n32 0x80000000 0 (.shr (shift 31)) = some (1, .n32) := by decide +kernel
theorem test_sar_beyond_width : gives .i32 0x80000000 0 (.sar (shift 40)) = some (0xFFFFFFFF, .i32) := by decide +kernel
theorem test_rot_modulo_width : gives .n32 0x80000000 0 (.rot (shift 33)) = some (1, .n32) := by decide +kernel
theorem test_counts_of_zero : (gives .n64 0 0 (.clz un), gives .n64 0 0 (.ctz un), gives .n64 0 0 (.popc un)) =
    (some (64, .n32), some (64, .n32), some (0, .n32)) := by decide +kernel
theorem test_brev : gives .n32 1 0 (.brev un) = some (0x80000000, .n32) := by decide +kernel
theorem test_bfe_signed : gives .i32 0x00000F00 0 (.bfe { msk := 0, d := 8, a := 2, fld := .imm 8 4, fa := .none }) =
    some (0xFFFFFFFF, .i32) := by decide +kernel
theorem test_bfi_cut_off : gives .n32 0 0xFF (.bfi { msk := 0, d := 8, a := 2, b := 4, fld := .imm 28 8, fa := .none }) =
    some (0xF0000000, .n32) := by decide +kernel
theorem test_cmp_signed : marks .i32 0xFFFFFFFF 0 (.cmp { msk := 0, d := 3, a := 2, b := 4, fa := .none, cc := .lt, z := false }) =
    some true := by decide +kernel
theorem test_sel_clear_bit : gives .n32 7 9 (.sel { msk := 0, d := 8, a := 2, b := 4, fa := .none, sm := 3 }) = some (9, .n32) := by
  decide +kernel
theorem test_mov_keeps_tag : gives .bf16x2 0x3F803F80 0 (.mov un) = some (0x3F803F80, .bf16x2) := by decide +kernel
theorem test_movi_f64 : gives .n32 0 0 (.movi { msk := 0, d := 8, fa := .f64, imm := 0x3FF00000 }) = some (0x3FF0000000000000, .f64) := by
  decide +kernel
theorem test_addc_carry_out : marks .n32 0xFFFFFFFF 1 (.addc { msk := 0, d := 8, a := 2, b := 4, fa := .none, bor := false, co := 3, ci := 0 }) =
    some true := by decide +kernel
theorem test_cvti_saturates : gives .i64 0x100000000 0 (.cvti { msk := 0, d := 8, a := 2, tgt := .i32, om := 3 }) =
    some (0x7FFFFFFF, .i32) := by decide +kernel

/-- R120: the payload of a zero divisor is the dividend, extended. -/
theorem test_div_by_zero : ((after (.div (arith false)) (teamIs (holding 0 [(2, .i32, 0xFFFFFFFB), (4, .i32, 0)]))).map (·.wait)) = some .sup ∧
    (match exec (.div (arith false)) (teamIs (holding 0 [(2, .i32, 0xFFFFFFFB), (4, .i32, 0)])) with
      | .next t => (t.die 0).fifo.map fun r => (r.eff, r.payload, r.pc)
      | _ => []) = [(0x12, 0xFFFFFFFFFFFFFFFB, 0)] := by decide +kernel

/-! ## Results: masks and uniform registers (R132 to R140) -/

/-- m1 = 0011, m2 = 0101 in a team of four: the mask that an instruction leaves in m3. -/
def masks (i : Instr) : Option MaskBits := (after i (teamIs fun t => ((four t).setM 1 3).setM 2 5)).map fun u => u.m[(3 : MReg)]

theorem test_mask_logic : (masks (.mand ⟨0, 3, 1, 2⟩), masks (.mor ⟨0, 3, 1, 2⟩), masks (.mxor ⟨0, 3, 1, 2⟩), masks (.mandn ⟨0, 3, 1, 2⟩)) =
    (some 1, some 7, some 6, some 2) := by decide +kernel
theorem test_mnot_in_active_slots : masks (.mnot ⟨2, 3, 1⟩) = some 4 := by decide +kernel
theorem test_mset : (masks (.mset ⟨1, 3, true⟩), masks (.mset ⟨0, 3, false⟩)) = (some 3, some 0) := by decide +kernel
theorem test_mfrom : (after (.mfrom ⟨0, 3, 2⟩) (teamIs fun t => holding 2 [(2, .n32, 5)] (four t))).map (fun u => u.m[(3 : MReg)]) =
    some 4 := by decide +kernel
theorem test_mto_ones : (after (.mto ⟨0, 8, 1, true⟩) (teamIs fun t => (four t).setM 1 2)).map
    (fun u => ([0, 1, 2, 3].map (u.rd 8), u.tagOf 8)) = some ([0, 0xFFFFFFFF, 0, 0], .i32) := by decide +kernel
theorem test_mcnt_and_mfirst : ((after (.mcnt ⟨0, 5, 2⟩) (teamIs fun t => (four t).setM 2 0xA)).map (fun u => u.s[5]),
    (after (.mfirst ⟨0, 5, 2⟩) (teamIs fun t => (four t).setM 2 0xA)).map (fun u => u.s[5]),
    (after (.mfirst ⟨0, 5, 2⟩) (teamIs four)).map (fun u => u.s[5])) = (some 2, some 1, some 0xFFFFFFFFFFFFFFFF) := by decide +kernel

/-- What s8 holds after an instruction that reads a in s2 and b in s4. -/
def uni (a b : DWord) (i : Instr) : Option DWord := (after i (teamIs (uniform [(2, a), (4, b)]))).map fun u => u.s[8]

theorem test_uniform_wraps : (uni (-1) 2 (.sadd ⟨0, 8, 2, .reg 4⟩), uni 1 2 (.ssub ⟨0, 8, 2, .reg 4⟩), uni (-3) 5 (.smul ⟨0, 8, 2, .reg 4⟩)) =
    (some 1, some (-1), some (-15)) := by decide +kernel
theorem test_uniform_bits : (uni 12 10 (.sand ⟨0, 8, 2, .reg 4⟩), uni 12 10 (.sor ⟨0, 8, 2, .reg 4⟩), uni 12 10 (.sxor ⟨0, 8, 2, .reg 4⟩)) =
    (some 8, some 14, some 6) := by decide +kernel
theorem test_uniform_shifts : (uni 1 64 (.sshl ⟨0, 8, 2, .reg 4⟩), uni (-1) 64 (.sshr ⟨0, 8, 2, .reg 4⟩), uni (-1) 64 (.ssar ⟨0, 8, 2, .reg 4⟩)) =
    (some 0, some 0, some (-1)) := by decide +kernel
theorem test_sdiv_by_zero : (after (.sdiv ⟨0, 8, 3, 2, .reg 4, false, false⟩) (teamIs (uniform [(2, 7)]))).map (fun u => (u.s[8], u.q[3])) =
    some (-1, true) := by decide +kernel
theorem test_smin_smax : (uni (-1) 1 (.smin ⟨0, 8, 2, .reg 4, false⟩), uni (-1) 1 (.smin ⟨0, 8, 2, .reg 4, true⟩),
    uni (-1) 1 (.smax ⟨0, 8, 2, .reg 4, false⟩)) = (some (-1), some 1, some 1) := by decide +kernel
theorem test_scmp_unsigned : (after (.scmp ⟨0, 3, 2, .reg 4, true, .gt⟩) (teamIs (uniform [(2, -1), (4, 1)]))).map (fun u => u.q[3]) =
    some true := by decide +kernel
theorem test_ssel_clear : uni 1 2 (.ssel ⟨0, 8, 3, 2, .reg 4⟩) = some 2 := by decide +kernel
theorem test_smov_sclz_spopc : (uni 5 0 (.smov ⟨0, 8, 2⟩), uni 5 0 (.sclz ⟨0, 8, 2⟩), uni 5 0 (.spopc ⟨0, 8, 2⟩)) =
    (some 5, some 61, some 2) := by decide +kernel
/-- 05: the worked `sli` of position 2. -/
theorem test_sli_position : (after (.sli ⟨0, 8, 2, 0x1F8000⟩) (teamIs (uniform [(8, 1)]))).map (fun u => u.s[8]) =
    some 0x7E00000000000001 := by decide +kernel
theorem test_sbfe_signed : uni 0xF00 0 (.sbfe ⟨0, 8, 2, 8, 4, true⟩) = some (-1) := by decide +kernel
theorem test_qop : (after (.qop ⟨0, 1, .test 2⟩) (teamIs (uniform [(2, 9)]))).map (fun u => u.q[1]) = some true := by decide +kernel

/-! ## Results: the float group, by the formats of 04 (R141 to R157) -/

/-- 1 + 2 = 3, 1 − 2 = −1, 2 × 3 = 6 and 1 ÷ 3 in FP32. -/
theorem test_float_arithmetic : (gives .f32 0x3F800000 0x40000000 (.fadd (fbin .rne)), gives .f32 0x3F800000 0x40000000 (.fsub (fbin .rne)),
    gives .f32 0x40000000 0x40400000 (.fmul (fbin .rne)), gives .f32 0x3F800000 0x40400000 (.fdiv (fbin .rne))) =
    (some (0x40400000, .f32), some (0xBF800000, .f32), some (0x40C00000, .f32), some (0x3EAAAAAB, .f32)) := by decide +kernel
/-- 1 ÷ 3 toward zero. -/
theorem test_fdiv_toward_zero : gives .f32 0x3F800000 0x40400000 (.fdiv (fbin .rtz)) = some (0x3EAAAAAA, .f32) := by decide +kernel
/-- 1.5 × 2 + 0.25 and −(1.5 × 2) + 0.25, the addend an FP32 immediate. -/
theorem test_fma_fnma : (gives .f32 0x3FC00000 0x40000000 (.fma ⟨0, 8, 2, 4, .imm 0x3E800000, .none, .rne⟩),
    gives .f32 0x3FC00000 0x40000000 (.fnma ⟨0, 8, 2, 4, .imm 0x3E800000, .none, .rne⟩)) =
    (some (0x40500000, .f32), some (0xC0300000, .f32)) := by decide +kernel
theorem test_fsqrt_of_four : gives .f64 0x4010000000000000 0 (.fsqrt ⟨0, 8, 2, .none, .rne⟩) = some (0x4000000000000000, .f64) := by
  decide +kernel
/-- The square root of −1 is the default NaN, invalid. -/
theorem test_fsqrt_invalid : (after (.fsqrt ⟨0, 8, 2, .none, .rne⟩) (teamIs (holding 0 [(2, .f32, 0xBF800000)]))).map
    (fun u => (u.rd 8 0, u.fflags)) = some (0x7FC00000, 0x10) := by decide +kernel
theorem test_frcp_frsq : (gives .f32 0x40800000 0 (.frcp un), gives .f32 0x40800000 0 (.frsq un)) =
    (some (0x3E800000, .f32), some (0x3F000000, .f32)) := by decide +kernel
/-- −0 is below +0 (R145). -/
theorem test_fmin_of_zeros : gives .f32 0 0x80000000 (.fmin bin) = some (0x80000000, .f32) := by decide +kernel
theorem test_fmax_of_nan : gives .f32 0x7FC00000 0x3F800000 (.fmax bin) = some (0x3F800000, .f32) := by decide +kernel
theorem test_float_signs : (gives .f32 0xBF800000 0 (.fabs un), gives .bf16x2 0x3F80BF80 0 (.fneg un), gives .f32 0x3F800000 0x80000000 (.fcpsgn bin)) =
    (some (0x3F800000, .f32), some (0xBF803F80, .bf16x2), some (0xBF800000, .f32)) := by decide +kernel
theorem test_fcmp_unordered : (marks .f32 0x7FC00000 0 (.fcmp ⟨0, 3, 2, 4, .none, .un, false, false⟩),
    marks .f32 0x7FC00000 0 (.fcmp ⟨0, 3, 2, 4, .none, .lt, false, false⟩)) = (some true, some false) := by decide +kernel
/-- 2.5 to an integral value: to even, and up. -/
theorem test_frnd : (gives .f32 0x40200000 0 (.frnd ⟨0, 8, 2, .none, .rne⟩), gives .f32 0x40200000 0 (.frnd ⟨0, 8, 2, .none, .rup⟩)) =
    (some (0x40000000, .f32), some (0x40400000, .f32)) := by decide +kernel
theorem test_fexpo : gives .f32 0x41000000 0 (.fexpo un) = some (3, .i32) := by decide +kernel
theorem test_fscale : gives .f32 0x3F800000 0xFFFFFFFF (.fscale (fbin .rne)) = some (0x3F000000, .f32) := by decide +kernel
/-- 2^3 and log2 8. -/
theorem test_fexp2_flog2 : (gives .f32 0x40400000 0 (.fexp2 un), gives .f32 0x41000000 0 (.flog2 un)) =
    (some (0x41000000, .f32), some (0x40400000, .f32)) := by decide +kernel
theorem test_functions_of_zero : (gives .f32 0 0 (.fsin un), gives .f32 0 0 (.fcos un), gives .f32 0 0 (.ftanh un)) =
    (some (0, .f32), some (0x3F800000, .f32), some (0, .f32)) := by decide +kernel
/-- 1.0 to element 1 of two, the other kept (R154). -/
theorem test_fcvt_keeps_others : (after (.fcvt ⟨0, 8, 2, .bf16x2, 1, .rne⟩) (teamIs (holding 0 [(2, .f32, 0x3F800000), (8, .bf16x2, 0x12345678)]))).map
    (fun u => u.rd 8 0) = some 0x3F805678 := by decide +kernel
theorem test_fcvti_toward_zero : gives .f32 0xC0200000 0 (.fcvti ⟨0, 8, 2, .i32, 0, .rtz⟩) = some (0xFFFFFFFE, .i32) := by decide +kernel
theorem test_fpack : gives .f32 0x3F800000 0x40000000 (.fpack ⟨0, 8, 2, 4, .none, .rne, false⟩) = some (0x40003F80, .bf16x2) := by decide +kernel
/-- R156: from the empty state, one score of 1 (base 2): the maximum is 1, the sum 2^(1 − 1). -/
theorem test_smxi : (after (.smxi ⟨0, 8, 9, 2, 0, true⟩) (teamIs (holding 0 [(2, .f32, 0x3F800000), (8, .f32, 0), (9, .i32, 0x80000000)]))).map
    (fun u => (u.rd 8 0, u.rd 9 0)) = some (0x3F800000, 1) := by decide +kernel

/-! ## Hypotheses: a state that meets those of each statement together -/

/-- One thread with a in v2, b in v4 and c in v6, all of tag f. -/
def abc (f : Tag) (a b c : DWord) : State := teamIs (holding 0 [(2, f, a), (4, f, b), (6, f, c)])

/-- One thread as `abc` has it, with a result pending on v8. -/
def owing (f : Tag) : State := teamIs fun t => { holding 0 [(2, f, 1), (4, f, 2), (6, f, 3)] t with
  pend := [Pend.make 5 (.vec 8 false) .timed [(0, 7)] []] }

/-- `IntegerArithmetic`: FA absent, and FA given over registers without a tag; an immediate addend; a destination that is pending. -/
theorem test_meets_IntegerArithmetic : (integerFormats.all fun f => (abc f 1 2 3).goesOver 0 .none f [2, 4] 8 f &&
    (abc f 1 2 3).goesOver 0 .none f [2, 4, 6] 8 f && base.goesOver 0 f f [2, 4] 8 f && base.goesOver 0 f f [2] 8 f &&
    (owing f).goesOver 0 .none f [2, 4] 8 f && !(owing f).tm.nonePending [8] []) = true := by decide +kernel

/-- R78: a write of every live slot supersedes what is pending there. -/
theorem test_supersedes : (after (.add ⟨0, 8, 2, 4, .none, false, 0⟩) (owing .i32)).map (fun u => (u.rd 8 0, u.nonePending [8] [])) =
    some (3, true) := by decide +kernel

/-- `IntegerArithmetic`: the clauses of narrowing, at the bounds. -/
theorem test_meets_narrowing : (integerFormats.all fun f => decide (f.lo ≤ f.hi ∧ f.lo - 1 < f.lo ∧ f.hi < f.hi + 1) &&
    f.ext (f.narrow true (f.hi + 1)).1 == f.hi && f.ext (f.narrow true (f.lo - 1)).1 == f.lo && f.ext (f.narrow false (f.hi + 1)).1 == f.lo &&
    !(f.narrow false f.lo).2) = true := by decide +kernel

/-- `IntegerDivision`: no divisor is zero, and every divisor is zero. -/
theorem test_meets_IntegerDivision : (integerFormats.all fun f =>
    (abc f 7 2 0).goes 0 .none f [2, 4] [] 8 f && ((abc f 7 2 0).tm.slotsOf ((abc f 7 2 0).tm.exec 0)).all (fun i =>
      f.ext ((abc f 7 2 0).tm.rdTag f 4 i) != 0) &&
    (abc f 7 0 0).goes 0 .none f [2, 4] [] 8 f && ((abc f 7 0 0).tm.slotsOf ((abc f 7 0 0).tm.exec 0)).all (fun i =>
      f.ext ((abc f 7 0 0).tm.rdTag f 4 i) == 0)) = true := by decide +kernel

/-- `ShiftsAndBitFields`: an amount and a field from a register, and none. -/
theorem test_meets_ShiftsAndBitFields : (integerFormats.all fun f => (abc f 7 2 0).goes 0 .none f [2] [9] 8 f &&
    (abc f 7 2 0).goes 0 .none f [2] [] 8 f && (abc f 7 2 0).goes 0 .none f [2] [] 8 .n32 && (abc f 7 2 0).goes 0 .none f [2, 4] [9] 8 f) =
    true := by decide +kernel

/-- `IntegerComparesAndMoves`. -/
theorem test_meets_IntegerComparesAndMoves : (integerFormats.all fun f =>
    let s := abc f 7 2 0
    s.tm.active 0 && s.tm.typed .none f [2, 4] && s.tm.nonePending (([2, 4] : List VReg).flatMap fun r => span f.pair r.val) [] &&
    s.tm.tagOf 2 == f && destFits s.vregs f 8 && s.tm.nonePending (span f.pair 2 ++ span f.pair 8) [] && s.tm.nonePending (span f.pair 8) [] &&
    integerFormats.all fun g => s.goes 0 .none f [2] [] 8 g) = true := by decide +kernel

/-- `MaskOperations`, `MaskCounts` (which has no hypothesis but on the masks), `FirstSlot`. -/
theorem test_meets_MaskOperations : (let t := (four base.tm).setM 1 5
    t.active 1 && t.nonePending [8] [] && t.slotsOf (t.m[(1 : MReg)] &&& (t.m[(0 : MReg)] &&& t.m[0])) == [0, 2] &&
    t.slotsOf (t.m[(2 : MReg)] &&& (t.m[(0 : MReg)] &&& t.m[0])) == []) = true := by decide +kernel

/-- `UniformOperations`. -/
theorem test_meets_UniformOperations : (let t := base.tm
    t.active 0 && t.nonePending [] (2 :: USrc.regs (.reg 4)) && t.nonePending [] (2 :: USrc.regs (.imm 5)) && t.nonePending [] [2]) = true := by
  decide +kernel

/-- 1.0, 2.0 and 3.0 of a format. -/
def ones (f : Tag) : State :=
  match f with
  | .f64 => abc f 0x3FF0000000000000 0x4000000000000000 0x4008000000000000
  | .f32 => abc f 0x3F800000 0x40000000 0x40400000
  | .bf16x2 => abc f 0x3F803F80 0x40004000 0x40404040
  | _ => abc f 0x3C003C00 0x40004000 0x42004200

/-- `FloatArithmetic`: each instruction on 1, 2 and 3, with no exception that is enabled to trap. -/
theorem test_meets_FloatArithmetic : (floatFormats.all fun f =>
    let s := ones f
    let n (r : VReg) (k : Nat) : FVal := s.tm.number f r 0 k
    s.goes 0 .none f [2, 4] [] 8 f && s.goes 0 .none f [2] [] 8 f && s.goes 0 .none f [2, 4, 6] [] 8 f &&
    s.tm.slotsOf (s.tm.exec 0) == [0] &&
    floatRows.all (fun p => !fpxTraps s.tm.fen (packed f fun k => p.2 (ieeeOf f) (s.tm.mode .rne) (n 2 k) (n 4 k)).2) &&
    !fpxTraps s.tm.fen (packed f fun k => fSqrt (ieeeOf f) (s.tm.mode .dyn) (n 2 k)).2 &&
    !fpxTraps s.tm.fen (packed f fun k => fFma (ieeeOf f) (s.tm.mode .rup) true (n 2 k) (n 4 k) (n 6 k)).2) = true := by decide +kernel

/-- `FloatArithmetic`: the functions of 1. -/
theorem test_meets_float_functions : (functionRows.all fun p => p.2.1.all fun f =>
    let s := ones f
    s.goes 0 .none f [2] [] 8 f && !fpxTraps s.tm.fen (packed f fun k => p.2.2 (ieeeOf f) (s.tm.number f 2 0 k)).2) = true := by decide +kernel

/-- `FloatArithmetic`: a quiet and a signalling NaN. -/
theorem test_meets_nan : (fp32.val 0x7FC00000).isNan = true ∧ (fp32.val 0x7F800001).isSig = true := by decide +kernel

/-- `EnabledExceptionsTrap`: ∞ − ∞ with invalid enabled. -/
theorem test_meets_EnabledExceptionsTrap :
    let s := teamIs fun t => { holding 0 [(2, .f32, 0x7F800000), (4, .f32, 0xFF800000)] t with fen := 0x10 }
    s.goes 0 .none .f32 [2, 4] [] 8 .f32 = true ∧ ∀ i ∈ s.tm.slotsOf (s.tm.exec 0), fpxTraps s.tm.fen
      (packed .f32 fun k => fAdd (ieeeOf .f32) (s.tm.mode .rne) (s.tm.number .f32 2 i k) (s.tm.number .f32 4 i k)).2 = true := by decide +kernel

/-- `FloatSignsComparesAndParts`. -/
theorem test_meets_FloatSignsComparesAndParts : (floatFormats.all fun f =>
    let s := ones f
    s.goes 0 .none f [2] [] 8 f && s.goes 0 .none f [2, 4] [] 8 f && s.goes 0 .none f [2] [] 8 .n32 && s.tm.active 0 &&
    s.tm.typed .none f [2, 4] && s.tm.nonePending (([2, 4] : List VReg).flatMap fun r => span f.pair r.val) [] &&
    !fpxTraps s.tm.fen (packed f fun k => fMinMax (ieeeOf f) true (s.tm.el f 2 0 k) (s.tm.el f 4 0 k)).2 &&
    !fpxTraps s.tm.fen (fCompare .lt (s.tm.number f 2 0 0) (s.tm.number f 4 0 0)).2 &&
    !fpxTraps s.tm.fen (packed f fun k => fIntegral (ieeeOf f) (s.tm.mode .rne) (s.tm.el f 2 0 k)).2) = true := by decide +kernel

/-- `FloatSignsComparesAndParts`: `fexpo` and `fscale`, by a raw register. -/
theorem test_meets_parts : ([Tag.f32, .f64].all fun f =>
    let s := ones f
    s.goes 0 .none f [2] [] 8 .i32 && s.goes 0 .none f [2] [9] 8 f && !fpxTraps s.tm.fen (fExpo (s.tm.number f 2 0 0)).2 &&
    !fpxTraps s.tm.fen (packed f fun _ => fScale (ieeeOf f) (s.tm.mode .rne) (s.tm.number f 2 0 0) (s.tm.rd 9 0).toInt).2) = true := by
  decide +kernel

/-- `FloatConversions`: FP32 to BF16X2 in the stochastic mode, to and from an integer, and a pack. -/
theorem test_meets_FloatConversions :
    let s := ones .f32
    let o : FCvt := ⟨0, 8, 2, .bf16x2, 1, .sr⟩
    let c : FCvt := ⟨0, 8, 2, .i32, 0, .rtz⟩
    (posOk (elemCount .f32) (elemCount o.tgt) o.pos && s.goes 0 .none .f32 [2] [] 8 o.tgt && !fpxTraps s.tm.fen (convOut s.tm o .f32 0).fl &&
      posOk (elemCount .f32) (elemCount c.tgt) c.pos && s.goes 0 .none .f32 [2] [] 8 c.tgt && !fpxTraps s.tm.fen (convOut s.tm c .f32 0).fl &&
      s.goes 0 .none .f32 [2, 4] [] 8 .bf16x2 && s.goes 0 .none .f32 [2, 4] [] 8 .f16x2 &&
      (abc .i32 7 0 0).goes 0 .none .i32 [2] [] 8 .f32 &&
      !fpxTraps s.tm.fen (packed .bf16x2 fun k =>
        (elemOf .bf16x2).conv (s.tm.mode .rne) (s.tm.number .f32 (if k = 0 then 2 else 4) 0 0)).2) = true := by decide +kernel

/-- `OnlineSoftmax`: two scores, both forms. -/
theorem test_meets_OnlineSoftmax : (
    let s := teamIs (holding 0 [(2, .f32, 0x3F800000), (3, .f32, 0xBF800000), (8, .f32, 0), (9, .i32, 0x80000000), (10, .f32, 0xFF800000)])
    s.tm.active 0 && s.tm.holds [(8, .f32), (9, .i32), (2, .f32), (3, .f32)] && s.tm.holds [(8, .f32), (10, .f32), (2, .f32), (3, .f32)] &&
    s.tm.nonePending [8, 9, 10, 2, 3] [] && !fpxTraps s.tm.fen (smxiSlot true 0 (-0x80000000) [0x3F800000, 0xBF800000]).2.2 &&
    !fpxTraps s.tm.fen (smxfSlot true 0 0xFF800000 [0x3F800000, 0xBF800000]).2.2) = true := by decide +kernel

/-! ## Memory (07) -/

/-- A machine whose core has bytes in its local window, s2 at offset 0x10 of the window. -/
def local' (l : List (Nat × Byte)) (f : Team → Team) : State :=
  let s := teamIs fun t => f (uniform [(2, 0xFE00000000000010)] t)
  s.putCr { s.cr with loc := l }

def at2 (off : BitVec 32) : Addr := ⟨some 2, .absent, off⟩

/-- Little-endian, and a signed byte. -/
theorem test_ld : ((after (.ld ⟨0, 8, at2 0, .n32, .full⟩) (local' [(0x10, 0x78), (0x11, 0x56), (0x12, 0x34), (0x13, 0x12)] id)).map
      (fun u => (u.pend.map Pend.vals, u.tagOf 8, u.rd 8 0)),
    (after (.ld ⟨0, 8, at2 0, .i32, .b8⟩) (local' [(0x10, 0x80)] id)).map (fun u => u.pend.map Pend.vals)) =
    (some ([[(0, 0x12345678)]], .n32, 0), some [[(0, 0xFFFFFFFFFFFFFF80)]]) := by decide +kernel

/-- R160: the payload of a misaligned access holds reason 0x04. -/
theorem test_ld_misaligned : (match exec (.ld ⟨0, 8, at2 2, .n32, .full⟩) (local' [] id) with
    | .next t => (t.die 0).fifo.map fun r => (r.eff, r.payload)
    | _ => []) = [(7, 0xFE00000000000004)] := by decide +kernel

theorem test_ldt : (after (.ldt ⟨0, 8, at2 0, .n32, 1⟩) (local' [(0x10, 1), (0x14, 2)] id)).map
    (fun u => u.pend.map fun p => (p.dst, p.vals)) = some [(.vec 8 false, [(0, 1)]), (.vec 9 false, [(0, 2)])] := by decide +kernel

theorem test_ldu : (after (.ldu ⟨0, 8, some 2, 0, 2, true⟩) (local' [(0x11, 0x80)] id)).map
    (fun u => u.pend.map fun p => (p.dst, p.vals)) = some [(.uni 8, [(0, 0xFFFFFFFFFFFF8000)])] := by decide +kernel

/-- A store is queued for the next landing point; the window has not changed. -/
theorem test_st : (match exec (.st ⟨0, 8, at2 0, .none, .full, .low, 1⟩) (local' [] (holding 0 [(8, .n32, 0x12345678)])) with
    | .next t => (t.cr.writes.map (fun w => (w.lti, w.addr, w.bytes, w.left)), t.cr.loc)
    | _ => ([], [(0, 0)])) = ([(0, 0x10, [0x78, 0x56, 0x34, 0x12], 1)], []) := by decide +kernel

theorem test_claim : (match exec (.claim ⟨0, 8, at2 0, .none, 9⟩) (local' [] (holding 0 [(8, .i32, 5)])) with
    | .next t => (t.cr.writes.map (fun w => (w.rule, w.claim.isSome)), t.tm.pend.map (fun p => (p.dst, p.await, p.out)))
    | _ => ([], [])) = ([(.sumin, true)], [(.vec 9 false, .core, [0])]) := by decide +kernel

theorem test_pf : (after (.pf ⟨0, at2 0, false, 0⟩) (local' [] id)).map (fun u => (u.pc, u.pend)) = some (16, []) := by decide +kernel

/-- `WindowsOfTheAddressSpace`: the ends of the windows. -/
theorem test_meets_WindowsOfTheAddressSpace :
    let l := { placedLaunch with priv := 0x10000, exch := 0x1000000, ncg := 6 }
    ([0, 2 ^ 52 - 4, 2 ^ 52, 0xFCFFFFFFFFFFFFFC, 0xFD00000000000000, 0xFD0000000000FFFC, 0xFD00000000010000, 0xFDFFFFFFFFFFFFFC,
      0xFE00000000000000, 0xFE000000001FFFFC, 0xFE00000000200000, 0xFE00FFFFFFFFFFFC, 0xFE01000000000000, 0xFE01000005FFFFFC,
      0xFE01000006000000, 0xFE01000007FFFFFC, 0xFE01000008000000, 0xFE00000000000002].map fun a => windowOf l false 4 a 4 .read) =
    [none, none, some (.scope 1), some (.scope 1), some (.here (.priv 0)), some (.here (.priv 0xFFFC)), some (.scope 1), some (.scope 1),
      some (.here (.loc 0)), some (.here (.loc 0x1FFFFC)), some (.scope 1), some (.scope 1), some (.here (.exch 0 0)),
      some (.here (.exch 5 0xFFFFFC)), some (.scope 3), some (.scope 3), some (.scope 1), some (.scope 4)] := by decide +kernel

/-- `LoadsBecomePending`: every access succeeds, and every access is misaligned. -/
theorem test_meets_LoadsBecomePending :
    let s := local' [(0x10, 1)] id
    (s.reaches 0 (at2 0) (span false 8) && destFits 1024 .n32 8 && s.reaches 0 (at2 0) [8, 9] && s.tm.active 0 && s.tm.nonePending [] [2] &&
      s.reaches 0 (at2 0) [] && !s.linesWait (coreOf s.cur) s.tm.part && (s.tm.lanes (s.tm.exec 0)) == [0] && (s.tm.slotsOf (s.tm.exec 0)) == [0]) = true ∧
    s.gotRead (coreOf s.cur) (s.tm.lti 0) 4 4 false (s.tm.addrOf (at2 0) 0) = .val 1 ∧
    s.gotRead (coreOf s.cur) (s.tm.lti 0) 4 4 false (s.tm.addrOf (at2 0) 0 + 4) = .val 0 ∧
    s.gotRead (coreOf s.cur) (s.tm.lti 0) 8 8 false (s.tm.baseOf (some 2) + 0) = .val 1 ∧
    s.reaches 0 (at2 2) (span false 8) = true ∧ s.gotRead (coreOf s.cur) (s.tm.lti 0) 4 4 false (s.tm.addrOf (at2 2) 0) = .fails 4 := by decide +kernel

/-- A team with one result pending on v8. -/
def waiting (a : Await) (e : List (DWord × BitVec 6)) : State := teamIs fun t =>
  { t with pend := [{ Pend.make 5 (.vec 8 false) a [(0, 0x10004)] [] with owed := e }] }

/-- `ValuesArrive`: a timed result, with and without an exception owed; one of host memory, whose page is translated. -/
theorem test_meets_ValuesArrive :
    ([[], [((0 : DWord), (1 : BitVec 6))]].all fun e => let s := waiting .timed e
      (s.team 0).pend.all (fun p => p.due && p.kept && p.out == [] && p.gone == [] && p.owed == e && !s.asked (coreOf 0) p.id &&
        !fpxTraps p.fen 1) && (s.team 0).pend.filter (fun q => q.id == 5 && q.due) == (s.team 0).pend) = true ∧
    (let s := waiting (.hostIn 4 false) []
     let t : State := { s with ctl := { s.ctl with ats := [(1, 7)] } }
     (t.team 0).pend.all (fun p => p.vals != [] && p.vals.all fun v => t.hostPage (v.2.toNat / 2 ^ 16) == some 7)) = true ∧
    base.tm.seat? 0 = some 0 := by decide +kernel

/-- A value arrives, and the exception it owes (R91). -/
theorem test_value_arrival : (match exec (.valueArrival 0 0) (waiting .timed [(0, 1)]) with
    | .next t => (t.tm.rd 8 0, t.tm.fflags, t.tm.pend)
    | _ => (0, 0, [])) = (0x10004, 1, []) := by decide +kernel

/-- The bytes of host page 7, at the offset of the bus address. -/
theorem test_host_in_read : (match exec (.hostInReadCompletion 0 { k := 0, changed := [] }) (let s := waiting (.hostIn 4 false) []
      { s with host := [(0x70004, 0xAB)], ctl := { s.ctl with ats := [(1, 7)] } }) with
    | .next t => (t.tm.rd 8 0, t.tm.pend)
    | _ => (0, [])) = (0xAB, []) := by decide +kernel

/-- `StoresAreQueued`: a raw store, a sum, and a claim, to the local window. -/
theorem test_meets_StoresAreQueued :
    let s := local' [] (holding 0 [(8, .i32, 5)])
    (s.reaches 0 (at2 0) (span false 8) && s.reaches 0 (at2 0) (span false 8 ++ span false 9) && s.tm.typed .none .i32 [8] &&
      s.tm.tagOf 8 == .i32 && !s.strict && destFits s.vregs .i32 9 && s.tm.slotsOf (s.tm.exec 0) == [0]) = true ∧
    s.find (coreOf s.cur) false 4 (s.tm.addrOf (at2 0) 0) 4 (.write .fault 1) = .here (.loc 0x10) ∧
    s.find (coreOf s.cur) false 4 (s.tm.addrOf (at2 0) 0) 4 (.write .sum 1) = .here (.loc 0x10) ∧
    s.find (coreOf s.cur) false 4 (s.tm.addrOf (at2 0) 0) 4 .claim = .here (.loc 0x10) ∧
    s.linesWait (coreOf s.cur) s.tm.part = false ∧
    (let x := teamIs fun t => uniform [(2, 0xFE01000000000010)] (holding 0 [(8, .i32, 5)] t)
     let c := x.putCr { x.cr with grp := some { placedGroup with l := { placedLaunch with exch := 0x1000000 } } }
     c.find (coreOf c.cur) false 4 (c.tm.addrOf (at2 0) 0) 4 .claim = .here (.exch 0 0x10)) := by decide +kernel

/-- A write of one byte. -/
def byteWrite (lti : DWord) (r : Rule) (a : Nat) (b : Byte) : Write :=
  { lti := lti, seq := 0, row := 0, addr := a, va := 0, bytes := [b], rule := r, fmt := .none, left := 1, claim := none }

/-- Table 7-4: alone, under FAULT, under LOW, and under two rules. -/
theorem test_landings : let land (l : List Write) := (((landAll [(4, 9)] [] l).mem.get unwritten 4), (landAll [(4, 9)] [] l).faults.length)
    (land [byteWrite 0 .fault 4 1], land [byteWrite 0 .fault 4 1, byteWrite 1 .fault 4 2], land [byteWrite 1 .low 4 1, byteWrite 0 .low 4 2],
      land [byteWrite 0 .low 4 1, byteWrite 1 .fault 4 2]) = ((1, 0), (9, 2), (2, 0), (9, 2)) := by decide +kernel

/-- `WritesLandByTheirScopeAndRule`: the page of a HOST-OUT write is translated, and is not; writes that meet and that do not. -/
theorem test_meets_WritesLandByTheirScopeAndRule :
    pteScope (BitVec.ofNat 64 (5 * 16 + 1)) = 5 ∧ pteScope (BitVec.ofNat 64 (2 * 16 + 1)) ≠ 5 ∧ base.posts = [] ∧ base.hostPage 1 = none ∧
    ({ base with ctl := { base.ctl with ats := [(1, 7)] } } : State).hostPage 1 = some 7 ∧
    (let post : Post := { seq := 5, ctx := 0, phase := 1, lti := 0, page := 1, off := 0, va := 0, bytes := [1] }
     base.holdsPost post = false ∧
     State.holdsPost (teamIs fun t => { t with log := [{ key := 1, stamp := 1, ltis := [0], addr := 0, op := .store [1] .low .n32 3 1 }] }) post =
       true) ∧
    (let w := byteWrite 0 .fault 4 1
     let x := byteWrite 1 .fault 4 2
     let y := byteWrite 1 .low 5 2
     [w, x].filter (fun z => w.overlaps z) = [w, x] ∧ [w, y].filter (fun z => w.overlaps z) = [w] ∧ w.covers 4 = true ∧ x.covers 4 = true ∧
       w.lti ≠ x.lti ∧ y.rule ≠ w.rule ∧ w.claim = none) := by decide +kernel

/-- `LandingsResolveCollisions`, for SUM, SUMIN with claims, and ANY: two threads write one element. -/
theorem test_meets_LandingsResolveCollisions :
    ([Rule.sum, .sumin, .any].all fun r =>
      let l := [(0 : DWord), 1].map fun (k : DWord) => { byteWrite k r 4 1 with bytes := [5, 0, 0, 0], fmt := .i32, claim := if r == Rule.sumin then some 3 else none }
      l.all fun w => w.bytes != [] && l.filter (fun x => w.overlaps x) == l &&
        l.all fun x => x.rule == w.rule && x.fmt == w.fmt && x.addr == w.addr && x.bytes.length == w.bytes.length) = true := by decide +kernel

/-- Table 7-4: the sum of 5 and 5, and, under SUMIN, of the old value 9 too, with the prefix results of its claims. -/
theorem test_sums : let l (r : Rule) := [(0 : DWord), 1].map fun (k : DWord) => { byteWrite k r 4 1 with bytes := [5, 0, 0, 0], fmt := .i32, claim := some 3 }
    ((landAll [(4, 9)] [] (l .sum)).mem.get unwritten 4, (landAll [(4, 9)] [] (l .sumin)).mem.get unwritten 4,
      (landAll [(4, 9)] [] (l .sumin)).claims) = (10, 19, [(3, 0, 9), (3, 1, 14)]) := by decide +kernel

/-! ## Cross-lane and collective instructions (09, 10) -/

/-- Four threads with the values of l in v2, tag f. -/
def row (f : Tag) (l : List DWord) : State := teamIs fun t => l.zipIdx.foldl (fun t x => holding x.2 [(2, f, x.1)] t) (four t)

/-- What the four slots of v8 hold. -/
def lanes4 (i : Instr) (s : State) : Option (List Word) := (after i s).map fun u => [0, 1, 2, 3].map (u.rd 8)

/-- 09: one step of a scan adds the value of the slot one below. -/
theorem test_vget_add_dn : lanes4 (.vget ⟨0, 8, 2, .dn 1, false, true, 0, .none⟩) (row .i32 [1, 2, 3, 4]) = some [1, 3, 5, 7] := by decide +kernel
theorem test_vget_xor : lanes4 (.vget ⟨0, 8, 2, .xor 1, true, false, 3, .none⟩) (row .n32 [1, 2, 3, 4]) = some [2, 1, 4, 3] := by decide +kernel
theorem test_vbcast_slot : lanes4 (.vbcast ⟨0, 8, 2, .slot 2, none, .none⟩) (row .n32 [1, 2, 3, 4]) = some [3, 3, 3, 3] := by decide +kernel
theorem test_vlti_thread : lanes4 (.vlti ⟨0, 8, 1⟩) (row .n32 [1, 2, 3, 4]) = some [0, 1, 2, 3] := by decide +kernel
theorem test_vslot_rank : lanes4 (.vslot ⟨2, 8, true⟩) (teamIs fun t => (four t).setM 2 0xA) = some [0, 0, 0, 1] := by decide +kernel
theorem test_vpost_add : lanes4 (.vpost ⟨0, 8, 2, .idx 3, .add, 4, .none⟩) (row .i32 [1, 2, 3, 4]) = some [10, 0, 0, 0] := by decide +kernel
theorem test_vpost_collides : (match exec (.vpost ⟨0, 8, 2, .idx 3, .fault, 4, .none⟩) (row .i32 [1, 2, 3, 4]) with
    | .next t => (t.die 0).fifo.map (·.eff)
    | _ => []) = [8] := by decide +kernel
theorem test_vred_vector : lanes4 (.vred ⟨0, .v 8, 2, .min, none, .none⟩) (row .i32 [3, 0xFFFFFFFF, 5, 1]) =
    some [0xFFFFFFFF, 0xFFFFFFFF, 0xFFFFFFFF, 0xFFFFFFFF] := by decide +kernel
theorem test_vred_uniform_sign_extends : (after (.vred ⟨0, .u 8, 2, .add, none, .none⟩) (row .i32 [1, 2, 0xFFFFFFF0, 4])).map
    (fun u => u.pend.map Pend.vals) = some [[(0, -9)]] := by decide +kernel
theorem test_vscan_exclusive : lanes4 (.vscan ⟨0, 8, 2, .add, true, none, none, .none⟩) (row .i32 [1, 2, 3, 4]) = some [0, 1, 3, 6] := by
  decide +kernel
theorem test_vargmin_first : lanes4 (.vargmin ⟨0, .v 8, 2, none, .none⟩) (row .i32 [3, 1, 1, 2]) = some [1, 1, 1, 1] := by decide +kernel
theorem test_vargmax_first : lanes4 (.vargmax ⟨0, .v 8, 2, none, .none⟩) (row .i32 [3, 5, 5, 2]) = some [1, 1, 1, 1] := by decide +kernel
theorem test_vballot : (after (.vballot ⟨0, 3, 2, some 1, false, true⟩) (row .n32 [1, 0, 7, 0])).map (fun u => (u.m[(3 : MReg)], u.q[1])) =
    some (5, false) := by decide +kernel
theorem test_vpopc_below : lanes4 (.vpopc ⟨0, 8, 3, 0⟩) (teamIs fun t => (four t).setM 3 0xB) = some [0, 1, 2, 2] := by decide +kernel
theorem test_vfirst_last : lanes4 (.vfirst ⟨0, 8, 3, none, true⟩) (teamIs fun t => (four t).setM 3 6) = some [2, 2, 2, 2] := by decide +kernel
theorem test_vcompact_zeroes : lanes4 (.vcompact ⟨0, 8, 2, 3, none, true, .none⟩) (teamIs fun _ => ((row .n32 [1, 2, 3, 4]).tm.setM 3 0xA)) =
    some [2, 4, 0, 0] := by decide +kernel
/-- R221: −0 is below +0, and a NaN comes last. -/
theorem test_vsort : (after (.vsort ⟨0, 8, 9, 2, 3, false, .none⟩) (row .f32 [0, 0x7FC00000, 0x80000000, 0xBF800000])).map
    (fun u => [0, 1, 2, 3].map (u.rd 8)) = some [0xBF800000, 0x80000000, 0, 0x7FC00000] := by decide +kernel

/-- Four threads with numbers in v2 and v4, and slot numbers in v6. -/
def posts (f : Tag) : State := teamIs fun t => [0, 1, 2, 3].foldl (fun t i =>
  holding i [(2, f, BitVec.ofNat 64 (i + 1)), (4, f, 5), (6, .n32, BitVec.ofNat 64 (i + 1))] t) (four t)

/-- `CrossLaneMoves`: reads, with a named slot and without one; posts to the slot above, whose sum of one value is that value. -/
theorem test_meets_CrossLaneMoves :
    let s := posts .i32
    (s.tm.active 0 && destFits 1024 .i32 8 && s.tm.typed .none .i32 [2] && destFits s.vregs .i32 8 && s.rawTag .none .i32 2 8 &&
      s.tm.nonePending (span false 2 ++ [6] ++ span false 8) [] && s.tm.nonePending (span true 8) [] && destFits 1024 .n64 8 &&
      s.tm.live.getLsbD 3 && !s.tm.live.getLsbD 4 && s.tm.typed .none .i32 [2, 8] == false && s.tm.typed .none .i32 [2, 4] &&
      [1, 2, 3].all (fun j => ((s.P 0).filter fun i => i + 1 == j).length == 1) &&
      !fpxTraps s.tm.fen (sumTag .i32 [s.tm.rdTag .i32 2 0]).2.1) = true ∧
    ((s.tm.slotsOf (s.tm.exec 0)).map s.tm.lti).Nodup ∧ s.tm.names 3 3 ∧ ¬ s.tm.names 4 4 := by
  unfold Team.names; decide +kernel

/-- `Reductions`: every operation on the formats that it takes, of values 1 to 4 or of small floats; then no slot is active. -/
theorem test_meets_Reductions : ([Tag.i32, .n32, .i64, .n64, .f32, .f64, .bf16x2, .f16x2].all fun f =>
    let s := posts f
    s.goes 0 .none f [2] [] 8 f && s.tm.active 0 && s.tm.typed .none f [2] && s.tm.nonePending (8 :: span f.pair 2) [] &&
    [RedOp.add, .min, .max, .and, .or, .xor].all fun op => !RedOp.accepts op f ||
      !fpxTraps s.tm.fen (RedOp.combine op f ((s.P 0).map fun i => s.tm.rdTag f 2 i)).fl &&
      !fpxTraps s.tm.fen (argOf true .i32 ((s.P 0).map fun i => (i, s.tm.rdTag f 2 i))).fl) = true ∧
    ((posts .i32).P 0).map (posts .i32).tm.lti = [0, 1, 2, 3] ∧ base.tm.exec 3 = 0 := by decide +kernel

/-- `VotesCompactionAndSorting`. -/
theorem test_meets_VotesCompactionAndSorting : ([Tag.i32, .n32, .f32].all fun f =>
    let s := teamIs fun _ => (posts f).tm.setM 3 5
    s.tm.active 0 && s.tm.nonePending [2, 4, 8, 9] [] && destFits 1024 f 8 && s.rawTag .none f 2 8 && s.tm.typed .none f [2] &&
    !(s.tm.tagOf 4).pair && (s.P 0).filter (fun i => s.tm.m[(3 : MReg)].getLsbD i) == [0, 2] && s.tm.lanes s.tm.live == [0, 1, 2, 3]) = true ∧
    (((posts .i32).P 0).map (posts .i32).tm.lti).Nodup := by decide +kernel

/-- `FirstSlot`. -/
theorem test_meets_FirstSlot : (let t := (four base.tm).setM 3 6
    t.active 0 && t.nonePending [8] [] && t.slotsOf (t.m[(3 : MReg)] &&& t.exec 0) == [1, 2] &&
    t.slotsOf (t.m[(2 : MReg)] &&& t.exec 0) == []) = true := by decide +kernel

/-! ## Control flow and effects (08, 11) -/

theorem test_br_backwards : (after (.br ⟨0, 0xFFFFFE⟩) (teamIs fun t => { t with pc := 0x20 })).map (·.pc) = some 0x18 := by decide +kernel
theorem test_bq_all_not : (after (.bq ⟨0, .all 3, true, 0x10⟩) (teamIs fun t => (four t).setM 3 7)).map (·.pc) = some 0x40 := by decide +kernel
theorem test_call : (after (.call ⟨0, 5, 0x10⟩) (teamIs fun t => { t with pc := 0x20 })).map (fun u => (u.pc, u.s[5])) = some (0x60, 0x28) := by
  decide +kernel
theorem test_ret_jmpi : ((after (.ret ⟨0, 5⟩) (teamIs (uniform [(5, 0x28)]))).map (·.pc),
    (after (.jmpi ⟨0, 5, 0x1FFFFF⟩) (teamIs (uniform [(5, 0x28)]))).map (·.pc)) = (some 0x28, some 0x24) := by decide +kernel
theorem test_loop_last : (after (.loop ⟨0, 5, none, 0xFFFFFC⟩) (teamIs fun t => uniform [(5, 1)] { t with pc := 0x20 })).map
    (fun u => (u.pc, u.s[5])) = some (0x28, 0) := by decide +kernel
theorem test_loop_again : (after (.loop ⟨0, 5, none, 0xFFFFFC⟩) (teamIs fun t => uniform [(5, 2)] { t with pc := 0x20 })).map
    (fun u => (u.pc, u.s[5])) = some (0x10, 1) := by decide +kernel
/-- R185: the taken side goes on, the other waits. -/
theorem test_brd_splits : (after (.brd ⟨0, 3, 0x10, 0x20, none⟩) (teamIs fun t => { (four t).setM 3 3 with spill := 0 })).map
    (fun u => (u.pc, u.m[(0 : MReg)], u.div.map fun e => (e.wait, e.rpc, e.alt))) = some (0x40, 3, [(0xC, 0x80, 16)]) := by decide +kernel
theorem test_join_resumes : (after (.join ⟨0⟩) (teamIs fun t => { (four t).setM 0 3 with
    pc := 0x80, div := [{ eff := false, rpc := 0x80, alt := 16, wait := 0xC, done := 0, h := [], tags := [], range := none }] })).map
    (fun u => (u.pc, u.m[(0 : MReg)], u.div.map fun e => (e.wait, e.done))) = some (16, 0xC, [(0, 3)]) := by decide +kernel

/-- A core with one rejoin point (Table 1-4). -/
def rejoins : State := base.putCr { base.cr with grp := some { placedGroup with l := { placedLaunch with rejoins := 4 } } }

theorem test_rejoin_parks : (match exec (.rejoin ⟨0, 2, 3, 0, none⟩) rejoins with
    | .next t => (t.cr.rounds.map (fun r => (r.id, r.count, r.parked.map fun x => (x.lti, x.pc))), (t.team 0).resident)
    | _ => ([], true)) = ([(2, 4, [(0, 16)])], false) := by decide +kernel
theorem test_exit : (match exec (.exit ⟨0⟩) base with | .next t => (t.team 0).resident | _ => true) = false := by decide +kernel

/-- A handler for an effect, whose region ends at 0x80. -/
def handler (e : BitVec 16) : HEntry := { eff := e, hpc := 0x100, stop := 0x80, tk := 20, hl := 23, ret := false, links := [] }

theorem test_hpush : (after (.hpush ⟨0, 4, 0x34, 0x2C, 20, 23⟩) (teamIs fun t => { t with pc := 0x10 })).map
    (fun u => u.h.map fun e => (e.eff, e.hpc, e.stop)) = some [(4, 0xE0, 0xC0)] := by decide +kernel
theorem test_hpop : (after (.hpop ⟨0, none⟩) (teamIs fun t => { t with pc := 0x80, h := [handler 4] })).map (fun u => (u.pc, u.h)) =
    some (0x88, []) := by decide +kernel
theorem test_perform_without_handler : (match exec (.perform ⟨0, 30, 0x100, some 22, false, none⟩) (teamIs fun t =>
      holding 0 [(22, .n64, 0x1234567812345678)] { t with pc := 0x40, h := [handler 4] }) with
    | .next t => (t.die 0).fifo.map fun r => (r.eff, r.payload, r.pc)
    | _ => []) = [(0x100, 0x1234567812345678, 0x40)] := by decide +kernel
theorem test_brk_without_handler : (match exec (.brk ⟨0, 7⟩) base with
    | .next t => ((t.die 0).fifo.map fun r => (r.eff, r.payload), t.tm.wait)
    | _ => ([], .run)) = ([(0xF, 7)], .sup) := by decide +kernel

/-- A record of a `perform` that continues at 0x40, and its token in v20 of slot 0. -/
def saved : Rec := { loc := 5, shown := 5, bytes := 576, gen := 1, token := true, ms := false, lti := 0, pc := 0x40, range := none, vals := [], tags := [],
                     entries := [handler 0x100], div := [], dst := .perf 30, act := .nothing, marks := [] }
def suspended : State :=
  let s := teamIs fun t => holding 0 [(20, .tok, 2 ^ 40 + 5), (12, .n32, 7)] t
  s.putCr { s.cr with recs := [saved] }

theorem test_resume_in_place : (match exec (.resume ⟨0, none, 20, 12⟩) suspended with
    | .next t => (t.tm.pc, t.tm.rd 30 0, t.tm.h, t.cr.recs)
    | _ => (0, 0, [], [])) = (0x40, 7, [handler 0x100], []) := by decide +kernel
theorem test_drop : (match exec (.drop ⟨0, 20⟩) suspended with | .next t => (t.tm.pc, t.cr.recs) | _ => (0, [])) = (8, []) := by decide +kernel
theorem test_srd : (after (.srd ⟨0, .uni 5 6⟩) base).map (fun u => u.s[5]) = some 0x20 := by decide +kernel
theorem test_swr : (after (.swr ⟨0, 5, 6⟩) (teamIs (uniform [(5, 0x7F)]))).map (·.fen) = some 0x3F := by decide +kernel
theorem test_swr_illegal_round : (match exec (.swr ⟨0, 5, 7⟩) (teamIs (uniform [(5, 6)])) with
    | .next t => ((t.die 0).fifo.map fun r => (r.eff, r.payload), t.tm.round)
    | _ => ([], 0)) = ([(1, 0xA)], 1) := by decide +kernel

/-- `UniformBranches`, `LoopCountsDown`: a counter of 0, 1 and 2, and a condition bit set. -/
theorem test_meets_UniformBranches : (let t := uniform [(5, 1), (6, 2)] base.tm
    t.active 0 && !t.active 1 && t.exec 1 == 0 && t.nonePending [] [5] && t.s[4] == 0 && t.s[5] == 1 && t.s[6] != 0 && t.s[6] != 1 &&
    !t.q[0] && (t.setQ 1 true).q[1]) = true := by decide +kernel

/-- `DivergentBranches`: one side empty, the other side empty, a split that stays, one that spills; a `join` at an entry that waits, at one
that has waited, and elsewhere. -/
theorem test_meets_DivergentBranches :
    let t (m : MaskBits) (sp : BitVec 5) : Team := { (four base.tm).setM 3 m with spill := sp }
    let s := teamIs fun _ => t 1 8
    ((t 0 0).exec 0 &&& (t 0 0).m[(3 : MReg)] = 0 ∧ (t 0xF 0).m[(0 : MReg)] &&& ~~~((t 0xF 0).exec 0 &&& (t 0xF 0).m[(3 : MReg)]) = 0) ∧
    (t 3 0).spill = 0 ∧ (t 3 0).div.length < 32 ∧ ((t 1 8).count 1 ≤ (t 1 8).spill.toNat * (t 1 8).count (t 1 8).m[(0 : MReg)] / 32) ∧
    s.tm.captureWaits none = false ∧ s.cr.lacks (1 * seedBytes 0) = 0 ∧
    (let e : DEntry := { eff := false, rpc := 0, alt := 16, wait := 0xC, done := 0, h := [], tags := [], range := none }
     e.rpc = s.tm.pc ∧ e.wait ≠ 0 ∧ { e with wait := 0, done := 3 }.wait = 0 ∧ { e with rpc := 8 }.rpc ≠ s.tm.pc) := by decide +kernel

/-- `ThreadsLeaveTheirTeam`: all threads leave, or one of four stays. -/
theorem test_meets_ThreadsLeaveTheirTeam :
    (rejoins.tm.active 0 && decide (2 < rejoins.launch.rejoins) && !rejoins.strict && !rejoins.forced (coreOf rejoins.cur) &&
      !rejoins.tm.captureWaits none && rejoins.cr.lacks (1 * seedBytes 0) == 0 && (rejoins.cr.round? 2).isNone &&
      decide ((rejoins.P 0).length ≤ 3) && (rejoins.tm.m[(0 : MReg)] &&& ~~~rejoins.tm.exec 0) &&& rejoins.tm.capMask == 0 &&
      rejoins.tm.div == []) = true ∧
    rejoins.tm.heldAccess ((rejoins.P 0).map rejoins.tm.lti) = false ∧
    (let t := (four base.tm).setM 1 7
     (t.m[(0 : MReg)] &&& ~~~t.exec 1) &&& t.capMask ≠ 0) := by decide +kernel

/-- `EffectsMatchTheFirstEntry`: the second entry matches by name, the third any effect, and none the two that are never searched. -/
theorem test_meets_EffectsMatchTheFirstEntry : let h := [handler 4, handler 0x100, handler 0xFFFF]
    (matchH h 0x100, matchH h 7, matchH [handler 4] 7, matchH h 0x16, matchH h 0x0A) = (some 1, some 2, none, none, none) := by decide +kernel

/-- `HandlerStack`: room and none; a top entry at its END and not, none, and a RET entry with its record. -/
theorem test_meets_HandlerStack :
    let full := List.replicate 16 (handler 4)
    let r : Rec := { saved with token := false }
    let e : HEntry := { handler 4 with ret := true, links := [(0, 5)] }
    let s : State := base.putCr { base.cr with recs := [r] }
    (base.tm.active 0 ∧ base.tm.h.length < 16 ∧ 16 ≤ full.length ∧ (handler 4).stop = 0x80 ∧ (handler 4).ret = false ∧ (handler 4).stop ≠ 0) ∧
    e.stop = 0x80 ∧ e.ret = true ∧ s.tm.div = [] ∧ s.tm.lanes s.tm.live = [0] ∧ s.cr.retRec e s.tm 0 = some r ∧
    s.cr.lacks (seedBytes (rangeLen r.range)) = 0 := by decide +kernel

/-- A raised effect of slot 0. -/
def raised (e : Nat) : Raised :=
  { slot := 0, eff := e, payload := 7, site := 0, pc := 8, dst := .drop, act := .nothing, perf := some (false, none) }

/-- `EffectsAreRaisedAndTaken`: a match; none, and `e.brk` under debug. -/
theorem test_meets_EffectsAreRaisedAndTaken :
    let s := teamIs fun t => { four t with h := [handler 0x100], raised := [raised 0x100] }
    let d : State := { s with ctxs := s.ctxs.map fun e => (e.1, { e.2 with debug := true }) }
    s.tm.raised ≠ [] ∧ raisedRange s.vregs (raised 0x100) = none ∧ 0 ∈ s.tm.lanes s.tm.live ∧ matchH s.tm.h 0x100 = some 0 ∧
    (handler 0x100).tk.val % 2 = 0 ∧ (handler 0x100).tk.val + 3 < 1024 ∧ s.tm.captureWaits none = false ∧ s.tm.div.length < 32 ∧
    s.cr.lacks (1 * recBytes (rangeLen none)) = 0 ∧ s.tm.m[(0 : MReg)] &&& ~~~maskOf [0] ≠ 0 ∧ matchH s.tm.h 0xF = none ∧
    (s.ctx s.cr.ctx).debug = false ∧ (d.ctx d.cr.ctx).debug = true ∧ s.tm.active 0 = true ∧ s.tm.nonePending [22, 23] [] = true := by
  decide +kernel

/-- `ReturnFromAnEffect`: in place, with the divergence stack of the record and from an EFF entry whose WAIT slots rejoin, and (MS) not. -/
theorem test_meets_ReturnFromAnEffect :
    let s := suspended
    let t := teamIs fun t => { s.tm with remap := [(0, 0), (1, 1)], m := t.m.set 0 3 }
    s.tm.active 0 = true ∧ s.tm.typed .tok .tok [20] = true ∧ s.tm.nonePending (span true 20 ++ span false 12) [] = true ∧ s.P 0 = [0] ∧
    (s.cr.token (s.tm.rd64 20 0) (s.tm.lti 0)).toOption = some saved ∧ saved.marks = [] ∧ s.tm.h.length + saved.entries.length ≤ 16 ∧
    s.tm.inPlace [(0, saved)] = true ∧ s.tm.div = saved.div ∧ t.tm.inPlace [(0, saved)] = false ∧ s.cr.lacks (seedBytes (rangeLen saved.range)) = 0 ∧
    (let w : Team := { s.tm with div := [{ eff := true, rpc := 0x40, alt := 0, wait := 2, done := 0, h := handler 0x100 :: s.tm.h, tags := [], range := none }] }
     w.inPlace [(0, saved)] = true ∧ w.div ≠ saved.div) := by
  decide +kernel

/-- `SpecialRegisters`: legal and illegal values, and the two settings of `%det` that `tmrd` distinguishes. -/
theorem test_meets_SpecialRegisters :
    let strict : State := base.putCr { base.cr with grp := some { placedGroup with l := { placedLaunch with det := 2 } } }
    let free : State := base.putCr { base.cr with grp := some { placedGroup with l := { placedLaunch with det := 0 } } }
    (base.tm.active 0 && !base.tm.owesFlags && !base.tm.owesStatus && destFits 1024 .n64 8 && base.tm.nonePending [8, 9] [] &&
      base.tm.nonePending [] [5] && strict.launch.det == 2 && free.launch.det == 0) = true ∧
    (5 : Nat) % 8 ≤ 5 ∧ ¬ (6 : Nat) % 8 ≤ 5 ∧ (16 : Nat) % 32 ≤ 16 ∧ ¬ (17 : Nat) % 32 ≤ 16 := by decide +kernel

/-- R245: under strict determinism `tmrd` raises `e.order`. -/
theorem test_tmrd_strict : (match exec (.tmrd ⟨0, 5⟩) (base.putCr { base.cr with
      grp := some { placedGroup with l := { placedLaunch with det := 2 } } }) with
    | .next t => (t.die 0).fifo.map fun r => (r.eff, r.payload)
    | _ => []) = [(0x10, 0x13)] := by decide +kernel

/-! ## Copies, step points, the matrix engine (12, 13, 15, 16) -/

/-- A machine whose uniform registers name two places of the local window, a length and a mask of clusters. -/
def copies : State := teamIs (uniform [(10, 0xFE00000000000100), (11, 0xFE00000000000000), (12, 16), (13, 2), (14, 1), (15, 0x0000000800000010)])

theorem test_cpy_queued : (match exec (.cpy ⟨0, 10, 12, some 11, 0, .none, .fault, 1⟩) copies with
    | .next t => t.cr.copyQ.map fun c => (c.n, c.len, c.src, c.dst)
    | _ => []) = [(1, 16, some 0xFE00000000000000, 0xFE00000000000100)] := by decide +kernel
theorem test_cpy2d_strides : (match exec (.cpy2d ⟨0, 10, 13, some 11, 0, .none, .fault, 1, 15, 16⟩) copies with
    | .next t => t.cr.copyQ.map fun c => (c.n, c.len, c.srcStep, c.dstStep)
    | _ => []) = [(2, 16, 16, 8)] := by decide +kernel
theorem test_cpyg_list : (match exec (.cpyg ⟨0, 10, 11, some 11, 0, .none, .fault, 1, 13, 8, 2⟩) copies with
    | .next t => t.cr.copyQ.map fun c => (c.n, c.list)
    | _ => []) = [(2, some (0xFE00000000000000, 8, true))] := by decide +kernel
theorem test_cpys_list : (match exec (.cpys ⟨0, 10, 11, some 11, 0, .none, .fault, 1, 13, 8, 2⟩) copies with
    | .next t => t.cr.copyQ.map fun c => (c.n, c.list)
    | _ => []) = [(2, some (0xFE00000000000000, 8, false))] := by decide +kernel
theorem test_cpyf_pattern : (match exec (.cpyf ⟨0, 10, 12, some 13, .none, .fault, 1⟩) copies with
    | .next t => t.cr.copyQ.map fun c => (c.len, c.fill, c.src)
    | _ => []) = [(16, 2, none)] := by decide +kernel
/-- R363: an empty mask only counts. -/
theorem test_mcast_empty : (after (.mcast ⟨0, 10, 12, some 11, 0, .none, .fault, 1, 20, 21⟩) copies).map (·.mcEmpty) = some 1 := by decide +kernel

/-- A copy of 16 bytes within the local window, at the head of the engine's queue. -/
def copying : State :=
  { copies with cores := copies.cores.map fun e => (e.1, { e.2 with
      loc := [(0, 7), (15, 9)]
      copyQ := [{ id := 3, seq := 0, lti := 0, n := 1, len := 16, src := some 0xFE00000000000000, srcStep := 0, dst := 0xFE00000000000100,
                  dstStep := 0, fill := 0, list := none, mask := none, rule := .fault, fmt := .none, land := 1 }] }) }

theorem test_engine_start : (match exec (.engineCommandStart 0 .copy) copying with | .next t => (t.core 0).copyRun | _ => false) = true := by
  decide +kernel
theorem test_engine_finished : (match exec (.engineCommandFinished 0 .copy) { copying with
      cores := copying.cores.map fun e => (e.1, { e.2 with copyRun := true, copyAt := (1, 0), copyGot := [(.loc 0x100, byteWrite 0 .fault 0 7)] }) } with
    | .next t => ((t.core 0).copyQ, (t.core 0).writes.map fun w => (w.addr, w.bytes))
    | _ => ([], [])) = ([], [(0x100, [7])]) := by decide +kernel

/-- Two rows of 16 bytes within the local window, and the same rows through an index list. -/
def twoRows : CopyCmd :=
  { id := 0, seq := 0, lti := 0, n := 2, len := 16, src := some 0xFE00000000000000, srcStep := 16, dst := 0xFE00000000000100,
    dstStep := 16, fill := 0, list := none, mask := none, rule := .fault, fmt := .none, land := 1 }
def listedRows (gather : Bool) : CopyCmd := { twoRows with list := some (0xFE00000000000000, 8, gather) }

/-! `CopiesAreQueuedAndRun`: each form passes its checks. -/
theorem test_meets_cpy : copies.copyGoes 0 [10, 11, 12, 13, 14, 15] { twoRows with n := 1 } [] := by unfold State.copyGoes; decide +kernel
theorem test_meets_cpy2d : copies.copyGoes 0 [10, 12, 13] twoRows [16, 8] := by unfold State.copyGoes; decide +kernel
theorem test_meets_cpyg : copies.copyGoes 0 [10] (listedRows true) [8] := by unfold State.copyGoes; decide +kernel
theorem test_meets_cpys : copies.copyGoes 0 [10] (listedRows false) [8] := by unfold State.copyGoes; decide +kernel
theorem test_meets_cpyf : copies.copyGoes 0 [10] { twoRows with src := none } [] := by unfold State.copyGoes; decide +kernel
theorem test_meets_mcast : copies.copyGoes 0 [10] { twoRows with n := 1, mask := some 1 } [0] := by unfold State.copyGoes; decide +kernel
theorem test_meets_mcast_mask : (1 : DWord) &&& ~~~(copies.partBlk (copies.ctx copies.cr.ctx).part).mask = 0 ∧
    (1 : DWord) &&& ~~~(({ copies with parts := [] } : State).partBlk 0).mask ≠ 0 := by decide +kernel

/-- `CopiesAreQueuedAndRun`: the rows of the command at the head, which stands within the local window. -/
theorem test_meets_copy_runs :
    let s := copying
    (match s.copyRun 0 ((s.core 0).copyQ.headD default) with | .ok ws => ws.length == 1 | _ => false) = true ∧
    0x100 + 16 ≤ (s.core 0).launch.loc ∧ (s.core 0).launch.loc ≤ 2 ^ 21 ∧ (s.core 0).copyAt = (0, 0) ∧ (s.core 0).copyGot = [] ∧
    s.asked 0 3 = false ∧ s.copyLogged 0 3 = false ∧ (((s.core 0).copyQ.map CopyCmd.rows).map List.length) = [1] := by decide +kernel

/-- A team that waits at a core step point, a write due in the local window and a zero due in the accumulator. -/
def landing (w : Wait) : State :=
  let s := teamIs fun t => { t with wait := w, pc := 0x40 }
  s.putCr { s.cr with
    writes := [byteWrite 0 .fault 4 1], accWrites := [{ lti := 0, seq := 0, elem := 5, val := 6, low := false, left := 1 }]
    grantReq := some (16, 32), winReq := some (0, 16) }

theorem test_step_waits : (after (.step ⟨false⟩) base).map (fun u => (u.wait, u.pc)) = some (.core, 0) := by decide +kernel
theorem test_core_step_point : (match exec (.coreStepPoint 0) (landing .core) with
    | .next t => (((t.core 0).loc, (t.core 0).acc, (t.core 0).gm), (t.core 0).gn, (t.core 0).stepc, t.tm.wait, t.tm.pc)
    | _ => (([], [], 0), 0, 0, .core, 0)) = (([(4, 1)], [(5, 6)], 16), 32, 1, .run, 0x48) := by decide +kernel
theorem test_cluster_step_point : (match exec (.clusterStepPoint 0) (landing .clu) with
    | .next t => ((t.core 0).loc, (t.core 0).stepc, (t.core 0).stepk, t.tm.wait, t.tm.pc)
    | _ => ([], 0, 0, .core, 0)) = ([(4, 1)], 1, 1, .run, 0x48) := by decide +kernel

/-- `StepPoints`. -/
theorem test_meets_StepPoints :
    (landing .core).coreStepReady 0 = true ∧ (landing .core).landsClean 0 ∧ (landing .core).hasTeam 0 0 ∧ ((landing .core).team 0).wait = .core ∧
    (landing .clu).clusterStepReady 0 = true ∧ (landing .clu).groupCores 0 = [0] ∧ (landing .clu).landsClean 0 ∧
    anySets ((landing .clu).core 0).exDue = [] ∧ (landAll ((landing .clu).core 0).exch [] ((landing .clu).core 0).exDue).faults = [] ∧
    base.tm.div = [] ∧ base.tm.captureWaits none = false ∧ base.cr.lacks ((0 + 2) * seedBytes 0) = 0 := by
  unfold State.landsClean State.hasTeam; dsimp only; decide +kernel

/-- A core with a granted shape of 16 by 16, K = 32, operands at 0 and 0x400 of the local window, its team's rows 0 to 15. -/
def matrices : State :=
  let s := teamIs fun t => { uniform [(16, 0xFE00000000000000), (17, 0xFE00000000000400), (18, 0x0000002000000020), (19, 32), (20, 0), (21, 1),
    (30, 3), (31, 2)] t with acl := 16 }
  s.putCr { s.cr with gm := 16, gn := 16, win := some (0, 16), loc := [(0, 2), (0x400, 3)] }

theorem test_mshape : (match exec (.mshape ⟨0, 3, 0⟩) base with | .next t => t.cr.grantReq | _ => none) = some (128, 16) := by decide +kernel
theorem test_mwin : (match exec (.mwin ⟨0, 16, 32⟩) base with | .next t => t.cr.winReq | _ => none) = some (16, 32) := by decide +kernel
theorem test_mzero : (match exec (.mzero ⟨0, 30, 31⟩) matrices with
    | .next t => (t.cr.accWrites.length, t.cr.accWrites.head?.map fun w => (w.elem, w.val, w.left))
    | _ => (0, none)) = (256, some (384, 0, 1)) := by decide +kernel
/-- Row 0 by column 0: 2 · 3. -/
theorem test_mmul : (match exec (.mmul ⟨0, .i8, none, true, 16, false, 1⟩) matrices with
    | .next t => t.cr.matQ.map fun m => (m.acc.find? fun w => w.elem == 0).map (·.val)
    | _ => []) = [some 6] := by decide +kernel
theorem test_mloop : (match exec (.mloop ⟨0, .i8, none, false, 16, false, 1⟩) matrices with
    | .next t => t.cr.matQ.map fun m => (m.acc.find? fun w => w.elem == 0).map (·.val)
    | _ => []) = [some 6] := by decide +kernel
theorem test_mrd : (after (.mrd ⟨0, 8, ⟨none, .absent, 5⟩, .i32, 0⟩) (matrices.putCr { matrices.cr with acc := [(5, 77)] })).map
    (fun u => (u.pend.map Pend.vals, u.tagOf 8)) = some ([[(0, 77)]], .i32) := by decide +kernel
theorem test_mwr : (match exec (.mwr ⟨0, 8, ⟨none, .absent, 5⟩, .none, 0, false, 2⟩) (matrices.putTm (holding 0 [(8, .n32, 77)] matrices.tm)) with
    | .next t => t.cr.accWrites.map fun w => (w.elem, w.val, w.left)
    | _ => []) = [(5, 77, 2)] := by decide +kernel
/-- R310: of 1, −128, 3, 4, 5, 6, 7, 8 the kept are −128, 6, 7 and 8, at 1, 5, 6 and 7. -/
theorem test_mcomp : (after (.mcomp ⟨0, 8, 9, 2, true, .none⟩) (teamIs (holding 0 [(2, .i8x4, 0x04038001), (3, .i8x4, 0x08070605), (9, .n32, 0x1234)]))).map
    (fun u => (u.rd 8 0, u.rd 9 0)) = some (0x08070680, 0x0FA91234) := by decide +kernel

/-- `MatrixSetupAndAccess`. -/
theorem test_meets_MatrixSetupAndAccess :
    let s := matrices.putTm (holding 0 [(8, .n32, 77)] matrices.tm)
    let a : Addr := ⟨none, .absent, 5⟩
    (s.tm.active 0 && !s.tm.formed && s.tm.first == 0 && s.tm.nonePending [] [30, 31] && s.reaches 0 a [8] && !(s.tm.tagOf 8).pair &&
      s.tm.ownsRow 3 && s.tm.ownsRow 4 && s.tm.ownsRow 0 && !s.tm.ownsRow 16) = true ∧
    16 + s.launch.teams * 32 ≤ 4096 ∧ 4096 < 4095 + s.launch.teams * 2 ∧ (s.tm.addrOf a 0).toNat = 5 ∧
    (s.tm.addrOf ⟨none, .absent, 2048⟩ 0).toNat / 128 = 16 := by decide +kernel

/-- `MatrixProducts`: a product that passes its checks, as `mmul` and as `mloop`. -/
theorem test_meets_MatrixProducts : ∀ loop : Bool, matrices.productGoes ⟨0, .i8, none, true, 16, false, 1⟩ loop := by
  unfold State.productGoes
  intro loop
  cases loop <;> and_intros <;> decide +kernel

/-- `MatrixProducts`: K = 0. -/
theorem test_meets_empty_product : ((teamIs id).desc ⟨0, .i8, none, true, 16, false, 1⟩ false).k = 0 ∧
    (teamIs id).tm.nonePending [] (descRegs 16 12) = true := by decide +kernel

/-- `Compression`: `mcomp` by tags and by FA. -/
theorem test_meets_Compression : ([Tag.k8tx4, .i8x4].all fun f =>
    let s := teamIs (holding 0 [(2, f, 1), (3, f, 1)])
    s.tm.active 0 && s.tm.tagOf 2 == f && s.tm.tagOf 3 == f && s.tm.nonePending [2, 3, 9, 8] [] && base.tm.tagOf 2 == .none) = true := by
  decide +kernel

/-- `SplittingAndRecombining`: descriptors of a `msplit` of one line, of none, and of a `mrecomb` of one row and column. -/
theorem test_meets_SplittingAndRecombining :
    let p : State := teamIs fun t => { uniform [(16, 0xFE00000000000000), (17, 0xFE00000000000400), (18, 0xFE00000000000800), (19, 8),
      (20, 0x100000 + 1), (21, 16)] t with acl := 16 }
    let r : State := teamIs fun t => { uniform [(16, 0xFE00000000000000), (17, 8), (18, 0xFE00000000000400), (19, 0xFE00000000000800),
      (20, 0x0000010100010000)] t with acl := 16 }
    p.matGoes 0 16 6 ∧ bitsOf (p.tm.desc 16 4) 39 20 = 1 ∧ bitsOf (p.tm.desc 16 4) 19 0 = 1 ∧ bitsOf (p.tm.desc 16 3) 31 0 % 8 = 0 ∧
    bitsOf (p.tm.desc 16 4) 63 40 = 0 ∧ base.matGoes 0 16 6 ∧ bitsOf (base.tm.desc 16 4) 19 0 = 0 ∧
    matFails p.launch [(8, 0xFE00000000000000, 8), (1, 0xFE00000000000400, 1), (4, 0xFE00000000000800, 4)] = none ∧
    r.matGoes 0 16 5 ∧ bitsOf (r.tm.desc 16 4) 47 40 = 1 ∧ bitsOf (r.tm.desc 16 4) 39 32 = 1 ∧ bitsOf (r.tm.desc 16 1) 31 0 % 8 = 0 ∧
    bitsOf (r.tm.desc 16 1) 63 32 = 0 ∧ bitsOf (r.tm.desc 16 4) 63 48 = 0 ∧ bitsOf (r.tm.desc 16 4) 31 28 = 0 ∧
    bitsOf (r.tm.desc 16 4) 15 12 = 0 ∧
    matFails r.launch [(8, 0xFE00000000000000, 8), (4, 0xFE00000000000400, 4), (4, 0xFE00000000000800, 4)] = none ∧ r.tm.ownsRow 0 = true ∧
    pairsOf 1 false = [(1, 1)] := by
  unfold State.matGoes; dsimp only; decide +kernel

/-- R311: 1.5 of exponent 1 in two slices, 0.75 = 96/128 + 0. -/
theorem test_slices : slices 1 (fp64.val 0x3FF8000000000000) 2 = [96, 0] ∧ prodLog (fp64.val 0x3FF8000000000000) = some 0 := by decide +kernel

/-! ## Expansions and work lists (17, 18, 21) -/

/-- Descriptors of order 0: multipoles x0 (at v40, centre v20) and x1 (at v44, centre v24), local expansions x2 (at v48, centre v28)
and x3 (at v52, centre v32); in slot 0 the charge 1 at the origin. -/
def expansions : State :=
  let d (loc : Bool) (b c : VReg) : XDesc := { v := true, loc := loc, f64 := false, p := 0, base := b, cen := c }
  teamIs fun t => holding 0 [(40, .f32, 0x3F800000), (28, .f32, 0x40000000), (48, .f32, 0x3F800000)]
    { t with x := (((t.x.set 0 (d false 40 20)).set 1 (d false 44 24)).set 2 (d true 48 28)).set 3 (d true 52 32) }

theorem test_xbind : (after (.xbind ⟨0, 0, 56, 20, false, 1, true⟩) base).map (fun u => u.x[0]) =
    some { v := true, loc := false, f64 := true, p := 1, base := 56, cen := 20 } := by decide +kernel
/-- R347: spans that overlap. -/
theorem test_xbind_overlap : (match exec (.xbind ⟨0, 2, 20, 21, false, 1, false⟩) base with
    | .next t => (t.die 0).fifo.map fun r => (r.eff, r.payload)
    | _ => []) = [(0x14, 0x207)] := by decide +kernel
theorem test_xclr_xmov : ((after (.xclr ⟨0, some 0⟩) expansions).map (fun u => (u.x[0].v, u.x[1].v)),
    (after (.xmov ⟨0, 5, 0⟩) expansions).map (fun u => u.x[5].base)) = (some (false, true), some 40) := by decide +kernel
/-- Order 0: the sum of the charges, 1 + 2, wherever they are. -/
theorem test_xform : (after (.xform ⟨0, 0, 60, 1, false⟩) (expansions.putTm (holding 0 [(63, .f32, 0x3F800000), (67, .f32, 0x40000000)] expansions.tm))).map
    (fun u => (u.rd 40 0, u.tagOf 40)) = some (0x40400000, .f32) := by decide +kernel
/-- Order 0: a multipole moves unchanged, to x1. -/
theorem test_xshift : (after (.xshift ⟨0, 1, 0, false⟩) expansions).map (fun u => u.rd 44 0) = some 0x3F800000 := by decide +kernel
/-- Order 0: the potential of the charge 1 at distance 2. -/
theorem test_xconv : (after (.xconv ⟨0, 2, 0, false⟩) expansions).map (fun u => u.rd 48 0) = some 0x3F000000 := by decide +kernel
theorem test_xlshift : (after (.xlshift ⟨0, 3, 2, false⟩) expansions).map (fun u => u.rd 52 0) = some 0x3F800000 := by decide +kernel
/-- A constant field: its value, and no gradient. -/
theorem test_xeval : (after (.xeval ⟨0, 70, 2, 80, false⟩) expansions).map (fun u => [70, 71, 72, 73].map fun r => u.rd r 0) =
    some [0x3F800000, 0, 0, 0] := by decide +kernel
/-- R355: one charge of 2 at distance 1 along x; an empty list gives zeros. -/
theorem test_xdirect : (after (.xdirect ⟨0, 70, ⟨some 2, .absent, 0⟩, false, false, none, 90, 80⟩)
      (local' [(0x12, 0x80), (0x13, 0x3F), (0x1F, 0x40)] (holding 0 [(90, .n32, 1)]))).map
    (fun u => u.pend.map fun p => (p.dst, p.vals)) =
    some [(.vec 70 false, [(0, 0x40000000)]), (.vec 71 false, [(0, 0x40000000)]), (.vec 72 false, [(0, 0)]), (.vec 73 false, [(0, 0)])] := by
  decide +kernel
theorem test_xadm : (after (.xadm ⟨0, 3, 0, 2, 90, 0x0FC000, false⟩) (expansions.putTm (holding 0 [(90, .f32, 0x3E800000), (91, .f32, 0)] expansions.tm))).map
    (fun u => u.m[(3 : MReg)]) = some 1 := by decide +kernel

/-- The program's phase started with device memory as it stands. -/
def asStarted (s : State) : State := s.mapPhase 0 1 fun p => { p with base := s.mem }

/-- A header at 0x40 of the program's page with two destinations and their counts at 0x80. -/
def listed : State :=
  let s := teamIs (holding 0 [(8, .n32, 1), (9, .n32, 2), (10, .n32, 3), (11, .n32, 4), (2, .n32, 1)])
  asStarted { s with mem := writeBytes s.mem 0x50040 (leBytes 4 2 ++ leBytes 4 8 ++ leBytes 8 0x1000 ++ leBytes 8 0x80) }

theorem test_wapp : (match exec (.wapp ⟨0, 8, none, 0x40, .reg 2⟩) listed with
    | .next t => (t.ctx 0).phases.map fun p => p.items.map fun x => (x.dst, x.words)
    | _ => []) = [[(1, [1, 2, 3, 4])]] := by decide +kernel
theorem test_wcnt : (after (.wcnt ⟨0, 5, none, 0x40, .imm 1, false⟩) (asStarted { listed with mem := writeBytes listed.mem 0x50084 [7] })).map
    (fun u => u.pend.map Pend.vals) = some [[(0, 7)]] := by decide +kernel

/-- `ExpansionMaps`: an `xbind` that fits, and one of each reason. -/
theorem test_meets_xbind : 56 + 8 ≤ base.vregs ∧ 20 + 6 ≤ base.vregs ∧ (56 % 2 = 0 ∧ 20 % 2 = 0) ∧ 20 + 6 ≤ 56 ∧ ¬ 1020 + 8 ≤ base.vregs ∧
    ¬ 57 % 2 = 0 ∧ ¬ (56 + 8 ≤ 58 ∨ 58 + 6 ≤ 56) ∧ base.tm.active 0 = true := by decide +kernel

/-- `ExpansionMaps`: every kind of descriptor, and operands at hand; no exception is enabled to trap. -/
theorem test_meets_ExpansionMaps :
    let s := expansions
    let x (n : XReg) : XDesc := s.tm.x[n]
    ((x 0).v && !(x 0).loc && (x 1).v && !(x 1).loc && (x 2).v && (x 2).loc && (x 3).v && (x 3).loc && (x 0).p == (x 1).p && (x 0).p == (x 2).p &&
      (x 0).f64 == (x 2).f64 && s.tm.active 0 && (x 0).fmt == .f32 &&
      ((x 0).span ++ (x 0).centre ++ (x 1).span ++ (x 2).span ++ (x 2).centre ++ (x 3).span ++ (x 3).centre ++ (List.range 40).map (60 + ·)).all (fun r : Nat =>
        (s.tm.tagOf r == Tag.none || s.tm.tagOf r == Tag.f32) && decide (r + 1 < 1024)) &&
      s.tm.nonePending ((x 0).span ++ (x 0).centre ++ (x 2).span) [] && decide (60 + 4 * 2 ≤ s.vregs) && s.tm.fen == 0x20) = true ∧
    (fp32.val 0x7F800000).finite = false := by decide +kernel

/-- `NearField`: lists of one entry in the local window and of none; finite operands of `xadm`, and one with a NaN. -/
theorem test_meets_NearField :
    let s := local' [] (holding 0 [(90, .n32, 1)])
    let a : Addr := ⟨some 2, .absent, 0⟩
    (s.reaches 0 a [90] && !s.linesWait (coreOf s.cur) s.tm.part && s.tm.nonePending [] [2] && s.tm.nonePending [] [2, 3] && (s.tm.rd 90 0).toNat == 1 &&
      [80, 81, 82, 70, 71, 72, 73].all (fun r => s.tm.tagOf r == .none)) = true ∧
    s.gotRead (coreOf s.cur) (s.tm.lti 0) 4 4 false (s.tm.addrOf a 0 + 12) = .val 0 ∧
    (fp32.val 0x7FC00000).isNan = true ∧ (fp32.val 0).isZero = true ∧ ((fp32.val 0xBF800000).neg = true ∧ (fp32.val 0xBF800000).isZero = false) ∧
    90 + 2 ≤ expansions.vregs := by decide +kernel

/-- `WorkLists`. -/
theorem test_meets_WorkLists :
    let s := listed
    let die : State := s.putCr { s.cr with grp := some { placedGroup with level := .die } }
    (s.tm.active 0 && s.tm.nonePending [8, 9, 10, 11, 2] [] && s.tm.nonePending [5, 2] [] && !s.linesWait (coreOf s.cur) s.tm.part) = true ∧
    s.appSpot (coreOf s.cur) 0x40 1 = .at 0x50040 ∧ s.cntSpot (coreOf s.cur) 0x40 1 false = .at 0x50084 ∧
    s.cntSpot (coreOf s.cur) 0x40 1 true = .at 0x50058 ∧ s.listByte (coreOf s.cur) 64 0x40 = .at 0x50040 ∧
    s.appSpot (coreOf s.cur) 0x40 2 = .fails 0x13 0x40 ∧ (die.core 0).level = .die ∧ (s.core 0).level ≠ .die := by decide +kernel

/-! ## Events of teams, core groups and pages (08, 11, 20) -/

theorem test_team_promotion : (match exec (.teamPromotion 0) (teamIs fun t => { t with pass := 64 }) with
    | .next t => t.tm.promo.isSome
    | _ => false) = true := by decide +kernel

/-- Three teams of a partition: the oldest two begin with an instruction of the vector pipe, the third with one of the second pipe. -/
def threeTeams : State :=
  let code (i : Instr) : List Byte := (List.range 8).map fun k => BitVec.ofNat 8 ((encode i).getD 0 / 2 ^ (8 * k))
  let s := State.reset.placed (code (.add (arith false)) ++ code (.sadd ⟨0, 8, 2, .reg 4⟩))
  { s with teams := [(0, { s.tm with age := 1 }), (384, { s.tm with age := 0, promo := none }), (768, { s.tm with age := 2, pc := 8 })] }

/-- R250: the older team takes the vector pipe, and the second pipe goes to the third. -/
theorem test_dual_issue : (match act (.clock 0 0) threeTeams with
    | .next t => (t.agenda.take 2, t.teams.map fun e => e.2.pass)
    | _ => ([], [])) = ([.issue 384, .issue 768], [1, 0, 0]) := by decide +kernel

/-- A queued translation fault of the thread in slot 0. -/
def trapped (h : List HEntry) : State := teamIs fun t =>
  { t with h := h, traps := [{ stamp := 1, eff := 6, lti := 0, payload := 0x1234567, act := .access [3], sup := false }] }

/-- R240: no handler matches: the fault goes to the supervisor. -/
theorem test_async_trap_to_supervisor : (match exec (.asyncTrapDelivery 0) (trapped []) with
    | .next t => t.tm.traps.map (·.sup)
    | _ => []) = [true] := by decide +kernel

/-- R240: a leaf for page 1 of the program's table, after which nothing waits. -/
theorem test_supervisor_resolves : (match exec (.supervisorPageResolve 0 0x10000 (some 0x60825))
      (teamIs fun t => { t with raised := [{ raised 6 with payload := 0x10000 }] }) with
    | .next t => (t.tm.raised, read64 t.mem 0x40008)
    | _ => ([], 0)) = ([], 0x60825) := by decide +kernel

/-- Two seeds of one key on a core whose teams hold 32 threads, and no team. -/
def seeds (n : Nat) : State :=
  let x (i : Nat) : Seed := { lti := BitVec.ofNat 64 i, pc := 0x40, range := none, vals := [], tags := [], h := [], div := [], land := none,
                              act := .nothing, marks := [], log := [], traps := [], serving := false, bytes := 576 }
  { base with teams := [], cores := base.cores.map fun e => (e.1, { e.2 with seeds := (List.range n).reverse.map x }) }

/-- Seeds of a full key under replay, which no record forms. -/
def forcedSeeds : State := let s := seeds 32
  { s with ctxs := s.ctxs.map fun e => (e.1, { e.2 with replay := true }) }

theorem test_form_at_quiescence : (match exec (.formAtQuiescence 0) (seeds 2) with
    | .next t => t.teams.map fun e => (e.2.pc, (e.2.lanes e.2.live).map e.2.lti, e.2.formed)
    | _ => []) = [(0x40, [0, 1], true)] := by decide +kernel
theorem test_form_full_key : (match exec (.formFullKey 0) (seeds 33) with
    | .next t => (t.teams.map fun e => (e.2.lanes e.2.live).length, (t.core 0).seeds.map (·.lti))
    | _ => ([], [])) = ([32], [32]) := by decide +kernel
/-- A round of two of whose threads one has come, at clock 0, with a timeout of 10. -/
def halfRound (now : Nat) : State :=
  let s := seeds 0
  { s with clock := now, cores := s.cores.map fun e => (e.1, { e.2 with
      rounds := [{ id := 2, number := 0, count := 2, start := 0, timeout := 10, parked := ((seeds 1).core 0).seeds, held := [] }] }) }

theorem test_rejoin_timeout : ([10, 11].map fun n => match exec (.rejoinTimeout 0 2) (halfRound n) with
    | .next t => (t.teams.map (·.2.pc), (t.core 0).rounds.length)
    | _ => ([], 2)) = [([], 1), ([0x40], 0)] := by decide +kernel

/-- R193: a core whose only team is stuck on a value that arrives at a step point. -/
def deadlocked : State := teamIs fun t => { t with
  stuck := true, pend := [Pend.make 5 (.vec 8 false) .core [] [0]] }

theorem test_deadlock : (match exec (.groupDeadlock 0) deadlocked with
    | .next t => (t.die 0).fifo.map fun r => (r.eff, r.payload)
    | _ => []) = [(0x11, 0x400)] := by decide +kernel

/-- A move that waits for spawn memory: a team's delivery. -/
def moving : State :=
  let s := teamIs fun t => { t with raised := [raised 0x100] }
  s.putCr { s.cr with moves := [.deliver 0] }

theorem test_spawn_move : (match exec (.spawnMoveWait 0) moving with
    | .next t => ((t.core 0).moves, (t.die 0).fifo.map (·.eff))
    | _ => ([], [])) = ([], [0x100]) := by decide +kernel

/-- `TeamEvents`. -/
theorem test_meets_TeamEvents :
    ((teamIs fun t => { t with pass := 64 }).team 0).resident = true ∧ 64 ≤ ((teamIs fun t => { t with pass := 64 }).team 0).pass ∧
    ((trapped []).tm.dueTraps.filter fun x => x.eff == 6 && (matchH (trapped []).tm.h 6).isNone) ≠ [] ∧
    ((trapped [handler 6]).tm.dueTraps.filter fun x => x.eff == 6 && (matchH (trapped [handler 6]).tm.h 6).isNone) = [] ∧
    (trapped [handler 6]).tm.dueTraps ≠ [] ∧ ((trapped [handler 6]).core 0).halted = false ∧
    (seeds 33).forced 0 = false ∧ ((seeds 33).fullKey 0).map (fun x => (x.1.length, x.2.isNone)) = some (32, true) ∧
    ((seeds 33).partFor 0).isSome = true ∧ ((seeds 33).core 0).launch.det = 1 ∧ (sortSeeds ((seeds 2).core 0).seeds).length = 2 ∧
    (seeds 2).teamsOf 0 = [] ∧ (seeds 2).fullKey 0 = none ∧
    (seeds 2).formMissing 0 (sortSeeds ((seeds 2).core 0).seeds) = false ∧
    (let f := forcedSeeds
     f.formMissing 0 (sortSeeds (f.core 0).seeds) = true ∧ f.fullKey 0 = none ∧ (f.partFor 0).isSome = true ∧ f.teamsOf 0 = []) ∧
    (([0, 1].map fun n => ({ halfRound 11 with teams := (List.range (24 * n)).map fun k => (384 * k,
      { base.tm with part := Fin.ofNat 12 k }) } : State).partFor 0).map Option.isSome) = [true, false] ∧ ((seeds 33).core 0).halted = false ∧
    ([10, 11].all fun n => let s := halfRound n
      ((s.core 0).round? 2).any (fun r => r.id == 2 && r.timeout == 10 && r.held.isEmpty && r.parked.all fun y => y.act == .nothing) && !s.forced 0) =
      true ∧
    (threeTeams.bidders 0 0).map (fun b => (b.key, b.pipe)) = [(0, some .vector), (384, some .vector), (768, some .second)] := by decide +kernel

/-- `TeamEvents`: a deadlock; a move for which there is room; one that lacks memory while no team is there. -/
theorem test_meets_deadlock_and_moves :
    deadlocked.coreDead 0 = true ∧ (deadlocked.teamsOf 0).map (·.1) = [0] ∧ (deadlocked.core 0).rounds = [] ∧
    (moving.core 0).moves = [.deliver 0] ∧ moving.moveLack 0 (.deliver 0) = 0 ∧ (moving.team 0).raised ≠ [] ∧
    (let s : State := moving.putTm { moving.tm with h := [handler 0x100] }
     let t := s.putCr { s.cr with grp := some { placedGroup with l := { placedLaunch with spawn := 0 } } }
     t.moveLack 0 (.deliver 0) ≠ 0 ∧ (t.teamsOf 0).all (fun e => !t.runs e.1 e.2 && e.2.pend.isEmpty && e.2.traps.isEmpty) = true ∧ (t.core 0).copyQ = [] ∧ (t.core 0).matQ = [] ∧
       (t.core 0).seeds = [] ∧ (t.cluster 0).acks = 0) := by decide +kernel

/-- A walk of page 0 or of page 1 that a cluster has asked for, and whose walker has read the lines of the four tables. -/
def walking (page : Nat) : State :=
  { base with
    clusters := base.clusters.map fun e => (e.1, { e.2 with asked := [(0, page * 2 ^ 16)] })
    ctl := { base.ctl with walks := [{ ctx := 0, phase := 1, va := page * 2 ^ 16, cl := 0, done := 4, asked := none }] } }

theorem test_page_walk : (match exec .pageWalk (walking 0) with
    | .next t => (t.net.buf.map fun e => e.2.map fun x => (x.2.dsts, x.2.body), t.ctl.walks)
    | _ => ([], (walking 0).ctl.walks)) = ([[([0], .ctl (.walked 0 0 0 (some 0x50825)))]], []) := by decide +kernel
theorem test_walk_result : (let t := (walking 0).comesTo 0 { chan := .ctl, ctx := 0, phase := 1, src := ctlNode, dsts := [0]
                                                             body := .ctl (.walked 0 0 0 (some 0x50825)), since := 0, forked := false, dead := false }
    ((t.cluster 0).tlb, (t.cluster 0).asked)) = ([(0, 0, 0x50825)], []) := by decide +kernel
theorem test_ats_response : (match exec (.atsTranslationResponse 1 (some 7)) { base with
      ctl := { base.ctl with atsWait := [1] }
      posts := [{ seq := 0, ctx := 0, phase := 1, lti := 0, page := 1, off := 4, va := 0, bytes := [0xAB] }] } with
    | .next t => (t.hostPage 1, t.host, t.posts)
    | _ => (none, [], [])) = (some 7, [(0x70004, 0xAB)], []) := by decide +kernel
theorem test_pri_response : (match exec (.priResponse 1 true) { base with ctl := { base.ctl with priWait := [1] } } with
    | .next t => (t.ctl.priWait, t.ctl.atsWait)
    | _ => ([1], [])) = ([], [1]) := by decide +kernel

/-- A load of a page that is not there, whose trap the supervisor holds. -/
def heldLoad : State :=
  let s := trapped []
  s.putTm { s.tm with
    traps := s.tm.traps.map fun x => { x with sup := true }
    pend := [Pend.make 5 (.vec 8 false) .timed [] [0]]
    log := [{ key := 3, stamp := 1, ltis := [0], addr := 0x1230004, op := .load 5 4 false }] }

/-- R240: the page is there; the load is issued again and leaves the log, its value arriving. -/
theorem test_issued_again : (match exec (.supervisorPageResolve 0 0x1230000 (some 0x60825)) heldLoad with
    | .next t => (t.tm.traps, t.tm.log, t.tm.pend.map fun p => (p.out, p.vals))
    | _ => (heldLoad.tm.traps, [], [])) = ([], [], [([], [(0, 0)])]) := by decide +kernel

/-- `PagesAreTranslated`: PRI fails for a load and for a post; a held access is issued again. -/
theorem test_meets_lost_and_held :
    (let s := waiting (.hostIn 4 false) []
     (List.finRange 64).all (fun (x : CtxId) => decide ((s.ctx x).walk = .none)) = true ∧ (s.cores.all fun c => !c.2.copyRun) = true ∧
       s.teams.length = 1 ∧ s.posts = [] ∧ (s.needsHost 0 s.tm 1).isSome = true) ∧
    (let s := heldLoad
     s.faultWaits 0 0x1230000 = true ∧ walk s.mem 0x1230000 3 ((s.ctx (s.core 0).ctx).rootFrame) = .miss ∧ s.tm.heldFor 0x1230000 = s.tm.traps ∧
     (s.teamsOf 0).map (·.1) = [0] ∧ s.hasTeam 0 0 ∧
     (match installLeaf s.mem 0x1230000 0x60825 3 ((s.ctx (s.core 0).ctx).rootFrame) with
      | some m => (({ s with mem := m } : State).touch 0 0x1230004).gotRead 0 0 4 4 false 0x1230004 == .val 0
      | none => false) = true) := by
  unfold State.hasTeam; dsimp only; decide +kernel

/-- `PagesAreTranslated`. -/
theorem test_meets_PagesAreTranslated :
    walk (walking 0).mem 0 3 ((walking 0).ctx 0).rootFrame = .leaf 0x50825 ∧
    walk (walking 1).mem (1 * 2 ^ 16) 3 ((walking 1).ctx 0).rootFrame = .miss ∧ (walking 1).ctl.heldWalks = [] ∧
    ([0, 1].all fun n => (walking n).ctl.walks.all (walking n).walked && !(walking n).ctl.walks.isEmpty) = true ∧ base.badSectors = [] ∧
    cachedIn ((walking 0).core 0).utlb ((walking 0).core 0).ctx 0x10000 = none ∧ cachedIn ((walking 0).cluster 0).tlb 0 0x10000 = none ∧
    (0, (walking 1).pageAt 0 0x10000) ∈ ((walking 1).cluster 0).asked ∧ (0, (walking 0).pageAt 0 0x10000) ∉ ((walking 0).cluster 0).asked ∧
    cachedIn ([] : List (CtxId × Nat × DWord)) 0 0x10000 = none ∧
    (let s := teamIs fun t => { t with raised := [{ raised 6 with payload := 0x10000 }] }
     s.faultWaits 0 0x10000 = true ∧ walk s.mem 0x10000 3 ((s.ctx (s.core 0).ctx).rootFrame) = .miss ∧
       (installLeaf s.mem 0x10000 0x60825 3 ((s.ctx (s.core 0).ctx).rootFrame)).isSome = true) ∧
    (let t := (trapped []).tm
     ({ t with traps := t.traps.map fun x => { x with sup := true } } : Team).heldFor 0x1230000 ≠ []) := by decide +kernel

/-! ## The network, hardware errors, groups and phases (12, 19 to 23) -/

/-- A core with one line request for slice leaf 8. -/
def requesting : State := { base with cores := base.cores.map fun e => (e.1, { e.2 with
  reqs := [(0, [{ rid := 7, ctx := 0, phase := 1, leaf := 8, line := 0, ids := [5], sent := false }])] }) }

/-- A packet from cluster leaf 0 that waits in edge switch 0. -/
def packet (b : Body) (ds : List NetNode) (f : Bool) : Packet :=
  { chan := .req, ctx := 0, phase := 1, src := 0, dsts := ds, body := b, since := 0, forked := f, dead := false }
def inSwitch (p : Packet) : State := { base with net := { base.net with buf := [(0, [(0, p)])] } }
def atLeaf (b : Body) : State := { base with net := { base.net with arrived := [(8, [packet b [8] false]), (0, [packet b [0] false])] } }

theorem test_line_request_inject : (match exec (.lineRequestInject (.core 0) 0) requesting with
    | .next t => ((t.core 0).reqs.map fun e => e.2.map (·.sent), t.net.buf.map fun e => e.2.length)
    | _ => ([], [])) = ([[true]], [1]) := by decide +kernel
theorem test_packet_route : (match exec (.packetRoute (.edge 0) 0) (inSwitch (packet (.read 7 0 none) [8] false)) with
    | .next t => (t.net.arrived.map fun e => (e.1, e.2.map (·.body)), (t.net.buf.get [] 0).length)
    | _ => ([], 1)) = ([(8, [.read 7 0 none])], 0) := by decide +kernel
theorem test_line_read : (match exec (.lineRead ⟨8, 0⟩) (atLeaf (.read 7 0 none)) with
    | .next t => (t.net.buf.map fun e => e.2.map fun x => (x.2.chan, x.2.dsts, x.2.body), (t.net.arrived.get [] 8).length)
    | _ => ([], 1)) = ([[(.rsp, [0], .line 7 [] none)]], 0) := by decide +kernel
theorem test_line_response : (match exec (.lineResponse 0) { atLeaf (.line 7 [] none) with cores := requesting.cores } with
    | .next t => ((t.core 0).reqs.map fun e => e.2.length, (t.net.arrived.get [] 0).length)
    | _ => ([], 1)) = ([0], 0) := by decide +kernel
theorem test_landing_write : (match exec (.landingWrite 8) (atLeaf (.write [byteWrite 0 .fault 4 1] none)) with
    | .next t => ((t.ctx 0).phases.map fun p => p.writes.length, t.net.buf.map fun e => e.2.map fun x => x.2.body)
    | _ => ([], [])) = ([1], [[.ack 1 none]]) := by decide +kernel
theorem test_write_ack : (match exec (.writeAck 0) { atLeaf (.ack 1 none) with clusters := base.clusters.map fun e => (e.1, { e.2 with acks := 2 }) } with
    | .next t => (t.cluster 0).acks
    | _ => 0) = 1 := by decide +kernel
/-- Slices 0 and 1 of a die hang on one edge switch: one copy leaves for each. -/
theorem test_multicast : (match exec (.multicastWrite (.edge 0) 0) (inSwitch (packet (.multi []) [8, 9] false)) with
    | .next t => t.net.arrived.map (·.1)
    | _ => []) = [8, 9] := by decide +kernel
theorem test_multicast_resume : (match exec (.multicastForkResume (.edge 0) 0) (inSwitch (packet (.multi []) [9] true)) with
    | .next t => t.net.arrived.map (·.1)
    | _ => []) = [9] := by decide +kernel
theorem test_flit_crc : (match exec (.flitCrcError (.inner (.edge 0)) { port := 2, again := true }) base with | .next t => t.net.replays.map (·.2) | _ => []) = [1] := by decide +kernel
theorem test_link_failure : (match exec (.linkFailure (.edge 0) 5) (inSwitch (packet (.read 7 0 none) [8] false)) with
    | .next t => (t.net.failed.length, t.net.draining)
    | _ => (0, false)) = (1, true) := by decide +kernel

/-- A walker that has one line of its walk to read. -/
def lastLine : State := { base with ctl := { base.ctl with walks := [{ ctx := 0, phase := 1, va := 0, cl := 0, done := 3, asked := none }] } }

theorem test_walker_reads : (match exec (.lineRequestInject .walkers 0) lastLine with
    | .next t => (t.ctl.walks.map (·.asked), t.net.rids)
    | _ => ([], 0)) = ([some 0], 1) := by decide +kernel

/-- `PacketsMove`: a walker. -/
theorem test_meets_the_walker : (lastLine.walkLines 0 0)[3]? = some (0x40000 / 128) ∧
    lastLine.net.room { chan := .req, ctx := 0, phase := 1, src := ctlNode, dsts := [keyLeaf 0x40000], body := .read 0 (0x40000 / 128) none
                        since := 0, forked := false, dead := false } = true := by decide +kernel

/-- `PacketsMove`. -/
theorem test_meets_PacketsMove :
    let s := inSwitch (packet (.read 7 0 none) [8] false)
    let m := inSwitch (packet (.multi []) [8, 9] false)
    downPort [] 0 8 = some 2 ∧ downPort [] 1 8 = none ∧
    ((requesting.core 0).reqs.get [] 0).find? (fun r => !r.sent) ≠ none ∧
    (((requesting.core 0).reqs.get [] 0).filter LineReq.sent).length < 8 ∧ 0 < requesting.net.free (leafEdge 0) (leafPort 0) .req ∧
    s.net.wants 0 (packet (.read 7 0 none) [8] false) = [2] ∧ s.net.failed.contains (linkOf 0 2) = false ∧ s.net.credit 0 2 .req ≠ 0 ∧
    goesBefore (0, packet (.read 7 0 none) [8] false) (0, packet (.read 7 0 none) [8] false) = false ∧
    ({ s.net with failed := [linkOf 0 2] } : Net).wants 0 (packet (.read 7 0 none) [8] false) = [2] ∧
    1 < ([8, 9] : List NetNode).length ∧ below m.net.known 0 [8, 9] = true ∧ (atLeaf (.read 7 0 none)).net.arrived.get [] 8 ≠ [] ∧
    (({ base with cores := requesting.cores } : State).requestOf (leafCluster 0) 7).map (·.1) = some 0 ∧
    farEnd 0 5 ≠ .none ∧ base.net.replays.get 0 ((linkOf 0 5).1 * 64 + (linkOf 0 5).2) < 8 ∧ s.net.onLink 0 5 = [] ∧ s.net.idle = false := by
  decide +kernel

theorem test_committed_line_counted : (match exec (.eccUncorrectable (.committedLine 1 5)) base with
    | .next t => (t.die 1).corrected
    | _ => []) = [(1, 1)] := by decide +kernel
theorem test_ecc_core_array : (match exec (.eccUncorrectable (.coreArray 0 2 3)) base with
    | .next t => (t.die 0).fifo.map fun r => (r.kind, r.eff, r.phase, r.loc)
    | _ => []) = [(4, 0x16, 1, 0x200000003)] := by decide +kernel
theorem test_ecc_hbm_sector : (match exec (.eccUncorrectable (.hbmSector 9)) base with | .next t => t.badSectors | _ => []) = [9] := by
  decide +kernel

/-- `HardwareErrors`. -/
theorem test_meets_HardwareErrors :
    (base.core 0).grp = some placedGroup ∧ (base.cluster 0).grp = some placedGroup ∧ base.badSectors = [] ∧
    (let s : State := { base with badSectors := [0x50000 / 64] }
     s.find 0 false 4 0 4 .read = .here (.page 0x50825 (ptePa 0x50825 0)) ∧ pteScope 0x50825 = 2 ∧
       s.devKey 0x50825 (ptePa 0x50825 0) / 64 = 0x50000 / 64) := by decide +kernel

/-- `HardwareErrors`: a die that serves one phase, which is hit. -/
theorem test_meets_hit : base.hitAt 0 = some (0, 1) := by
  have h : base.phasesAt 0 = [(0, 1)] := by decide +kernel
  simp [State.hitAt, h, Nat.mod_one]

/-- R63: the second team of 40 threads in teams of 32. -/
theorem test_team_at : (let t := { placedLaunch with nth := 40, args := [7] }.teamAt placedGroup 2 1
    (t.m[(0 : MReg)], t.lti 7, t.lti 8, t.s[0], t.first)) = (0xFF, 0x400027, BitVec.allOnes 64, 7, 32) := by decide +kernel

/-- A context whose phase 1 has one group waiting on die 1, and none placed. -/
def waitingGroup : State := { base with
  cores := [], clusters := [], teams := []
  ctxs := [(0, { base.ctx 0 with phases := [{ placedPhase with
    running := 0, queues := [{ die := 1, br := 0, off := 1, stride := 8, lo := 0, hi := 1 }] }] })] }

theorem test_group_placement : (match exec (.groupPlacement 1) waitingGroup with
    | .next t => ((t.cluster 8).grp.map (·.clg), (t.cluster 8).coming, (t.ctx 0).phases.map (·.running), t.teams.length)
    | _ => (none, false, [], 1)) = (some 1, true, [1], 0) := by decide +kernel

/-- A control packet of phase 1. -/
def control (m : CtlMsg) : Packet :=
  { chan := .ctl, ctx := 0, phase := 1, src := ctlNode, dsts := [0], body := .ctl m, since := 0, forked := false, dead := false }

/-- The order to start a group is on its way to cluster 8; a window's byte has been loaded for its kernel. -/
def ordered : State := { base with
  cores := [], teams := [], clusters := [(8, { ClusterSt.idle with grp := some placedGroup, coming := true })]
  windows := [(0, { code := 0, priv := [], exch := [], loc := [(5, 7)] })] }

theorem test_group_starts : (let t := ordered.comesTo (leafOfCluster 8) (control (.place 8 placedGroup))
    ((t.cluster 8).coming, (t.core 48).grp.isSome, (t.core 48).loc, t.teams.map (·.1))) = (false, true, [(5, 7)], [48]) := by decide +kernel

/-- A group whose thread has gone. -/
def goneGroup : State := { base with teams := [], cores := base.cores.map fun e => (e.1, { e.2 with fsum := 3 }) }

theorem test_group_end : (match exec (.groupEnd 0) goneGroup with
    | .next t => ((t.cluster 0).told, (t.ctx 0).phases.map (·.running), t.net.buf.map fun e => e.2.map (·.2.body))
    | _ => (false, [], [])) = (true, [1], [[.ctl (.ended 0 placedGroup)]]) := by decide +kernel
def toldGroup : State := { goneGroup with clusters := [(0, { ClusterSt.idle with grp := some placedGroup, told := true })] }
theorem test_group_leaves : (let t := toldGroup.comesTo ctlNode (control (.ended 0 placedGroup))
    ((t.cluster 0).grp.isNone, (t.ctx 0).phases.map fun p => (p.running, p.psw))) = (true, [(0, 0x30000)]) := by decide +kernel

/-- `GroupsBegin`: a team of every place, a placement, a group to steal, an order that comes, and an end. -/
theorem test_meets_GroupsArePlaced :
    placedLaunch.team ≤ 1024 ∧ 1 * 32 < ({ placedLaunch with nth := 40 } : Launch).nth ∧
    (waitingGroup.phaseOf 0 1).any (fun p => p.branches.any fun b => b.br == 0) = true ∧ waitingGroup.served 1 = some 0 ∧
    (waitingGroup.ctx 0).head 1 = some (1, 0, 1) ∧
    waitingGroup.freeCluster 0 1 = some 8 ∧ ((List.finRange 64).find? fun (y : CtxId) => waitingGroup.steals 0 y) = some 0 ∧
    (waitingGroup.ctx 0).tail 1 = some (1, 0, 1) ∧ (ordered.cluster 8).coming = true ∧ (ordered.cluster 8).grp = some placedGroup ∧
    (base.windows.all fun w => w.1 != 0 || w.2.code != 0) = true ∧ (goneGroup.cluster 0).grp = some placedGroup ∧
    goneGroup.groupEnded 0 = true ∧ (toldGroup.cluster 0).told = true ∧ toldGroup.phaseOf 0 1 ≠ none := by decide +kernel

/-- Phase 1 has ended with the given stores to device memory. -/
def endedPhase (l : List Write) : State := { base with
  teams := [], cores := [], clusters := [], mem := [(0x60000, 9)]
  ctxs := [(0, { base.ctx 0 with csb := 0x90000, walk := .visit 0x100, phases := [{ placedPhase with base := [(0x60000, 9)], running := 0, writes := l }] })] }

theorem test_phase_commit : (match exec (.phaseCommit 0 1) (endedPhase [byteWrite 0 .fault 0x60000 1]) with
    | .next t => (t.mem.get 0 0x60000, (t.ctx 0).lastPhase, (t.ctx 0).phases)
    | _ => (0, 0, [])) = (1, 1, []) := by decide +kernel
theorem test_phase_discard : (match exec (.phaseCommit 0 1) (endedPhase [byteWrite 0 .fault 0x60000 1, byteWrite 1 .fault 0x60000 2]) with
    | .next t => (t.mem.get 0 0x60000, (t.ctx 0).lastPhase, (t.ctx 0).phases, read64 t.mem (0x90000 + 0x118))
    | _ => (0, 0, [], 0)) = (9, 0, [], 0x880) := by decide +kernel

/-- `PhasesCommit`: no store, and two that collide. -/
theorem test_meets_PhasesCommit : ([[], [byteWrite 0 .fault 0x60000 1, byteWrite 1 .fault 0x60000 2]].all fun l =>
    let s := endedPhase l
    (s.phaseOf 0 1).any (fun p => s.ended 0 p && s.alone 0 p && !s.leftOver 0 p && p.items.isEmpty && (anySets p.writes).isEmpty && p.level != .domain &&
      ((landAll p.base [] p.writes).faults.isEmpty == l.isEmpty)) && (s.ctx 0).cstate != .halted && s.badSectors.isEmpty) = true := by decide +kernel

/-! ## The graph walker, the supervisor and the host interface (21, 22, 24) -/

/-- Context 0 visits a node at 0x100 of the program's page whose words are w; no phase is in flight; the word at 0x140 is v. -/
def graph (w : List DWord) (v : DWord) : State :=
  { base with
    teams := [], cores := [], clusters := []
    mem := writeBytes base.mem 0x50100 ((w ++ List.replicate 8 0).take 8 |>.flatMap fun (x : DWord) => leBytes 8 x.toNat) |> fun m => write64 m 0x50140 v
    ctxs := [(0, { base.ctx 0 with csb := 0x90000, walk := .visit 0x100, phases := [], lastPhase := 1 })] }

/-- Where the walker stands after an event. -/
def walks (i : Instr) (s : State) : Option Walk := match exec i s with | .next t => some (t.ctx 0).walk | _ => none

/-- KIND 4 and 5 with NEXT 0x200, ALT 0x300 and OBJ 0x140. -/
theorem test_cond_node : (walks (.condNode 0) (graph [4, 0x200, 0x300, 0x140] 0), walks (.condNode 0) (graph [4, 0x200, 0x300, 0x140] 7)) =
    (some (.visit 0x300), some (.visit 0x200)) := by decide +kernel
theorem test_while_node : (walks (.whileNode 0) (graph [5, 0x200, 0x300, 0x140] 0), walks (.whileNode 0) (graph [5, 0x200, 0x300, 0x140] 7)) =
    (some (.visit 0x200), some (.visit 0x300)) := by decide +kernel
theorem test_signal_node : walks (.signalNode 0) (graph [6, 0x200] 0) = some (.visit 0x200) := by decide +kernel
/-- AWAIT of at least 3. -/
theorem test_await_node : (walks (.awaitNode 0) (graph [7, 0x200, 0, 0x140, 0, 3] 2), walks (.awaitNode 0) (graph [7, 0x200, 0, 0x140, 0, 3] 3)) =
    (some (.poll 0x100), some (.visit 0x200)) := by decide +kernel
theorem test_await_poll : walks (.awaitPoll 0) (let s := graph [7, 0x200, 0, 0x140, 0, 3] 3
    s.setCtx 0 { s.ctx 0 with walk := .poll 0x100 }) = some (.visit 0x200) := by decide +kernel
theorem test_join_node : walks (.joinNode 0) (let s := graph [3, 0x200] 0
    s.setCtx 0 { s.ctx 0 with walk := .join 0x100 }) = some (.visit 0x200) := by decide +kernel
theorem test_end_node : (match exec (.endNode 0) (graph [8] 0) with | .next t => ((t.ctx 0).walk, (t.ctx 0).cstate) | _ => (.visit 0, .running)) =
    (.none, .idle) := by decide +kernel
/-- R384: a reserved KIND. -/
theorem test_graph_error : (match exec (.condNode 0) (graph [9] 0) with | .next t => ((t.ctx 0).walk, (t.ctx 0).cstate) | _ => (.visit 0, .running)) =
    (.none, .idle) := by decide +kernel

/-- A kernel descriptor at 0x400 (code 0, 1,024 registers, teams of 32, one core group of one thread, spawn 1) and arguments at 0x480. -/
def launchable (w : List DWord) : State :=
  let s := graph w 0
  { s with mem := write64 (write64 (write64 s.mem 0x50408 (1024 * 2 ^ 16 + 32)) 0x50410 (2 ^ 16 + 1)) 0x50418 (2 ^ 32) }

/-- A package-level LAUNCH of 9 groups: two on die 0. -/
theorem test_launch_node : (match exec (.launchNode 0) (launchable [0x101, 0x200, 0, 0x400, 0x480, 9]) with
    | .next t => (t.ctx 0).phases.map fun p => (p.num, p.branches.map (·.ng), p.queues.map fun q => q.hi - q.lo)
    | _ => []) = [(2, [9], [2, 1, 1, 1, 1, 1, 1, 1])] := by decide +kernel

/-- A FORK of two LAUNCH nodes at 0x500 and 0x540, listed at 0x600, that join at 0x580. -/
def forking : State :=
  let s := launchable [2 + 2 * 2 ^ 16, 0x200, 0x600]
  let node (m : SMap Byte) (a : Nat) (w : List DWord) : SMap Byte := writeBytes m (0x50000 + a) (w.flatMap fun (x : DWord) => leBytes 8 x.toNat)
  { s with
    mem := node (node (node (node s.mem 0x500 [0x101, 0x580, 0, 0x400, 0x480, 1]) 0x540 [0x101, 0x580, 0, 0x400, 0x480, 1]) 0x580 [3, 0x200])
        0x600 [0x500, 0x540] }

theorem test_fork_node : (match exec (.forkNode 0) forking with
    | .next t => ((t.ctx 0).walk, (t.ctx 0).phases.map fun p => p.branches.map (·.br))
    | _ => (.none, [])) = (.join 0x580, [[0, 1]]) := by decide +kernel

/-- A die-level LAUNCH of 9 groups while a die-level phase of another die is in flight. -/
def dieLaunch : State :=
  let s := launchable [1, 0x200, 0, 0x400, 0x480, 9]
  s.setCtx 0 { s.ctx 0 with phases := [{ placedPhase with num := 7, level := .die, die := some 3 }] }

theorem test_die_launch : (match exec (.launchNode 0) dieLaunch with
    | .next t => (t.ctx 0).phases.map fun p => (p.num, p.die, p.queues.length)
    | _ => []) = [(7, some 3, 0), (2, some 0, 1)] := by decide +kernel

/-- `NodesRun`: nodes of every kind, and one that cannot be read, with a malformed table and without. -/
theorem test_meets_NodesRun :
    let bad : State := { graph [9] 0 with mem := write64 (graph [9] 0).mem 0x40000 3 }
    (graph [9] 0).nodeAt 0 0x100 = none ∧ ((graph [9] 0).ctx 0).cstate = .running ∧ (graph [9] 0).clear 0 = true ∧
    (graph [9] 0).mayWrite 0 = false ∧ (graph [9] 0).ctlTrouble 0 1 0x100 64 = none ∧
    bad.nodeAt 0 0x100 = none ∧ (bad.ctlTrouble 0 1 0x100 64).isSome = true ∧
    ([1, 2, 3, 4, 5, 6, 7, 8].all fun k => ((graph [BitVec.ofNat 64 k, 0x200, 0x300, 0x140, 0, 3] 3).nodeAt 0 0x100).any fun n => n.kind == k) = true ∧
    (graph [4, 0x200, 0x300, 0x140] 7).ctlWord 0 0x140 = .val 7 ∧ (graph [8] 0).posts = [] ∧
    (graph [7, 0x200, 0, 0x140, 0, 3] 2).awaitable 0 0x140 = true ∧ (graph [7, 0x200, 0, 0x40000, 0, 3] 2).awaitable 0 0x40000 = false ∧
    (graph [7, 0x200, 0, 0x40000, 0, 3] 2).ctlTrouble 0 1 0x40000 8 = none ∧
    ((launchable [0x101, 0x200, 0, 0x400, 0x480, 9]).launchAt 0 0x400 0x480).isSome = true ∧
    (((launchable [0x101, 0x200, 0, 0x400, 0x480, 9]).nodeAt 0 0x100).bind fun n =>
      (launchable [0x101, 0x200, 0, 0x400, 0x480, 9]).groupCount 0 n) = some 9 ∧
    ((dieLaunch.nodeAt 0 0x100).bind fun n => dieLaunch.launchDie 0 n) = some 0 ∧ ((dieLaunch.nodeAt 0 0x100).map Node.lv) = some .die ∧
    ((dieLaunch.nodeAt 0 0x100).bind fun n => dieLaunch.groupCount 0 n) = some 9 ∧ dieLaunch.clearAt 0 0 = true ∧
    (dieLaunch.launchAt 0 0x400 0x480).isSome = true ∧ dieLaunch.mayWrite 0 = false ∧ dieLaunch.usable 0 0 = true ∧
    ((forking.nodeAt 0 0x100).bind fun n => forking.forkNodes 0 n).map (fun r => (r.1.length, r.2)) = some (2, 0x580) ∧
    (((forking.nodeAt 0 0x100).bind fun n => forking.forkNodes 0 n).any fun r => r.1.all fun e => e.1.level != 2) = true ∧
    (((forking.nodeAt 0 0x100).bind fun n => forking.forkNodes 0 n).bind fun r =>
      r.1.zipIdx.mapM fun e => forking.branchOf 0 e.1.1 e.2 e.1.2).isSome = true ∧
    ((launchable [0x201]).nodeAt 0 0x100).map Node.lv = some .domain ∧ ((graph [3, 0x200] 0).nodeAt 0 0x100).map Node.kind = some 3 := by decide +kernel

/-- `NodesRun`: a FORK whose list is not there, and a LAUNCH whose counts are not there. -/
theorem test_meets_unread_nodes :
    (((graph [2 + 2 * 2 ^ 16, 0x200, 0x40000] 0).nodeAt 0 0x100).map fun n =>
      (n.kind, ((graph [2 + 2 * 2 ^ 16, 0x200, 0x40000] 0).forkNodes 0 n).isNone)) = some (2, true) ∧
    (((graph [0x501, 0x200, 0, 0x400, 0x480, 0, 0x40000] 0).nodeAt 0 0x100).map fun n =>
      (n.kind, n.lv, ((graph [0x501, 0x200, 0, 0x400, 0x480, 0, 0x40000] 0).groupCount 0 n).isNone)) = some (1, .package, true) := by
  decide +kernel

/-- R429: END posts one event. -/
theorem test_end_event : (match exec (.endNode 0) (let s := graph [8] 0; { s with ctl := { s.ctl with eqBase := 0x1000, eqSize := 4 } }) with
    | .next t => t.ctl.eqTail
    | _ => 0) = 1 := by decide +kernel

/-- `NodesRun`: an AWAIT on a word of host memory that has no translation yet. -/
def awaitsHost : State :=
  let s := graph [7, 0x200, 0, 0x10000, 0, 3] 0
  { s with mem := write64 s.mem 0x40008 0x70841 }
theorem test_meets_await_host : awaitsHost.awaitable 0 0x10000 = true ∧ awaitsHost.ctlWord 0 0x10000 = .waits 7 := by decide +kernel

/-- A queue of four events at host address 0x1000. -/
def queued : State := { base with ctl := { base.ctl with eqBase := 0x1000, eqSize := 4 } }

theorem test_event_posted : (let t := queued.postEvent 3 6 5 (some 7) (some 8)
    (read64 t.host 0x1000, read64 t.host 0x1008, t.ctl.eqTail)) = (0x8000000000000306, 5, 1) := by decide +kernel
theorem test_event_overflow : (match exec .eventOverflow { queued with ctl := { queued.ctl with lost := [(0, 2)] } } with
    | .next t => (t.ctl.lost, t.ctl.eqTail)
    | _ => ([], 0)) = ([], 1) := by decide +kernel

/-- A fault report of phase 1 at die 0. -/
def faulted : State :=
  let s := { queued with ctxs := [(0, { queued.ctx 0 with csb := 0x90000, walk := .visit 0x100 })] }
  s.setDie 0 { s.die 0 with fifo := [s.cr.effReport 0 7 0 0 0 none] }

theorem test_fault_report : (match exec (.faultReport 0) faulted with
    | .next t => ((t.die 0).fifo.length, t.net.buf.map fun e => e.2.length)
    | _ => (1, [])) = (0, [1]) := by decide +kernel
theorem test_report_arrives : (let t := faulted.comesTo ctlNode (control (.report (faulted.cr.effReport 0 7 0 0 0 none)))
    ((t.ctx 0).phases.map (·.num), (t.ctx 0).fcnt, (t.cluster 0).grp.isNone)) = ([], 1, true) := by decide +kernel

/-- Context 1, of higher priority, has waited since clock 0 for the only cluster of its die, which context 0 holds. -/
def starving : State :=
  let s := { base with clock := 100, parts := [(0, { PartBlk.all with mask := 1 })] }
  { s with ctxs := [(0, { s.ctx 0 with prio := 1 }), (1, { Ctx.unset with
      cstate := .running, preempt := 10, readySince := some 0
      phases := [{ placedPhase with queues := [{ die := 0, br := 0, off := 0, stride := 1, lo := 0, hi := 1 }] }] })] }

theorem test_preempt_threshold : (match exec (.preemptThreshold 1) starving with | .next t => (t.ctx 0).cstate | _ => .idle) = .draining := by
  decide +kernel

def draining : State := base.setCtx 0 { base.ctx 0 with cstate := .draining, drain := 0 }

theorem test_flag_fall : (match exec (.flagFall 0) draining with | .next t => ((t.ctx 0).cstate, (t.ctx 0).phases.length) | _ => (.running, 9)) =
    (.idle, 0) := by decide +kernel

/-- `EventsFaultsAndPreemption`. -/
theorem test_meets_FaultsAndPreemption :
    queued.ctl.eqRoom = true ∧ base.ctl.eqRoom = false ∧ (base.ctx 0).evovf.toNat < 2 ^ 64 - 1 ∧
    (faulted.die 0).fifo.length = 1 ∧ (faulted.die 0).heldReports = [] ∧ faulted.net.dieNode 0 = some 0 ∧
    (match (faulted.die 0).fifo with
      | [r] => (faulted.phaseOf r.ctx r.phase).any (fun p => p.level != .domain) && !r.late && r.halt == none && r.kind != divergenceKind
      | _ => false) = true ∧
    (starving.ctx 1).readySince = some 0 ∧ (starving.ctx 1).preempt ≠ 0 ∧ starving.victim 1 = some 0 ∧ starving.starved 1 = true ∧ (starving.ctx 1).preempt.toNat < starving.clock - 0 ∧
    (draining.ctx 0).cstate = .draining ∧ draining.clustersOf 0 none = [0] ∧ (draining.cluster 0).told = false ∧
    (draining.ctx 0).drain.toNat ≤ (draining.ctx 0).drainRun + (draining.clock - (draining.ctx 0).drainStart) := by decide +kernel

/-- The placed machine whose contexts have no scoresheets. -/
def noSheets : State := { base with ctxs := base.ctxs.map fun e => (e.1, { e.2 with scoreUnits := 0 }) }

theorem test_bar2 : (match exec (.bar2Write 0 0x70000 [1, 2]) noSheets with
    | .next t => (match exec (.bar2Read 0 0x70000 3) t with | .next u => u.hostData | _ => [])
    | _ => []) = [1, 2, 0] := by decide +kernel
theorem test_gstat : (match exec (.gstatRead 0) { base with ctl := { base.ctl with cmdErr := true } } with
    | .next t => (t.hostData, t.ctl.cmdErr)
    | _ => ([], true)) = ([5, 0, 1, 0, 0, 0, 0, 0], false) := by decide +kernel
/-- R424: a register takes aligned 8-byte writes only. -/
theorem test_register_write : (match exec (.registerWrite 0 0x200008 4 7) base with | .next t => t.ctl.cmdErr | _ => false) = true := by decide +kernel
theorem test_start_refused : (match exec (.start 0 ⟨0x100, []⟩) base with | .next t => (t.ctl.cmdErr, (t.ctx 0).walk) | _ => (false, .none)) =
    (true, .none) := by decide +kernel
theorem test_start : (match exec (.start 1 ⟨0x100, [⟨0x40, [(3, 9)], [], []⟩]⟩) base with
    | .next t => ((t.ctx 1).cstate, (t.ctx 1).walk, (t.loaded 1 0x40).loc, (t.loaded 2 0x40).loc)
    | _ => (.idle, .none, [], [])) = (.running, .visit 0x100, [(3, 9)], []) := by decide +kernel
theorem test_kick : (match exec (.kick 1) base with | .next t => t.agenda.headD (.issue 9) | _ => .issue 9) = .event (.awaitPoll 1) := by decide +kernel
theorem test_halt_and_resume : (match exec (.cmdHalt 0) base with
    | .next t => ((t.ctx 0).cstate, t.runnable 0, match exec (.cmdResume 0) t with | .next u => (u.ctx 0).cstate | _ => .idle)
    | _ => (.idle, true, .idle)) = (.halted, false, .running) := by decide +kernel
theorem test_abort : (match exec (.cmdAbort 0) base with | .next t => ((t.ctx 0).cstate, (t.cluster 0).grp.isNone) | _ => (.running, false)) =
    (.idle, true) := by decide +kernel
theorem test_preempt : (match exec (.cmdPreempt 0) base with | .next t => (t.ctx 0).cstate | _ => .idle) = .draining := by decide +kernel
theorem test_invalidate : (match exec (.cmdInvalidate 1) (base.setCluster 9 { ClusterSt.idle with tlb := [(1, 0, 5), (2, 0, 5)] }) with
    | .next t => (t.cluster 9).tlb
    | _ => []) = [(2, 0, 5)] := by decide +kernel
theorem test_replay : ((match exec (.cmdReplayOn 1) base with | .next t => (t.ctx 1).replay | _ => false),
    (match exec (.cmdReplayOff 1) base with | .next t => (t.ctx 1).replay | _ => true)) = (true, false) := by decide +kernel

/-- `HostAccesses`: a byte of the PF within its reach, and one beyond the window; a VF's register and another's. -/
theorem test_meets_HostAccesses : 0x70000 < base.barOf 0 ∧ (base.ctl.winbase.get 0 0).toNat + 0x70000 < 1536 * 2 ^ 30 ∧
    ¬ base.barOf 0 < base.barOf 0 ∧ noSheets.sheetAt 0x70000 = none ∧ base.shows 1 (hostReg 0x10000) = true ∧ base.shows 2 (hostReg 0x10000) = false ∧
    (base.ctx 0).part.val + 1 = (1 : FnId).val ∧ base.shows 1 (hostReg 0x200010) = false ∧ (base.ctx 0).cstate ≠ .idle ∧ (base.ctx 1).cstate = .idle ∧ 0x200010 % 8 = 0 := by decide +kernel

/-- `ContextCommands`: a context in each state. -/
theorem test_meets_ContextCommands :
    (base.ctx 0).cstate = .running ∧ (base.ctx 1).cstate = .idle ∧ draining.clustersOf 0 none ≠ [] ∧ (graph [8] 0).clustersOf 0 none = [] ∧
    ((graph [8] 0).ctx 0).cstate = .running ∧ base.ctl.state ≠ 0 ∧ base.ctl.state ≠ 0xF ∧ base.ctl.bring = none ∧
    (let s := base.setCtx 0 { base.ctx 0 with cstate := .halted, before := .running, walk := .visit 0x100 }
     (s.ctx 0).cstate = .halted ∧ (s.ctx 0).walk ≠ .none ∧ (s.ctx 0).before = .running) ∧
    ((base.setCtx 0 { base.ctx 0 with cstate := .preempted }).ctx 0).cstate = .preempted := by decide +kernel

theorem test_attest_submit : (match exec .attestSubmit base with | .next t => (t.ctl.mboxState, t.ctl.requests.length) | _ => (0, 0)) = (1, 1) := by
  decide +kernel
theorem test_peer_attest : (match exec (.peerAttestRequest 3 ⟨true⟩) { base with fab := { base.fab with asks := [(3, [])] } } with | .next t => t.ctl.requests.map (·.1) | _ => []) = [.host, .peer 3] := by
  decide +kernel

/-- `Attestation`: a request of the host, one of a peer; indices used up. -/
theorem test_meets_Attestation : base.ctl.leaf < 2 ^ 20 ∧ ¬ ({ base.ctl with leaf := 2 ^ 20 } : Ctl).leaf < 2 ^ 20 ∧ base.ctl.mboxState ≠ 1 ∧
    ({ base.ctl with requests := [(.host, [])] } : Ctl).requests = (.host, []) :: [] ∧ (base.fab.asks.find? fun e => e.1 == 3) = none ∧
    (([(3, [])] : List (Fin 1024 × List Byte)).find? fun e => e.1 == 3) = some (3, []) := by decide +kernel

theorem test_attest_not_committed : (match exec (.attestReportDone false) { base with ctl := { base.ctl with requests := [(.host, [])] } } with
    | .next t => (t.ctl.mboxCode, t.ctl.leaf, t.ctl.requests)
    | _ => (0, 1, [])) = (3, 0, []) := by decide +kernel

/-! ## Power, heat and the fabric (24, 25) -/

theorem test_power_loss : (match exec .powerLoss { base with ctl := { base.ctl with leaf := 5 } } with
    | .next t => (t.ctl.leaf, t.ctl.state, t.teams, t.mem)
    | _ => (0, 0, [], [])) = (5, 0, [], []) := by decide +kernel
theorem test_power_interval : (match exec (.powerInterval 0 ⟨1, [(40, 70)]⟩) base with | .next t => ((t.cluster 0).step, (t.die 0).celsius) | _ => (0, 0)) = (14, 70) := by decide +kernel
theorem test_thermal_throttle : (match exec (.thermalThrottle 2 true) queued with | .next t => ((t.die 2).hot, t.ctl.eqTail) | _ => (false, 0)) =
    (true, 1) := by decide +kernel
theorem test_thermal_critical : (match exec (.thermalCritical ⟨2, []⟩) queued with | .next t => (t.ctl.state, (t.ctx 0).phases.length) | _ => (0, 9)) =
    (4, 0) := by decide +kernel
theorem test_thermal_recovery : (match exec .thermalRecovery { base with ctl := { base.ctl with state := 4 } } with | .next t => t.ctl.state | _ => 0) =
    5 := by decide +kernel

/-- A vote of package 3 for a package, number 0 of its flow. -/
def votePkt (hops : BitVec 8) (pkg : Fin 1024) : FabPkt := { hops := hops, cls := 0, spkg := 3, dpkg := pkg, seq := 0, body := .msg 0 (.vote 0 true) }

/-- What package 3 says when it arrives. -/
def claims : Rendezvous := { pkg := 3, parts := [{ record := [9], tag := 0, cnt := 1, kernel := [] }], stamp := 0 }

/-- A domain-level phase of packages 0 and 3, which this package coordinates. -/
def domain : State :=
  let d : Domain := { set := [0, 3], parts := claims.parts, since := 0, stamp := 0, met := [0], votes := [], done := [], decided := none }
  { graph [8] 0 with ctxs := [(0, { (graph [8] 0).ctx 0 with
    csb := 0x90000, domain := some d, phases := [{ placedPhase with level := .domain, running := 0 }] })] }

/-- A message of package 3 to context 0 has come. -/
def heard (m : Msg) (s : State) : State := { s with fab := { s.fab with inbox := [(3, 0, m)] } }

theorem test_fabric_delivers : (match exec (.fabricForward 0 (.packet (votePkt 4 0))) domain with
    | .next t => (t.fab.inbox, t.fab.low)
    | _ => ([], [])) = ([(3, 0, .vote 0 true)], [(3, 1)]) := by decide +kernel
theorem test_fabric_credit : (match exec (.fabricForward 2 (.credit 1 5)) { base with fab := { base.fab with spent := [(7, 9)] } } with
    | .next t => t.fab.spent
    | _ => []) = [(7, 4)] := by decide +kernel
/-- R440: a packet whose last hop this was. -/
theorem test_hops_end : (match exec (.fabricForward 2 (.packet { votePkt 1 7 with body := .complete 1 0 })) queued with | .next t => (t.fab.down, t.fab.held) | _ => ([], [])) =
    ([2], []) := by decide +kernel
/-- R438: the ninth error of a flit. -/
theorem test_port_crc : ([7, 8].map fun n => match exec (.flitCrcError .fabric { port := 4, again := true }) { queued with fab := { queued.fab with replays := [(4, n)] } } with
    | .next t => (t.fab.down, t.fab.replays)
    | _ => ([], [])) = [([], [(4, 8)]), ([4], [(4, 8)])] := by decide +kernel
theorem test_fabric_link_failure : (match exec (.fabricLinkFailure 4) queued with | .next t => (t.fab.down, t.ctl.eqTail) | _ => ([], 0)) = ([4], 1) := by
  decide +kernel

/-- This package has come to a domain-level LAUNCH. -/
def meeting : State := domain.setCtx 0 { domain.ctx 0 with walk := .meet 0x100, phases := [] }

theorem test_rendezvous_early : (match exec (.domainRendezvous 0 3) (heard (.meet claims) domain) with
    | .next t => (t.fab.arrivals.length, t.fab.inbox)
    | _ => (0, [])) = (1, []) := by decide +kernel
theorem test_rendezvous_again : (match exec (.domainRendezvous 0 3) (heard (.meet { claims with pkg := 0 }) meeting) with
    | .next t => (t.ctx 0).walk
    | _ => .none) = .meet 0x100 := by decide +kernel
theorem test_rendezvous_timeout : (match exec (.domainRendezvousTimeout 0) { meeting with clock := 2 ^ 32 } with | .next t => (t.ctx 0).walk | _ => .poll 0) =
    .none := by decide +kernel
theorem test_domain_vote : (match exec (.domainVote 0 3 false) (heard (.vote 0 true) domain) with
    | .next t => (t.ctx 0).domain.map (·.votes)
    | _ => none) = some [(3, true)] := by decide +kernel

/-- The coordinator with votes, or a member with its own vote, or a decision. -/
def voting (votes : List (Fin 1024 × Bool)) (dec : Option Bool) (own : Fin 1024) : State :=
  { domain with
    ctl := { domain.ctl with pkg := own }
    ctxs := domain.ctxs.map fun e => (e.1, { e.2 with domain := e.2.domain.map fun d => { d with votes := votes, decided := dec, done := [0, 3] } }) }

/-- A package that has voted OK, of whose part two writes collide. -/
def clashing : State :=
  let s := voting [(0, true)] none 0
  s.mapPhase 0 1 fun p => { p with writes := [byteWrite 0 .fault 0x60000 1, byteWrite 1 .fault 0x60000 2] }

/-- R446: its vote is FAIL (log 161). -/
theorem test_votes_again : (match exec (.domainVote 0 0 false) clashing with
    | .next t => (t.ctx 0).domain.map (·.votes)
    | _ => none) = some [(0, false)] := by decide +kernel

/-- R446: the part of a package, of which the decision is COMMIT. -/
theorem test_part_commits : (match (voting [(0, true), (3, true)] none 0).ctx 0 |>.domain with
    | some d => (((voting [(0, true), (3, true)] none 0).obey 0 d true).ctx 0).lastPhase
    | none => 0) = 1 := by decide +kernel
/-- A member of package 3 that hears ABORT of the coordinator. -/
theorem test_domain_receipt : (match exec (.domainDecisionReceipt 0 false) { voting [(3, true)] none 3 with
      fab := { Fabric.empty with inbox := [(0, 0, .decision 0 false)] } } with
    | .next t => ((t.ctx 0).lastPhase, (t.ctx 0).phases.length)
    | _ => (1, 1)) = (1, 0) := by decide +kernel
/-- A member hears that the phase is released. -/
theorem test_domain_release : (match exec (.domainRelease 0) { voting [] (some true) 3 with
      fab := { Fabric.empty with inbox := [(0, 0, .release 0)] } } with
    | .next t => (t.ctx 0).domain.isNone
    | _ => false) = true := by decide +kernel

/-- A bring-up at a stage of Table 24-5. -/
def raising (k : Nat) : State := { State.reset with ctl := { State.reset.ctl with state := BitVec.ofNat 4 k, bring := some 7 } }

/-- `BootPowerAndHeat`, boot: each stage, and what comes next. -/
theorem test_meets_Boot : ([0, 1, 2, 3, 4].all fun k => (raising k).ctl.bring == some 7 && (raising k).ctl.state == BitVec.ofNat 4 k) = true ∧
    State.reset.ctl.state = 0 ∧ (raising 2).ctl.state ≠ 0 ∧ (raising 2).pick = some .bringUp := by decide +kernel

/-- `BootPowerAndHeat`, power and heat: a cool die and a hot one, a hot cluster that no partition owns, and a phase that commits while its die trips. -/
theorem test_meets_PowerAndHeat : (base.die 0).hot = false ∧ (({ base with dies := [(0, { DieSt.idle with hot := true })] } : State).die 0).hot = true ∧
    queued.ctl.eqRoom = true ∧ base.ctl.state = 5 ∧ base.ctl.bring = none ∧ State.reset.ctl.state ≠ 5 ∧ State.reset.ctl.state ≠ 4 ∧
    (let s : State := { base with parts := [], dies := [(0, { DieSt.idle with hot := true })] }
     (s.partBlk 0).mask.getLsbD 0 = false ∧ (s.die 0).hot = true ∧ ∀ j : Fin 8, (s.partBlk j).mask.getLsbD 0 = false) ∧
    (match exec (.phaseCommit 0 1) (endedPhase []) with | .next _ => true | _ => false) = true := by decide +kernel

/-- A packet of another class, and its flow. -/
def ackPkt (seq : BitVec 32) : FabPkt := { hops := 4, cls := 2, spkg := 3, dpkg := 0, seq := seq, body := .ack 0 0 1 }

/-- `FabricPackets`: a port that is down, buffers that are full, packets on their way, and, of each kind of flow, the next, one out of turn, one
that has come before, and one that is too far ahead. -/
theorem test_meets_FabricPackets :
    (0 : Fin 18) ∉ base.fab.down ∧ (0 : Fin 18) ∈ ({ base with fab := { base.fab with down := [0] } } : State).fab.down ∧
    64 < ({ base.fab with held := [(0, List.replicate 64 (votePkt 4 7))] } : Fabric).heldFlits 0 0 + pktFlits (votePkt 4 7) ∧
    base.fab.heldFlits 0 0 + pktFlits (votePkt 4 7) ≤ 64 ∧ (votePkt 4 7).dpkg ≠ base.ctl.pkg ∧ (votePkt 4 0).dpkg = base.ctl.pkg ∧
    (votePkt 1 7).hops - 1 = 0 ∧ (votePkt 4 7).hops - 1 ≠ 0 ∧ base.fab.waits = [] ∧ base.fab.held.get [] 0 = [] ∧
    (let low := base.fab.low.get 0 (flowKey 2 3)
     2 ^ 31 ≤ ((ackPkt (-1)).seq - low).toNat ∧ ((ackPkt 5).seq - low).toNat < 2 ^ 31 ∧ (ackPkt 0).seq = low ∧ (ackPkt 5).seq ≠ low) ∧
    base.fab.seen.get [] (flowKey 2 3) = [] ∧ base.fab.early.get [] (flowKey 0 3) = [] ∧ (votePkt 4 0).seq = base.fab.low.get 0 (flowKey 0 3) ∧
    ((5 : BitVec 32) - base.fab.low.get 0 (flowKey 0 3)).toNat < 512 ∧ 512 ≤ ((600 : BitVec 32) - base.fab.low.get 0 (flowKey 0 3)).toNat ∧
    (domain.ctx 0).domainPhase.isSome = true ∧ ((domain.ctx 0).domain.any fun d => d.set.contains 3 && d.stamp == 0) = true ∧
    ({ base with net := { base.net with arrived := [(ctlNode.val, [packet (.read 7 0 none) [ctlNode] false])] } } : State).net.arrived.get [] ctlNode =
      [packet (.read 7 0 none) [ctlNode] false] := by decide +kernel

/-- `FabricPackets`, links that fail: a port that is up, the last replay and one before it; a context with a flow over it as coordinator, with votes missing and
without, as a member, and with a decision. -/
theorem test_meets_FabricLinksFail :
    let e : FlowMark := { port := 4, ctx := 0, src := 3, dst := 0 }
    let s : State := { domain with fab := { domain.fab with
      flows := [e, { e with dst := 7 }], replays := [(4, 8)], sent := [(4, { votePkt 8 3 with spkg := 0 })] } }
    4 ∉ s.fab.down ∧ base.fab.replays.get 0 4 < 8 ∧ 8 ≤ s.fab.replays.get 0 4 ∧ (∀ x : CtxId, (base.ctx x).domain = none) ∧
    ((s.ctx 0).domain.any fun d => d.decided == none && d.set != [s.ctl.pkg] && d.coordinator == s.ctl.pkg && !s.allVoted 0 d) = true ∧
    (s.ctx 0).domainPhase.isSome = true ∧ e ∈ s.fab.flows ∧ e.port = 4 ∧
    ((s.ctx 0).domain.any fun d => d.set.contains e.src && d.set.contains e.dst) = true ∧
    (3 : Fin 1024) ≠ s.ctl.pkg ∧ (7 : Fin 1024) ≠ s.ctl.pkg ∧ ¬ ((votePkt 8 3).cls ≠ 0) ∧
    (let a : FabPkt := { votePkt 4 0 with body := .msg 0 .linkFailed }
     s.fab.heldFlits 4 0 + pktFlits a ≤ 64 ∧ a.seq = s.fab.low.get 0 (flowKey 0 a.spkg) ∧ s.fab.early.get [] (flowKey 0 a.spkg) = []) ∧
    (((voting [(0, true), (3, true)] none 0).ctx 0).domain.any fun d => (voting [(0, true), (3, true)] none 0).allVoted 0 d && d.decided == none) = true ∧
    (((voting [] none 3).ctx 0).domain.any fun d => d.decided == none && d.coordinator != 3) = true ∧
    (((voting [] (some true) 3).ctx 0).domain.any fun d => d.decided != none) = true ∧ ((voting [] (some true) 3).ctx 0).domainPhase.isSome = true := by
  decide +kernel

/-- A set record at 0x700 that names packages 0 and 3. -/
def joint : State := { launchable [0x201, 0x200, 0, 0x400, 0x480, 9, 0x700] with
  mem := (launchable [0x201, 0x200, 0, 0x400, 0x480, 9, 0x700]).mem.set 0 0x50700 9 }

/-- `PackagesMeetAndAgree`: what this package says of its LAUNCH; the arrival of a package before it, in agreement or not. -/
theorem test_meets_domain_launch :
    ((joint.nodeAt 0 0x100).any fun n => n.kind == 1 && n.lv == .domain && !n.ld && n.per == 0 && n.list == 0x700 && n.obj == 0x400) = true ∧
    (joint.ctlRead 0 0x700 128).map (setOf · |>.take 3) = some [0, 3] ∧ (joint.ctlRead 0 0x400 64).isSome = true ∧ joint.ctl.pkg = 0 ∧
    ((joint.nodeAt 0 0x100).bind fun n => joint.groupCount 0 n) = some 9 ∧ (joint.launchAt 0 0x400 0x480).isSome = true ∧
    ((List.range 8).all fun d => (List.range 8).any fun c => joint.usable 0 (8 * d + c)) = true ∧
    ((joint.nodeAt 0 0x100).any fun n => (joint.domainOf 0 [n]).any fun d =>
      d.coordinator == 0 && d.set == [0, 3] && { claims with parts := d.parts }.parts == d.parts && claims.parts != d.parts) = true ∧
    ((joint.nodeAt 0 0x100).any fun n => (({ joint with ctl := { joint.ctl with pkg := 3 } } : State).domainOf 0 [n]).any fun d =>
      d.coordinator != 3) = true := by decide +kernel

/-- `PackagesMeetAndAgree`: the coordinator meets, and a member does; a package that comes twice, or says something else; one that comes early, and
one that never comes. -/
theorem test_meets_the_rendezvous :
    (meeting.ctx 0).walk = .meet 0x100 ∧ (domain.ctx 0).walk = .visit 0x100 ∧ (heard (.meet claims) meeting).fab.inbox = [(3, 0, .meet claims)] ∧
    (match (meeting.ctx 0).domain with
      | some d => d.coordinator == meeting.ctl.pkg && d.met.contains 0 && !d.met.contains 3 && claims.parts == d.parts && d.set.contains 3 &&
          d.set.all (d.met ++ [3]).contains && !(({ d with set := [0, 3, 7] } : Domain).set.all (d.met ++ [3]).contains) &&
          ({ claims with parts := [] } : Rendezvous).parts != d.parts && d.coordinator != 3
      | none => false) = true ∧
    (let s : State := { domain with clock := 2 ^ 32, fab := { domain.fab with arrivals := [(0, claims, 0)] } }
     (0, claims, 0) ∈ s.fab.arrivals ∧ 2 ^ 32 ≤ s.clock - 0) := by decide +kernel

/-- `PackagesMeetAndAgree`: before a vote, after all, against, as a member, and after the decision. -/
theorem test_meets_the_votes :
    ((domain.ctx 0).domainPhase.any fun p => domain.ended 0 p && !domain.leftOver 0 p && p.items.isEmpty && (anySets p.writes).isEmpty &&
      (landAll p.base [] p.writes).faults.isEmpty) = true ∧ (domain.ctx 0).cstate ≠ .halted ∧ domain.badSectors = [] ∧
    ((domain.ctx 0).domain.any fun d => d.set != [0] && d.votes.isEmpty && d.decided == none && !d.voted && !domain.allVoted 0 d && d.set.contains 3) =
      true ∧
    (heard (.vote 0 true) domain).fab.inbox = [(3, 0, .vote 0 true)] ∧
    (((voting [(0, true), (3, true)] none 0).ctx 0).domain.any fun d => d.voted && d.votes.all (·.2) && d.coordinator == 0 && d.set != [0]) = true ∧
    (((voting [(0, false), (3, true)] none 0).ctx 0).domain.any fun d => d.voted && !d.votes.all (·.2)) = true ∧
    (((voting [(0, true)] none 0).ctx 0).domain.any fun d => d.votes == [(0, true)]) = true ∧
    (((voting [(0, true)] none 0).ctx 0).domainPhase.any fun p => (voting [(0, true)] none 0).ended 0 p) = true ∧
    (let s := clashing
     ((s.ctx 0).domainPhase.any fun p => s.ended 0 p && !s.leftOver 0 p && p.items.isEmpty && (anySets p.writes).isEmpty &&
       !(landAll p.base [] p.writes).faults.isEmpty) = true) ∧
    (((voting [(3, true)] none 3).ctx 0).domain.any fun d => d.coordinator != 3 && d.votes.contains (3, true)) = true ∧
    (((voting [] (some true) 0).ctx 0).domain.any fun d => d.decided == some true && d.set.all d.done.contains) = true ∧
    (((voting [] (some false) 0).ctx 0).domain.any fun d => d.decided != some true) = true ∧
    (((voting [] (some true) 3).ctx 0).domain.any fun d => d.decided == some true && d.coordinator != 3) = true := by decide +kernel

/-! ## Decoding, the step, and the whole machine -/

/-- The placed machine whose team stands elsewhere. -/
def standsAt (pc : DWord) : State := teamIs fun t => { t with pc := pc }

/-- `IllegalWords`: LEN 11, an opcode that is free, one that is assigned with a wrong length, bit 15, and words of zeros; program counters that
are misaligned, 4 bytes before a boundary, beyond 2^52, in no page, and in a page that is not executable. -/
theorem test_meets_IllegalWords : 3 % 4 = 3 ∧ ¬ ((0x7FC : Nat) / 4 % 512 % 32 < [20, 32, 10, 20, 29, 6, 14, 7, 10, 10, 2].getD (0x7FC / 4 % 512 / 32) 0) ∧
    opLen 0x20 = 8 ∧ (0x0000402004032881 : Nat) % 4 = 1 ∧ (0x000040200403A880 : Nat).testBit 15 = true ∧
    ([2, 28, 2 ^ 52, 0x10000].all fun pc => (standsAt (BitVec.ofNat 64 pc)).runnable 0 && !(standsAt (BitVec.ofNat 64 pc)).busy 0) = true ∧
    (standsAt 0x10000).translate 0 0x10000 = .miss ∧
    base.runnable 0 = true ∧ base.busy 0 = false ∧ base.translate 0 0 = .leaf 0x50825 ∧ base.paOk (base.core 0).ctx 0x50825 (ptePa 0x50825 0) = true ∧
    base.farKnown 0 0x50825 (ptePa 0x50825 0) 1 = true ∧ base.badRead (.page 0x50825 (ptePa 0x50825 0)) 1 = none ∧
    pteX 0x50825 = true ∧ pteX 0x50821 = false ∧ pteScope 0x50825 ≠ 4 ∧ pteScope 0x50845 = 4 ∧
    wordLen (leNat (readBytes (base.baseOf 0) (base.devKey 0x50825 (ptePa 0x50825 0)) 1)) = 8 ∧
    (standsAt 24).translate 0 24 = .leaf 0x50825 ∧ (decode 1024 3).toOption = none := by decide +kernel
/-- R53: a word of 12 bytes at 24 crosses the boundary. -/
theorem test_crossing : (match step (let s := State.reset.placed (List.replicate 24 0 ++ [1]); s.putTm { s.tm with pc := 24 }) with
    | .next t => (t.die 0).fifo.map fun r => (r.eff, r.payload)
    | _ => []) = [(2, 0x1802)] := by decide +kernel
/-- R53: four bytes before a boundary, in no page. -/
theorem test_boundary_first : (match step (standsAt 0x1001C) with
    | .next t => (t.die 0).fifo.map fun r => (r.eff, r.payload)
    | _ => []) = [(2, 0x1001C02)] := by decide +kernel

/-- R53: the reason of LEN 11 in the payload of `e.ill`. -/
theorem test_illegal_word : (match step (State.reset.placed [3]) with
    | .next t => (t.die 0).fifo.map fun r => (r.eff, r.payload)
    | _ => []) = [(1, 1)] := by decide +kernel

/-- `StepRunsTheDecodedInstruction`: the add of Table 2-10 is fetched at 0; an event heads the agenda. -/
theorem test_meets_StepRunsTheDecodedInstruction :
    let s := State.reset.placed (wordBytes 64 0x0000402004032880)
    s.agenda = [.issue 0] ∧ s.runnable 0 = true ∧ s.busy 0 = false ∧
    s.farKnown 0 0x50825 (ptePa 0x50825 0) 1 = true ∧ s.badRead (.page 0x50825 (ptePa 0x50825 0)) 1 = none ∧
    (decode 1024 (leNat (readBytes (s.baseOf 0) (s.devKey 0x50825 (ptePa 0x50825 0)) 8))).toOption =
      some (.add { msk := 5, d := 3, a := 1, b := 2, fa := .i32, sat := false, om := 0 }) ∧
    (s.team 0).log.length = 0 ∧ isMemory (.ld ⟨0, 8, at2 0, .n32, .full⟩) = true ∧
    (let t : Team := { s.tm with log := List.replicate 16 { key := 3, stamp := 1, ltis := [0], addr := 0, op := .load 5 4 false } }
     16 ≤ t.log.length ∧ (s.putTm t).runnable 0 = true ∧ (s.putTm t).busy 0 = false) ∧
    (wordLen (s.mem.get unwritten (s.devKey 0x50825 (ptePa 0x50825 0))).toNat) = 8 ∧ Instr.pageWalk.isWord = false := by decide +kernel

/-- The step fetches and runs `sli.w2 s4, 0x1F_8000` of the worked example (05, R138). -/
theorem test_step_runs : (match step (State.reset.withFetchWord 64 0xFC000200000401BC) with
    | .next t => (t.tm.pc, t.tm.s[4], t.clock)
    | _ => (0, 0, 0)) = (8, 0x7E00000000000000, 1) := by decide +kernel

/-- `MemoryStaysCanonical`: the placed machine is canonical, and its next step answers a state. -/
theorem test_meets_MemoryStaysCanonical : base.canonical ∧ ∃ t, step base = .next t := by
  refine ⟨by unfold State.canonical; decide +kernel, ?_⟩
  cases h : step base with
  | next t => exact ⟨t, rfl⟩
  | fault => exact absurd (show (match step base with | .next _ => true | _ => false) = true by decide +kernel) (by rw [h]; simp)
  | refused => exact absurd (show (match step base with | .next _ => true | _ => false) = true by decide +kernel) (by rw [h]; simp)

/-- `MeasurementsStand`: an instruction that answers a state, and the report that moves the counter. -/
theorem test_meets_MeasurementsStand : (∃ t, exec .nop base = .next t) ∧
    (match exec (.attestReportDone true) { base with ctl := { base.ctl with requests := [(.host, [])] } } with
      | .next t => t.ctl.leaf
      | _ => 0) = 1 := by
  refine ⟨⟨_, rfl⟩, by decide +kernel⟩

/-- `MaskCounts`: a mask with two slots, and one with none. -/
theorem test_meets_MaskCounts : (let t := (four base.tm).setM 1 5
    (t.slotsOf (t.m[(1 : MReg)] &&& t.m[(0 : MReg)]), t.slotsOf (t.m[(2 : MReg)] &&& t.m[(0 : MReg)]))) = ([0, 2], []) := by decide +kernel

/-- `LoopCountsDown`: a counter of 0, of 1 and of 2, and a condition bit set. -/
theorem test_meets_LoopCountsDown : (let t := (uniform [(5, 1), (6, 2)] base.tm)
    (t.active 0, t.nonePending [] [5], t.s[4], t.s[5], t.s[6], ({ t with q := t.q.set 3 true } : Team).q[(3 : QReg)])) =
    (true, true, 0, 1, 2, true) := by decide +kernel

/-- `DecodeAndEncodeAgree`: a well-formed instruction of each word length, and their words. -/
theorem test_meets_DecodeAndEncodeAgree :
    (wf 1024 (.add { msk := 5, d := 3, a := 1, b := 2, fa := .i32, sat := false, om := 0 }) && wf 1024 .nop96 && wf 1024 .nop128) = true ∧
    (encode (.add { msk := 5, d := 3, a := 1, b := 2, fa := .i32, sat := false, om := 0 }), encode .nop96, encode .nop128) =
      (some 0x0000402004032880, some 1, some 2) := by decide +kernel

/-- Table 20-4: slice 3 has failed twice in context 1, slice 4 in two contexts. -/
theorem test_slice_removed : (((base.setDie 2 { DieSt.idle with sliceFails := [(3, 1), (4, 1), (3, 1), (4, 2)] }).restart).die 2).removed =
    [3] := by decide +kernel

end Sys2Proof.Tests
end

/-! The start, placement and end of groups (O44), and an abort that lets a held post go (O49). -/

namespace Sys2Proof

/-! ## Maps put end to end -/

theorem SMap.get_append {α : Type} (d : α) (m r : SMap α) (k : Nat) : SMap.get d (m ++ r) k = m.get (r.get d k) k := by
  induction m with
  | nil => rfl
  | cons e m ih => simp only [List.cons_append, SMap.get, ih]

theorem SMap.get_get {α : Type} (d : α) (m : SMap α) (k : Nat) : m.get (m.get d k) k = m.get d k := by
  induction m with
  | nil => rfl
  | cons e m ih => by_cases h : e.1 = k <;> simp [SMap.get, h, ih]

theorem SMap.get_of_lacks {α : Type} (d : α) (m : SMap α) (k : Nat) (h : m.lacks k) : m.get d k = d := by
  induction m with
  | nil => rfl
  | cons e m ih =>
    rw [SMap.get, if_neg (h e List.mem_cons_self), ih fun q hq => h q (List.mem_cons_of_mem _ hq)]

/-- The map moved up by an offset. -/
theorem SMap.get_shift {α : Type} (d : α) (m : SMap α) (a k : Nat) :
    SMap.get d (m.map fun b => (a + b.1, b.2)) (a + k) = m.get d k := by
  induction m with
  | nil => rfl
  | cons e m ih => simp only [List.map_cons, SMap.get, Nat.add_left_cancel_iff, ih]

theorem SMap.mem_ins {α : Type} {m : SMap α} {k : Nat} {v : α} {p : Nat × α} (h : p ∈ m.ins k v) : p = (k, v) ∨ p ∈ m := by
  induction m with
  | nil => simpa [SMap.ins] using h
  | cons e m ih =>
    unfold SMap.ins at h
    split at h
    · simpa using h
    · rcases List.mem_cons.1 h with rfl | h
      · simp
      · exact (ih h).imp_right (List.mem_cons_of_mem _)

theorem SMap.mem_del {α : Type} {m : SMap α} {k : Nat} {p : Nat × α} (h : p ∈ m.del k) : p ∈ m := by
  induction m with
  | nil => exact h
  | cons e m ih =>
    unfold SMap.del at h
    split at h
    · exact List.mem_cons_of_mem _ (ih h)
    · rcases List.mem_cons.1 h with rfl | h
      · simp
      · exact List.mem_cons_of_mem _ (ih h)

theorem SMap.key_of_mem_set {α : Type} [DecidableEq α] {d : α} {m : SMap α} {k : Nat} {v : α} {p : Nat × α}
    (h : p ∈ m.set d k v) : p.1 = k ∨ p ∈ m := by
  unfold SMap.set at h
  split at h
  · exact .inr (SMap.mem_del h)
  · exact (SMap.mem_ins h).imp (fun e => by rw [e]) SMap.mem_del

/-- The map of a function on the numbers below n. -/
theorem SMap.get_range_map {α : Type} (d : α) (f : Nat → α) (n i : Nat) :
    SMap.get d ((List.range n).map fun k => (k, f k)) i = if i < n then f i else d := by
  induction n generalizing d with
  | zero => rfl
  | succ n ih =>
    rw [List.range_succ, List.map_append, SMap.get_append, ih]
    simp only [List.map_cons, List.map_nil, SMap.get]
    by_cases h : n = i
    · simp [h]
    · simp [h, show i < n + 1 ↔ i < n by omega]

/-- Copies of a map side by side, one in each block of n keys. -/
theorem SMap.get_blocks {α : Type} (d : α) (n : Nat) (m : SMap α) (hm : ∀ p ∈ m, p.1 < n) (l : List Nat) (i k : Nat) (hk : k < n) :
    SMap.get d (l.flatMap fun j => m.map fun b => (j * n + b.1, b.2)) (i * n + k) = if i ∈ l then m.get d k else d := by
  induction l with
  | nil => rfl
  | cons j l ih =>
    rw [List.flatMap_cons, SMap.get_append, ih]
    by_cases h : i = j
    · subst h
      rw [SMap.get_shift]
      split <;> simp [SMap.get_get]
    · rw [SMap.get_of_lacks]
      · simp [h]
      · intro q hq
        obtain ⟨b, hb, rfl⟩ := List.mem_map.1 hq
        have hlt := hm b hb
        intro (e : j * n + b.1 = i * n + k)
        have hq : (j * n + b.1) / n = (i * n + k) / n := by rw [e]
        rw [Nat.mul_comm j, Nat.mul_comm i, Nat.mul_add_div (by omega), Nat.mul_add_div (by omega), Nat.div_eq_of_lt hlt,
          Nat.div_eq_of_lt hk] at hq
        omega

end Sys2Proof

namespace Sys2Proof.Machine

/-! ## What a run over a list keeps -/

theorem foldl_keeps {α β σ : Type} (q : σ → β) (f : σ → α → σ) (h : ∀ s a, q (f s a) = q s) (l : List α) (s : σ) :
    q (l.foldl f s) = q s := by
  induction l generalizing s with
  | nil => rfl
  | cons a l ih => rw [List.foldl_cons, ih, h]

/-! ## Phases -/

/-- The phases stand with their contexts, and with nothing else of the state. -/
theorem State.phaseOf_congr {s t : State} (x : CtxId) (n : BitVec 32) (h : (t.ctx x).phases = (s.ctx x).phases) :
    t.phaseOf x n = s.phaseOf x n := by rw [State.phaseOf, State.phaseOf, h]

theorem State.phases_setCtx (s : State) (k j : Nat) (c : Ctx) (h : c.phases = (s.ctx k).phases) :
    ((s.setCtx k c).ctx j).phases = (s.ctx j).phases := by
  by_cases hj : j = k
  · rw [hj, State.ctx_setCtx_same, h]
  · rw [State.ctx_setCtx_other _ _ _ _ hj]

section
variable (s : State) (x : CtxId) (n : BitVec 32)

theorem State.phaseOf_mapPhase (f : Phase → Phase) (hf : ∀ p, (f p).num = p.num) {p : Phase} (hp : s.phaseOf x n = some p) :
    (s.mapPhase x n f).phaseOf x n = some (f p) := by
  have hn : ∀ p : Phase, (if p.num == n then f p else p).num = p.num := fun p => by split <;> simp [hf]
  simp only [State.mapPhase, State.phaseOf, State.ctx_setCtx_same, List.find?_map, Function.comp_def, hn]
  rw [State.phaseOf] at hp
  rw [hp, Option.map_some, if_pos (List.find?_some hp)]

@[simp] theorem State.cluster_mapPhase (f : Phase → Phase) (k : Nat) : (s.mapPhase x n f).cluster k = s.cluster k := rfl

end

/-! ## Waiting groups and the status block -/

/-- `markWaits` writes the contexts' waiting times alone. -/
theorem State.markWaits_keeps {β : Type} (q : State → β)
    (h : ∀ (s : State) (x : CtxId) (r : Option Nat), q (s.setCtx x { s.ctx x with readySince := r }) = q s) (s : State) :
    q s.markWaits = q s := by
  refine foldl_keeps q _ (fun s p => ?_) _ _
  dsimp only
  rw [apply_ite q, h, ite_self]

@[simp] theorem State.cluster_markWaits (s : State) (k : Nat) : s.markWaits.cluster k = s.cluster k :=
  s.markWaits_keeps (fun s => s.cluster k) fun _ _ _ => rfl

@[simp] theorem State.phases_markWaits (s : State) (k : Nat) : (s.markWaits.ctx k).phases = (s.ctx k).phases :=
  s.markWaits_keeps (fun s => (s.ctx k).phases) fun s _ _ => s.phases_setCtx _ _ _ rfl

/-- The context save area stands in memory. -/
theorem State.saveCtx_keeps {β : Type} (q : State → β) (h : ∀ (s : State) (x : CtxId) (off : Nat) (v : DWord), q (s.csbWord x off v) = q s)
    (s : State) (x : CtxId) : q (s.saveCtx x) = q s := by
  unfold State.saveCtx
  dsimp only
  rw [foldl_keeps q _ fun _ _ => h .., foldl_keeps q _ fun _ _ => h .., h, h, h]

@[simp] theorem State.cluster_endDrain (s : State) (x : CtxId) (k : Nat) : (s.endDrain x).cluster k = s.cluster k := by
  unfold State.endDrain
  dsimp only
  split
  · rw [State.saveCtx_keeps (fun s => s.cluster k) fun _ _ _ _ => rfl, State.cluster_setCtx]
  · rfl

@[simp] theorem State.phases_endDrain (s : State) (x : CtxId) (k : Nat) : ((s.endDrain x).ctx k).phases = (s.ctx k).phases := by
  unfold State.endDrain
  dsimp only
  split
  · rw [State.saveCtx_keeps (fun s => (s.ctx k).phases) fun _ _ _ _ => rfl]
    exact s.phases_setCtx _ _ _ rfl
  · rfl

/-! ## A cluster without its group -/

@[simp] theorem State.phases_vacateCore (s : State) (core k : Nat) : ((s.vacateCore core).ctx k).phases = (s.ctx k).phases :=
  s.phases_setCtx _ _ _ rfl

@[simp] theorem State.phases_vacate (s : State) (cl k : Nat) : ((s.vacate cl).ctx k).phases = (s.ctx k).phases :=
  foldl_keeps (fun s : State => (s.ctx k).phases) _ (fun s c => s.phases_vacateCore c k) _ s

theorem State.grp_vacate (s : State) (cl : Nat) : ((s.vacate cl).cluster cl).grp = none := by
  simp [State.vacate]

/-! ## The first teams of a core group (R63, Table 3-3) -/

section
variable (l : Launch) (g : Group) (cg j : Nat)

theorem Launch.lti_teamAt (i : Nat) : (l.teamAt g cg j).lti i = if i < Nat.min l.team (l.nth - j * l.team)
    then BitVec.ofNat 64 (g.br.toNat * 2 ^ 56 + g.clg.toNat * 2 ^ 24 + cg * 2 ^ 21 + (j * l.team + i)) else BitVec.allOnes 64 :=
  SMap.get_range_map _ _ _ _

theorem Launch.live_teamAt (h : l.team ≤ 1024) (i : Nat) (hi : i < l.team) :
    (l.teamAt g cg j).m[(0 : MReg)].getLsbD i = true ↔ i < Nat.min l.team (l.nth - j * l.team) := by
  have low (n : Nat) : (BitVec.ofNat 1024 (2 ^ n - 1)).getLsbD i = decide (i < n) := by
    rw [BitVec.getLsbD_ofNat, Nat.testBit_two_pow_sub_one, decide_eq_true (by omega : i < 1024), Bool.true_and]
  have hm : (l.teamAt g cg j).m[(0 : MReg)] =
      BitVec.ofNat 1024 (2 ^ Nat.min l.team (l.nth - j * l.team) - 1) &&& BitVec.ofNat 1024 (2 ^ l.team - 1) :=
    Vector.getElem_set_self ..
  rw [hm, BitVec.getLsbD_and, low, low]
  simp [hi]

theorem Launch.masks_teamAt (q : MReg) (hq : q ≠ 0) : (l.teamAt g cg j).m[q] = 0 := by
  have h0 : (0 : MReg).val ≠ q.val := fun e => hq (Fin.ext e.symm)
  exact (Vector.getElem_set_ne (by omega) q.isLt h0).trans (Vector.getElem_replicate q.isLt)

theorem Launch.uniforms_teamAt (r : UReg) : (l.teamAt g cg j).s[r] = if r.val < 16 then l.args.getD r.val 0 else 0 := by
  simp [Launch.teamAt, Launch.fresh, Launch.uniforms]

end

/-! ## The start of a core group (R30, R63) -/

/-- The start of a core group writes its core and gives it teams. -/
theorem State.startCore_keeps {β : Type} (q : State → β) (core : Nat) (hc : ∀ (s : State) (c : CoreSt), q (s.setCore core c) = q s)
    (ht : ∀ (s : State) (k : Nat) (t : Team), q (s.setTeam k t) = q s) (s : State) (cg : Nat) (g : Group) :
    q (s.startCore core cg g) = q s := by
  unfold State.startCore
  dsimp only
  rw [foldl_keeps q, hc]
  intro s j
  split
  · rw [State.addTeam, ht, hc]
  · rfl

/-- What a core holds when core group `k` of a group begins on it, and kernel data `w` stands in its windows. -/
structure CoreSt.Begun (c : CoreSt) (w : KernelData) (g : Group) (k : Nat) : Prop where
  grp : c.grp = some g
  cg : c.cg = Fin.ofNat 6 k
  loc : c.loc = initial (2 ^ 21) w.loc
  exch : c.exch = initial (2 ^ 24) w.exch
  seeds : c.seeds = []
  priv : c.priv = (List.range g.l.nth).flatMap fun th => (initial (2 ^ 16) w.priv).map fun b => (th * 2 ^ 16 + b.1, b.2)

theorem CoreSt.begun_ages (c : CoreSt) (w : KernelData) (g : Group) (k n : Nat) :
    ({ c with ages := n } : CoreSt).Begun w g k ↔ c.Begun w g k :=
  ⟨fun ⟨hg, hk, hl, he, hs, hp⟩ => ⟨hg, hk, hl, he, hs, hp⟩, fun ⟨hg, hk, hl, he, hs, hp⟩ => ⟨hg, hk, hl, he, hs, hp⟩⟩

theorem State.begun_startCore (s : State) (core k : Nat) (g : Group) :
    ((s.startCore core k g).core core).Begun (s.loaded g.ctx g.l.code) g k := by
  unfold State.startCore
  dsimp only
  rw [foldl_keeps fun t : State => (t.core core).Begun (s.loaded g.ctx g.l.code) g k, State.core_setCore_same]
  · exact ⟨rfl, rfl, rfl, rfl, rfl, rfl⟩
  · intro t j
    split
    · rw [State.addTeam, State.core_setTeam, State.core_setCore_same, CoreSt.begun_ages]
    · rfl

theorem initial_lt (n : Nat) (l : List (Nat × Byte)) : ∀ p ∈ initial n l, p.1 < n := by
  refine List.foldlRecOn (motive := fun m : SMap Byte => ∀ p ∈ m, p.1 < n) _ _ (by simp) fun m hm b hb p hp => ?_
  rcases SMap.key_of_mem_set hp with h | h
  · simpa [h] using (List.mem_filter.1 hb).2
  · exact hm p h

/-- Each thread of the core group finds the kernel's data in its private window. -/
theorem CoreSt.Begun.get_priv {c : CoreSt} {w : KernelData} {g : Group} {k : Nat} (h : c.Begun w g k) (th o : Nat) (hth : th < g.l.nth)
    (ho : o < 2 ^ 16) : c.priv.get unwritten (th * 2 ^ 16 + o) = (initial (2 ^ 16) w.priv).get unwritten o := by
  rw [h.priv, SMap.get_blocks _ _ _ (initial_lt _ _) _ _ _ ho, if_pos (List.mem_range.2 hth)]

theorem State.loaded_congr {s t : State} (h : t.windows = s.windows) : t.loaded = s.loaded := by
  funext x code
  rw [State.loaded, State.loaded, h]

theorem State.loaded_none {s : State} {x : CtxId} {code : DWord} (h : ∀ w ∈ s.windows, w.1 ≠ x ∨ w.2.code ≠ code) :
    s.loaded x code = { code := code, loc := [], exch := [], priv := [] } := by
  have hf : (s.windows.find? fun w => w.1 == x && w.2.code == code) = none := by
    refine List.find?_eq_none.2 fun w hw => ?_
    rcases h w hw with h | h <;> simp [h]
  rw [State.loaded, hf]
  rfl

theorem coreIn_inj {cl k j : Nat} (h : coreIn cl k = coreIn cl j) : k = j := Nat.add_left_cancel h

/-- Core groups begin on the cores of a cluster one after another, each with what was loaded before the first. -/
theorem State.begun_startCores (s : State) (cl : Nat) (g : Group) (n k : Nat) (hk : k < n) :
    (((List.range n).foldl (fun s k => s.startCore (coreIn cl k) k g) s).core (coreIn cl k)).Begun (s.loaded g.ctx g.l.code) g k := by
  induction n with
  | zero => omega
  | succ n ih =>
    rw [List.range_succ, List.foldl_append, List.foldl_cons, List.foldl_nil]
    by_cases h : k = n
    · subst h
      have hw : ((List.range k).foldl (fun s k => s.startCore (coreIn cl k) k g) s).windows = s.windows :=
        foldl_keeps State.windows _ (fun t j => t.startCore_keeps State.windows _ (fun _ _ => rfl) (fun _ _ _ => rfl) j g) _ s
      rw [← State.loaded_congr hw]
      exact State.begun_startCore ..
    · rw [State.startCore_keeps (fun s => s.core (coreIn cl k)) (coreIn cl n)
        (fun t c => t.core_setCore_other _ _ c fun e => h (coreIn_inj e)) fun _ _ _ => rfl]
      exact ih (by omega)

theorem State.begun_startGroup (s : State) (cl k : Nat) (g : Group) (hk : k < g.l.ncg) :
    ((s.startGroup cl g).core (coreIn cl k)).Begun (s.loaded g.ctx g.l.code) g k :=
  State.begun_startCores (s.setCluster cl _) cl g _ k hk

/-- Beside its own cluster, a group that starts writes cores and teams only. -/
theorem State.startGroup_keeps {β : Type} (q : State → β) (hc : ∀ (s : State) (k : Nat) (c : CoreSt), q (s.setCore k c) = q s)
    (ht : ∀ (s : State) (k : Nat) (t : Team), q (s.setTeam k t) = q s) (s : State) (cl : Nat) (g : Group) :
    q (s.startGroup cl g) = q (s.setCluster cl { s.cluster cl with grp := some g, coming := false, told := false }) :=
  foldl_keeps q _ (fun s k => s.startCore_keeps q _ (fun s c => hc s _ c) ht k g) _ _

theorem State.comesTo_place (s : State) (l : NetNode) (cl : Nat) (g : Group) (pk : Packet) (hb : pk.body = .ctl (.place cl g))
    (hc : (s.cluster cl).coming = true) (hg : (s.cluster cl).grp = some g) : s.comesTo l pk = s.startGroup cl g := by
  simp [State.comesTo, hb, State.control, State.arriveGroup, hc, hg]

/-! ## Placement (R358, R390) -/

/-- The group takes its cluster, and its phase counts it; the order is not yet in the network. -/
def State.ordered (s : State) (x : CtxId) (num : BitVec 32) (cl : Nat) (g : Group) : State :=
  (s.mapPhase x num fun p => { p with running := p.running + 1 }).setCluster cl
    { s.cluster cl with grp := some g, coming := true, told := false }

section
variable {s : State} {x : CtxId} {num : BitVec 32} {p : Phase} (hp : s.phaseOf x num = some p)
include hp

theorem State.phaseOf_unqueue (d clg : Nat) (br : BitVec 8) :
    ∃ l, (s.unqueue x d (num, br, clg)).phaseOf x num = some { p with queues := l } :=
  ⟨_, State.phaseOf_mapPhase s x num _ (fun _ => by rfl) hp⟩

theorem State.phaseOf_ordered (cl : Nat) (g : Group) :
    (s.ordered x num cl g).phaseOf x num = some { p with running := p.running + 1 } :=
  State.phaseOf_mapPhase s x num _ (fun _ => by rfl) hp

theorem State.place_eq {b : Branch} {br : BitVec 8} (hb : (p.branches.find? fun b => b.br == br) = some b) (clg cl : Nat) :
    let g : Group := { ctx := x, phase := num, level := p.level, br := br, clg := BitVec.ofNat 32 clg, l := b.l }
    s.place x num br clg cl = ((s.ordered x num cl g).emitCtl ctlNode (leafOfCluster cl) x num (.place cl g)).markWaits := by
  simp only [State.place, hp, hb]
  rfl

/-- The order for a group leaves for its cluster, which is taken, and the phase counts one more group: `u` is the state at the order. -/
structure State.Orders (s : State) (x : CtxId) (num : BitVec 32) (p : Phase) (cl : Nat) (g : Group) (t u : State) : Prop where
  sent : t = (u.emitCtl ctlNode (leafOfCluster cl) x num (.place cl g)).markWaits
  cluster : u.cluster cl = { s.cluster cl with grp := some g, coming := true, told := false }
  net : u.net = s.net
  mem : u.mem = s.mem
  host : u.host = s.host
  phase : ∃ q, u.phaseOf x num = some q ∧ q.running = p.running + 1 ∧ q.branches = p.branches

/-- A group that leaves its queue is ordered to its cluster; until the order is sent, the control die's own state stands. -/
theorem State.orders_place {b : Branch} {br : BitVec 8} (hb : (p.branches.find? fun b => b.br == br) = some b) (d clg cl : Nat) :
    ∃ u, s.Orders x num p cl { ctx := x, phase := num, level := p.level, br := br, clg := BitVec.ofNat 32 clg, l := b.l }
      ((s.unqueue x d (num, br, clg)).place x num br clg cl) u ∧ u.ctl = s.ctl ∧ u.free = s.free := by
  obtain ⟨l, hl⟩ := State.phaseOf_unqueue hp d clg br
  exact ⟨_, ⟨State.place_eq hl hb clg cl, State.cluster_setCluster_same .., rfl, rfl, rfl, _, State.phaseOf_ordered hl .., rfl, rfl⟩,
    rfl, rfl⟩

end

section
variable (s : State) (d : DieId)

theorem exec_groupPlacement {x : CtxId} {r : Waiting} {cl : Nat} (hs : s.served d = some x) (hh : (s.ctx x).head d = some r)
    (hf : s.freeCluster x d = some cl) :
    exec (.groupPlacement d) s = .next ((State.unqueue { s with ctl := { s.ctl with
      turns := s.ctl.turns.set 0 (4 * d.val + (s.ctx x).prio.val) ((x.val + 1) % 64) } } x d r).place x r.1 r.2.1 r.2.2 cl) := by
  change execGroupPlacement d s = _
  simp only [execGroupPlacement, hs, hh, hf]

theorem exec_stealRequest {x : CtxId} {r : Waiting} {cl : Nat}
    (hs : ((List.finRange 64).find? fun (y : CtxId) => s.steals d y) = some x) (hf : s.freeCluster x d = some cl)
    (ht : (s.ctx x).tail ((d.val + 1 + Config.stealVictim s.free % 7) % 8) = some r) :
    exec (.stealRequest d) s =
      .next ((s.bump.unqueue x ((d.val + 1 + Config.stealVictim s.free % 7) % 8) r).place x r.1 r.2.1 r.2.2 cl) := by
  have hf' : s.bump.freeCluster x d = some cl := hf
  have ht' : (s.bump.ctx x).tail ((d.val + 1 + Config.stealVictim s.free % 7) % 8) = some r := ht
  change execStealRequest d s = _
  simp only [execStealRequest, hs, hf', ht']

end

/-! ## The end of a group (R192, R388, R418) -/

theorem exec_groupEnd {s : State} {cl : ClusterId} {g : Group} (hg : (s.cluster cl).grp = some g) (he : s.groupEnded cl = true) :
    exec (.groupEnd cl) s = .next ((s.setCluster cl { s.cluster cl with told := true }).emitCtl (leafOfCluster cl) ctlNode g.ctx g.phase
      (.ended cl g)) := by
  change execGroupEnd cl s = _
  simp only [execGroupEnd, hg, he, if_true]

theorem State.comesTo_ended (s : State) (l : NetNode) (cl : Nat) (g : Group) (pk : Packet) (hb : pk.body = .ctl (.ended cl g))
    (ht : (s.cluster cl).told = true) (hg : (s.cluster cl).grp = some g) : s.comesTo l pk = s.endGroup cl g := by
  simp [State.comesTo, hb, State.control, State.groupReported, ht, hg]

theorem State.grp_endGroup (s : State) (cl : Nat) (g : Group) : ((s.endGroup cl g).cluster cl).grp = none := by
  simp [State.endGroup, State.grp_vacate]

/-- The phase counts one group less, and has the exception flags of its cores. -/
theorem State.phaseOf_endGroup (s : State) (cl : Nat) (g : Group) (p : Phase) (hp : s.phaseOf g.ctx g.phase = some p) :
    (s.endGroup cl g).phaseOf g.ctx g.phase = some { p with
      running := p.running - 1
      psw := p.psw ||| (((s.groupCores cl).foldl (fun (f : BitVec 5) k => f ||| (s.core k).fsum) 0).setWidth 21 <<< 16) } := by
  have hv : (s.vacate cl).phaseOf g.ctx g.phase = some p := by rw [State.phaseOf_congr g.ctx g.phase (s.phases_vacate ..), hp]
  rw [State.endGroup, State.phaseOf_congr _ _ ((State.phases_markWaits ..).trans (State.phases_endDrain ..)),
    State.phaseOf_mapPhase (hp := hv)]
  exact fun _ => rfl

/-- Settles O44, part by part: the team by the registers of `teamAt`, a placed and a stolen group by `orders_place`, the start by what
every core of the cluster holds once its core group has begun, and the end by what `endGroup` keeps of the phases. -/
theorem groupsBegin : Obligations.GroupsBegin := by
  refine ⟨?team, ?order, ?start, ?bare, ?report, ?done⟩
  case team =>
    intro l g cg j hl _ t n
    refine ⟨l.live_teamAt g cg j hl, fun i hi => ?_, fun i hi => ?_, l.uniforms_teamAt g cg j, rfl, l.masks_teamAt g cg j⟩
    · rw [l.lti_teamAt g cg j i, if_pos hi]
    · rw [l.lti_teamAt g cg j i, if_neg (Nat.not_lt.2 hi)]
  case order =>
    intro s d x num br clg cl p b hp hb g ordered
    refine ⟨fun hs hh hf => ?_, fun hs hf ht => ?_⟩
    · obtain ⟨u, o, hctl, -⟩ := State.orders_place (s := { s with ctl := { s.ctl with
        turns := s.ctl.turns.set 0 (4 * d.val + (s.ctx x).prio.val) ((x.val + 1) % 64) } }) hp hb d clg cl
      refine ⟨u, ⟨?_, o.cluster, o.net, o.mem, o.host, o.phase⟩, ?_, fun k hk => ?_⟩
      · rw [exec_groupPlacement s d hs hh hf, o.sent]
      · rw [hctl, SMap.get_set_same]
      · rw [hctl, SMap.get_set_other _ _ _ _ _ hk]
    · obtain ⟨u, o, -, hfree⟩ := State.orders_place (s := s.bump) hp hb _ clg cl
      refine ⟨u, ⟨?_, o.cluster, o.net, o.mem, o.host, o.phase⟩, hfree⟩
      rw [exec_stealRequest s d hs hf ht, o.sent]
  case start =>
    intro s cl g pk hb hc hg w t
    have ht : t = s.startGroup cl g := s.comesTo_place _ cl g pk hb hc hg
    rw [ht]
    refine ⟨?_, ?_, ?_, fun k hk => ?_⟩
    · rw [State.startGroup_keeps (fun s => s.cluster cl) (fun _ _ _ => rfl) fun _ _ _ => rfl, State.cluster_setCluster_same, ← hg]
    · exact State.startGroup_keeps State.mem (fun _ _ _ => rfl) (fun _ _ _ => rfl) s cl g
    · exact State.startGroup_keeps State.host (fun _ _ _ => rfl) (fun _ _ _ => rfl) s cl g
    · have hk := s.begun_startGroup cl k g hk
      exact ⟨hk.grp, hk.cg, hk.loc, hk.exch, hk.seeds, hk.get_priv⟩
  case bare =>
    intro s x code h
    have hn : s.loaded x code = { code := code, loc := [], exch := [], priv := [] } := s.loaded_none h
    rw [hn]
    exact ⟨rfl, rfl, rfl⟩
  case report =>
    exact fun s cl g hg he => exec_groupEnd hg he
  case done =>
    intro s cl g p pk hb ht hg hp t
    have he : t = s.endGroup cl g := s.comesTo_ended _ cl g pk hb ht hg
    rw [he]
    exact ⟨s.grp_endGroup cl g, s.phaseOf_endGroup cl g p hp⟩

/-! ## An abort lets a held post go -/

/-- The group of context 0 and phase 1 that cluster 0 runs. -/
def abortedGroup : Group := { ctx := 0, phase := 1, level := .package, br := 0, clg := 0, l := Launch.none }

def abortedPhase : Phase :=
  { num := 1, base := [], known := [], spillAccs := [], spillLines := [], spillItems := 0, level := .package, die := none
    branches := [{ br := 0, l := Launch.none, ng := 1 }], queues := [], running := 1, writes := [], items := [], psw := 0, reads := [] }

/-- A store of thread 0 in the operand log of its team (R171). -/
def olderStore : LogE := { key := 0, stamp := 0, ltis := [0], addr := 0x10000, op := .store [1] .fault .none 1 1 }

/-- A later HOST-OUT store of the same thread. -/
def heldPost : Post := { seq := 2, ctx := 0, phase := 1, lti := 0, page := 3, off := 0, va := 0x30000, bytes := [9] }

/-- Context 0 runs; the page of the held post has its translation (R426), so that only the older store holds the post back (R164). -/
def postHeld : State :=
  { State.reset with
    posts := [heldPost]
    ctl := { Ctl.atReset with state := 5, ats := [(3, 7)] }
    ctxs := [(0, { Ctx.unset with cstate := .running, csb := 0x10000, walk := .visit 0x100, nextPhase := 2, phases := [abortedPhase] })]
    clusters := [(0, { ClusterSt.idle with grp := some abortedGroup })]
    cores := [(0, { CoreSt.idle with grp := some abortedGroup, ages := 1 })]
    teams := [(0, { Launch.none.teamAt abortedGroup 0 0 with log := [olderStore] })] }

/-- The post waits before the abort; the abort drops the store that held it back, and the post reaches host memory. -/
theorem cmdAbort_postHeld : postHeld.flow = postHeld ∧ (postHeld.cmdAbort 0).host = [(7 * 2 ^ 16, 9)] ∧ postHeld.host = [] := by
  decide +kernel

/-- Refutes O49: the statement has an abort leave host memory as it is. An abort discards the phases of the context, which drops the
accesses in the operand logs of their teams; a later HOST-OUT store of the same thread, which waited for one of them on the thread's
flow (R164), goes out then. -/
theorem not_contextCommands : ¬ Obligations.ContextCommands := by
  intro h
  obtain ⟨-, -, -, -, -, -, habort, -⟩ := h postHeld 0
  obtain ⟨t, ht, -, -, -, -, hhost, -⟩ := habort (by decide)
  have he : postHeld.cmdAbort 0 = t := Host.Outcome.next.inj ht
  obtain ⟨-, hafter, hbefore⟩ := cmdAbort_postHeld
  rw [← he, hafter, hbefore] at hhost
  exact List.cons_ne_nil _ _ hhost

end Sys2Proof.Machine

/-! The float group beside its arithmetic: what a per-slot instruction with exceptions does, signs, minima, compares and parts (O10),
and online softmax (O12). -/

namespace Sys2Proof.Machine

/-! ## Writes of one kind -/

/-- Slots that write no mask bit touch elements only. -/
theorem Team.writes_elements (l : List Nat) (g : Nat → Out) (h : ∀ i, (g i).bits = []) (t : Team) :
    (l.map fun i => (i, g i)).foldl (fun u o => u.write o.1 o.2) t
      = { t with v := ((l.map fun i => (i, g i)).foldl (fun u o => u.write o.1 o.2) t).v } := by
  induction l generalizing t with
  | nil => rfl
  | cons i l ih =>
    have hw : t.write i (g i) = { t with v := (t.write i (g i)).v } := by
      simp only [Team.write, h, List.foldl_nil]
      exact Team.vals_frame _ t i
    rw [List.map_cons, List.foldl_cons, ih, hw]

/-- Slots that write no element touch masks only. -/
theorem Team.writes_masks (l : List Nat) (g : Nat → Out) (h : ∀ i, (g i).vals = []) (t : Team) :
    (l.map fun i => (i, g i)).foldl (fun u o => u.write o.1 o.2) t
      = { t with m := ((l.map fun i => (i, g i)).foldl (fun u o => u.write o.1 o.2) t).m } := by
  induction l generalizing t with
  | nil => rfl
  | cons i l ih =>
    have hw : t.write i (g i) = { t with m := (t.write i (g i)).m } := by
      simp only [Team.write, h, List.foldl_nil]
      exact Team.bits_frame _ t i
    rw [List.map_cons, List.foldl_cons, ih, hw]

/-! ## The end of an instruction whose exceptions are not enabled -/

/-- `%fflags` with the exceptions of every lane added (R88). -/
def State.flagsWith (s : State) (msk : MReg) (fl : Nat → BitVec 6) : BitVec 5 :=
  (s.tm.lanes (s.tm.exec msk)).foldl (fun a i => a ||| (fl i).setWidth 5) s.tm.fflags

/-- The team with other flags. -/
def Team.withFlags (t : Team) (f : BitVec 5) : Team := { t with fflags := f }

/-- Lanes whose only effect could be an exception complete, where none is enabled to trap (R89): flags, tags, the writes of the lanes, and
the program counter. -/
theorem State.finish_noTrap (s : State) (len : Nat) (msk : MReg) (g : Nat → Out) (tags : List (VReg × Tag)) (dst : Dst)
    (always : Team → Team) (ha : s.tm.active msk = true) (heff : ∀ i, (g i).eff = none) (ht : s.noTrap msk fun i => (g i).fl) :
    s.finish { len := len, outs := (s.tm.lanes (s.tm.exec msk)).map fun i => (i, g i), tags := tags, dst := dst, always := always } =
      s.putTm { ((s.tm.lanes (s.tm.exec msk)).map fun i => (i, g i)).foldl (fun u o => u.write o.1 o.2)
          (always ((s.tm.withFlags (s.flagsWith msk fun i => (g i).fl)).tagged tags)) with
        pc := s.tm.pc + BitVec.ofNat 64 len, raised := [] } := by
  have hne : (s.tm.lanes (s.tm.exec msk)).map (fun i => (i, g i)) ≠ [] := fun e =>
    s.tm.lanes_ne_nil msk ha (List.map_eq_nil_iff.1 e)
  have hq : ∀ o ∈ (s.tm.lanes (s.tm.exec msk)).map (fun i => (i, g i)), o.2.effect s.tm.fen = none := by
    intro o ho
    obtain ⟨i, hi, rfl⟩ := List.mem_map.1 ho
    have hi : fpxTraps s.tm.fen (g i).fl = false := ht i ((Team.mem_lanes _ _ _).1 hi)
    simp [Out.effect, hi, heff]
  have hF : s.tm.fflags ||| orFlags ((s.tm.lanes (s.tm.exec msk)).map fun i => (i, g i))
      = s.flagsWith msk fun i => (g i).fl := by
    rw [foldl_orFlags, List.foldl_map, State.flagsWith]
  rw [State.finish_quiet s _ hne hq, Team.finish_quiet _ _ hne hq, ← hF]
  rfl

theorem State.lanes_lt (s : State) (x : MaskBits) : ∀ i ∈ s.tm.lanes x, i < 1024 := fun i hi =>
  Team.slotsOf_lt _ _ i ((Team.mem_lanes _ _ _).1 hi)

/-! ## The mould of the vector groups, with exceptions -/

/-- An instruction of the mould whose operands hold it up nowhere reaches its end with the results of its lanes. -/
theorem State.vop_goes (s : State) (len : Nat) (msk : MReg) (fa f : Tag) (acc : Tag → Bool) (d : VReg) (srcs raw : List VReg)
    (res : Tag → Tag) (g : Tag → Team → Nat → Out) (hs : srcs ≠ []) (hacc : acc f = true)
    (h : s.goes msk fa f srcs raw d (res f) = true) :
    s.vop len msk fa acc d srcs raw res g = s.finish
      { len := len, outs := (s.tm.lanes (s.tm.exec msk)).map fun i => (i, g f s.tm i), tags := [(d, res f)],
        dst := .vec d (res f).pair } := by
  obtain ⟨ha, hn, ht, hd, hp⟩ := State.goes_parts h
  have hchk : ((s.tm.tagCheck fa false acc (srcs.map (·.val))).bind fun f => (pairDest s.vregs (res f) d).map fun _ => f) = .ok f := by
    rw [Team.tagCheck_typed _ _ _ _ _ hs hn hacc ht]
    show ((pairDest s.vregs (res f) d).map fun _ => f) = .ok f
    rw [pairDest_fits _ _ _ hd]
    rfl
  have hreads : ∀ r ∈ VRefs.regs ((srcs.map fun r => (r.val, f.pair)) ++ raw.map fun r => (r.val, false)),
      r ∈ srcs.flatMap (fun r => span f.pair r.val) ++ raw.map (·.val) ++ span (res f).pair d.val := by
    intro r hr
    rw [regs_append, regs_refs, regs_raw] at hr
    exact List.mem_append_left _ hr
  have hwrites : ∀ r ∈ VRefs.regs [(d.val, (res f).pair)],
      r ∈ srcs.flatMap (fun r => span f.pair r.val) ++ raw.map (·.val) ++ span (res f).pair d.val := by
    intro r hr
    simp only [VRefs.regs, List.flatMap_cons, List.flatMap_nil, List.append_nil] at hr
    exact List.mem_append_right _ hr
  unfold State.vop State.perSlot
  rw [State.guarded_go s len msk _ _ _ _ _ f _ [] ha hchk hp hreads hwrites fun _ h => h]

/-- R88: an instruction of the mould each slot of which has a result and exceptions, none enabled to trap, has run. -/
theorem State.vop_floatRan (s : State) (len : Nat) (msk : MReg) (fa f : Tag) (acc : Tag → Bool) (d : VReg) (srcs raw : List VReg)
    (res : Tag → Tag) (g : Tag → Team → Nat → Out) (val : Nat → DWord) (fl : Nat → BitVec 6) (hs : srcs ≠ []) (hacc : acc f = true)
    (h : s.goes msk fa f srcs raw d (res f) = true) (ht : s.noTrap msk fl)
    (hg : ∀ i, g f s.tm i = { fl := fl i, vals := words d (res f).pair (val i) }) :
    s.floatRan (s.vop len msk fa acc d srcs raw res g) len (s.tm.exec msk) d (res f) val fl := by
  obtain ⟨ha, -, -, hd, -⟩ := State.goes_parts h
  rw [State.vop_goes s len msk fa f acc d srcs raw res g hs hacc h]
  exact State.finish_floatRan s len msk d (res f) _ (fun i => g f s.tm i) val fl ha hd (State.goes_dest h) ht hg

/-! ## Packed results, bit by bit -/

/-- The elements of a float format fill its bits: one of them, or two of 16 bits. -/
theorem elements_of_floatFormats : ∀ f ∈ floatFormats,
    elemCount f = 1 ∧ (elemOf f).bits = f.width ∨ elemCount f = 2 ∧ (elemOf f).bits = 16 ∧ f.width = 32 := by
  decide

theorem ieeeOf_width : ∀ f ∈ floatFormats, (ieeeOf f).width = (elemOf f).bits := by decide

theorem elemBits_pos : ∀ f ∈ floatFormats, 0 < (elemOf f).bits := by decide

/-- The sign bit of each element is its highest. -/
theorem getLsbD_signBits : ∀ f ∈ floatFormats, ∀ k < f.width,
    (signBits f).getLsbD k = decide (k % (elemOf f).bits + 1 = (elemOf f).bits) := by
  decide

theorem width_le_64 (f : Tag) : f.width ≤ 64 := by
  unfold Tag.width
  split <;> decide

theorem testBit_getElem' (f : Tag) (x : DWord) (k j : Nat) :
    (getElem' f x k).testBit j = (decide (j < (elemOf f).bits) && x.getLsbD ((elemOf f).bits * k + j)) := by
  rw [getElem', Nat.testBit_mod_two_pow, Nat.testBit_div_two_pow, Nat.add_comm, BitVec.getLsbD]

/-- The bits that a destination takes decide its value. -/
theorem takes_ext {f : Tag} {x y : DWord} (h : ∀ k < f.width, x.getLsbD k = y.getLsbD k) : takes f x = takes f y := by
  refine takes_eq f x y (Nat.eq_of_testBit_eq fun k => ?_)
  rw [Nat.testBit_mod_two_pow, Nat.testBit_mod_two_pow]
  by_cases hk : k < f.width
  · rw [show x.toNat.testBit k = y.toNat.testBit k from h k hk]
  · simp [hk]

/-- A packed result of one element. -/
theorem packed_one {f : Tag} (h : elemCount f = 1) (g : Nat → FRes) :
    packed f g = (BitVec.ofNat 64 ((g 0).1 % 2 ^ (elemOf f).bits), (g 0).2) := by
  simp [packed, h, List.range_succ, putElem]

/-- A packed result of two elements. -/
theorem packed_two {f : Tag} (h : elemCount f = 2) (hb : (elemOf f).bits = 16) (g : Nat → FRes) :
    packed f g = (BitVec.ofNat 64 (2 ^ 16 * ((g 1).1 % 2 ^ 16) + (g 0).1 % 2 ^ 16), (g 0).2 ||| (g 1).2) := by
  simp only [packed, h, hb, putElem, List.range_succ, List.range_zero, List.nil_append, List.cons_append, List.foldl_cons,
    List.foldl_nil]
  refine Prod.ext (BitVec.eq_of_toNat_eq ?_) (congrArg (· ||| (g 1).2) BitVec.zero_or)
  simp only [BitVec.toNat_ofNat, BitVec.ofNat_eq_ofNat]
  omega

/-- Bit k of a packed result is a bit of the element that it lies in. -/
theorem getLsbD_packed {f : Tag} (hf : f ∈ floatFormats) (g : Nat → FRes) (k : Nat) (hk : k < f.width) :
    (packed f g).1.getLsbD k = (g (k / (elemOf f).bits)).1.testBit (k % (elemOf f).bits) := by
  have h64 : k < 64 := Nat.lt_of_lt_of_le hk (width_le_64 f)
  rcases elements_of_floatFormats f hf with ⟨hc, hb⟩ | ⟨hc, hb, hw⟩
  · rw [packed_one hc, hb, Nat.div_eq_of_lt hk, Nat.mod_eq_of_lt hk, BitVec.getLsbD_ofNat, Nat.testBit_mod_two_pow,
      decide_eq_true h64, decide_eq_true hk, Bool.true_and, Bool.true_and]
  · rw [packed_two hc hb, hb, BitVec.getLsbD_ofNat, Nat.testBit_two_pow_mul_add _ (Nat.mod_lt _ (by omega)),
      Nat.testBit_mod_two_pow, Nat.testBit_mod_two_pow]
    by_cases h : k < 16
    · rw [if_pos h, Nat.div_eq_of_lt h, Nat.mod_eq_of_lt h, decide_eq_true h64, decide_eq_true h, Bool.true_and, Bool.true_and]
    · have h1 : k / 16 = 1 := by omega
      have h2 : k % 16 = k - 16 := by omega
      have h3 : k - 16 < 16 := by omega
      rw [if_neg h, h1, h2, decide_eq_true h64, decide_eq_true h3, Bool.true_and, Bool.true_and]

/-- A packed result without exceptions in any element has none. -/
theorem packed_flags_zero {f : Tag} (hf : f ∈ floatFormats) (p : Nat → Nat) : (packed f fun k => (p k, 0)).2 = 0 := by
  rcases elements_of_floatFormats f hf with ⟨hc, -⟩ | ⟨hc, hb, -⟩
  · rw [packed_one hc]
  · rw [packed_two hc hb]
    exact BitVec.or_self

/-- Bit k of a register is a bit of the element that it lies in. -/
theorem Team.testBit_el {f : Tag} (hf : f ∈ floatFormats) (t : Team) (r i k : Nat) :
    (t.el f r i (k / (elemOf f).bits)).testBit (k % (elemOf f).bits) = (t.rdTag f r i).getLsbD k := by
  rw [Team.el, testBit_getElem', Nat.div_add_mod, decide_eq_true (Nat.mod_lt k (elemBits_pos f hf)), Bool.true_and]

/-! ## Signs of elements (R144) -/

/-- Bits of a pattern of w bits whose sign bit is cleared. -/
theorem testBit_abs {w j : Nat} (a : Nat) (hj : j < w) :
    (a % 2 ^ (w - 1)).testBit j = (a.testBit j && !decide (j + 1 = w)) := by
  rw [Nat.testBit_mod_two_pow, Bool.and_comm, ← decide_not]
  congr 2
  apply propext
  omega

/-- Bits of a pattern of w bits whose sign bit is inverted. -/
theorem testBit_neg {w j : Nat} (a : Nat) (hj : j < w) :
    ((a + 2 ^ (w - 1)) % 2 ^ w).testBit j = (a.testBit j ^^ decide (j + 1 = w)) := by
  rw [Nat.testBit_mod_two_pow, decide_eq_true hj, Bool.true_and, Nat.add_comm]
  by_cases h : j + 1 = w
  · obtain rfl : j = w - 1 := by omega
    rw [Nat.testBit_two_pow_add_eq, decide_eq_true h, Bool.xor_true]
  · rw [Nat.testBit_two_pow_add_gt (by omega), decide_eq_false h, Bool.xor_false]

/-- Bits of a pattern of w bits that takes the sign bit of another. -/
theorem testBit_copySign {w j : Nat} (a b : Nat) (hj : j < w) :
    (a % 2 ^ (w - 1) + b / 2 ^ (w - 1) % 2 * 2 ^ (w - 1)).testBit j = if j + 1 = w then b.testBit j else a.testBit j := by
  rw [Nat.add_comm, Nat.mul_comm, Nat.testBit_two_pow_mul_add _ (Nat.mod_lt _ (Nat.two_pow_pos _))]
  by_cases h : j + 1 = w
  · obtain rfl : j = w - 1 := by omega
    rw [if_neg (Nat.lt_irrefl _), Nat.sub_self, if_pos h, ← Nat.toNat_testBit, Nat.testBit_zero]
    cases b.testBit (w - 1) <;> rfl
  · have hlt : j < w - 1 := by omega
    rw [if_pos hlt, if_neg h, Nat.testBit_mod_two_pow, decide_eq_true hlt, Bool.true_and]

section
variable {f : Tag} (hf : f ∈ floatFormats) (t : Team) (a b i : Nat)
include hf

theorem takes_abs : takes f (packed f fun k => (t.el f a i k % 2 ^ ((ieeeOf f).width - 1), 0)).1 =
    takes f (t.rdTag f a i &&& ~~~signBits f) := by
  refine takes_ext fun k hk => ?_
  rw [getLsbD_packed hf _ k hk, ieeeOf_width f hf, testBit_abs _ (Nat.mod_lt k (elemBits_pos f hf)), Team.testBit_el hf,
    BitVec.getLsbD_and, BitVec.getLsbD_not, getLsbD_signBits f hf k hk, decide_eq_true (Nat.lt_of_lt_of_le hk (width_le_64 f)), Bool.true_and]

theorem takes_neg : takes f (packed f fun k => ((t.el f a i k + 2 ^ ((ieeeOf f).width - 1)) % 2 ^ (ieeeOf f).width, 0)).1 =
    takes f (t.rdTag f a i ^^^ signBits f) := by
  refine takes_ext fun k hk => ?_
  rw [getLsbD_packed hf _ k hk, ieeeOf_width f hf, testBit_neg _ (Nat.mod_lt k (elemBits_pos f hf)), Team.testBit_el hf,
    BitVec.getLsbD_xor, getLsbD_signBits f hf k hk]

theorem takes_copySign : takes f (packed f fun k =>
      let h := 2 ^ ((ieeeOf f).width - 1)
      (t.el f a i k % h + t.el f b i k / h % 2 * h, 0)).1 =
    takes f ((t.rdTag f a i &&& ~~~signBits f) ||| (t.rdTag f b i &&& signBits f)) := by
  refine takes_ext fun k hk => ?_
  rw [getLsbD_packed hf _ k hk, ieeeOf_width f hf, testBit_copySign _ _ (Nat.mod_lt k (elemBits_pos f hf)), Team.testBit_el hf,
    Team.testBit_el hf, BitVec.getLsbD_or, BitVec.getLsbD_and, BitVec.getLsbD_and, BitVec.getLsbD_not, getLsbD_signBits f hf k hk]
  have h64 : k < 64 := Nat.lt_of_lt_of_le hk (width_le_64 f)
  by_cases h : k % (elemOf f).bits + 1 = (elemOf f).bits <;> simp [h, h64]

end

/-! ## Compares (R125, R146) -/

theorem getLsbD_maskOf (l : List Nat) (j : Nat) : (maskOf l).getLsbD j = (decide (j < 1024) && decide (j ∈ l)) := by
  have key (l : List Nat) (m : MaskBits) : (l.foldl (fun m i => m ||| oneBit i) m).getLsbD j =
      (m.getLsbD j || (decide (j < 1024) && decide (j ∈ l))) := by
    induction l generalizing m with
    | nil => simp
    | cons i l ih =>
      rw [List.foldl_cons, ih, BitVec.getLsbD_or, getLsbD_oneBit, Bool.or_assoc, ← Bool.and_or_distrib_left]
      simp [eq_comm]
  simpa [maskOf] using key l 0

theorem Team.m_setM_other (t : Team) (d q : MReg) (x : MaskBits) (h : q ≠ d) : (t.setM d x).m[q] = t.m[q] := by
  have : d.val ≠ q.val := fun e => h (Fin.ext e.symm)
  simp [Team.setM, this]

/-- The team of a compare before its slots write: a `.z` form clears the bits of the other slots (R125). -/
def Team.cleared (t : Team) (z : Bool) (l : List Nat) (d : MReg) : Team := if z then t.clearOutside (maskOf l) d else t

theorem Team.cleared_withFlags (t : Team) (f : BitVec 5) (z : Bool) (l : List Nat) (d : MReg) :
    ((t.withFlags f).tagged []).cleared z l d = { t with fflags := f, m := (t.cleared z l d).m } := by
  cases z <;> rfl

theorem Team.cleared_m_other (t : Team) (z : Bool) (l : List Nat) (d q : MReg) (h : q ≠ d) : (t.cleared z l d).m[q] = t.m[q] := by
  cases z
  · rfl
  · exact t.m_setM_other d q _ h

theorem Team.getLsbD_cleared (t : Team) (z : Bool) (l : List Nat) (d : MReg) (j : Nat) (hl : j ∉ l) :
    (t.cleared z l d).m[d].getLsbD j = (!z && t.m[d].getLsbD j) := by
  cases z
  · rfl
  · show (t.setM d (t.m[d] &&& maskOf l)).m[d].getLsbD j = _
    rw [Team.getLsbD_setM, if_pos rfl, BitVec.getLsbD_and, getLsbD_maskOf, decide_eq_false hl]
    simp

/-- A compare whose operands hold it up nowhere reaches its end with the bits of its lanes. -/
theorem State.cmpTo_goes (s : State) (len : Nat) (msk d : MReg) (a b : VReg) (fa f : Tag) (acc : Tag → Bool) (z : Bool)
    (g : Tag → Team → Nat → Out) (hn : f ≠ .none) (hacc : acc f = true) (ha : s.tm.active msk = true)
    (ht : s.tm.typed fa f [a, b] = true) (hp : s.tm.nonePending ([a, b].flatMap fun r => span f.pair r.val) [] = true) :
    s.cmpTo len msk d a b fa acc z g = s.finish
      { len := len, outs := (s.tm.lanes (s.tm.exec msk)).map fun i => (i, g f s.tm i), dst := .mask d,
        always := fun t => t.cleared z (s.tm.lanes (s.tm.exec msk)) d } := by
  have hchk : s.tm.tagCheck fa false acc [a.val, b.val] = .ok f :=
    Team.tagCheck_typed _ _ _ _ [a, b] (List.cons_ne_nil _ _) hn hacc ht
  have hreads : ∀ r ∈ VRefs.regs [(a.val, f.pair), (b.val, f.pair)], r ∈ [a, b].flatMap fun r => span f.pair r.val := by
    rw [← regs_refs]
    exact fun _ h => h
  unfold State.cmpTo State.perSlot
  exact State.guarded_go s len msk _ _ _ _ _ f _ [] ha hchk hp hreads (fun r hr => absurd hr List.not_mem_nil) fun _ h => h

/-- R125, R146: a compare whose slots have bits and exceptions, none enabled to trap, has run. -/
theorem State.cmpTo_ran (s : State) (len : Nat) (msk d : MReg) (a b : VReg) (fa f : Tag) (acc : Tag → Bool) (z : Bool)
    (g : Tag → Team → Nat → Out) (r : Nat → Bool × BitVec 6) (hn : f ≠ .none) (hacc : acc f = true) (hd : d ≠ 0)
    (ha : s.tm.active msk = true) (ht : s.tm.typed fa f [a, b] = true)
    (hp : s.tm.nonePending ([a, b].flatMap fun r => span f.pair r.val) [] = true) (htr : s.noTrap msk fun i => (r i).2)
    (hg : ∀ i, g f s.tm i = { fl := (r i).2, bits := [(d, (r i).1)] }) :
    ∃ u : Team, s.cmpTo len msk d a b fa acc z g = s.putTm u ∧
      u = { s.tm with pc := s.tm.pc + BitVec.ofNat 64 len, m := u.m, fflags := u.fflags, raised := [] } ∧
      u.fflags = (s.tm.lanes (s.tm.exec msk)).foldl (fun a i => a ||| (r i).2.setWidth 5) s.tm.fflags ∧
      (∀ q : MReg, q ≠ d → u.m[q] = s.tm.m[q]) ∧
      ∀ i, i < s.tm.cap → u.m[d].getLsbD i =
        if i ∈ s.tm.slotsOf (s.tm.exec msk) then (r i).1 else !z && s.tm.m[d].getLsbD i := by
  have hbits (i : Nat) : (g f s.tm i).bits = maskBit d (r i).1 := by
    rw [hg]
    exact (if_neg fun e : d.val = 0 => hd (Fin.ext e)).symm
  have hfl : (fun i => (g f s.tm i).fl) = fun i => (r i).2 := funext fun i => by rw [hg]
  rw [State.cmpTo_goes s len msk d a b fa f acc z g hn hacc ha ht hp,
    State.finish_noTrap s len msk (g f s.tm) _ _ _ ha (fun i => by rw [hg]) (by rwa [hfl]), hfl]
  generalize hF : s.flagsWith msk (fun i => (r i).2) = F
  rw [Team.cleared_withFlags, Team.writes_masks _ _ fun i => by rw [hg]]
  have hm := Team.m_writes _ _ d (fun i => (r i).1) hbits (s.lanes_lt (s.tm.exec msk))
    { s.tm with fflags := F, m := (s.tm.cleared z (s.tm.lanes (s.tm.exec msk)) d).m } d
  have ho := Team.m_writes_other (s.tm.lanes (s.tm.exec msk)) _ d (fun i => (r i).1) hbits
    { s.tm with fflags := F, m := (s.tm.cleared z (s.tm.lanes (s.tm.exec msk)) d).m }
  refine ⟨_, rfl, rfl, hF.symm, fun q hq => (ho q (.inl hq)).trans (Team.cleared_m_other _ _ _ _ _ hq), fun i hi =>
    (hm i hi).trans ?_⟩
  by_cases hl : i ∈ s.tm.slotsOf (s.tm.exec msk)
  · rw [if_pos ⟨rfl, hd, (Team.mem_lanes _ _ _).2 hl⟩, if_pos hl]
  · rw [if_neg fun e => hl ((Team.mem_lanes _ _ _).1 e.2.2), if_neg hl]
    exact Team.getLsbD_cleared _ _ _ _ _ fun e => hl ((Team.mem_lanes _ _ _).1 e)

/-! ## Signs, minima, compares and parts (R144 to R150) -/

theorem isFlt4_of_mem : ∀ f ∈ floatFormats, isFlt4 f = true := by decide

theorem floatFormats_ne_none : ∀ f ∈ floatFormats, f ≠ .none := by decide

theorem isFlt2_of_mem : ∀ f ∈ [Tag.f32, Tag.f64], isFlt2 f = true := by decide

theorem elemCount_eq_two (f : Tag) : elemCount f = 2 ↔ f = .bf16x2 ∨ f = .f16x2 := by cases f <;> decide

/-- The one word of a 32-bit result. -/
theorem words_ofNat (d : VReg) (n : Nat) : words d false (BitVec.ofNat 64 n) = [(d.val, BitVec.ofNat 32 n)] := by
  rw [words, if_neg Bool.false_ne_true, BitVec.setWidth_ofNat_of_le (by omega)]

/-- R144: an instruction that replaces the patterns of elements, without exceptions, has run. -/
theorem State.vop_patterns (s : State) (msk : MReg) (fa f : Tag) (d : VReg) (srcs : List VReg) (g : Tag → Team → Nat → Out)
    (p : Nat → Nat → Nat) (val : Nat → DWord) (hs : srcs ≠ []) (hf : f ∈ floatFormats) (h : s.goes msk fa f srcs [] d f = true)
    (hg : ∀ i, g f s.tm i = fltOut f d fun k => (p i k, 0)) (hv : ∀ i, takes f (packed f fun k => (p i k, 0)).1 = takes f (val i)) :
    s.vectorRan (s.vop 8 msk fa isFlt4 d srcs [] id g) 8 (s.tm.exec msk) d f val 0 fun _ => false := by
  refine State.vectorRan_congr (val := fun i => (packed f fun k => (p i k, 0)).1) (bit := fun _ => false)
    (State.vop_ran s 8 msk fa f isFlt4 d srcs [] id g _ 0 _ hs (isFlt4_of_mem f hf) h fun i _ => ?_) (fun i _ => hv i) fun _ _ _ => rfl
  rw [hg, fltOut, packed_flags_zero hf]
  rfl

theorem exec_fabs_fneg_ran (o : VUn) (s : State) (f : Tag) (hf : f ∈ floatFormats) (h : s.goes o.msk o.fa f [o.a] [] o.d f = true) :
    (∃ s', exec (.fabs o) s = .next s' ∧
      s.vectorRan s' 8 (s.tm.exec o.msk) o.d f (fun i => s.tm.rdTag f o.a i &&& ~~~signBits f) 0 fun _ => false) ∧
    (∃ s', exec (.fneg o) s = .next s' ∧
      s.vectorRan s' 8 (s.tm.exec o.msk) o.d f (fun i => s.tm.rdTag f o.a i ^^^ signBits f) 0 fun _ => false) :=
  ⟨⟨_, rfl, s.vop_patterns o.msk o.fa f o.d [o.a] _ _ _ (List.cons_ne_nil _ _) hf h (fun _ => rfl) (takes_abs hf s.tm o.a)⟩,
    ⟨_, rfl, s.vop_patterns o.msk o.fa f o.d [o.a] _ _ _ (List.cons_ne_nil _ _) hf h (fun _ => rfl) (takes_neg hf s.tm o.a)⟩⟩

theorem exec_fcpsgn_ran (o : VBin) (s : State) (f : Tag) (hf : f ∈ floatFormats) (h : s.goes o.msk o.fa f [o.a, o.b] [] o.d f = true) :
    ∃ s', exec (.fcpsgn o) s = .next s' ∧
      s.vectorRan s' 8 (s.tm.exec o.msk) o.d f
        (fun i => (s.tm.rdTag f o.a i &&& ~~~signBits f) ||| (s.tm.rdTag f o.b i &&& signBits f)) 0 fun _ => false :=
  ⟨_, rfl, s.vop_patterns o.msk o.fa f o.d [o.a, o.b] _ _ _ (List.cons_ne_nil _ _) hf h (fun _ => rfl)
    (takes_copySign hf s.tm o.a o.b)⟩

/-- R147: the class bits of the elements, with tag N32. -/
theorem exec_fclass_ran (o : VUn) (s : State) (f : Tag) (hf : f ∈ floatFormats) (h : s.goes o.msk o.fa f [o.a] [] o.d .n32 = true) :
    ∃ s', exec (.fclass o) s = .next s' ∧
      s.vectorRan s' 8 (s.tm.exec o.msk) o.d .n32
        (fun i => BitVec.ofNat 64 (fClass (ieeeOf f) (s.tm.el f o.a i 0) +
          if f = .bf16x2 ∨ f = .f16x2 then fClass (ieeeOf f) (s.tm.el f o.a i 1) * 2 ^ 16 else 0)) 0 fun _ => false := by
  refine ⟨_, rfl, State.vop_ran s 8 o.msk o.fa f isFlt4 o.d [o.a] [] toN32 _ _ 0 _ (List.cons_ne_nil _ _) (isFlt4_of_mem f hf) h
    fun i _ => ?_⟩
  show _ = ({ vals := words o.d false _ } : Out)
  rw [words_ofNat]
  simp only [elemCount_eq_two]

/-- The formats that a compare accepts: of element 1, the packed ones (R146). -/
def fcmpFormats (el : Bool) (f : Tag) : Bool := if el then f == .bf16x2 || f == .f16x2 else isFlt4 f

theorem fcmpFormats_of_mem {f : Tag} (hf : f ∈ floatFormats) {el : Bool} (hel : el = true → f = .bf16x2 ∨ f = .f16x2) :
    fcmpFormats el f = true := by
  cases el with
  | false => exact isFlt4_of_mem f hf
  | true => simpa [fcmpFormats] using hel rfl

theorem exec_fcmp (o : FCmp) (s : State) :
    exec (.fcmp o) s = .next (s.cmpTo 8 o.msk o.d o.a o.b o.fa (fcmpFormats o.el) o.z fun f t i =>
      let r := fCompare o.cc (t.number f o.a i (if o.el then 1 else 0)) (t.number f o.b i (if o.el then 1 else 0))
      { fl := r.2, bits := [(o.d, r.1)] }) := rfl

/-- Settles O10: each instruction is the mould of its group with the function of its elements. -/
theorem floatSignsComparesAndParts : Obligations.FloatSignsComparesAndParts := by
  refine ⟨⟨exec_fabs_fneg_ran, exec_fcpsgn_ran, ?minMax⟩, ?compare, exec_fclass_ran, ?expo, ?integral, ?scale⟩
  case minMax =>
    intro p hp o s f hf h r ht
    simp only [List.mem_cons, List.not_mem_nil, or_false] at hp
    rcases hp with rfl | rfl <;>
      exact ⟨_, rfl, s.vop_floatRan 8 o.msk o.fa f isFlt4 o.d [o.a, o.b] [] id _ _ _ (List.cons_ne_nil _ _) (isFlt4_of_mem f hf) h
        ht fun _ => rfl⟩
  case compare =>
    intro o s f hf hel hd ha htyped hp r ht
    rw [exec_fcmp]
    simp only [Host.Outcome.next.injEq]
    exact s.cmpTo_ran 8 o.msk o.d o.a o.b o.fa f (fcmpFormats o.el) o.z _ r (floatFormats_ne_none f hf)
      (fcmpFormats_of_mem hf hel) hd ha htyped hp ht fun _ => rfl
  case expo =>
    intro o s f hf h r ht
    refine ⟨_, rfl, s.vop_floatRan 8 o.msk o.fa f isFlt2 o.d [o.a] [] (fun _ => .i32) _ _ _ (List.cons_ne_nil _ _)
      (isFlt2_of_mem f hf) h ht fun i => ?_⟩
    show _ = ({ fl := (r i).2, vals := words o.d false _ } : Out)
    rw [words_ofNat]
    rfl
  case integral =>
    intro o s f hf h r ht
    exact ⟨_, rfl, s.vop_floatRan 8 o.msk o.fa f isFlt4 o.d [o.a] [] id _ _ _ (List.cons_ne_nil _ _) (isFlt4_of_mem f hf) h ht
      fun _ => rfl⟩
  case scale =>
    intro o s f hf h r ht
    exact ⟨_, rfl, s.vop_floatRan 8 o.msk o.fa f isFlt2 o.d [o.a] [o.b] id _ _ _ (List.cons_ne_nil _ _) (isFlt2_of_mem f hf) h ht
      fun _ => rfl⟩

/-! ## Online softmax (R156, R157) -/

/-- The registers of the scores. -/
def scoreRegs (o : Smx) : List Nat := (List.range (o.n1.val + 1)).map fun j => o.b.val + j

/-- What one slot writes: its sum, then its maximum. -/
def smxOut (o : Smx) (r : Nat × Nat × BitVec 6) : Out :=
  { fl := r.2.2, vals := [(o.d.val, BitVec.ofNat 32 r.1), (o.a.val, BitVec.ofNat 32 r.2.1)] }

theorem regs_narrow (l : List Nat) : VRefs.regs (l.map fun r => (r, false)) = l := by
  simp [VRefs.regs, List.flatMap_map]

/-- Two destinations of 32 bits that hold no pair and are not pending take their tags, the second last. -/
theorem Team.tagged_two (t : Team) (d a : VReg) (f g : Tag) (hf : f.pair = false) (hg : g.pair = false)
    (hd : (t.tagOf d).pair = false) (ha : (t.tagOf a).pair = false) (pd : ∀ p ∈ t.pend, p.onV d = false)
    (pa : ∀ p ∈ t.pend, p.onV a = false) : t.tagged [(d, f), (a, g)] = (t.setTag1 d f).setTag1 a g := by
  simp [Team.tagged, Team.supersedeD, Team.unpair, Team.putTag, Team.supersedeV_none t _ pd, Team.supersedeV_none t _ pa,
    hf, hg, hd, ha]

/-- Operands that hold what the entry expects pass its check (R156). -/
theorem smxCheck_holds (t : Team) (o : Smx) (mt : Tag)
    (h : t.holds ((o.d.val, .f32) :: (o.a.val, mt) :: (scoreRegs o).map fun r => (r, .f32)) = true) : smxCheck t o mt = .ok .f32 := by
  have hn : ((o.d.val, Tag.f32) :: (o.a.val, mt) :: (List.range (o.n1 + 1)).map fun j => (o.b.val + j, Tag.f32)).find?
      (fun p => t.tagOf p.1 != .none && t.tagOf p.1 != p.2) = none := by
    rw [List.find?_eq_none]
    intro p hp
    have := List.all_eq_true.1 h p (by simpa [scoreRegs] using hp)
    simpa [bne, Decidable.or_iff_not_imp_left] using this
  simp only [smxCheck, hn]

/-- A register that holds none or a tag of 32 bits is no half of a pair. -/
theorem Team.holds_narrow {t : Team} {l : List (Nat × Tag)} (h : t.holds l = true) {r : Nat} {f : Tag} (hr : (r, f) ∈ l)
    (hf : f.pair = false) : (t.tagOf r).pair = false := by
  have := List.all_eq_true.1 h (r, f) hr
  simp only [Bool.or_eq_true, beq_iff_eq] at this
  rcases this with e | e
  · rw [e]; rfl
  · rw [e]; exact hf

/-- An online-softmax instruction that nothing holds up reaches its end with the results of its lanes. -/
theorem State.smx_goes (s : State) (o : Smx) (mt : Tag) (g : Team → Nat → Nat × Nat × BitVec 6) (ha : s.tm.active o.msk = true)
    (hh : s.tm.holds ((o.d.val, .f32) :: (o.a.val, mt) :: (scoreRegs o).map fun r => (r, .f32)) = true)
    (hp : s.tm.nonePending (o.d.val :: o.a.val :: scoreRegs o) [] = true) :
    s.smx o mt g = s.finish
      { len := 12, outs := (s.tm.lanes (s.tm.exec o.msk)).map fun i => (i, smxOut o (g s.tm i)),
        tags := [(o.d, .f32), (o.a, mt)], dst := .smx o.d o.a } := by
  have hreads : VRefs.regs ([(o.d.val, false), (o.a.val, false)] ++ (List.range (o.n1 + 1)).map fun j => (o.b.val + j, false)) =
      o.d.val :: o.a.val :: scoreRegs o := by
    rw [← regs_narrow (o.d.val :: o.a.val :: scoreRegs o)]
    simp [scoreRegs, Function.comp_def]
  unfold State.smx State.perSlot
  rw [State.guarded_go s 12 o.msk _ _ _ _ _ .f32 _ [] ha (smxCheck_holds _ _ _ hh) hp (fun r hr => hreads ▸ hr) (fun r hr => ?_)
    fun _ h => h]
  · rfl
  · simp only [VRefs.regs, List.flatMap_cons, List.flatMap_nil, Bool.false_eq_true, if_false, List.append_nil,
      List.singleton_append] at hr
    exact List.mem_of_mem_take (i := 2) hr

/-- The sum and the maximum of a team that nothing holds up take their tags. -/
theorem Team.tagged_smx (t : Team) (o : Smx) (mt : Tag) (f : BitVec 5) (hm : mt.pair = false)
    (hh : t.holds ((o.d.val, .f32) :: (o.a.val, mt) :: (scoreRegs o).map fun r => (r, .f32)) = true)
    (hp : t.nonePending (o.d.val :: o.a.val :: scoreRegs o) [] = true) :
    (t.withFlags f).tagged [(o.d, .f32), (o.a, mt)] = { t with fflags := f, tag := ((t.setTag1 o.d .f32).setTag1 o.a mt).tag } :=
  Team.tagged_two _ o.d o.a .f32 mt rfl hm
    (Team.holds_narrow hh (f := .f32) List.mem_cons_self rfl)
    (Team.holds_narrow hh (f := mt) (List.mem_cons_of_mem _ List.mem_cons_self) hm)
    (Team.onV_nonePending t _ _ hp _ List.mem_cons_self)
    (Team.onV_nonePending t _ _ hp _ (List.mem_cons_of_mem _ List.mem_cons_self))

/-- An element after the sums and maxima of several slots: in a register that is both, the maximum (log 60). -/
theorem Team.rd_smxOuts (t : Team) (o : Smx) (r : Nat → Nat × Nat × BitVec 6) (l : List Nat) (hl : ∀ i ∈ l, i < 1024) (q j : Nat)
    (hj : j < 1024) :
    ((l.map fun i => (i, smxOut o (r i))).foldl (fun u o => u.write o.1 o.2) t).rd q j =
      if j ∈ l then
        if q = o.a.val then BitVec.ofNat 32 (r j).2.1 else if q = o.d.val then BitVec.ofNat 32 (r j).1 else t.rd q j
      else t.rd q j := by
  rw [Team.rd_writes l (fun i => smxOut o (r i)) hl t q j hj]
  simp only [smxOut, lastWrite, List.foldl_cons, List.foldl_nil, eq_comm]

/-- R156, R157: an online-softmax instruction whose slots give new sums and maxima `g`, with exceptions not enabled to trap, has run. -/
theorem State.smx_ran (s : State) (o : Smx) (mt : Tag) (g : Team → Nat → Nat × Nat × BitVec 6) (hm : mt.pair = false)
    (ha : s.tm.active o.msk = true)
    (hh : s.tm.holds ((o.d.val, .f32) :: (o.a.val, mt) :: (scoreRegs o).map fun r => (r, .f32)) = true)
    (hp : s.tm.nonePending (o.d.val :: o.a.val :: scoreRegs o) [] = true) (ht : s.noTrap o.msk fun i => (g s.tm i).2.2) :
    ∃ u : Team, s.smx o mt g = s.putTm u ∧
      u = { s.tm with pc := s.tm.pc + 12, v := u.v, tag := u.tag, fflags := u.fflags, raised := [] } ∧
      u.fflags = (s.tm.lanes (s.tm.exec o.msk)).foldl (fun a i => a ||| (g s.tm i).2.2.setWidth 5) s.tm.fflags ∧
      (∀ i ∈ s.tm.slotsOf (s.tm.exec o.msk), u.rd o.a i = BitVec.ofNat 32 (g s.tm i).2.1 ∧
        (o.d ≠ o.a → u.rd o.d i = BitVec.ofNat 32 (g s.tm i).1)) ∧
      s.tm.keepsV u (s.tm.exec o.msk) [o.d.val, o.a.val] ∧ u.tagOf o.a = mt ∧ (o.d ≠ o.a → u.tagOf o.d = .f32) ∧
      ∀ q, q ≠ o.d.val → q ≠ o.a.val → u.tagOf q = s.tm.tagOf q := by
  have hne (h : o.d ≠ o.a) : o.d.val ≠ o.a.val := fun e => h (Fin.ext e)
  rw [State.smx_goes s o mt g ha hh hp, State.finish_noTrap s 12 o.msk (fun i => smxOut o (g s.tm i)) _ _ id ha (fun _ => rfl) ht, id,
    Team.tagged_smx s.tm o mt _ hm hh hp]
  generalize hF : s.flagsWith o.msk (fun i => (smxOut o (g s.tm i)).fl) = F
  have hrd := Team.rd_smxOuts { s.tm with fflags := F, tag := ((s.tm.setTag1 o.d .f32).setTag1 o.a mt).tag } o (g s.tm)
    (s.tm.lanes (s.tm.exec o.msk)) (s.lanes_lt _)
  rw [Team.writes_elements _ _ fun _ => rfl] at hrd ⊢
  refine ⟨_, rfl, rfl, hF.symm, fun i hi => ?_, fun q i hi h => (hrd q i hi).trans ?_, ?_, fun h => ?_, fun q h1 h2 => ?_⟩
  · have hl : i ∈ s.tm.lanes (s.tm.exec o.msk) := (Team.mem_lanes _ _ _).2 hi
    have hlt := s.lanes_lt _ i hl
    exact ⟨(hrd o.a i hlt).trans (by rw [if_pos hl, if_pos rfl]),
      fun h => (hrd o.d i hlt).trans (by rw [if_pos hl, if_neg (hne h), if_pos rfl])⟩
  · rcases h with hq | hl
    · simp only [List.mem_cons, List.not_mem_nil, or_false, not_or] at hq
      rw [if_neg hq.2, if_neg hq.1, ite_self]
      rfl
    · rw [if_neg fun e => hl ((Team.mem_lanes _ _ _).1 e)]
      rfl
  · exact Team.tagOf_setTag1_same _ _ _
  · exact (Team.tagOf_setTag1_other _ _ _ _ (hne h)).trans (Team.tagOf_setTag1_same _ _ _)
  · exact (Team.tagOf_setTag1_other _ _ _ _ h2).trans (Team.tagOf_setTag1_other _ _ _ _ h1)

/-- Settles O12: each form is the shared operation with its own sums and maxima. -/
theorem onlineSoftmax : Obligations.OnlineSoftmax := by
  intro p hp o s scores ha hh hpend r ht
  have hscores (i : Nat) : scores.map (fun q => (s.tm.rd q i).toNat) = scoresOf s.tm o i := by
    simp [scores, scoresOf, Function.comp_def]
  simp only [r, hscores] at ht ⊢
  simp only [List.mem_cons, List.not_mem_nil, or_false] at hp
  rcases hp with rfl | rfl
  · obtain ⟨u, hu, h⟩ := State.smx_ran s o .i32 (fun t i =>
      let r := smxiSlot o.b2 (t.rd o.d i).toNat (t.rd o.a i).toInt (scoresOf t o i)
      (r.1, (BitVec.ofInt 32 r.2.1).toNat, r.2.2)) rfl ha hh hpend ht
    exact ⟨u, congrArg Host.Outcome.next hu, h⟩
  · obtain ⟨u, hu, h⟩ := State.smx_ran s o .f32 (fun t i =>
      smxfSlot o.b2 (t.rd o.d i).toNat (t.rd o.a i).toNat (scoresOf t o i)) rfl ha hh hpend ht
    exact ⟨u, congrArg Host.Outcome.next hu, h⟩

end Sys2Proof.Machine
